-- ==== Sys2Proof/Word.lean ====
section
/-! DEFINITION. Words, masks, and sparse tables: the plain data every other file is written in. -/

namespace Sys2Proof

/-- A 32-bit register or instruction word (R83, R92). -/
abbrev Word := BitVec 32
/-- One byte of memory. -/
abbrev Byte := BitVec 8
/-- A 64-bit generic pointer, or a physical address (R142, R267). -/
abbrev Addr := BitVec 64
/-- One bit per lane of a wave, bit l for lane l (R21). -/
abbrev LaneMask := BitVec 96

/-- Bits `hi` to `lo` of `x`, as a number. -/
def bits (x hi lo : Nat) : Nat := (x >>> lo) % 2 ^ (hi + 1 - lo)

/-- Bit `i` of the number `x`. -/
def bit (x i : Nat) : Bool := (x >>> i) % 2 == 1

/-- A Bool as 0 or 1. -/
def b2n (b : Bool) : Nat := if b then 1 else 0

/-- The low half of a 64-bit value. -/
def lo32 (x : BitVec 64) : Word := BitVec.ofNat 32 x.toNat
/-- The high half of a 64-bit value. -/
def hi32 (x : BitVec 64) : Word := BitVec.ofNat 32 (x.toNat >>> 32)
/-- A 64-bit value from its low and high words (R93). -/
def pair64 (lo hi : Word) : BitVec 64 := hi ++ lo

/-! A table is a list of key and value pairs. `Tab.put` keeps the keys rising, so that equal tables are equal lists. -/

/-- The value under key `k`. -/
def Tab.get? {α : Type} : List (Nat × α) → Nat → Option α
  | [], _ => none
  | (a, v) :: t, k => if a = k then some v else Tab.get? t k

/-- Puts `v` under key `k`. -/
def Tab.put {α : Type} : List (Nat × α) → Nat → α → List (Nat × α)
  | [], k, v => [(k, v)]
  | (a, w) :: t, k, v =>
    if k < a then (k, v) :: (a, w) :: t
    else if a = k then (k, v) :: t
    else (a, w) :: Tab.put t k v

/-- Removes key `k`. -/
def Tab.del {α : Type} : List (Nat × α) → Nat → List (Nat × α)
  | [], _ => []
  | (a, w) :: t, k => if a = k then Tab.del t k else (a, w) :: Tab.del t k

/-- The keys rise strictly. -/
def Tab.sorted {α : Type} : List (Nat × α) → Bool
  | [] => true
  | [_] => true
  | (a, _) :: (b, w) :: t => decide (a < b) && Tab.sorted ((b, w) :: t)

/-- The value under key `k` of a sparse table whose unlisted keys read as `d`. -/
def Sp.get {α : Type} (d : α) (m : List (Nat × α)) (k : Nat) : α := (Tab.get? m k).getD d

/-- Writes `v` under key `k` of a sparse table; the default value is not listed. -/
def Sp.set {α : Type} [DecidableEq α] (d : α) (m : List (Nat × α)) (k : Nat) (v : α) : List (Nat × α) :=
  if v = d then Tab.del m k else Tab.put m k v

/-- The canonical form of a sparse table: keys strictly rising, and no entry equal to the default. -/
def Sp.wf {α : Type} [DecidableEq α] (d : α) (m : List (Nat × α)) : Bool :=
  Tab.sorted m && m.all fun e => !decide (e.2 = d)

/-- The value at place `i` of a list, or `d` beyond its end. -/
def nth {α : Type} (d : α) : List α → Nat → α
  | [], _ => d
  | a :: _, 0 => a
  | _ :: t, n + 1 => nth d t n

/-- Replaces the value at place `i` of a list; beyond its end nothing changes. -/
def setNth {α : Type} : List α → Nat → α → List α
  | [], _, _ => []
  | _ :: t, 0, v => v :: t
  | a :: t, n + 1, v => a :: setNth t n v

/-- The lanes of a wave, in ascending order (R21). -/
def allLanes : List Nat := List.range 96

/-- Whether lane `l` is in the mask; a lane at or above 96 is in none. -/
def inMask (m : LaneMask) (l : Nat) : Bool := m.getLsbD l

/-- The mask of the lanes that satisfy `f`. -/
def maskOf (f : Nat → Bool) : LaneMask :=
  BitVec.ofNat 96 (allLanes.foldr (fun l acc => 2 * acc + b2n (f l)) 0)

/-- The lanes of a mask, in ascending order. -/
def lanesOf (m : LaneMask) : List Nat := allLanes.filter (inMask m)

end Sys2Proof
end

