-- ==== Sys2Proof/Syntax.lean ====
section
/-! DEFINITION. The instruction set: one constructor for each row of the opcode table. The constructors of the first
part carry the fields of the row's encoding (R83, R103-R115). Those of the second part are the machine's other steps,
which have no word: their operands name the thing the step acts on, or what comes from outside the package. -/

namespace Sys2Proof

/-- What an outside agent asks of a memory access (R268, R271). -/
inductive OutsideKind where
  | read | write | atomic
  deriving DecidableEq, Repr

/-- An access to this package's memory by the host or by another package (R268, R271): the physical address, the size
in bytes, the data or operand, the compare value, for an atomic the sub-operation and element type of R183, and whether
it is to the register window (R269) and not to memory. -/
structure OutsideAccess where
  kind : OutsideKind
  addr : Addr
  size : Nat
  data : BitVec 64
  cmp  : BitVec 64
  sub  : Nat
  ty   : Nat
  window : Bool
  deriving DecidableEq, Repr

/-- What the rank of another package brings to a collective (R273): its operation, its element count and its source. -/
structure RemoteRank where
  rank  : Nat
  oper  : Nat
  count : Nat
  data  : List Byte
  deriving DecidableEq, Repr

/-- The instruction set. -/
inductive Instr where
  /-- BRA (R312). Branches the whole split unconditionally to a clause header. -/
  | bra (o : BitVec 22)
  /-- BRS (R313). Branches the split when the named scalar is non-zero. -/
  | brs (s : BitVec 6) (i : BitVec 16)
  /-- BRV (R314). Divergent vector branch that falls through, branches whole, creates a split or pushes the mask stack. -/
  | brv (p : BitVec 3) (n : BitVec 1) (o : BitVec 18)
  /-- CALL (R315). Records a linkage entry, advances the register window by f and branches. -/
  | call (f : BitVec 3) (o : BitVec 19)
  /-- END (R323). Commits the region, exits every member lane and ends the split once its own operations are done. -/
  | endSplit
  /-- EXIT (R324). Participating lanes exit; the split ends as END when no member lane remains. -/
  | exit
  /-- JMPI (R327). Jumps the split to the 64-bit address in a scalar pair plus a scaled offset. -/
  | jmpi (s : BitVec 6) (i : BitVec 16)
  /-- MERGE (R335). Rejoins divergence by acting on the mask-stack top, or parks the split. -/
  | merge
  /-- MODE (R95). Loads the split's MODE register with element type, guard, rounding, saturation and FTZ. -/
  | mode (e : BitVec 6) (g : BitVec 3) (v : BitVec 1) (r : BitVec 3) (t : BitVec 2) (z : BitVec 1) (x : BitVec 6)
  /-- NOP (R344). Does nothing except count in the DII. -/
  | nop
  /-- REGION (R351). Commits the release buffer, checkpoints every split and opens a new region. -/
  | region
  /-- RET (R352). Pops the newest linkage entry, retreats the window and returns. -/
  | ret
  /-- WAITF (R397). Holds the split until every flag in the scalar mask is clear. -/
  | waitf (s : BitVec 6)
  /-- YIELD (R404). Marks the wave for exchange at its next clause boundary. -/
  | yield
  /-- CLAUSE (R85). Clause header reached by a split: enables flags and evaluates the WAIT mask once. -/
  | clause (w : BitVec 12) (a : BitVec 1) (f : BitVec 4) (b : BitVec 1) (g : BitVec 4) (l : BitVec 4)
  /-- SADD (R357). Scalar add modulo 2^32. -/
  | sadd (d : BitVec 7) (a : BitVec 7) (b : BitVec 7)
  /-- SADDI (R357). Adds a signed 16-bit immediate to a scalar. -/
  | saddi (s : BitVec 6) (i : BitVec 16)
  /-- SADDX (R357). Adds two 64-bit scalar pairs into a pair. -/
  | saddx (d : BitVec 7) (a : BitVec 7) (b : BitVec 7)
  /-- SAND (R357). Scalar bitwise and. -/
  | sand (d : BitVec 7) (a : BitVec 7) (b : BitVec 7)
  /-- SBFX (R358). Extracts a bit field, zero- or sign-extended. -/
  | sbfx (d : BitVec 7) (a : BitVec 7) (b : BitVec 7) (x : BitVec 1)
  /-- SCLZ (R357). Counts leading zeros of a scalar. -/
  | sclz (d : BitVec 7) (a : BitVec 7)
  /-- SCMP (R357). Three-way signed or unsigned scalar compare. -/
  | scmp (d : BitVec 7) (a : BitVec 7) (b : BitVec 7) (x : BitVec 1)
  /-- SLIH (R357). Loads the high half of a scalar from an immediate. -/
  | slih (s : BitVec 6) (i : BitVec 16)
  /-- SLIL (R357). Loads a scalar with a zero-extended immediate. -/
  | slil (s : BitVec 6) (i : BitVec 16)
  /-- SMAX (R357). Scalar maximum, signed or unsigned. -/
  | smax (d : BitVec 7) (a : BitVec 7) (b : BitVec 7) (x : BitVec 1)
  /-- SMIN (R357). Scalar minimum, signed or unsigned. -/
  | smin (d : BitVec 7) (a : BitVec 7) (b : BitVec 7) (x : BitVec 1)
  /-- SMOV (R357). Scalar move. -/
  | smov (d : BitVec 7) (a : BitVec 7)
  /-- SMUL (R357). Low 32 bits of a scalar product. -/
  | smul (d : BitVec 7) (a : BitVec 7) (b : BitVec 7)
  /-- SMULH (R357). High 32 bits of a signed or unsigned scalar product. -/
  | smulh (d : BitVec 7) (a : BitVec 7) (b : BitVec 7) (x : BitVec 1)
  /-- SOR (R357). Scalar bitwise or. -/
  | sor (d : BitVec 7) (a : BitVec 7) (b : BitVec 7)
  /-- SPOPC (R357). Counts set bits of a scalar. -/
  | spopc (d : BitVec 7) (a : BitVec 7)
  /-- SSEL (R357). Selects A or B by whether D is non-zero. -/
  | ssel (d : BitVec 7) (a : BitVec 7) (b : BitVec 7)
  /-- SSHL (R357). Scalar shift left. -/
  | sshl (d : BitVec 7) (a : BitVec 7) (b : BitVec 7)
  /-- SSHR (R357). Scalar logical shift right. -/
  | sshr (d : BitVec 7) (a : BitVec 7) (b : BitVec 7)
  /-- SSRA (R357). Scalar arithmetic shift right. -/
  | ssra (d : BitVec 7) (a : BitVec 7) (b : BitVec 7)
  /-- SSUB (R357). Scalar subtract. -/
  | ssub (d : BitVec 7) (a : BitVec 7) (b : BitVec 7)
  /-- SXOR (R357). Scalar bitwise xor. -/
  | sxor (d : BitVec 7) (a : BitVec 7) (b : BitVec 7)
  /-- VABS (R382). Per-element integer absolute value. -/
  | vabs (d : BitVec 7) (a : BitVec 7)
  /-- VADD (R382). Per-element integer add, wrapping or saturating. -/
  | vadd (d : BitVec 7) (a : BitVec 7) (b : BitVec 7)
  /-- VADDI (R382). Per-element add of a signed immediate. -/
  | vaddi (d : BitVec 7) (a : BitVec 7) (i : BitVec 8)
  /-- VAND (R382). Per-lane bitwise and of raw registers. -/
  | vand (d : BitVec 7) (a : BitVec 7) (b : BitVec 7)
  /-- VBFX (R382). Per-lane bit-field extract. -/
  | vbfx (d : BitVec 7) (a : BitVec 7) (b : BitVec 7) (x : BitVec 1)
  /-- VCLZ (R382). Per-element leading-zero count. -/
  | vclz (d : BitVec 7) (a : BitVec 7)
  /-- VCMP (R383). Integer compare writing a predicate. -/
  | vcmp (p : BitVec 3) (c : BitVec 4) (a : BitVec 7) (b : BitVec 7)
  /-- VCVT (R132). Converts elements from the coded source type to ETYPE. -/
  | vcvt (d : BitVec 7) (a : BitVec 7) (e : BitVec 6) (x : BitVec 1)
  /-- VLANE (R385). Reads one register of a named lane into a scalar. -/
  | vlane (d : BitVec 7) (a : BitVec 7) (i : BitVec 8)
  /-- VMAD (R382). Per-element integer multiply-add. -/
  | vmad (d : BitVec 7) (a : BitVec 7) (b : BitVec 7)
  /-- VMAX (R382). Per-element integer maximum. -/
  | vmax (d : BitVec 7) (a : BitVec 7) (b : BitVec 7)
  /-- VMIN (R382). Per-element integer minimum. -/
  | vmin (d : BitVec 7) (a : BitVec 7) (b : BitVec 7)
  /-- VMOV (R382). Per-lane raw register move. -/
  | vmov (d : BitVec 7) (a : BitVec 7)
  /-- VMOV_FRM (R260). Trap-mode move from the interrupted frame into the handler's register. -/
  | vmovFrm (d : BitVec 7) (a : BitVec 7)
  /-- VMOV_TO (R260). Trap-mode move from the handler's register into the interrupted frame. -/
  | vmovTo (d : BitVec 7) (a : BitVec 7)
  /-- VMUL (R382). Per-element low-half integer product. -/
  | vmul (d : BitVec 7) (a : BitVec 7) (b : BitVec 7)
  /-- VMULH (R382). Per-element high-half integer product. -/
  | vmulh (d : BitVec 7) (a : BitVec 7) (b : BitVec 7)
  /-- VOR (R382). Per-lane bitwise or. -/
  | vor (d : BitVec 7) (a : BitVec 7) (b : BitVec 7)
  /-- VPOPC (R382). Per-element population count. -/
  | vpopc (d : BitVec 7) (a : BitVec 7)
  /-- VSEL (R382). Per-lane select of A or B by D. -/
  | vsel (d : BitVec 7) (a : BitVec 7) (b : BitVec 7)
  /-- VSHL (R382). Per-element shift left. -/
  | vshl (d : BitVec 7) (a : BitVec 7) (b : BitVec 7)
  /-- VSHR (R382). Per-element logical shift right. -/
  | vshr (d : BitVec 7) (a : BitVec 7) (b : BitVec 7)
  /-- VSRA (R382). Per-element arithmetic shift right. -/
  | vsra (d : BitVec 7) (a : BitVec 7) (b : BitVec 7)
  /-- VSUB (R382). Per-element integer subtract. -/
  | vsub (d : BitVec 7) (a : BitVec 7) (b : BitVec 7)
  /-- VXOR (R382). Per-lane bitwise xor. -/
  | vxor (d : BitVec 7) (a : BitVec 7) (b : BitVec 7)
  /-- LCV (R133). Converts fp32 to lns32. -/
  | lcv (d : BitVec 7) (a : BitVec 7)
  /-- LDIV (R134). Divides in lns32. -/
  | ldiv (d : BitVec 7) (a : BitVec 7) (b : BitVec 7)
  /-- LEX (R133). Converts lns32 to fp32. -/
  | lex (d : BitVec 7) (a : BitVec 7)
  /-- LMUL (R134). Multiplies in lns32. -/
  | lmul (d : BitVec 7) (a : BitVec 7) (b : BitVec 7)
  /-- LPOW (R135). Raises an lns32 value to an s8.23 power. -/
  | lpow (d : BitVec 7) (a : BitVec 7) (b : BitVec 7)
  /-- VDOTB (R140). Scaled binary8 block dot product accumulated into fp32. -/
  | vdotb (d : BitVec 7) (a : BitVec 7) (b : BitVec 7) (x : BitVec 1)
  /-- VDQNT (R388). Dequantises narrow elements times a scale into fp32 registers. -/
  | vdqnt (d : BitVec 7) (a : BitVec 7) (b : BitVec 7)
  /-- VFABS (R391). Clears the sign bit of each float element. -/
  | vfabs (d : BitVec 7) (a : BitVec 7)
  /-- VFADD (R390). Float add with one rounding. -/
  | vfadd (d : BitVec 7) (a : BitVec 7) (b : BitVec 7)
  /-- VFCLS (R392). Writes the class mask of each float element. -/
  | vfcls (d : BitVec 7) (a : BitVec 7)
  /-- VFCMP (R393). Float compare writing a predicate. -/
  | vfcmp (p : BitVec 3) (c : BitVec 4) (a : BitVec 7) (b : BitVec 7)
  /-- VFDOT2 (R391). Two-term 16-bit dot product added to fp32 with one rounding. -/
  | vfdot2 (d : BitVec 7) (a : BitVec 7) (b : BitVec 7)
  /-- VFMA (R390). Fused multiply-add. -/
  | vfma (d : BitVec 7) (a : BitVec 7) (b : BitVec 7)
  /-- VFMAX (R391). Float maximum. -/
  | vfmax (d : BitVec 7) (a : BitVec 7) (b : BitVec 7)
  /-- VFMIN (R391). Float minimum. -/
  | vfmin (d : BitVec 7) (a : BitVec 7) (b : BitVec 7)
  /-- VFMUL (R390). Float multiply. -/
  | vfmul (d : BitVec 7) (a : BitVec 7) (b : BitVec 7)
  /-- VFRND (R391). Rounds each float element to an integral value. -/
  | vfrnd (d : BitVec 7) (a : BitVec 7)
  /-- VFSUB (R390). Float subtract. -/
  | vfsub (d : BitVec 7) (a : BitVec 7) (b : BitVec 7)
  /-- VQNT (R388). Quantises fp32 registers times a scale into narrow elements. -/
  | vqnt (d : BitVec 7) (a : BitVec 7) (b : BitVec 7)
  /-- VXF64 (R141). Camera-relative FP64 transform with one fp32 rounding per result. -/
  | vxf64 (d : BitVec 7) (a : BitVec 7) (b : BitVec 7)
  /-- PLOG (R346). Predicate logic by truth table. -/
  | plog (d : BitVec 3) (f : BitVec 4) (a : BitVec 3) (b : BitVec 3)
  /-- SRACC (R192). Accumulates participating values into a reduction register. -/
  | sracc (a : BitVec 7) (k : BitVec 2)
  /-- SRACW (R192). Weighted accumulate into a reduction register. -/
  | sracw (d : BitVec 7) (a : BitVec 7) (k : BitVec 2)
  /-- SRDRN (R195). Drains mean, variance, sum or norm from a reduction register. -/
  | srdrn (d : BitVec 7) (a : BitVec 7) (s : BitVec 4) (k : BitVec 2)
  /-- SRGET (R196). Reads a reduction-register field after checking its sequence number. -/
  | srget (d : BitVec 7) (a : BitVec 7) (s : BitVec 4) (k : BitVec 2)
  /-- SRINI (R194). Sets a reduction register to EMPTY. -/
  | srini (k : BitVec 2)
  /-- SRINI_LD (R194). Loads a reduction register from a 32-byte record. -/
  | sriniLd (a : BitVec 7) (k : BitVec 2)
  /-- SRMRG (R194). Combines one reduction register into another. -/
  | srmrg (j : BitVec 2) (k : BitVec 2)
  /-- SRST (R197). Stores a reduction register as a 32-byte record. -/
  | srst (a : BitVec 7) (k : BitVec 2)
  /-- VPERM (R395). Reads register A from a per-lane source lane. -/
  | vperm (d : BitVec 7) (a : BitVec 7) (b : BitVec 7)
  /-- VSWZ (R395). Reads register A from a fixed partner lane. -/
  | vswz (d : BitVec 7) (a : BitVec 7) (i : BitVec 8)
  /-- VVOTE (R396). Any, all or count vote over participating lanes into a scalar. -/
  | vvote (d : BitVec 7) (v : BitVec 2) (p : BitVec 3)
  /-- XRACC (R198). Keyed extremum reduction into a reduction register. -/
  | xracc (d : BitVec 7) (a : BitVec 7) (n : BitVec 1) (m : BitVec 1) (k : BitVec 2)
  /-- ATOM (R183). Atomic read-modify-write per lane at a scope; commits the region first. -/
  | atom (d : BitVec 7) (a : BitVec 7) (s : BitVec 4) (c : BitVec 4)
  /-- FENCE (R182). Acquire, release or full fence for the split. -/
  | fence (s : BitVec 4) (c : BitVec 4)
  /-- LD (R332). Vector load per lane. -/
  | ld (d : BitVec 7) (a : BitVec 7) (o : BitVec 5) (z : BitVec 2) (f : BitVec 1)
  /-- LDA (R333). Single-copy atomic acquire load, optionally with remote promotion. -/
  | lda (d : BitVec 7) (a : BitVec 7) (z : BitVec 2) (r : BitVec 1) (f : BitVec 1) (c : BitVec 4)
  /-- LDC (R334). Load served through column lines. -/
  | ldc (d : BitVec 7) (a : BitVec 7) (o : BitVec 5) (z : BitVec 2) (f : BitVec 1)
  /-- SCAT (R226). Forms an Arcade gradient contribution per lane, held until commit. -/
  | scat (d : BitVec 7) (a : BitVec 7) (o : BitVec 5) (z : BitVec 2)
  /-- SCATB (R227). Commits the region and closes the split's Arcade epoch, waiting in DET. -/
  | scatb
  /-- SLD (R363). Scalar load once per split. -/
  | sld (d : BitVec 7) (a : BitVec 7) (o : BitVec 5) (z : BitVec 2) (f : BitVec 1)
  /-- SST (R363). Scalar store into the release buffer. -/
  | sst (d : BitVec 7) (a : BitVec 7) (o : BitVec 5) (z : BitVec 2)
  /-- ST (R368). Vector store into the release buffer. -/
  | st (d : BitVec 7) (a : BitVec 7) (o : BitVec 5) (z : BitVec 2)
  /-- STL (R369). Release store at a scope. -/
  | stl (d : BitVec 7) (a : BitVec 7) (z : BitVec 2) (c : BitVec 4)
  /-- CPY (R319). Bulk copy between two shapes in a copy queue. -/
  | cpy (d : BitVec 7) (a : BitVec 7) (q : BitVec 3) (f : BitVec 1)
  /-- CQBAR (R80). Places a barrier in the masked copy queues of the core. -/
  | cqbar (a : BitVec 7)
  /-- TDSC (R375). Writes a tile descriptor and takes ownership of an EMPTY entry. -/
  | tdsc (t : BitVec 5) (a : BitVec 7)
  /-- TFREE (R377). Commits the region and returns a READY or partial tile to EMPTY. -/
  | tfree (t : BitVec 5)
  /-- TLD (R376). Starts filling a tile from memory, optionally transposed. -/
  | tld (t : BitVec 5) (a : BitVec 7) (r : BitVec 1) (f : BitVec 1)
  /-- TST (R376). Commits the region and starts draining a READY tile to memory. -/
  | tst (t : BitVec 5) (a : BitVec 7) (f : BitVec 1)
  /-- TSTAT (R377). Writes the tile-status word to a scalar. -/
  | tstat (d : BitVec 7) (t : BitVec 5)
  /-- TWAIT (R377). Holds while the tile is filling or draining. -/
  | twait (t : BitVec 5)
  /-- WSREF (R148). Returns the refresh phase and bank of a weight-store address. -/
  | wsref (d : BitVec 7) (a : BitVec 7)
  /-- ACLR (R306). Clears an accumulator to +0 under a live lease. -/
  | aclr (d : BitVec 4)
  /-- ADRN (R308). Drains an accumulator into a tile with rounding; the tile fills. -/
  | adrn (t : BitVec 5) (a : BitVec 4)
  /-- MLEASE (R75). Requests all four MXUs for n tile operations and waits for the grant. -/
  | mlease (d : BitVec 7) (a : BitVec 7)
  /-- MMA (R340). Tile matrix product into an accumulator in K-chunk order. -/
  | mma (d : BitVec 4) (a : BitVec 5) (b : BitVec 5)
  /-- MMAS (R340). Block-scaled binary8 matrix product into an accumulator. -/
  | mmas (d : BitVec 4) (a : BitVec 5) (b : BitVec 5)
  /-- MREL (R77). Waits for the lease's operations and ends the lease. -/
  | mrel (a : BitVec 7)
  /-- BARA (R311). Commits the region and arrives at a named barrier. -/
  | bara (a : BitVec 7) (b : BitVec 7)
  /-- BARS (R311). Commits, arrives and waits at a named barrier. -/
  | bars (a : BitVec 7) (b : BitVec 7)
  /-- BARW (R311). Waits for the phase of the wave's latest arrival. -/
  | barw (a : BitVec 7) (b : BitVec 7)
  /-- COLL (R272). Issues a collective operation to the collective engine. -/
  | coll (d : BitVec 7) (a : BitVec 7) (o : BitVec 3) (f : BitVec 1) (c : BitVec 4)
  /-- JOIN (R328). Adds the wave to a quarter. -/
  | join (q : BitVec 4)
  /-- LEAVE (R328). Removes the wave from a quarter. -/
  | leave (q : BitVec 4)
  /-- OCCQ (R345). Acquire-reads an occlusion-table bit. -/
  | occq (d : BitVec 7) (a : BitVec 7) (f : BitVec 1) (c : BitVec 4)
  /-- POST (R69). Reserves space for a job card in a stage queue. -/
  | post (d : BitVec 7) (a : BitVec 7) (s : BitVec 4)
  /-- QCFG (R349). Maps or unmaps a queue port for the wave. -/
  | qcfg (d : BitVec 7) (a : BitVec 7)
  /-- EDGS (R235). Kerb-unit edge sample forming boundary-term contributions. -/
  | edgs (d : BitVec 7) (a : BitVec 7) (f : BitVec 1)
  /-- PRIM (R211). Rasterises one triangle per lane into the visibility buffer. -/
  | prim (d : BitVec 7) (a : BitVec 7) (m : BitVec 2)
  /-- RASADJ (R232). Interior barycentric adjoint forming vertex gradient contributions. -/
  | rasadj (d : BitVec 7) (a : BitVec 7)
  /-- RTADJ (R234). Ray-hit adjoint forming vertex contributions and ray gradients. -/
  | rtadj (d : BitVec 7) (a : BitVec 7)
  /-- RTINI (R217). Builds a ray state in sixteen registers. -/
  | rtini (d : BitVec 7) (a : BitVec 7)
  /-- RTSTEP (R218). Advances a ray walk by up to a budget of node visits. -/
  | rtstep (d : BitVec 7) (a : BitVec 7) (f : BitVec 1)
  /-- SPLADJ (R236). Splat adjoint replaying the composite in reverse. -/
  | spladj (d : BitVec 7) (a : BitVec 7) (f : BitVec 1)
  /-- SPLC (R223). Composites one pixel per lane front to back from a splat list. -/
  | splc (d : BitVec 7) (a : BitVec 7) (f : BitVec 1)
  /-- SPLS (R222). Submits projected Gaussians to a splat list. -/
  | spls (d : BitVec 7) (a : BitVec 7) (f : BitVec 1)
  /-- TEX (R214). Samples a texture per lane. -/
  | tex (d : BitVec 7) (a : BitVec 7) (t : BitVec 3) (f : BitVec 1) (m : BitVec 2)
  /-- TEXADJ (R233). Texture adjoint forming texel gradient contributions. -/
  | texadj (d : BitVec 7) (a : BitVec 7) (t : BitVec 3) (f : BitVec 1) (m : BitVec 2)
  /-- TCLS (R240). Closes the open tape span. -/
  | tcls
  /-- TMARK (R241). Drops the data of the newest closed recomputable span. -/
  | tmark
  /-- TPOP (R372). Pops the newest tape record per lane with a tag check. -/
  | tpop (d : BitVec 7) (a : BitVec 7) (f : BitVec 1)
  /-- TREC (R240). Appends a value with a tag to each lane's tape. -/
  | trec (d : BitVec 7) (a : BitVec 7)
  /-- TSPAN (R240). Opens a tape span and records its header and inputs. -/
  | tspan (d : BitVec 7) (n : BitVec 4) (r : BitVec 1)
  /-- GROW (R46). Enlarges the wave's allotment, waiting for room. -/
  | grow (n : BitVec 8)
  /-- SHRINK (R361). Reduces the wave's allotment. -/
  | shrink (n : BitVec 8)
  /-- TRAP (R259). Raises SOFTWARE with a code. -/
  | trap (c : BitVec 8)
  /-- TRET (R259). Returns from the trap handler, retrying or skipping the faulting instruction. -/
  | tret (n : BitVec 1)
  /-- XRD (R400). Reads a system register into a scalar. -/
  | xrd (d : BitVec 7) (i : BitVec 8)
  /-- XWR (R400). Writes a scalar to a system register that has no row of its own. -/
  | xwr (a : BitVec 7) (i : BitVec 8)
  /-- RAF_INVALIDATE (R163). Write of RAFSEL.INVAL discards the region's TLB and walk-cache entries package-wide. -/
  | rafInvalidate (r : BitVec 4)
  /-- DOORBELL (R269). Host writes a new tail index for a command queue. -/
  | doorbell (q : BitVec 6) (tail : BitVec 64)
  /-- FQHEAD (R269). Host writes the fault-queue consumer index. -/
  | fqhead (v : BitVec 64)
  /-- REGISTER_WRITE (R269). Host write to a window register with no behaviour of its own, such as a mailbox argument word. -/
  | registerWrite (off : Nat) (v : Word)
  /-- QUEUE_CONFIG (R405). Mailbox command configuring a command queue's ring, priority, privilege and PSIZE. -/
  | queueConfig
  /-- CONTEXT_AREA (R405). Mailbox command setting a cluster's MCC save area. -/
  | contextArea
  /-- SCATTER_LOG (R405). Mailbox command setting the scatter log base and size. -/
  | scatterLog
  /-- FAULT_QUEUE (R405). Mailbox command setting the host fault queue and resetting its indices. -/
  | faultQueue
  /-- RESUME (R164). Mailbox command resuming a parked split, which reissues for unfinished lanes. -/
  | resume
  /-- KILL (R270). Mailbox command killing every running wave of a queue. -/
  | kill
  /-- POD_CONFIG (R271). Mailbox command assigning the package rank and pod size. -/
  | podConfig
  /-- CLUSTER_MAP (R405). Mailbox command returning the presented count and logical-to-physical map. -/
  | clusterMap
  /-- BLACKBOX_READ (R279). Mailbox command returning one black-box record of a die. -/
  | blackboxRead
  /-- SELFTEST_RESULT (R405). Mailbox command returning the per-die self-test pass map and failure codes. -/
  | selftestResult
  /-- FIRMWARE_UPDATE (R270). Mailbox command verifying and storing a firmware image. -/
  | firmwareUpdate (ok : Bool)
  /-- ATTEST (R280). Mailbox command writing a signed attestation report. -/
  | attest (report : Addr)
  /-- LAUNCH_START (R60). A record at the head of its queue begins once the previous record has completed. -/
  | launchStart (q : BitVec 6)
  /-- QUEUE_BARRIER (R59). A queue-barrier record reaches the head of its queue. -/
  | queueBarrier (q : BitVec 6)
  /-- QUEUE_BARRIER_COMPLETE (R59). The target queue's completion count has advanced by the threshold. -/
  | queueBarrierComplete (q : BitVec 6)
  /-- WAVE_ADMISSION (R62). Admits the next wave of a launch to a partition where allotment allows. -/
  | waveAdmission (l place : Nat)
  /-- MCC_STREAM_START (R74). Starts a launch's MCC stream on a cluster once the MCC has room. -/
  | mccStreamStart (l cl : Nat)
  /-- STAGE_WAVE_DISPATCH (R67). Takes a card from a stage queue and creates its stage wave. -/
  | stageWaveDispatch (l stage cl place : Nat)
  /-- LAUNCH_COMPLETE (R60). A launch completes once its waves, streams, commits, epochs and verification are done. -/
  | launchComplete (l : Nat)
  /-- WAVE_EXCHANGE (R51). A stalled active wave is exchanged with the oldest ready pending wave. -/
  | waveExchange (sid : Nat)
  /-- TIMESLICE_EXCHANGE (R52). A wave that held an active slot for 4,096 clocks is exchanged at its clause boundary. -/
  | timesliceExchange (sid : Nat)
  /-- FLAG_WAIT_RELEASE (R87). A split waiting on a clause WAIT, WAITF or END hold resumes once its flags clear. -/
  | flagWaitRelease (sid k : Nat)
  /-- QUEUE_STALL_RELEASE (R40). A split stalled on an empty or full hardware queue proceeds. -/
  | queueStallRelease (sid k : Nat)
  /-- GROW_GRANT (R46). A GROW held at issue proceeds once the partition has room. -/
  | growGrant (sid k : Nat)
  /-- TILE_READY_RELEASE (R149). An instruction held for a tile to become READY or idle proceeds. -/
  | tileReadyRelease (sid k : Nat)
  /-- LEASE_GRANT (R76). The arbiter grants the MXUs to a waiting stream by priority and age. -/
  | leaseGrant (cl : Nat)
  /-- POST_PARTITION_GRANT (R71). A DET POST held for a queue partition proceeds once one is returned. -/
  | postPartitionGrant (sid k : Nat)
  /-- MEMORY_LOAD_COMPLETE (R88). A load's data arrives, its registers are written and its flag decrements. -/
  | memoryLoadComplete (op : Nat)
  /-- ATOM_COMPLETE (R183). An atomic's old value returns and its flag decrements. -/
  | atomComplete (op : Nat)
  /-- COPY_COMPLETE (R320). A bulk copy's bytes are visible at PACKAGE scope and its flag clears. -/
  | copyComplete (op : Nat)
  /-- TILE_FILL_COMPLETE (R149). Every sector of a fill or ADRN is done; the tile becomes READY. -/
  | tileFillComplete (op : Nat)
  /-- TILE_DRAIN_COMPLETE (R149). Every byte of a drain is written; the tile becomes EMPTY. -/
  | tileDrainComplete (op : Nat)
  /-- COLL_MATCH (R273). A use of a collective is matched across all ranks of its group. -/
  | collMatch (op : Nat) (remote : List RemoteRank)
  /-- COLL_CHUNK_COMPLETE (R275). A 64 KiB collective chunk ends and the next is chosen by bucket priority. -/
  | collChunkComplete (op : Nat)
  /-- COLL_COMPLETE (R274). A rank's collective destination is visible and its flag clears. -/
  | collComplete (op : Nat)
  /-- OCCQ_COMPLETE (R73). The occlusion bit returns and the flag clears. -/
  | occqComplete (op : Nat)
  /-- TEX_COMPLETE (R214). Texture samples are written and the flag clears. -/
  | texComplete (op : Nat)
  /-- TEXADJ_COMPLETE (R233). Texture-adjoint contributions are formed and committed. -/
  | texadjComplete (op : Nat)
  /-- RTSTEP_COMPLETE (R218). A ray walk step ends with its status written. -/
  | rtstepComplete (op : Nat)
  /-- SPLAT_OP_COMPLETE (R365). An SPLS, SPLC or SPLADJ completes and its flag clears. -/
  | splatOpComplete (op : Nat)
  /-- EDGS_COMPLETE (R235). Edge-sample contributions are formed and committed. -/
  | edgsComplete (op : Nat)
  /-- TPOP_COMPLETE (R372). Popped tape values are written and the flag clears. -/
  | tpopComplete (op : Nat)
  /-- MMA_CHUNK_COMPLETE (R138). One K-chunk is summed and rounded into the accumulator. -/
  | mmaChunkComplete (op : Nat)
  /-- MMA_COMPLETE (R341). A matrix operation finishes and raises its flags. -/
  | mmaComplete (op : Nat)
  /-- RASTER_THREAD_COMPLETE (R212). A PRIM raster thread has made all its accesses. -/
  | rasterThreadComplete (op : Nat)
  /-- HANDLER_LIMIT (R261). A pending kill takes effect after the handler split's 8,192nd instruction. -/
  | handlerLimit (sid : Nat)
  /-- WAVE_KILL (R248). A wave is killed, waits for its outstanding operations and leaves its slot for replay. -/
  | waveKill (sid : Nat)
  /-- EPOCH_CLOSE (R227). An Arcade epoch closes when every wave has passed its SCATB or ended. -/
  | epochClose (l : Nat)
  /-- VERIFY_REPLAY (R203). A selected wave is replayed on another cluster and its digest compared. -/
  | verifyReplay (l g cl : Nat)
  /-- ARBITRATION (R203). A third cluster replays a mismatched wave and scores are adjusted. -/
  | arbitration (l g cl : Nat)
  /-- CLUSTER_CORDON (R204). A PENDING cluster at its kernel boundary is cordoned and its rank moves to the spare. -/
  | clusterCordon (phys : Nat)
  /-- SCORE_DECAY (R203). A cluster's score falls by 1 after every 2^20 clean waves. -/
  | scoreDecay (phys : Nat)
  /-- MCC_SAVE (R252). An MCC stream is saved at an instruction or K-chunk boundary. -/
  | mccSave (sid : Nat)
  /-- MCC_RESTORE (R253). A saved stream is rebuilt on a cluster carrying its rank and its lease regranted. -/
  | mccRestore (sid : Nat)
  /-- WS_REFRESH_PHASE (R147). Every 3 µs the weight-store refresh moves to the next bank. -/
  | wsRefreshPhase (die : Nat)
  /-- COLD_RESET (R276). Cold reset returns clusters, scores and counters to their reset state. -/
  | coldReset
  /-- WARM_RESET (R276). Warm reset keeps cluster states, scores and the black-box record. -/
  | warmReset
  /-- RESET_RELEASE (R276). Reset is released and the firmware image check begins. -/
  | resetRelease
  /-- BOOT_CHECK_COMPLETE (R276). The signature check ends, entering SELFTEST or SAFE. -/
  | bootCheckComplete (ok : Bool)
  /-- CLUSTER_SELFTEST_RESULT (R276). A cluster passes and admits FREE waves, or fails and is cordoned. -/
  | clusterSelftestResult (phys : Nat) (ok : Bool)
  /-- SELFTEST_FINISH (R276). The test of a part of a die ends, with its result; with the last, the package enters SERVICE,
  and at a failure SAFE. -/
  | selftestFinish (part : Nat × Bool)
  /-- CLUSTER_CLOCK_RISE (R277). A passed cluster rises to 2.1 GHz once no launch has waves on it. -/
  | clusterClockRise (phys : Nat)
  /-- THERMAL_RESPONSE (R281). A hot die's clock falls and a thermal event is recorded. -/
  | thermalResponse (die mhz : Nat)
  /-- HOST_MEMORY_ACCESS (R268). A host access to device HBM4 over CXL.mem. -/
  | hostMemoryAccess (acc : OutsideAccess)
  /-- POD_REMOTE_ACCESS (R271). A remote package's load, store or atomic arrives over UALink and is performed here. -/
  | podRemoteAccess (acc : OutsideAccess)
  /-- UALINK_FLIT_RETRY (R271). A flit with a CRC failure is retried by the link layer. -/
  | ualinkFlitRetry
  /-- UNASSIGNED_OP (R116). A split issues an instruction word whose OP is unassigned, or whose reserved bits make it match no defined form, and ILLEGAL_INSTRUCTION is raised. -/
  | unassignedOp (w : Word)
  /-- UNKNOWN_COMMAND (R270). The host writes a mailbox command word that names no defined command, and the device sets status 2. -/
  | unknownCommand (w : Word)
  /-- COMMAND_COMPLETION (R270). A mailbox command finishes, and the device replaces status BUSY with its final status and results. -/
  | commandCompletion
  /-- LAUNCH_SUSPEND (R252). System software suspends a launch, and its MCC streams are saved at an instruction or K-chunk boundary. -/
  | launchSuspend (l : Nat)
  /-- LAUNCH_SUSPEND_END (R253). A suspended launch stops being suspended, so its saved streams may be restored. -/
  | launchSuspendEnd (l : Nat)
  /-- THERMAL_RESPONSE_END (R281). A die leaves thermal response, and its clock returns to its service rate with a kind 9 event recorded. -/
  | thermalResponseEnd (die : Nat)
  /-- CORE_CLOCK_STOP (R55). A core's clock stops, and its cycle counter stops counting. -/
  | coreClockStop (core : Nat)
  /-- CORE_CLOCK_START (R55). A stopped core clock starts again, and its cycle counter resumes counting. -/
  | coreClockStart (core : Nat)
  deriving DecidableEq, Repr

end Sys2Proof
end

