-- ==== Sys2Proof/WellFormed.lean ====
section
/-! DEFINITION. What a well-formed instruction is: a row with a word, none of whose field values is one for which the spec
raises ILLEGAL_INSTRUCTION or ILLEGAL_MODE from the word alone. -/

namespace Sys2Proof

/-- Whether the row has a word. -/
def Instr.isWord (i : Instr) : Bool :=
  match i with
  | .bra .. => true
  | .brs .. => true
  | .brv .. => true
  | .call .. => true
  | .endSplit => true
  | .exit => true
  | .jmpi .. => true
  | .merge => true
  | .mode .. => true
  | .nop => true
  | .region => true
  | .ret => true
  | .waitf .. => true
  | .yield => true
  | .clause .. => true
  | .sadd .. => true
  | .saddi .. => true
  | .saddx .. => true
  | .sand .. => true
  | .sbfx .. => true
  | .sclz .. => true
  | .scmp .. => true
  | .slih .. => true
  | .slil .. => true
  | .smax .. => true
  | .smin .. => true
  | .smov .. => true
  | .smul .. => true
  | .smulh .. => true
  | .sor .. => true
  | .spopc .. => true
  | .ssel .. => true
  | .sshl .. => true
  | .sshr .. => true
  | .ssra .. => true
  | .ssub .. => true
  | .sxor .. => true
  | .vabs .. => true
  | .vadd .. => true
  | .vaddi .. => true
  | .vand .. => true
  | .vbfx .. => true
  | .vclz .. => true
  | .vcmp .. => true
  | .vcvt .. => true
  | .vlane .. => true
  | .vmad .. => true
  | .vmax .. => true
  | .vmin .. => true
  | .vmov .. => true
  | .vmovFrm .. => true
  | .vmovTo .. => true
  | .vmul .. => true
  | .vmulh .. => true
  | .vor .. => true
  | .vpopc .. => true
  | .vsel .. => true
  | .vshl .. => true
  | .vshr .. => true
  | .vsra .. => true
  | .vsub .. => true
  | .vxor .. => true
  | .lcv .. => true
  | .ldiv .. => true
  | .lex .. => true
  | .lmul .. => true
  | .lpow .. => true
  | .vdotb .. => true
  | .vdqnt .. => true
  | .vfabs .. => true
  | .vfadd .. => true
  | .vfcls .. => true
  | .vfcmp .. => true
  | .vfdot2 .. => true
  | .vfma .. => true
  | .vfmax .. => true
  | .vfmin .. => true
  | .vfmul .. => true
  | .vfrnd .. => true
  | .vfsub .. => true
  | .vqnt .. => true
  | .vxf64 .. => true
  | .plog .. => true
  | .sracc .. => true
  | .sracw .. => true
  | .srdrn .. => true
  | .srget .. => true
  | .srini .. => true
  | .sriniLd .. => true
  | .srmrg .. => true
  | .srst .. => true
  | .vperm .. => true
  | .vswz .. => true
  | .vvote .. => true
  | .xracc .. => true
  | .atom .. => true
  | .fence .. => true
  | .ld .. => true
  | .lda .. => true
  | .ldc .. => true
  | .scat .. => true
  | .scatb => true
  | .sld .. => true
  | .sst .. => true
  | .st .. => true
  | .stl .. => true
  | .cpy .. => true
  | .cqbar .. => true
  | .tdsc .. => true
  | .tfree .. => true
  | .tld .. => true
  | .tst .. => true
  | .tstat .. => true
  | .twait .. => true
  | .wsref .. => true
  | .aclr .. => true
  | .adrn .. => true
  | .mlease .. => true
  | .mma .. => true
  | .mmas .. => true
  | .mrel .. => true
  | .bara .. => true
  | .bars .. => true
  | .barw .. => true
  | .coll .. => true
  | .join .. => true
  | .leave .. => true
  | .occq .. => true
  | .post .. => true
  | .qcfg .. => true
  | .edgs .. => true
  | .prim .. => true
  | .rasadj .. => true
  | .rtadj .. => true
  | .rtini .. => true
  | .rtstep .. => true
  | .spladj .. => true
  | .splc .. => true
  | .spls .. => true
  | .tex .. => true
  | .texadj .. => true
  | .tcls => true
  | .tmark => true
  | .tpop .. => true
  | .trec .. => true
  | .tspan .. => true
  | .grow .. => true
  | .shrink .. => true
  | .trap .. => true
  | .tret .. => true
  | .xrd .. => true
  | .xwr .. => true
  | .rafInvalidate .. => false
  | .doorbell .. => false
  | .fqhead .. => false
  | .registerWrite .. => false
  | .queueConfig => false
  | .contextArea => false
  | .scatterLog => false
  | .faultQueue => false
  | .resume => false
  | .kill => false
  | .podConfig => false
  | .clusterMap => false
  | .blackboxRead => false
  | .selftestResult => false
  | .firmwareUpdate .. => false
  | .attest .. => false
  | .launchStart .. => false
  | .queueBarrier .. => false
  | .queueBarrierComplete .. => false
  | .waveAdmission .. => false
  | .mccStreamStart .. => false
  | .stageWaveDispatch .. => false
  | .launchComplete .. => false
  | .waveExchange .. => false
  | .timesliceExchange .. => false
  | .flagWaitRelease .. => false
  | .queueStallRelease .. => false
  | .growGrant .. => false
  | .tileReadyRelease .. => false
  | .leaseGrant .. => false
  | .postPartitionGrant .. => false
  | .memoryLoadComplete .. => false
  | .atomComplete .. => false
  | .copyComplete .. => false
  | .tileFillComplete .. => false
  | .tileDrainComplete .. => false
  | .collMatch .. => false
  | .collChunkComplete .. => false
  | .collComplete .. => false
  | .occqComplete .. => false
  | .texComplete .. => false
  | .texadjComplete .. => false
  | .rtstepComplete .. => false
  | .splatOpComplete .. => false
  | .edgsComplete .. => false
  | .tpopComplete .. => false
  | .mmaChunkComplete .. => false
  | .mmaComplete .. => false
  | .rasterThreadComplete .. => false
  | .handlerLimit .. => false
  | .waveKill .. => false
  | .epochClose .. => false
  | .verifyReplay .. => false
  | .arbitration .. => false
  | .clusterCordon .. => false
  | .scoreDecay .. => false
  | .mccSave .. => false
  | .mccRestore .. => false
  | .wsRefreshPhase .. => false
  | .coldReset => false
  | .warmReset => false
  | .resetRelease => false
  | .bootCheckComplete .. => false
  | .clusterSelftestResult .. => false
  | .selftestFinish .. => false
  | .clusterClockRise .. => false
  | .thermalResponse .. => false
  | .hostMemoryAccess .. => false
  | .podRemoteAccess .. => false
  | .ualinkFlitRetry => false
  | .unassignedOp .. => false
  | .unknownCommand .. => false
  | .commandCompletion => false
  | .launchSuspend .. => false
  | .launchSuspendEnd .. => false
  | .thermalResponseEnd .. => false
  | .coreClockStop .. => false
  | .coreClockStart .. => false

/-- ETYPE codes that name a type (R96). -/
def etypeDefined (e : BitVec 6) : Bool :=
  let n := e.toNat
  n <= 4 || (8 <= n && n <= 15) || (0x20 <= n && n <= 0x3B)

/-- The flags of a clause header (R85). -/
def headerLegal (sa : BitVec 1) (fa : BitVec 4) (sb : BitVec 1) (fb : BitVec 4) : Bool :=
  (if sa = 1 then decide (fa.toNat < 12) else decide (fa = 0)) &&
  (if sb = 1 then decide (fb.toNat < 12) else decide (fb = 0))

/-- The fields of MODE (R95). -/
def modeLegal (e : BitVec 6) (r : BitVec 3) (t : BitVec 2) (x : BitVec 6) : Bool :=
  etypeDefined e && decide (r.toNat < 6) && decide (t.toNat < 2) && decide (x = 0)

/-- Scope codes 12 to 15 name no scope (R99). -/
def scopeDefined (c : BitVec 4) : Bool := decide (c.toNat < 12)

/-- The patterns of VSWZ (R108). -/
def swizzleLegal (i : BitVec 8) : Bool :=
  decide (i.toNat < 64) || (decide (i.toNat < 128) && decide (i.toNat % 64 < 32))

/-- Whether no field value of the word is illegal by itself. -/
def Instr.fieldsLegal (i : Instr) : Bool :=
  match i with
  | .bra .. => true
  | .brs .. => true
  | .brv .. => true
  | .call .. => true
  | .endSplit => true
  | .exit => true
  | .jmpi .. => true
  | .merge => true
  | .mode e _ _ r t _ x => modeLegal e r t x
  | .nop => true
  | .region => true
  | .ret => true
  | .waitf .. => true
  | .yield => true
  | .clause _ a f b g _ => headerLegal a f b g
  | .sadd .. => true
  | .saddi .. => true
  | .saddx .. => true
  | .sand .. => true
  | .sbfx .. => true
  | .sclz .. => true
  | .scmp .. => true
  | .slih .. => true
  | .slil .. => true
  | .smax .. => true
  | .smin .. => true
  | .smov .. => true
  | .smul .. => true
  | .smulh .. => true
  | .sor .. => true
  | .spopc .. => true
  | .ssel .. => true
  | .sshl .. => true
  | .sshr .. => true
  | .ssra .. => true
  | .ssub .. => true
  | .sxor .. => true
  | .vabs .. => true
  | .vadd .. => true
  | .vaddi .. => true
  | .vand .. => true
  | .vbfx .. => true
  | .vclz .. => true
  | .vcmp _ c _ _ => decide (c.toNat < 6)
  | .vcvt _ _ e _ => etypeDefined e
  | .vlane _ _ i => decide (i.toNat < 96)
  | .vmad .. => true
  | .vmax .. => true
  | .vmin .. => true
  | .vmov .. => true
  | .vmovFrm .. => true
  | .vmovTo .. => true
  | .vmul .. => true
  | .vmulh .. => true
  | .vor .. => true
  | .vpopc .. => true
  | .vsel .. => true
  | .vshl .. => true
  | .vshr .. => true
  | .vsra .. => true
  | .vsub .. => true
  | .vxor .. => true
  | .lcv .. => true
  | .ldiv .. => true
  | .lex .. => true
  | .lmul .. => true
  | .lpow .. => true
  | .vdotb .. => true
  | .vdqnt .. => true
  | .vfabs .. => true
  | .vfadd .. => true
  | .vfcls .. => true
  | .vfcmp _ c _ _ => decide (c.toNat < 8)
  | .vfdot2 .. => true
  | .vfma .. => true
  | .vfmax .. => true
  | .vfmin .. => true
  | .vfmul .. => true
  | .vfrnd .. => true
  | .vfsub .. => true
  | .vqnt .. => true
  | .vxf64 .. => true
  | .plog .. => true
  | .sracc .. => true
  | .sracw .. => true
  | .srdrn _ a s _ => decide (s.toNat < 5) && (decide (s.toNat = 4) || decide (a = 0))
  | .srget _ _ s _ => decide (s.toNat < 4)
  | .srini .. => true
  | .sriniLd .. => true
  | .srmrg .. => true
  | .srst .. => true
  | .vperm .. => true
  | .vswz _ _ i => swizzleLegal i
  | .vvote _ v _ => decide (v.toNat < 3)
  | .xracc .. => true
  | .atom _ _ s c => decide (s.toNat < 10) && scopeDefined c
  | .fence s c => decide (s.toNat < 3) && scopeDefined c
  | .ld .. => true
  | .lda _ _ _ _ _ c => scopeDefined c
  | .ldc .. => true
  | .scat .. => true
  | .scatb => true
  | .sld .. => true
  | .sst .. => true
  | .st .. => true
  | .stl _ _ _ c => scopeDefined c
  | .cpy .. => true
  | .cqbar .. => true
  | .tdsc .. => true
  | .tfree .. => true
  | .tld .. => true
  | .tst .. => true
  | .tstat .. => true
  | .twait .. => true
  | .wsref .. => true
  | .aclr .. => true
  | .adrn .. => true
  | .mlease .. => true
  | .mma .. => true
  | .mmas .. => true
  | .mrel .. => true
  | .bara .. => true
  | .bars .. => true
  | .barw .. => true
  | .coll _ _ o _ c => decide (o.toNat < 5) && scopeDefined c
  | .join .. => true
  | .leave .. => true
  | .occq _ _ _ c => scopeDefined c
  | .post .. => true
  | .qcfg .. => true
  | .edgs .. => true
  | .prim _ _ m => decide (m.toNat < 3)
  | .rasadj .. => true
  | .rtadj .. => true
  | .rtini .. => true
  | .rtstep .. => true
  | .spladj .. => true
  | .splc .. => true
  | .spls .. => true
  | .tex _ _ t _ m => decide (t.toNat < 6) && decide (m.toNat < 3)
  | .texadj _ _ t _ m => decide (t.toNat < 6) && decide (m.toNat < 3)
  | .tcls => true
  | .tmark => true
  | .tpop .. => true
  | .trec .. => true
  | .tspan .. => true
  | .grow .. => true
  | .shrink .. => true
  | .trap .. => true
  | .tret .. => true
  | .xrd .. => true
  | .xwr .. => true
  | .rafInvalidate .. => true
  | .doorbell .. => true
  | .fqhead .. => true
  | .registerWrite .. => true
  | .queueConfig => true
  | .contextArea => true
  | .scatterLog => true
  | .faultQueue => true
  | .resume => true
  | .kill => true
  | .podConfig => true
  | .clusterMap => true
  | .blackboxRead => true
  | .selftestResult => true
  | .firmwareUpdate .. => true
  | .attest .. => true
  | .launchStart .. => true
  | .queueBarrier .. => true
  | .queueBarrierComplete .. => true
  | .waveAdmission .. => true
  | .mccStreamStart .. => true
  | .stageWaveDispatch .. => true
  | .launchComplete .. => true
  | .waveExchange .. => true
  | .timesliceExchange .. => true
  | .flagWaitRelease .. => true
  | .queueStallRelease .. => true
  | .growGrant .. => true
  | .tileReadyRelease .. => true
  | .leaseGrant .. => true
  | .postPartitionGrant .. => true
  | .memoryLoadComplete .. => true
  | .atomComplete .. => true
  | .copyComplete .. => true
  | .tileFillComplete .. => true
  | .tileDrainComplete .. => true
  | .collMatch .. => true
  | .collChunkComplete .. => true
  | .collComplete .. => true
  | .occqComplete .. => true
  | .texComplete .. => true
  | .texadjComplete .. => true
  | .rtstepComplete .. => true
  | .splatOpComplete .. => true
  | .edgsComplete .. => true
  | .tpopComplete .. => true
  | .mmaChunkComplete .. => true
  | .mmaComplete .. => true
  | .rasterThreadComplete .. => true
  | .handlerLimit .. => true
  | .waveKill .. => true
  | .epochClose .. => true
  | .verifyReplay .. => true
  | .arbitration .. => true
  | .clusterCordon .. => true
  | .scoreDecay .. => true
  | .mccSave .. => true
  | .mccRestore .. => true
  | .wsRefreshPhase .. => true
  | .coldReset => true
  | .warmReset => true
  | .resetRelease => true
  | .bootCheckComplete .. => true
  | .clusterSelftestResult .. => true
  | .selftestFinish .. => true
  | .clusterClockRise .. => true
  | .thermalResponse .. => true
  | .hostMemoryAccess .. => true
  | .podRemoteAccess .. => true
  | .ualinkFlitRetry => true
  | .unassignedOp .. => true
  | .unknownCommand .. => true
  | .commandCompletion => true
  | .launchSuspend .. => true
  | .launchSuspendEnd .. => true
  | .thermalResponseEnd .. => true
  | .coreClockStop .. => true
  | .coreClockStart .. => true

/-- A well-formed instruction. -/
def Instr.wellFormed (i : Instr) : Bool := i.isWord && i.fieldsLegal

end Sys2Proof
end

