-- ==== Sys2Proof/Decode.lean ====
section
/-! DEFINITION. Decoding of an instruction word (R83-R85, R102-R116), total and rejecting every word that is no row of
the opcode table, and the encoder written from the same tables. A row accepts exactly the words whose fixed bits are
those of the table, so a reserved bit that is not 0 is refused (R84). Three rows accept more words than the table lists,
because the spec gives those words a fault of their own: MODE with a bit of [5:0] (ILLEGAL_MODE, R95), QCFG with
any D (QUEUE_CONFIG, R39) and SCAT with any SZ (ILLEGAL_OPERAND, R109). -/

namespace Sys2Proof

/-- The field of `n` that begins at the bit of weight `q`, as wide as asked. -/
def fld (n q : Nat) (w : Nat) : BitVec w := BitVec.ofNat w (n / q)

/-- An instruction, if the fixed bits of its row are as the table gives them. -/
def want (c : Bool) (i : Instr) : Option Instr := if c then some i else none

/-- The fixed bits of a row: the field of `n` at weight `q`, below `m`, is `v`. -/
def fixedAt (n q m v : Nat) : Bool := n / q % m == v

/-- Class 0x0 of the opcode map. -/
def decode0 (n : Nat) : Option Instr :=
  match n / 4194304 % 64 with
  | 0 => some (.bra (fld n 1 22))
  | 1 => some (.brs (fld n 65536 6) (fld n 1 16))
  | 2 => some (.brv (fld n 524288 3) (fld n 262144 1) (fld n 1 18))
  | 3 => some (.call (fld n 524288 3) (fld n 1 19))
  | 4 => want (fixedAt n 1 4194304 0) (.endSplit)
  | 5 => want (fixedAt n 1 4194304 0) (.exit)
  | 6 => some (.jmpi (fld n 65536 6) (fld n 1 16))
  | 7 => want (fixedAt n 1 4194304 0) (.merge)
  | 8 => some (.mode (fld n 65536 6) (fld n 8192 3) (fld n 4096 1) (fld n 512 3) (fld n 128 2) (fld n 64 1) (fld n 1 6))
  | 9 => want (fixedAt n 1 4194304 0) (.nop)
  | 10 => want (fixedAt n 1 4194304 0) (.region)
  | 11 => want (fixedAt n 1 4194304 0) (.ret)
  | 12 => want (fixedAt n 1 65536 0) (.waitf (fld n 65536 6))
  | 13 => want (fixedAt n 1 4194304 0) (.yield)
  | _ => none

/-- Class 0x1 of the opcode map. -/
def decode1 (n : Nat) : Option Instr :=
  match n / 4194304 % 64 with
  | 0 => want (fixedAt n 1 2 0) (.sadd (fld n 32768 7) (fld n 256 7) (fld n 2 7))
  | 1 => some (.saddi (fld n 65536 6) (fld n 1 16))
  | 2 => want (fixedAt n 1 2 0) (.saddx (fld n 32768 7) (fld n 256 7) (fld n 2 7))
  | 3 => want (fixedAt n 1 2 0) (.sand (fld n 32768 7) (fld n 256 7) (fld n 2 7))
  | 4 => some (.sbfx (fld n 32768 7) (fld n 256 7) (fld n 2 7) (fld n 1 1))
  | 5 => want (fixedAt n 1 256 0) (.sclz (fld n 32768 7) (fld n 256 7))
  | 6 => some (.scmp (fld n 32768 7) (fld n 256 7) (fld n 2 7) (fld n 1 1))
  | 7 => some (.slih (fld n 65536 6) (fld n 1 16))
  | 8 => some (.slil (fld n 65536 6) (fld n 1 16))
  | 9 => some (.smax (fld n 32768 7) (fld n 256 7) (fld n 2 7) (fld n 1 1))
  | 10 => some (.smin (fld n 32768 7) (fld n 256 7) (fld n 2 7) (fld n 1 1))
  | 11 => want (fixedAt n 1 256 0) (.smov (fld n 32768 7) (fld n 256 7))
  | 12 => want (fixedAt n 1 2 0) (.smul (fld n 32768 7) (fld n 256 7) (fld n 2 7))
  | 13 => some (.smulh (fld n 32768 7) (fld n 256 7) (fld n 2 7) (fld n 1 1))
  | 14 => want (fixedAt n 1 2 0) (.sor (fld n 32768 7) (fld n 256 7) (fld n 2 7))
  | 15 => want (fixedAt n 1 256 0) (.spopc (fld n 32768 7) (fld n 256 7))
  | 16 => want (fixedAt n 1 2 0) (.ssel (fld n 32768 7) (fld n 256 7) (fld n 2 7))
  | 17 => want (fixedAt n 1 2 0) (.sshl (fld n 32768 7) (fld n 256 7) (fld n 2 7))
  | 18 => want (fixedAt n 1 2 0) (.sshr (fld n 32768 7) (fld n 256 7) (fld n 2 7))
  | 19 => want (fixedAt n 1 2 0) (.ssra (fld n 32768 7) (fld n 256 7) (fld n 2 7))
  | 20 => want (fixedAt n 1 2 0) (.ssub (fld n 32768 7) (fld n 256 7) (fld n 2 7))
  | 21 => want (fixedAt n 1 2 0) (.sxor (fld n 32768 7) (fld n 256 7) (fld n 2 7))
  | _ => none

/-- Class 0x2 of the opcode map. -/
def decode2 (n : Nat) : Option Instr :=
  match n / 4194304 % 64 with
  | 0 => want (fixedAt n 1 256 0) (.vabs (fld n 32768 7) (fld n 256 7))
  | 1 => want (fixedAt n 1 2 0) (.vadd (fld n 32768 7) (fld n 256 7) (fld n 2 7))
  | 2 => some (.vaddi (fld n 32768 7) (fld n 256 7) (fld n 1 8))
  | 3 => want (fixedAt n 1 2 0) (.vand (fld n 32768 7) (fld n 256 7) (fld n 2 7))
  | 4 => some (.vbfx (fld n 32768 7) (fld n 256 7) (fld n 2 7) (fld n 1 1))
  | 5 => want (fixedAt n 1 256 0) (.vclz (fld n 32768 7) (fld n 256 7))
  | 6 => want (fixedAt n 1 2 0) (.vcmp (fld n 524288 3) (fld n 32768 4) (fld n 256 7) (fld n 2 7))
  | 7 => want (fixedAt n 128 2 0) (.vcvt (fld n 32768 7) (fld n 256 7) (fld n 2 6) (fld n 1 1))
  | 8 => some (.vlane (fld n 32768 7) (fld n 256 7) (fld n 1 8))
  | 9 => want (fixedAt n 1 2 0) (.vmad (fld n 32768 7) (fld n 256 7) (fld n 2 7))
  | 10 => want (fixedAt n 1 2 0) (.vmax (fld n 32768 7) (fld n 256 7) (fld n 2 7))
  | 11 => want (fixedAt n 1 2 0) (.vmin (fld n 32768 7) (fld n 256 7) (fld n 2 7))
  | 12 => 
      if fixedAt n 1 256 0 then some (.vmov (fld n 32768 7) (fld n 256 7)) else 
      if fixedAt n 1 256 1 then some (.vmovFrm (fld n 32768 7) (fld n 256 7)) else 
      want (fixedAt n 1 256 3) (.vmovTo (fld n 32768 7) (fld n 256 7))
  | 13 => want (fixedAt n 1 2 0) (.vmul (fld n 32768 7) (fld n 256 7) (fld n 2 7))
  | 14 => want (fixedAt n 1 2 0) (.vmulh (fld n 32768 7) (fld n 256 7) (fld n 2 7))
  | 15 => want (fixedAt n 1 2 0) (.vor (fld n 32768 7) (fld n 256 7) (fld n 2 7))
  | 16 => want (fixedAt n 1 256 0) (.vpopc (fld n 32768 7) (fld n 256 7))
  | 17 => want (fixedAt n 1 2 0) (.vsel (fld n 32768 7) (fld n 256 7) (fld n 2 7))
  | 18 => want (fixedAt n 1 2 0) (.vshl (fld n 32768 7) (fld n 256 7) (fld n 2 7))
  | 19 => want (fixedAt n 1 2 0) (.vshr (fld n 32768 7) (fld n 256 7) (fld n 2 7))
  | 20 => want (fixedAt n 1 2 0) (.vsra (fld n 32768 7) (fld n 256 7) (fld n 2 7))
  | 21 => want (fixedAt n 1 2 0) (.vsub (fld n 32768 7) (fld n 256 7) (fld n 2 7))
  | 22 => want (fixedAt n 1 2 0) (.vxor (fld n 32768 7) (fld n 256 7) (fld n 2 7))
  | _ => none

/-- Class 0x3 of the opcode map. -/
def decode3 (n : Nat) : Option Instr :=
  match n / 4194304 % 64 with
  | 0 => want (fixedAt n 1 256 0) (.lcv (fld n 32768 7) (fld n 256 7))
  | 1 => want (fixedAt n 1 2 0) (.ldiv (fld n 32768 7) (fld n 256 7) (fld n 2 7))
  | 2 => want (fixedAt n 1 256 0) (.lex (fld n 32768 7) (fld n 256 7))
  | 3 => want (fixedAt n 1 2 0) (.lmul (fld n 32768 7) (fld n 256 7) (fld n 2 7))
  | 4 => want (fixedAt n 1 2 0) (.lpow (fld n 32768 7) (fld n 256 7) (fld n 2 7))
  | 5 => some (.vdotb (fld n 32768 7) (fld n 256 7) (fld n 2 7) (fld n 1 1))
  | 6 => want (fixedAt n 1 2 0) (.vdqnt (fld n 32768 7) (fld n 256 7) (fld n 2 7))
  | 7 => want (fixedAt n 1 256 0) (.vfabs (fld n 32768 7) (fld n 256 7))
  | 8 => want (fixedAt n 1 2 0) (.vfadd (fld n 32768 7) (fld n 256 7) (fld n 2 7))
  | 9 => want (fixedAt n 1 256 0) (.vfcls (fld n 32768 7) (fld n 256 7))
  | 10 => want (fixedAt n 1 2 0) (.vfcmp (fld n 524288 3) (fld n 32768 4) (fld n 256 7) (fld n 2 7))
  | 11 => want (fixedAt n 1 2 0) (.vfdot2 (fld n 32768 7) (fld n 256 7) (fld n 2 7))
  | 12 => want (fixedAt n 1 2 0) (.vfma (fld n 32768 7) (fld n 256 7) (fld n 2 7))
  | 13 => want (fixedAt n 1 2 0) (.vfmax (fld n 32768 7) (fld n 256 7) (fld n 2 7))
  | 14 => want (fixedAt n 1 2 0) (.vfmin (fld n 32768 7) (fld n 256 7) (fld n 2 7))
  | 15 => want (fixedAt n 1 2 0) (.vfmul (fld n 32768 7) (fld n 256 7) (fld n 2 7))
  | 16 => want (fixedAt n 1 256 0) (.vfrnd (fld n 32768 7) (fld n 256 7))
  | 17 => want (fixedAt n 1 2 0) (.vfsub (fld n 32768 7) (fld n 256 7) (fld n 2 7))
  | 18 => want (fixedAt n 1 2 0) (.vqnt (fld n 32768 7) (fld n 256 7) (fld n 2 7))
  | 19 => want (fixedAt n 1 2 0) (.vxf64 (fld n 32768 7) (fld n 256 7) (fld n 2 7))
  | _ => none

/-- Class 0x4 of the opcode map. -/
def decode4 (n : Nat) : Option Instr :=
  match n / 4194304 % 64 with
  | 0 => want (fixedAt n 1 2 0 && fixedAt n 16 16 0 && fixedAt n 2048 16 0) (.plog (fld n 524288 3) (fld n 32768 4) (fld n 256 3) (fld n 2 3))
  | 1 => want (fixedAt n 4 64 0 && fixedAt n 32768 128 0) (.sracc (fld n 256 7) (fld n 1 2))
  | 2 => want (fixedAt n 4 64 0) (.sracw (fld n 32768 7) (fld n 256 7) (fld n 1 2))
  | 3 => want (fixedAt n 4 4 0) (.srdrn (fld n 32768 7) (fld n 256 7) (fld n 16 4) (fld n 1 2))
  | 4 => want (fixedAt n 4 4 0) (.srget (fld n 32768 7) (fld n 256 7) (fld n 16 4) (fld n 1 2))
  | 5 => 
      if fixedAt n 4 1048576 0 then some (.srini (fld n 1 2)) else 
      want (fixedAt n 4 64 4 && fixedAt n 32768 128 0) (.sriniLd (fld n 256 7) (fld n 1 2))
  | 6 => want (fixedAt n 4 4 0 && fixedAt n 64 65536 0) (.srmrg (fld n 16 2) (fld n 1 2))
  | 7 => want (fixedAt n 4 64 0 && fixedAt n 32768 128 0) (.srst (fld n 256 7) (fld n 1 2))
  | 8 => want (fixedAt n 1 2 0) (.vperm (fld n 32768 7) (fld n 256 7) (fld n 2 7))
  | 9 => some (.vswz (fld n 32768 7) (fld n 256 7) (fld n 1 8))
  | 10 => want (fixedAt n 32 1024 0) (.vvote (fld n 32768 7) (fld n 8 2) (fld n 1 3))
  | 11 => want (fixedAt n 4 4 0 && fixedAt n 64 4 0) (.xracc (fld n 32768 7) (fld n 256 7) (fld n 32 1) (fld n 16 1) (fld n 1 2))
  | _ => none

/-- Class 0x5 of the opcode map. -/
def decode5 (n : Nat) : Option Instr :=
  match n / 4194304 % 64 with
  | 0 => some (.atom (fld n 32768 7) (fld n 256 7) (fld n 16 4) (fld n 1 4))
  | 1 => want (fixedAt n 256 16384 0) (.fence (fld n 16 4) (fld n 1 4))
  | 2 => some (.ld (fld n 32768 7) (fld n 256 7) (fld n 8 5) (fld n 2 2) (fld n 1 1))
  | 3 => some (.lda (fld n 32768 7) (fld n 256 7) (fld n 64 2) (fld n 32 1) (fld n 16 1) (fld n 1 4))
  | 4 => some (.ldc (fld n 32768 7) (fld n 256 7) (fld n 8 5) (fld n 2 2) (fld n 1 1))
  | 5 => want (fixedAt n 1 2 0) (.scat (fld n 32768 7) (fld n 256 7) (fld n 8 5) (fld n 2 2))
  | 6 => want (fixedAt n 1 4194304 0) (.scatb)
  | 7 => some (.sld (fld n 32768 7) (fld n 256 7) (fld n 8 5) (fld n 2 2) (fld n 1 1))
  | 8 => want (fixedAt n 1 2 0) (.sst (fld n 32768 7) (fld n 256 7) (fld n 8 5) (fld n 2 2))
  | 9 => want (fixedAt n 1 2 0) (.st (fld n 32768 7) (fld n 256 7) (fld n 8 5) (fld n 2 2))
  | 10 => want (fixedAt n 16 4 0) (.stl (fld n 32768 7) (fld n 256 7) (fld n 64 2) (fld n 1 4))
  | _ => none

/-- Class 0x6 of the opcode map. -/
def decode6 (n : Nat) : Option Instr :=
  match n / 4194304 % 64 with
  | 0 => want (fixedAt n 1 16 0) (.cpy (fld n 32768 7) (fld n 256 7) (fld n 32 3) (fld n 16 1))
  | 1 => want (fixedAt n 1 256 0 && fixedAt n 32768 128 0) (.cqbar (fld n 256 7))
  | 2 => want (fixedAt n 1 256 0 && fixedAt n 1048576 4 0) (.tdsc (fld n 32768 5) (fld n 256 7))
  | 3 => want (fixedAt n 1 32768 0 && fixedAt n 1048576 4 0) (.tfree (fld n 32768 5))
  | 4 => want (fixedAt n 1 16 0 && fixedAt n 64 4 0 && fixedAt n 1048576 4 0) (.tld (fld n 32768 5) (fld n 256 7) (fld n 32 1) (fld n 16 1))
  | 5 => want (fixedAt n 1 16 0 && fixedAt n 32 8 0 && fixedAt n 1048576 4 0) (.tst (fld n 32768 5) (fld n 256 7) (fld n 16 1))
  | 6 => want (fixedAt n 1 256 0 && fixedAt n 8192 4 0) (.tstat (fld n 32768 7) (fld n 256 5))
  | 7 => want (fixedAt n 1 32768 0 && fixedAt n 1048576 4 0) (.twait (fld n 32768 5))
  | 8 => want (fixedAt n 1 256 0) (.wsref (fld n 32768 7) (fld n 256 7))
  | _ => none

/-- Class 0x7 of the opcode map. -/
def decode7 (n : Nat) : Option Instr :=
  match n / 4194304 % 64 with
  | 0 => want (fixedAt n 1 32768 0 && fixedAt n 524288 8 0) (.aclr (fld n 32768 4))
  | 1 => want (fixedAt n 1 256 0 && fixedAt n 4096 8 0 && fixedAt n 1048576 4 0) (.adrn (fld n 32768 5) (fld n 256 4))
  | 2 => want (fixedAt n 1 256 0) (.mlease (fld n 32768 7) (fld n 256 7))
  | 3 => want (fixedAt n 1 8 0 && fixedAt n 8192 4 0 && fixedAt n 524288 8 0) (.mma (fld n 32768 4) (fld n 256 5) (fld n 8 5))
  | 4 => want (fixedAt n 1 8 0 && fixedAt n 8192 4 0 && fixedAt n 524288 8 0) (.mmas (fld n 32768 4) (fld n 256 5) (fld n 8 5))
  | 5 => want (fixedAt n 1 256 0 && fixedAt n 32768 128 0) (.mrel (fld n 256 7))
  | _ => none

/-- Class 0x8 of the opcode map. -/
def decode8 (n : Nat) : Option Instr :=
  match n / 4194304 % 64 with
  | 0 => want (fixedAt n 128 2 0 && fixedAt n 32768 128 0) (.bara (fld n 256 7) (fld n 1 7))
  | 1 => want (fixedAt n 128 2 0 && fixedAt n 32768 128 0) (.bars (fld n 256 7) (fld n 1 7))
  | 2 => want (fixedAt n 128 2 0 && fixedAt n 32768 128 0) (.barw (fld n 256 7) (fld n 1 7))
  | 3 => some (.coll (fld n 32768 7) (fld n 256 7) (fld n 32 3) (fld n 16 1) (fld n 1 4))
  | 4 => want (fixedAt n 16 262144 0) (.join (fld n 1 4))
  | 5 => want (fixedAt n 16 262144 0) (.leave (fld n 1 4))
  | 6 => want (fixedAt n 32 8 0) (.occq (fld n 32768 7) (fld n 256 7) (fld n 16 1) (fld n 1 4))
  | 7 => want (fixedAt n 1 16 0) (.post (fld n 32768 7) (fld n 256 7) (fld n 16 4))
  | 8 => want (fixedAt n 1 256 0) (.qcfg (fld n 32768 7) (fld n 256 7))
  | _ => none

/-- Class 0x9 of the opcode map. -/
def decode9 (n : Nat) : Option Instr :=
  match n / 4194304 % 64 with
  | 0 => want (fixedAt n 1 16 0 && fixedAt n 32 8 0) (.edgs (fld n 32768 7) (fld n 256 7) (fld n 16 1))
  | 1 => want (fixedAt n 1 16 0 && fixedAt n 64 4 0) (.prim (fld n 32768 7) (fld n 256 7) (fld n 16 2))
  | 2 => want (fixedAt n 1 256 0) (.rasadj (fld n 32768 7) (fld n 256 7))
  | 3 => want (fixedAt n 1 256 0) (.rtadj (fld n 32768 7) (fld n 256 7))
  | 4 => want (fixedAt n 1 256 0) (.rtini (fld n 32768 7) (fld n 256 7))
  | 5 => want (fixedAt n 1 16 0 && fixedAt n 32 8 0) (.rtstep (fld n 32768 7) (fld n 256 7) (fld n 16 1))
  | 6 => want (fixedAt n 1 16 0 && fixedAt n 32 8 0) (.spladj (fld n 32768 7) (fld n 256 7) (fld n 16 1))
  | 7 => want (fixedAt n 1 16 0 && fixedAt n 32 8 0) (.splc (fld n 32768 7) (fld n 256 7) (fld n 16 1))
  | 8 => want (fixedAt n 1 16 0 && fixedAt n 32 8 0) (.spls (fld n 32768 7) (fld n 256 7) (fld n 16 1))
  | 9 => want (fixedAt n 4 4 0) (.tex (fld n 32768 7) (fld n 256 7) (fld n 32 3) (fld n 16 1) (fld n 1 2))
  | 10 => want (fixedAt n 4 4 0) (.texadj (fld n 32768 7) (fld n 256 7) (fld n 32 3) (fld n 16 1) (fld n 1 2))
  | _ => none

/-- Class 0xA of the opcode map. -/
def decodeA (n : Nat) : Option Instr :=
  match n / 4194304 % 64 with
  | 0 => want (fixedAt n 1 4194304 0) (.tcls)
  | 1 => want (fixedAt n 1 4194304 0) (.tmark)
  | 2 => want (fixedAt n 1 16 0 && fixedAt n 32 8 0) (.tpop (fld n 32768 7) (fld n 256 7) (fld n 16 1))
  | 3 => want (fixedAt n 1 256 0) (.trec (fld n 32768 7) (fld n 256 7))
  | 4 => want (fixedAt n 2 8 0 && fixedAt n 256 128 0) (.tspan (fld n 32768 7) (fld n 16 4) (fld n 1 1))
  | _ => none

/-- Class 0xB of the opcode map. -/
def decodeB (n : Nat) : Option Instr :=
  match n / 4194304 % 64 with
  | 0 => want (fixedAt n 256 16384 0) (.grow (fld n 1 8))
  | 1 => want (fixedAt n 256 16384 0) (.shrink (fld n 1 8))
  | 2 => want (fixedAt n 256 16384 0) (.trap (fld n 1 8))
  | 3 => want (fixedAt n 2 2097152 0) (.tret (fld n 1 1))
  | 4 => want (fixedAt n 256 128 0) (.xrd (fld n 32768 7) (fld n 1 8))
  | 5 => want (fixedAt n 32768 128 0) (.xwr (fld n 256 7) (fld n 1 8))
  | _ => none

/-- Decodes the word whose bits are `n`. -/
def decodeNat (n : Nat) : Option Instr :=
  match n / 268435456 % 16 with
  | 0 => decode0 n
  | 1 => decode1 n
  | 2 => decode2 n
  | 3 => decode3 n
  | 4 => decode4 n
  | 5 => decode5 n
  | 6 => decode6 n
  | 7 => decode7 n
  | 8 => decode8 n
  | 9 => decode9 n
  | 10 => decodeA n
  | 11 => decodeB n
  | 15 => want (fixedAt n 67108864 4 3) (.clause (fld n 16384 12) (fld n 8192 1) (fld n 512 4) (fld n 256 1) (fld n 16 4) (fld n 1 4))
  | _ => none

/-- The instruction a word stands for (R82: bit 31 is the most significant). -/
def decodeWord (w : Word) : Option Instr := decodeNat w.toNat

/-- The bits of an instruction's word; 0 for a step that has no word. -/
def encodeNat (i : Instr) : Nat :=
  match i with
  | .bra o => 0x0 + o.toNat
  | .brs s i => 0x400000 + s.toNat * 65536 + i.toNat
  | .brv p n o => 0x800000 + p.toNat * 524288 + n.toNat * 262144 + o.toNat
  | .call f o => 0xc00000 + f.toNat * 524288 + o.toNat
  | .endSplit => 0x1000000
  | .exit => 0x1400000
  | .jmpi s i => 0x1800000 + s.toNat * 65536 + i.toNat
  | .merge => 0x1c00000
  | .mode e g v r t z x => 0x2000000 + e.toNat * 65536 + g.toNat * 8192 + v.toNat * 4096 + r.toNat * 512 + t.toNat * 128 + z.toNat * 64 + x.toNat
  | .nop => 0x2400000
  | .region => 0x2800000
  | .ret => 0x2c00000
  | .waitf s => 0x3000000 + s.toNat * 65536
  | .yield => 0x3400000
  | .clause w a f b g l => 0xfc000000 + w.toNat * 16384 + a.toNat * 8192 + f.toNat * 512 + b.toNat * 256 + g.toNat * 16 + l.toNat
  | .sadd d a b => 0x10000000 + d.toNat * 32768 + a.toNat * 256 + b.toNat * 2
  | .saddi s i => 0x10400000 + s.toNat * 65536 + i.toNat
  | .saddx d a b => 0x10800000 + d.toNat * 32768 + a.toNat * 256 + b.toNat * 2
  | .sand d a b => 0x10c00000 + d.toNat * 32768 + a.toNat * 256 + b.toNat * 2
  | .sbfx d a b x => 0x11000000 + d.toNat * 32768 + a.toNat * 256 + b.toNat * 2 + x.toNat
  | .sclz d a => 0x11400000 + d.toNat * 32768 + a.toNat * 256
  | .scmp d a b x => 0x11800000 + d.toNat * 32768 + a.toNat * 256 + b.toNat * 2 + x.toNat
  | .slih s i => 0x11c00000 + s.toNat * 65536 + i.toNat
  | .slil s i => 0x12000000 + s.toNat * 65536 + i.toNat
  | .smax d a b x => 0x12400000 + d.toNat * 32768 + a.toNat * 256 + b.toNat * 2 + x.toNat
  | .smin d a b x => 0x12800000 + d.toNat * 32768 + a.toNat * 256 + b.toNat * 2 + x.toNat
  | .smov d a => 0x12c00000 + d.toNat * 32768 + a.toNat * 256
  | .smul d a b => 0x13000000 + d.toNat * 32768 + a.toNat * 256 + b.toNat * 2
  | .smulh d a b x => 0x13400000 + d.toNat * 32768 + a.toNat * 256 + b.toNat * 2 + x.toNat
  | .sor d a b => 0x13800000 + d.toNat * 32768 + a.toNat * 256 + b.toNat * 2
  | .spopc d a => 0x13c00000 + d.toNat * 32768 + a.toNat * 256
  | .ssel d a b => 0x14000000 + d.toNat * 32768 + a.toNat * 256 + b.toNat * 2
  | .sshl d a b => 0x14400000 + d.toNat * 32768 + a.toNat * 256 + b.toNat * 2
  | .sshr d a b => 0x14800000 + d.toNat * 32768 + a.toNat * 256 + b.toNat * 2
  | .ssra d a b => 0x14c00000 + d.toNat * 32768 + a.toNat * 256 + b.toNat * 2
  | .ssub d a b => 0x15000000 + d.toNat * 32768 + a.toNat * 256 + b.toNat * 2
  | .sxor d a b => 0x15400000 + d.toNat * 32768 + a.toNat * 256 + b.toNat * 2
  | .vabs d a => 0x20000000 + d.toNat * 32768 + a.toNat * 256
  | .vadd d a b => 0x20400000 + d.toNat * 32768 + a.toNat * 256 + b.toNat * 2
  | .vaddi d a i => 0x20800000 + d.toNat * 32768 + a.toNat * 256 + i.toNat
  | .vand d a b => 0x20c00000 + d.toNat * 32768 + a.toNat * 256 + b.toNat * 2
  | .vbfx d a b x => 0x21000000 + d.toNat * 32768 + a.toNat * 256 + b.toNat * 2 + x.toNat
  | .vclz d a => 0x21400000 + d.toNat * 32768 + a.toNat * 256
  | .vcmp p c a b => 0x21800000 + p.toNat * 524288 + c.toNat * 32768 + a.toNat * 256 + b.toNat * 2
  | .vcvt d a e x => 0x21c00000 + d.toNat * 32768 + a.toNat * 256 + e.toNat * 2 + x.toNat
  | .vlane d a i => 0x22000000 + d.toNat * 32768 + a.toNat * 256 + i.toNat
  | .vmad d a b => 0x22400000 + d.toNat * 32768 + a.toNat * 256 + b.toNat * 2
  | .vmax d a b => 0x22800000 + d.toNat * 32768 + a.toNat * 256 + b.toNat * 2
  | .vmin d a b => 0x22c00000 + d.toNat * 32768 + a.toNat * 256 + b.toNat * 2
  | .vmov d a => 0x23000000 + d.toNat * 32768 + a.toNat * 256
  | .vmovFrm d a => 0x23000001 + d.toNat * 32768 + a.toNat * 256
  | .vmovTo d a => 0x23000003 + d.toNat * 32768 + a.toNat * 256
  | .vmul d a b => 0x23400000 + d.toNat * 32768 + a.toNat * 256 + b.toNat * 2
  | .vmulh d a b => 0x23800000 + d.toNat * 32768 + a.toNat * 256 + b.toNat * 2
  | .vor d a b => 0x23c00000 + d.toNat * 32768 + a.toNat * 256 + b.toNat * 2
  | .vpopc d a => 0x24000000 + d.toNat * 32768 + a.toNat * 256
  | .vsel d a b => 0x24400000 + d.toNat * 32768 + a.toNat * 256 + b.toNat * 2
  | .vshl d a b => 0x24800000 + d.toNat * 32768 + a.toNat * 256 + b.toNat * 2
  | .vshr d a b => 0x24c00000 + d.toNat * 32768 + a.toNat * 256 + b.toNat * 2
  | .vsra d a b => 0x25000000 + d.toNat * 32768 + a.toNat * 256 + b.toNat * 2
  | .vsub d a b => 0x25400000 + d.toNat * 32768 + a.toNat * 256 + b.toNat * 2
  | .vxor d a b => 0x25800000 + d.toNat * 32768 + a.toNat * 256 + b.toNat * 2
  | .lcv d a => 0x30000000 + d.toNat * 32768 + a.toNat * 256
  | .ldiv d a b => 0x30400000 + d.toNat * 32768 + a.toNat * 256 + b.toNat * 2
  | .lex d a => 0x30800000 + d.toNat * 32768 + a.toNat * 256
  | .lmul d a b => 0x30c00000 + d.toNat * 32768 + a.toNat * 256 + b.toNat * 2
  | .lpow d a b => 0x31000000 + d.toNat * 32768 + a.toNat * 256 + b.toNat * 2
  | .vdotb d a b x => 0x31400000 + d.toNat * 32768 + a.toNat * 256 + b.toNat * 2 + x.toNat
  | .vdqnt d a b => 0x31800000 + d.toNat * 32768 + a.toNat * 256 + b.toNat * 2
  | .vfabs d a => 0x31c00000 + d.toNat * 32768 + a.toNat * 256
  | .vfadd d a b => 0x32000000 + d.toNat * 32768 + a.toNat * 256 + b.toNat * 2
  | .vfcls d a => 0x32400000 + d.toNat * 32768 + a.toNat * 256
  | .vfcmp p c a b => 0x32800000 + p.toNat * 524288 + c.toNat * 32768 + a.toNat * 256 + b.toNat * 2
  | .vfdot2 d a b => 0x32c00000 + d.toNat * 32768 + a.toNat * 256 + b.toNat * 2
  | .vfma d a b => 0x33000000 + d.toNat * 32768 + a.toNat * 256 + b.toNat * 2
  | .vfmax d a b => 0x33400000 + d.toNat * 32768 + a.toNat * 256 + b.toNat * 2
  | .vfmin d a b => 0x33800000 + d.toNat * 32768 + a.toNat * 256 + b.toNat * 2
  | .vfmul d a b => 0x33c00000 + d.toNat * 32768 + a.toNat * 256 + b.toNat * 2
  | .vfrnd d a => 0x34000000 + d.toNat * 32768 + a.toNat * 256
  | .vfsub d a b => 0x34400000 + d.toNat * 32768 + a.toNat * 256 + b.toNat * 2
  | .vqnt d a b => 0x34800000 + d.toNat * 32768 + a.toNat * 256 + b.toNat * 2
  | .vxf64 d a b => 0x34c00000 + d.toNat * 32768 + a.toNat * 256 + b.toNat * 2
  | .plog d f a b => 0x40000000 + d.toNat * 524288 + f.toNat * 32768 + a.toNat * 256 + b.toNat * 2
  | .sracc a k => 0x40400000 + a.toNat * 256 + k.toNat
  | .sracw d a k => 0x40800000 + d.toNat * 32768 + a.toNat * 256 + k.toNat
  | .srdrn d a s k => 0x40c00000 + d.toNat * 32768 + a.toNat * 256 + s.toNat * 16 + k.toNat
  | .srget d a s k => 0x41000000 + d.toNat * 32768 + a.toNat * 256 + s.toNat * 16 + k.toNat
  | .srini k => 0x41400000 + k.toNat
  | .sriniLd a k => 0x41400010 + a.toNat * 256 + k.toNat
  | .srmrg j k => 0x41800000 + j.toNat * 16 + k.toNat
  | .srst a k => 0x41c00000 + a.toNat * 256 + k.toNat
  | .vperm d a b => 0x42000000 + d.toNat * 32768 + a.toNat * 256 + b.toNat * 2
  | .vswz d a i => 0x42400000 + d.toNat * 32768 + a.toNat * 256 + i.toNat
  | .vvote d v p => 0x42800000 + d.toNat * 32768 + v.toNat * 8 + p.toNat
  | .xracc d a n m k => 0x42c00000 + d.toNat * 32768 + a.toNat * 256 + n.toNat * 32 + m.toNat * 16 + k.toNat
  | .atom d a s c => 0x50000000 + d.toNat * 32768 + a.toNat * 256 + s.toNat * 16 + c.toNat
  | .fence s c => 0x50400000 + s.toNat * 16 + c.toNat
  | .ld d a o z f => 0x50800000 + d.toNat * 32768 + a.toNat * 256 + o.toNat * 8 + z.toNat * 2 + f.toNat
  | .lda d a z r f c => 0x50c00000 + d.toNat * 32768 + a.toNat * 256 + z.toNat * 64 + r.toNat * 32 + f.toNat * 16 + c.toNat
  | .ldc d a o z f => 0x51000000 + d.toNat * 32768 + a.toNat * 256 + o.toNat * 8 + z.toNat * 2 + f.toNat
  | .scat d a o z => 0x51400000 + d.toNat * 32768 + a.toNat * 256 + o.toNat * 8 + z.toNat * 2
  | .scatb => 0x51800000
  | .sld d a o z f => 0x51c00000 + d.toNat * 32768 + a.toNat * 256 + o.toNat * 8 + z.toNat * 2 + f.toNat
  | .sst d a o z => 0x52000000 + d.toNat * 32768 + a.toNat * 256 + o.toNat * 8 + z.toNat * 2
  | .st d a o z => 0x52400000 + d.toNat * 32768 + a.toNat * 256 + o.toNat * 8 + z.toNat * 2
  | .stl d a z c => 0x52800000 + d.toNat * 32768 + a.toNat * 256 + z.toNat * 64 + c.toNat
  | .cpy d a q f => 0x60000000 + d.toNat * 32768 + a.toNat * 256 + q.toNat * 32 + f.toNat * 16
  | .cqbar a => 0x60400000 + a.toNat * 256
  | .tdsc t a => 0x60800000 + t.toNat * 32768 + a.toNat * 256
  | .tfree t => 0x60c00000 + t.toNat * 32768
  | .tld t a r f => 0x61000000 + t.toNat * 32768 + a.toNat * 256 + r.toNat * 32 + f.toNat * 16
  | .tst t a f => 0x61400000 + t.toNat * 32768 + a.toNat * 256 + f.toNat * 16
  | .tstat d t => 0x61800000 + d.toNat * 32768 + t.toNat * 256
  | .twait t => 0x61c00000 + t.toNat * 32768
  | .wsref d a => 0x62000000 + d.toNat * 32768 + a.toNat * 256
  | .aclr d => 0x70000000 + d.toNat * 32768
  | .adrn t a => 0x70400000 + t.toNat * 32768 + a.toNat * 256
  | .mlease d a => 0x70800000 + d.toNat * 32768 + a.toNat * 256
  | .mma d a b => 0x70c00000 + d.toNat * 32768 + a.toNat * 256 + b.toNat * 8
  | .mmas d a b => 0x71000000 + d.toNat * 32768 + a.toNat * 256 + b.toNat * 8
  | .mrel a => 0x71400000 + a.toNat * 256
  | .bara a b => 0x80000000 + a.toNat * 256 + b.toNat
  | .bars a b => 0x80400000 + a.toNat * 256 + b.toNat
  | .barw a b => 0x80800000 + a.toNat * 256 + b.toNat
  | .coll d a o f c => 0x80c00000 + d.toNat * 32768 + a.toNat * 256 + o.toNat * 32 + f.toNat * 16 + c.toNat
  | .join q => 0x81000000 + q.toNat
  | .leave q => 0x81400000 + q.toNat
  | .occq d a f c => 0x81800000 + d.toNat * 32768 + a.toNat * 256 + f.toNat * 16 + c.toNat
  | .post d a s => 0x81c00000 + d.toNat * 32768 + a.toNat * 256 + s.toNat * 16
  | .qcfg d a => 0x82000000 + d.toNat * 32768 + a.toNat * 256
  | .edgs d a f => 0x90000000 + d.toNat * 32768 + a.toNat * 256 + f.toNat * 16
  | .prim d a m => 0x90400000 + d.toNat * 32768 + a.toNat * 256 + m.toNat * 16
  | .rasadj d a => 0x90800000 + d.toNat * 32768 + a.toNat * 256
  | .rtadj d a => 0x90c00000 + d.toNat * 32768 + a.toNat * 256
  | .rtini d a => 0x91000000 + d.toNat * 32768 + a.toNat * 256
  | .rtstep d a f => 0x91400000 + d.toNat * 32768 + a.toNat * 256 + f.toNat * 16
  | .spladj d a f => 0x91800000 + d.toNat * 32768 + a.toNat * 256 + f.toNat * 16
  | .splc d a f => 0x91c00000 + d.toNat * 32768 + a.toNat * 256 + f.toNat * 16
  | .spls d a f => 0x92000000 + d.toNat * 32768 + a.toNat * 256 + f.toNat * 16
  | .tex d a t f m => 0x92400000 + d.toNat * 32768 + a.toNat * 256 + t.toNat * 32 + f.toNat * 16 + m.toNat
  | .texadj d a t f m => 0x92800000 + d.toNat * 32768 + a.toNat * 256 + t.toNat * 32 + f.toNat * 16 + m.toNat
  | .tcls => 0xa0000000
  | .tmark => 0xa0400000
  | .tpop d a f => 0xa0800000 + d.toNat * 32768 + a.toNat * 256 + f.toNat * 16
  | .trec d a => 0xa0c00000 + d.toNat * 32768 + a.toNat * 256
  | .tspan d n r => 0xa1000000 + d.toNat * 32768 + n.toNat * 16 + r.toNat
  | .grow n => 0xb0000000 + n.toNat
  | .shrink n => 0xb0400000 + n.toNat
  | .trap c => 0xb0800000 + c.toNat
  | .tret n => 0xb0c00000 + n.toNat
  | .xrd d i => 0xb1000000 + d.toNat * 32768 + i.toNat
  | .xwr a i => 0xb1400000 + a.toNat * 256 + i.toNat
  | .rafInvalidate .. => 0
  | .doorbell .. => 0
  | .fqhead .. => 0
  | .registerWrite .. => 0
  | .queueConfig => 0
  | .contextArea => 0
  | .scatterLog => 0
  | .faultQueue => 0
  | .resume => 0
  | .kill => 0
  | .podConfig => 0
  | .clusterMap => 0
  | .blackboxRead => 0
  | .selftestResult => 0
  | .firmwareUpdate .. => 0
  | .attest .. => 0
  | .launchStart .. => 0
  | .queueBarrier .. => 0
  | .queueBarrierComplete .. => 0
  | .waveAdmission .. => 0
  | .mccStreamStart .. => 0
  | .stageWaveDispatch .. => 0
  | .launchComplete .. => 0
  | .waveExchange .. => 0
  | .timesliceExchange .. => 0
  | .flagWaitRelease .. => 0
  | .queueStallRelease .. => 0
  | .growGrant .. => 0
  | .tileReadyRelease .. => 0
  | .leaseGrant .. => 0
  | .postPartitionGrant .. => 0
  | .memoryLoadComplete .. => 0
  | .atomComplete .. => 0
  | .copyComplete .. => 0
  | .tileFillComplete .. => 0
  | .tileDrainComplete .. => 0
  | .collMatch .. => 0
  | .collChunkComplete .. => 0
  | .collComplete .. => 0
  | .occqComplete .. => 0
  | .texComplete .. => 0
  | .texadjComplete .. => 0
  | .rtstepComplete .. => 0
  | .splatOpComplete .. => 0
  | .edgsComplete .. => 0
  | .tpopComplete .. => 0
  | .mmaChunkComplete .. => 0
  | .mmaComplete .. => 0
  | .rasterThreadComplete .. => 0
  | .handlerLimit .. => 0
  | .waveKill .. => 0
  | .epochClose .. => 0
  | .verifyReplay .. => 0
  | .arbitration .. => 0
  | .clusterCordon .. => 0
  | .scoreDecay .. => 0
  | .mccSave .. => 0
  | .mccRestore .. => 0
  | .wsRefreshPhase .. => 0
  | .coldReset => 0
  | .warmReset => 0
  | .resetRelease => 0
  | .bootCheckComplete .. => 0
  | .clusterSelftestResult .. => 0
  | .selftestFinish .. => 0
  | .clusterClockRise .. => 0
  | .thermalResponse .. => 0
  | .hostMemoryAccess .. => 0
  | .podRemoteAccess .. => 0
  | .ualinkFlitRetry => 0
  | .unassignedOp .. => 0
  | .unknownCommand .. => 0
  | .commandCompletion => 0
  | .launchSuspend .. => 0
  | .launchSuspendEnd .. => 0
  | .thermalResponseEnd .. => 0
  | .coreClockStop .. => 0
  | .coreClockStart .. => 0

/-- The word of an instruction (R83). -/
def encode (i : Instr) : Word := BitVec.ofNat 32 (encodeNat i)

/-- The four bytes of a word, little-endian (R82). -/
def wordBytes (w : Word) : List Byte :=
  [BitVec.ofNat 8 w.toNat, BitVec.ofNat 8 (w.toNat / 256), BitVec.ofNat 8 (w.toNat / 65536),
   BitVec.ofNat 8 (w.toNat / 16777216)]

/-- The word of four bytes at rising addresses, little-endian (R82). -/
def bytesWord (b0 b1 b2 b3 : Byte) : Word := b3 ++ b2 ++ b1 ++ b0

/-- What the decoder reads at the front of a list of bytes. -/
def decodeBytes : List Byte -> Option Instr
  | b0 :: b1 :: b2 :: b3 :: _ => decodeWord (bytesWord b0 b1 b2 b3)
  | _ => none

/-- The instruction the decoder reads from the bits `w` of a table row. Every instruction is one word of 32 bits (R83);
the rows without a word have no bits and decode to nothing. -/
def decodeTableWord (nbits w : Nat) : Option Instr :=
  if nbits = 0 then none else decodeBytes (wordBytes (BitVec.ofNat 32 w))

end Sys2Proof
end

