-- ==== Sys2Proof/Config.lean ====
section
/-! DEFINITION. What an implementation fixes, and the free values: constants without a body, so that nothing can be
proved about the value the spec leaves open (DESIGN CHOICE, log 4). -/

namespace Sys2Proof

/-- A register value the spec leaves undefined: after a kill (R249, R250), after SHRINK (R46), an unstated result. -/
opaque Config.freeWord : Nat → BitVec 32
/-- A 64-bit value the spec leaves open. -/
opaque Config.freeDouble : Nat → BitVec 64
/-- A byte the spec leaves open. -/
opaque Config.freeByte : Nat → BitVec 8
/-- How far a running core's cycle counter has moved since it was last read (R55). -/
opaque Config.freeClocks : Nat → Nat
/-- A choice the spec leaves open between two outcomes. -/
opaque Config.freeChoice : Nat → Bool
/-- The device identity that an attestation report carries (R280). -/
opaque Config.deviceIdentity : Nat → BitVec 8
/-- The failure code of a die whose self-test failed (R405: its meaning is not architectural). -/
opaque Config.failureCode : Nat → BitVec 32
/-- How many bytes the save of a cluster's MCC streams needs (R405, CONTEXT_AREA). -/
opaque Config.saveBytes : Nat → Nat

/-- Bytes of local HBM4: 384 GiB (R267). -/
def Config.hbmBytes : Nat := 412316860416
/-- Bytes of one weight store: 256 MiB (R146). -/
def Config.wsBytes : Nat := 268435456
/-- Bytes of one Plaza: 3 MiB (R57, R237). -/
def Config.plazaBytes : Nat := 3145728
/-- Allotment units of a partition (R45). -/
def Config.allotUnits : Nat := 2048
/-- Resident wave slots of a partition (R8). -/
def Config.waveSlots : Nat := 32
/-- Active slots of a partition (R50). -/
def Config.activeSlots : Nat := 8
/-- Bytes of a release buffer (R246). -/
def Config.releaseBytes : Nat := 16384
/-- Entries of a hardware queue (R40). -/
def Config.queueEntries : Nat := 64
/-- Records of a black-box ring (R279). -/
def Config.bboxRecords : Nat := 4096
/-- On-chip cards of a stage queue (R67). -/
def Config.chipCards : Nat := 256
/-- Clock of a cluster in service, in MHz (R277). -/
def Config.serviceMhz : Nat := 2100
/-- Clock of a cluster during self-test, in MHz (R277). -/
def Config.testMhz : Nat := 1200
/-- Copies in flight of a copy engine (R14). -/
def Config.copySlots : Nat := 128

end Sys2Proof
end

