-- ==== Sys2Proof/Machine/State.lean ====
section
/-! DEFINITION. The state of the machine as plain data: every piece of state the spec names (INVENTORY.md lists each with
its rule), and the few fields of the model's own (agenda, issuer, fresh, nextId, outside). -/

namespace Sys2Proof.Machine

/-- The fault codes of R254, in the order of their numbers from 0x01. -/
inductive FaultCode where
  | illegalInstruction | illegalOperand | illegalReg | illegalMode | unflaggedRead | alignment | aperture
  | translation | permission | staleHandle | tileState | wsWrite | copyOverlap | detViolation | tapeMix
  | tapeExhausted | releaseOverflow | divergenceOverflow | stackOverflow | noLease | queueConfig
  | eccUncorrectable | doubleFault | software | privilege | route
  deriving DecidableEq, Repr

/-- The MODE register (R95). -/
structure Mode where
  etype : BitVec 6
  guard : BitVec 3
  ginv  : Bool
  rnd   : BitVec 3
  sat   : BitVec 2
  ftz   : Bool
  deriving DecidableEq, Repr

/-- MODE at launch and at handler entry (R54, R258). -/
def Mode.initial : Mode := { etype := 0, guard := 7, ginv := false, rnd := 0, sat := 0, ftz := false }

/-- An entry of a mask stack (R25, R27). -/
inductive MaskEntry where
  | pending (pc : Addr) (mask base : LaneMask) (dii : BitVec 64)
  | rejoin (addr : Addr) (base : LaneMask) (dii : BitVec 64)
  deriving DecidableEq, Repr

/-- A linkage entry (R44), or the trap frame of a handler entry (R258), with the entries its frame takes. -/
inductive Linkage where
  | call (ret : Addr) (f : Nat)
  | trap (f : Nat)
  deriving DecidableEq, Repr

/-- The flag choices of a clause header (R85). -/
structure Header where
  fa : Option Nat
  fb : Option Nat
  deriving DecidableEq, Repr

/-- A fault as an instruction meets it: code, walk subtype and level, TRAP code, address, and the lanes it names, the
lanes whose access had completed, whether the retry set is empty (R259), the address of the instruction where it is
not the one that issues (R266), the structure where an uncorrectable error was met (R279; 0 without one), and for an access
to another package that failed (R271) its physical address and the code of its record. A late engine fault names the flag of its
operation too (R266). -/
structure Exn where
  code   : FaultCode
  sub    : Nat
  level  : Nat
  sw     : Nat
  addr   : Addr
  mask   : Option LaneMask
  done   : LaneMask
  empty  : Bool
  pc     : Option Addr
  place  : Nat
  link   : Option (Nat × Nat)
  flag   : Option Nat
  deriving DecidableEq, Repr

/-- What handler entry saves in hidden state (R258, R255), and the late engine fault that entered the handler, if one did (R266). -/
structure TrapFrame where
  mode   : Mode
  mask   : LaneMask
  hdr    : Header
  left   : Nat
  retry  : LaneMask
  pc     : Addr
  count  : Nat
  depth  : Nat
  late   : List (Nat × Addr × Exn)
  deriving DecidableEq, Repr

/-- Why a split is held at issue (R51, R40, R46, R80, R87, R88, R91, R149, R163-R165, R196, R212, R227, R229, R263). -/
inductive Hold where
  | flags (m : BitVec 12)
  | flagFull (f : Nat)
  | own
  | queueEmpty (q : Nat)
  | queueFull (q : Nat)
  | barrierWait (bar phase : Nat)
  | barrierArrive (bar phase : Nat)
  | grow (a : Nat)
  | tile (t : Nat)
  | lease
  | mxu
  | copySlot
  | partition (stage cl : Nat)
  | epoch (n : Nat)
  | adjoints
  | reads
  | acquire
  | raster
  | scatterLog
  | otherFault
  | wsCopy (die : Nat)
  deriving DecidableEq, Repr

/-- What a split is doing (R27, R164, R88). -/
inductive SplitStatus where
  | run
  | merge (addr : Addr)
  | parked
  | ended
  deriving DecidableEq, Repr

/-- One record of the digest (R202). -/
structure DigestRec where
  a    : BitVec 64
  data : BitVec 64
  mask : BitVec 8
  kind : Nat
  sub  : Nat
  deriving DecidableEq, Repr

/-- What a parked instruction keeps for its reissue (R164): the wave's ordinary scalars and the entries that its ports
delivered, as they stood. -/
structure Kept where
  sregs : List (Nat × Word)
  pops  : List (Nat × Word)
  deriving DecidableEq, Repr

/-- A split (R25-R32), or the one pseudo split of an MCC stream (R101, R402). For an instruction that issues again for
some of its lanes: the operands it kept (R164), the stamp that its first issue took in the release buffer, and the digest
records of its finished lanes (R202). -/
structure Split where
  num     : Nat
  born    : Nat
  pc      : Addr
  members : LaneMask
  mask    : LaneMask
  stack   : List MaskEntry
  dii     : BitVec 64
  diiHi   : Word
  cycHi   : Word
  winbase : Nat
  linkage : List Linkage
  spilled : Nat
  mode    : Mode
  srseed  : BitVec 64
  lossexp : BitVec 16
  fpstat  : BitVec 6
  scatbs  : Nat
  hdr     : Header
  left    : Nat
  status  : SplitStatus
  hold    : Option Hold
  retry   : Option LaneMask
  trap    : Option TrapFrame
  retryOp : Option Nat
  kept    : Option Kept
  serial  : Option Nat
  recs    : List (Nat × DigestRec)
  late    : List (Nat × Addr × Exn)
  deriving DecidableEq, Repr

/-- The state of a reduction register (R188). -/
inductive KState where
  | empty | one | many | ext
  deriving DecidableEq, Repr

/-- A reduction register (R188). -/
structure KReg where
  st    : KState
  w     : BitVec 64
  mu    : BitVec 64
  m2    : BitVec 64
  key   : BitVec 64
  bits  : Word
  index : Word
  kind  : BitVec 2
  etype : BitVec 6
  seq   : BitVec 16
  deriving DecidableEq, Repr

/-- An EMPTY register with SEQ 0 (R54). -/
def KReg.initial : KReg :=
  { st := .empty, w := 0, mu := 0, m2 := 0, key := 0, bits := 0, index := 0, kind := 0, etype := 0, seq := 0 }

/-- A queue-port mapping (R39). -/
structure Port where
  queue : Nat
  pop   : Bool
  push  : Bool
  deriving DecidableEq, Repr

/-- The fault record of R255. -/
structure FaultRec where
  code : Word
  pc   : Addr
  mask : LaneMask
  addr : Addr
  deriving DecidableEq, Repr

/-- The space of a byte (R142). -/
inductive Space where
  | phys | plaza | stack | ws
  deriving DecidableEq, Repr

/-- A byte of storage: physical address, Plaza byte (cluster * 2^22 + offset), byte of a lane's stack
(lane * 2^24 + offset), or weight-store byte (die * 2^28 + offset). -/
structure Place where
  space : Space
  key   : Nat
  deriving DecidableEq, Repr

/-- A gradient contribution (R224): target, value, key, and whether its target is cached (R157). -/
structure Contrib where
  addr  : Addr
  place : Place
  value : Word
  epoch : Nat
  dii   : BitVec 64
  lane  : Nat
  j     : Nat
  loss  : BitVec 16
  cached : Bool
  deriving DecidableEq, Repr

/-- A job card held for a stage queue (R68, R71). -/
structure Card where
  stage : Nat
  cl    : Nat
  prod  : Nat
  seq   : Nat
  rank  : Word
  words : List Word
  deriving DecidableEq, Repr

/-- An item of a release buffer (R246): the bytes it takes there and what it does at the commit. -/
inductive Buffered where
  | store (bytes : List (Place × Byte))
  | push (cl q : Nat) (v : Word)
  | post (card : Card)
  | scat (c : Contrib)
  | spls (list : Nat) (recs : List (List Word))
  | tape
  deriving DecidableEq, Repr

/-- A buffered item with its size in the buffer, its digest records, the stamp of the issue it belongs to and its lane, by
which the lanes of a reissue join those of the first issue (R202, R246), for an STL its scope (R175), for a store whether its sector
is cached (R157), and whether it belongs to the own region of an adjoint that is not over (R230). -/
structure BufItem where
  size  : Nat
  item  : Buffered
  recs  : List DigestRec
  issue : Nat
  lane  : Nat
  rel   : Option Nat
  cached : Bool
  own   : Bool
  deriving DecidableEq, Repr

/-- The states of a tape span (R244). -/
inductive SpanState where
  | opened | closed | spilled | dropped | recomputing
  deriving DecidableEq, Repr

/-- The codes of a tape record (R238), in the order of their numbers. -/
inductive TapeCode where
  | zero | same | delta | raw
  deriving DecidableEq, Repr

/-- One tape record of one lane (R238). -/
structure TapeRec where
  lane    : Nat
  code    : TapeCode
  tag     : BitVec 12
  value   : Word
  size    : Nat
  spilled : Bool
  deriving DecidableEq, Repr

/-- A tape span (R240, R244): its header, with the place in its clause of the next word, whether the header is in the
backing, its records, how many each lane had when the span was dropped, and how many each lane has popped. -/
structure Span where
  st         : SpanState
  recomputed : Bool
  rc         : Bool
  pc         : Addr
  dii        : BitVec 64
  mode       : Mode
  srseed     : BitVec 64
  lossexp    : BitVec 16
  winbase    : Nat
  mask       : LaneMask
  lanes      : LaneMask
  hdr        : Header
  left       : Nat
  first      : Nat
  inputs     : List (Nat × List Word)
  head       : Nat
  headOut    : Bool
  recs       : List TapeRec
  counts     : List (Nat × Nat)
  popped     : List (Nat × Nat)
  deriving DecidableEq, Repr

/-- A wave's tape (R237-R245): its spans, oldest first, how many it has opened, and the FIRST and REPLAY bits per tag. -/
structure Tape where
  spans  : List Span
  opened : Nat
  first  : List (Nat × Bool)
  replay : List (Nat × Bool)
  deriving DecidableEq, Repr

/-- The state of a wave that its program sees; a recomputation saves and restores it (R242). -/
structure Visible where
  splits    : List Split
  cur       : Nat
  sregs     : List (Nat × Word)
  vregs     : List (Nat × Word)
  preds     : List (Nat × LaneMask)
  kregs     : List KReg
  ports     : List (Nat × Port)
  allot     : Nat
  pfill     : Word
  alphastop : Word
  tba       : Addr
  fault     : FaultRec
  deriving DecidableEq, Repr

/-- A tile-table entry (R149-R151, R165). -/
inductive TileState where
  | empty | filling | ready | draining
  deriving DecidableEq, Repr

/-- A tile-table entry: state, owner launch, descriptor, and the progress of its last fill or drain. -/
structure Tile where
  st     : TileState
  owner  : Option Nat
  etype  : BitVec 6
  kind   : BitVec 2
  orient : Bool
  rows   : Nat
  cols   : Nat
  base   : Nat
  pitch  : Nat
  paired : Bool
  pair   : Nat
  part   : Bool
  done   : BitVec 16
  nsec   : Nat
  addr   : Addr
  stride : Word
  tr     : Bool
  deriving DecidableEq, Repr

/-- An EMPTY, unowned tile with a descriptor of 0 (R149, R150). -/
def Tile.initial : Tile :=
  { st := .empty, owner := none, etype := 0, kind := 0, orient := false, rows := 1, cols := 1, base := 0, pitch := 0,
    paired := false, pair := 0, part := false, done := 0, nsec := 0, addr := 0, stride := 0, tr := false }

/-- A checkpoint (R248, R249): what a killed wave resumes from, with what operations issued before it have written since in lanes that
have exited after it (R250). -/
structure Checkpoint where
  splits    : List Split
  exited    : LaneMask
  allot     : Nat
  pfill     : Word
  alphastop : Word
  tba       : Addr
  kregs     : List KReg
  frames    : List (Nat × Word)
  writes    : List (Nat × Word)
  lowBase   : Nat
  tape      : Tape
  digest    : BitVec 64 × BitVec 64 × Nat
  logLen    : Nat
  logBytes  : Nat
  deriving DecidableEq, Repr

/-- What a stream is (R54, R67, R74). -/
inductive StreamKind where
  | wave
  | stage (stage n : Nat) (card : Card)
  | mcc
  deriving DecidableEq, Repr

/-- The part a stream plays (R203): a stream of the launch, a replay, or an arbitration. -/
inductive Role where
  | normal
  | replay (original phys : Nat)
  | arbiter (original phys : Nat)
  deriving DecidableEq, Repr

/-- Where a stream stands (R248, R252, R323). -/
inductive Life where
  | resident
  | killed
  | saved
  | ended
  deriving DecidableEq, Repr

/-- Why a wave is being killed (R248, R256, R261). -/
inductive KillKind where
  | replay
  | final
  deriving DecidableEq, Repr

/-- An entry of an input log (R201): a Plaza read, a queue pop or an OCCQ, with the value returned; or the tile-table entry that a tile
instruction found (DESIGN CHOICE, log 66). -/
structure LogEntry where
  kind  : Nat
  value : BitVec 64
  tile  : Option Tile
  deriving DecidableEq, Repr

/-- A wave or an MCC stream. -/
structure Stream where
  kind       : StreamKind
  role       : Role
  launch     : Nat
  rank       : Word
  wid        : Nat
  cl         : Nat
  core       : Nat
  part       : Nat
  phys       : Nat
  admitted   : Nat
  saveDue    : Bool
  launched   : LaneMask
  exited     : LaneMask
  life       : Life
  active     : Bool
  order      : Nat
  readyAt    : Option Nat
  yielded    : Bool
  turns      : Nat
  privileged : Bool
  vis        : Visible
  flags      : List (Nat × Nat)
  buffer     : List BufItem
  stamp      : Nat
  acqs       : List (Place × Nat)
  after      : List (Nat × Nat × Nat)
  pops       : List (Nat × Word)
  redeliver  : List (Nat × Word)
  dirtyS     : List (Nat × Bool)
  dirtyV     : List (Nat × Bool)
  dirtyP     : List (Nat × Bool)
  tileUndo   : List (Nat × Tile)
  ckpt       : Option Checkpoint
  nextCkpt   : Option Checkpoint
  ckptNo     : Nat
  region     : Nat
  stack      : List Host.Cell
  tape       : Tape
  saved      : Option Visible
  pendKill   : Option KillKind
  posts      : List (Nat × Nat)
  postSeq    : Nat
  refusals   : List (Nat × Nat)
  newParts   : List (Nat × Nat)
  leases     : Nat
  savedLease : Option (Nat × Word)
  savedAccs  : List (Nat × Word)
  colls      : Nat
  selected   : Bool
  unverif    : Bool
  log        : List LogEntry
  logBytes   : Nat
  digest     : BitVec 64 × BitVec 64 × Nat
  failed     : Bool
  deriving DecidableEq, Repr

/-- A resolved shape record (R166). -/
structure Shape where
  base    : Addr
  etype   : BitVec 6
  ndim    : Nat
  layout  : Nat
  dims    : List Nat
  strides : List Nat
  deriving DecidableEq, Repr

/-- A place that a raster thread updates (R211), with its generic address and whether its sector is cached (R157). -/
structure Spot where
  place : Place
  addr  : Addr
  cached : Bool
  deriving DecidableEq, Repr

/-- A fragment of a raster thread (R211): its entry, its key, and the occlusion byte and bit it may set. -/
structure Fragment where
  entry : Spot
  key   : BitVec 64
  obj   : Option (Spot × Nat)
  deriving DecidableEq, Repr

/-- A read-modify-write that an ATOM has still to make (R183): its place, its width in bytes, its operation, its element
type's code, its operands, the writes its old value makes at completion, its generic address, and whether its sector is cached
(R157). -/
structure Rmw where
  place : Place
  n     : Nat
  sub   : Nat
  etype : BitVec 6
  opd   : Nat
  new   : Nat
  vdst  : List Nat
  sdst  : List Nat
  addr  : Addr
  cached : Bool
  deriving DecidableEq, Repr

/-- What an operation in flight does at its completion. -/
inductive OpKind where
  | load
  | atom (todo : List Rmw)
  | copy (queue : Nat) (src dst : Shape) (wsDies : List Nat)
  | tileFill (tile : Nat) (bytes : List (Nat × Byte)) (flags : BitVec 6)
  | tileDrain (tile : Nat) (bytes : List (Place × Byte))
  | coll (oper : Nat) (scope : Nat) (bucket root : Nat) (src dst : Shape) (seq chunks : Nat) (matched : Bool)
      (result : List Byte)
  | occq
  | tex
  | texadj
  | rtstep
  | splat (adjoint : Bool) (bytes : List (Nat × Byte))
  | edgs
  | tpop
  | mma (acc ta tb : Nat) (scaled : Bool) (chunk chunks : Nat) (flags : BitVec 6) (last : Bool)
  | raster (mode : Nat) (frags : List Fragment)
  deriving DecidableEq, Repr

/-- An operation in flight (R88, R90, R179): its issuer, the flag it holds, the region and the checkpoint after which it
was issued, the stamp that the next item of the release buffer took then (the fork edge orders the items before it), its
pending registers, its results, the translations made at issue, whether its instruction is still unfinished (R164),
whether its commit was held at a full scatter log (R229), and, for checkpoints after which its split has merged, their numbers and the
split that held it there (R250). -/
structure Op where
  stream  : Nat
  owner   : Nat
  flag    : Option Nat
  pc      : Addr
  region  : Nat
  ckptNo  : Nat
  mark    : Nat
  pendV   : List Nat
  lanes   : LaneMask
  pendS   : List Nat
  kind    : OpKind
  vres    : List (Nat × Word)
  sres    : List (Nat × Word)
  contribs : List BufItem
  trans   : List (Nat × Nat)
  waiting : Bool
  held    : Bool
  fault   : Option Exn
  home    : List (Nat × Nat)
  deriving DecidableEq, Repr

/-- A named barrier (R34-R37): its quarter, its declared count, E, the count kept for later phases, the phase, the waves
arrived and the splits that have arrived in each incomplete wave, the same of early arrivals, and the waiting splits with
the phase each waits for. -/
structure Barrier where
  bound     : Bool
  quarter   : Nat
  decl      : Nat
  expected  : Nat
  kept      : Nat
  phase     : Nat
  arrived   : List Nat
  partly    : List (Nat × Nat)
  early     : List Nat
  earlyPart : List (Nat × Nat)
  waiting   : List (Nat × Nat × Nat)
  deriving DecidableEq, Repr

/-- What a logical cluster keeps for one launch (R33, R34, R40): its hardware queues, its quarters and its named barriers.
No other launch sees them (R19, R20; log 57). -/
structure Bay where
  hwq      : List (Nat × List Word)
  quarters : List (Nat × List Nat)
  barriers : List (Nat × Barrier)
  deriving DecidableEq, Repr

/-- A bay in which nothing was queued, joined or bound. -/
def Bay.initial : Bay := { hwq := [], quarters := [], barriers := [] }

/-- A live lease (R75, R76): its holder, its token, the operations left, and whether MLEASE has returned its token. -/
structure Lease where
  stream : Nat
  token  : Word
  left   : Nat
  taken  : Bool
  deriving DecidableEq, Repr

/-- A logical cluster: its tile table, its accumulators and their leases, and the MCC stream whose clause is under way
(R74). -/
structure Cluster where
  tiles      : List (Nat × Tile)
  accs       : List (Nat × Word)
  lease      : Option Lease
  leaseReqs  : List (Nat × Nat)
  lastHolder : Option Nat
  mccNow     : Option Nat
  deriving DecidableEq, Repr

/-- An empty logical cluster. -/
def Cluster.initial : Cluster :=
  { tiles := [], accs := [], lease := none, leaseReqs := [], lastHolder := none, mccNow := none }

/-- The launch record's fields (R57), with the address of its ring slot. -/
structure LaunchRec where
  slot     : Addr
  entry    : Addr
  threads  : Nat
  attr     : Word
  tiles    : Nat
  allot    : Nat
  w        : Nat
  nclus    : Nat
  plaza    : Nat
  tape     : Nat
  lossexp  : BitVec 16
  srseed   : BitVec 64
  route    : Addr
  sealedAt : Addr
  done     : Addr
  tapeBase : Addr
  tapeSize : Nat
  deriving DecidableEq, Repr

/-- A stage of a route (R66). -/
structure Stage where
  entry   : Addr
  ring    : Addr
  ringn   : Nat
  allot   : Nat
  maxw    : Nat
  barrier : Bool
  quota   : Nat
  deriving DecidableEq, Repr

/-- A producer's partition of a stage queue (R71): stage, cluster, producer, the cards it takes, cards not yet dealt. -/
structure QPart where
  stage : Nat
  cl    : Nat
  prod  : Nat
  size  : Nat
  deriving DecidableEq, Repr

/-- A running launch (R57-R74, R200-R206). -/
structure Launch where
  queue      : Nat
  ident      : BitVec 64
  record     : LaunchRec
  privileged : Bool
  psize      : Nat
  ncl        : Nat
  total      : Nat
  next       : Nat
  mccStart   : List Nat
  started    : Bool
  bays       : List (Nat × Bay)
  plaza      : List Host.Cell
  occtab     : Addr
  stats      : Addr
  stages     : List Stage
  cards      : List Card
  parts      : List QPart
  dealt      : List (Nat × Nat)
  refused    : List (Nat × Nat)
  dropped    : List (Nat × Nat)
  posted     : List (Nat × Nat)
  ranges     : List (Addr × BitVec 64)
  vfrac      : Nat
  verdicts   : List (Nat × Nat)
  found      : List Nat
  clean      : Nat
  mismatch   : Nat
  faults     : Nat
  bad        : Bool
  wsMaps     : List Nat
  claims     : List (Nat × Nat)
  closed     : Nat
  suspended  : Bool
  trans      : List (Nat × Nat)
  colls      : List (Nat × Nat)
  overlap    : List (Nat × Nat × Nat × Nat)
  deriving DecidableEq, Repr

/-- A command queue (R56, R59, R269, R405). -/
structure CmdQueue where
  cfg     : Bool
  base    : Addr
  log2    : Nat
  pri     : Nat
  priv    : Bool
  psize   : Nat
  head    : Nat
  tail    : Nat
  count   : Word
  barrier : Option (Nat × Word × Word)
  last    : Option Nat
  deriving DecidableEq, Repr

/-- A command queue no QUEUE_CONFIG has set (DESIGN CHOICE, log 2). -/
def CmdQueue.initial : CmdQueue :=
  { cfg := false, base := 0, log2 := 4, pri := 0, priv := false, psize := 4096, head := 0, tail := 0, count := 0,
    barrier := none, last := none }

/-- A region of the region attribute file (R160). -/
structure Region where
  root : BitVec 40
  attr : BitVec 10
  deriving DecidableEq, Repr

/-- A translation the TLB holds (R163): its first page of 4 KiB, how many pages (16 under a merged hint), its first frame,
and what the leaf and the region allow. -/
structure TlbEntry where
  page   : Nat
  pages  : Nat
  frame  : Nat
  r      : Bool
  w      : Bool
  x      : Bool
  user   : Bool
  policy : Nat
  deriving DecidableEq, Repr

/-- The states of a physical cluster (R204). -/
inductive PhysState where
  | inService | spare | pending | cordoned
  deriving DecidableEq, Repr

/-- A physical cluster (R203, R204, R276, R277). -/
structure Phys where
  st    : PhysState
  score : Nat
  clean : Nat
  mhz   : Nat
  test  : Option Bool
  deriving DecidableEq, Repr

/-- The bring-up states (R276). -/
inductive BringUp where
  | reset | boot | selftest | service | safe
  deriving DecidableEq, Repr

/-- The management mailbox (R270): the argument words, the command and status words, and what the command in progress
will leave. -/
structure Mailbox where
  args    : List Word
  cmd     : Word
  status  : Word
  pending : Option (Word × List Word)
  deriving DecidableEq, Repr

/-- A record of the black-box ring (R279). -/
structure BoxRec where
  seq    : BitVec 64
  kind   : BitVec 8
  die    : BitVec 8
  unitw  : BitVec 16
  code   : Word
  addr   : BitVec 64
  detail : BitVec 64
  deriving DecidableEq, Repr

/-- The host fault queue (R270, R405). -/
structure FaultQueue where
  cfg     : Bool
  base    : Addr
  log2    : Nat
  head    : BitVec 64
  tail    : BitVec 64
  dropped : Nat
  parked  : List (Nat × Nat × Nat)
  deriving DecidableEq, Repr

/-- Orientation of a sector in its slice (R156). -/
inductive Orient where
  | row | col1 | col2 | col4
  deriving DecidableEq, Repr

/-- Where an uncorrectable error lies (R266): a word of storage (a Plaza word of a launch, a stack word of a stream), an
entry of a register file, a tape record of a lane, or an item of a release buffer. -/
inductive ErrSite where
  | word (owner : Nat) (p : Place)
  | vreg (sid entry lane : Nat)
  | sreg (sid n : Nat)
  | pred (sid n : Nat)
  | tape (sid lane : Nat)
  | buffer (sid item : Nat)
  deriving DecidableEq, Repr

/-- Who moves next (DESIGN CHOICE, log 3): an issue by a stream, a step of the table without a word, a soft error (R265,
R266), or the links to another package that fail past every retry or work again (R271). -/
inductive Turn where
  | issue (sid : Nat)
  | event (i : Instr)
  | corrected (die unitw structure_ : Nat) (addr detail : BitVec 64)
  | strike (e : ErrSite)
  | link (rank : Nat) (down : Bool)
  deriving DecidableEq, Repr

/-- A contribution held by the Arcade (R228): launch, its producer's WID, the contribution, and its address in the scatter log where it
has spilled there (R229). -/
structure Held where
  launch : Nat
  wid    : Nat
  c      : Contrib
  slot   : Option Nat
  deriving DecidableEq, Repr

/-- A copy queue's order (R79, R80): a copy in flight, or a barrier over a mask of the core's queues. -/
inductive CopyItem where
  | copy (op core queue : Nat)
  | barrier (core : Nat) (mask : BitVec 8)
  deriving DecidableEq, Repr

/-- The state of the package. `stlAfter` holds, for a place that an STL has written, what that STL comes after (R175). -/
structure State where
  mem        : List Host.Cell
  ws         : List Host.Cell
  wsPhase    : List (Nat × Nat)
  orient     : List (Nat × Orient)
  raf        : List (Nat × Region)
  rafsel     : BitVec 4
  shapeBase  : BitVec 64
  shapeCnt   : Word
  vfrac      : Word
  bktsel     : BitVec 6
  bktpri     : List (Nat × BitVec 16)
  tlb        : List TlbEntry
  walks      : List (Nat × Nat)
  errors     : List ErrSite
  corrected  : List (Nat × Nat)
  linkDown   : List Nat
  stlAfter   : List ((Nat × Place) × List (Nat × Nat))
  phys       : List (Nat × Phys)
  dieMap     : List (Nat × List Nat)
  dieClock   : List (Nat × Nat)
  cycles     : List (Nat × BitVec 64)
  stopped    : List (Nat × Bool)
  bring      : BringUp
  queues     : List (Nat × CmdQueue)
  mbox       : Mailbox
  fq         : FaultQueue
  slog       : Addr × Nat
  ctxAreas   : List (Nat × Addr × Nat)
  podRank    : Nat
  podSize    : Nat
  firmware   : List Byte
  running    : List Byte
  bbox       : List (Nat × List BoxRec)
  bboxSeq    : List (Nat × BitVec 64)
  arcade     : List Held
  clusters   : List (Nat × Cluster)
  launches   : List (Nat × Launch)
  streams    : List (Nat × Stream)
  ops        : List (Nat × Op)
  copyq      : List CopyItem
  collNow    : Option Nat
  testParts  : List (Nat × Bool)
  admitted   : Nat
  agenda     : List Turn
  issuer     : Nat
  fresh      : Nat
  nextId     : Nat
  outside    : BitVec 64
  deriving DecidableEq, Repr

/-- Why the machine stops: never for anything the spec describes, since the spec's own faults are states (R254). -/
inductive Fault where
  /-- The step that runs an instruction found no issuing split: `State.issuer` names no stream. No step of the
  machine reaches it. Safe: the machine stops. -/
  | noIssuer
  deriving DecidableEq, Repr

/-- Why the machine answers nothing. -/
inductive Refusal where
  /-- An instruction without a meaning yet. Safe: the machine stops. -/
  | notModelled (mnemonic : String)
  /-- The agenda asks for an instruction word as an event; only a split issues words. Safe: the machine stops. -/
  | notAnEvent
  deriving DecidableEq, Repr

/-- A physical cluster at cold reset (R204, R277): physical cluster 12 of a die is its spare. -/
def Phys.initial (n : Nat) : Phys :=
  { st := if n % 13 = 12 then .spare else .inService, score := 0, clean := 0, mhz := Config.testMhz, test := none }

/-- A fault record of 0 (R255). -/
def FaultRec.initial : FaultRec := { code := 0, pc := 0, mask := 0, addr := 0 }

/-- The machine right after reset: bring-up in RESET (R276), logical index i of each die on physical cluster i (R11),
nothing launched. The values the spec does not state are named in log entries 1 and 2. -/
def State.reset : State :=
  { mem := [], ws := [], wsPhase := [], orient := [], raf := [], rafsel := 0, shapeBase := 0, shapeCnt := 0,
    vfrac := 0, bktsel := 0, bktpri := [], tlb := [], walks := [], errors := [],
    corrected := [], linkDown := [], stlAfter := [], phys := [], dieMap := [], dieClock := [],
    cycles := [], stopped := [], bring := .reset, queues := [],
    mbox := { args := List.replicate 14 0, cmd := 0, status := 0, pending := none },
    fq := { cfg := false, base := 0, log2 := 4, head := 0, tail := 0, dropped := 0, parked := [] },
    slog := (0, 0), ctxAreas := [], podRank := 0, podSize := 1, firmware := [], running := [], bbox := [], bboxSeq := [],
    arcade := [], clusters := [], launches := [], streams := [], ops := [], copyq := [], collNow := none, testParts := [], admitted := 63,
    agenda := [], issuer := 0, fresh := 0, nextId := 1, outside := 0 }

end Sys2Proof.Machine
end

