-- ==== Sys2Proof/Machine/Flags.lean ====
section
/-! DEFINITION. Number formats, the one rounding function, the sticky flags and the log-number path (05_numbers.md). Every
value is an exact number first; `roundTo` narrows it once and says which flags that raises. -/

namespace Sys2Proof.Machine

/-! The flags of FPSTAT (R136), as a mask. -/

/-- Invalid. -/
def fIV : BitVec 6 := 1
/-- Divide-by-zero. -/
def fDZ : BitVec 6 := 2
/-- Overflow. -/
def fOF : BitVec 6 := 4
/-- Underflow. -/
def fUF : BitVec 6 := 8
/-- Inexact. -/
def fNX : BitVec 6 := 16
/-- Saturated. -/
def fSATD : BitVec 6 := 32

/-- A computed value with the flags it raises. -/
abbrev Flagged := Nat × BitVec 6

/-- An element type (R96). -/
inductive Ty where
  | f32 | f16 | bf16 | f64 | lns
  | int (w : Nat) (signed : Bool)
  | b8 (p : Nat) (u i : Bool)
  deriving DecidableEq, Repr

/-- The type of an ETYPE code; none for a reserved code (R96). -/
def Ty.ofCode (c : BitVec 6) : Option Ty :=
  match c.toNat with
  | 0 => some .f32
  | 1 => some .f16
  | 2 => some .bf16
  | 3 => some .f64
  | 4 => some .lns
  | 8 => some (.int 8 true)
  | 9 => some (.int 8 false)
  | 10 => some (.int 16 true)
  | 11 => some (.int 16 false)
  | 12 => some (.int 32 true)
  | 13 => some (.int 32 false)
  | 14 => some (.int 64 true)
  | 15 => some (.int 64 false)
  | n => if 0x20 ≤ n ∧ n ≤ 0x3B then
      some (.b8 ((n - 0x20) / 4 + 1) (bit (n - 0x20) 1) (bit (n - 0x20) 0)) else none

/-- Bits of an element (R96). -/
def Ty.width : Ty → Nat
  | .f32 => 32
  | .f16 => 16
  | .bf16 => 16
  | .f64 => 64
  | .lns => 32
  | .int w _ => w
  | .b8 _ _ _ => 8

/-- A floating-point type: IEEE or binary8. -/
def Ty.isFloat : Ty → Bool
  | .f32 | .f16 | .bf16 | .f64 | .b8 _ _ _ => true
  | .lns | .int _ _ => false

/-- An integer type. -/
def Ty.isInt : Ty → Bool
  | .int _ _ => true
  | .f32 | .f16 | .bf16 | .f64 | .b8 _ _ _ | .lns => false

/-- A binary8 type. -/
def Ty.isB8 : Ty → Bool
  | .b8 _ _ _ => true
  | .f32 | .f16 | .bf16 | .f64 | .int _ _ | .lns => false

/-- Elements per 32-bit register (R96); 1 for a pair. -/
def Ty.perReg (t : Ty) : Nat := if t.width = 8 then 4 else if t.width = 16 then 2 else 1

/-- Precision of a float type, the hidden bit included (R120, R122). -/
def Ty.prec : Ty → Nat
  | .f32 => 24
  | .f16 => 11
  | .bf16 => 8
  | .f64 => 53
  | .b8 p _ _ => p
  | .lns => 1
  | .int _ _ => 1

/-- Exponent bias of a float type (R120, R122). -/
def Ty.bias : Ty → Nat
  | .f32 => 127
  | .f16 => 15
  | .bf16 => 127
  | .f64 => 1023
  | .b8 p u _ => if u then 2 ^ (8 - p) else 2 ^ (7 - p)
  | .lns => 0
  | .int _ _ => 0

/-- Whether the type has negative values. -/
def Ty.hasSign : Ty → Bool
  | .b8 _ u _ => !u
  | .int _ s => s
  | .f32 | .f16 | .bf16 | .f64 | .lns => true

/-- Whether the type has infinities (R123). -/
def Ty.hasInf : Ty → Bool
  | .b8 _ _ i => i
  | .f32 | .f16 | .bf16 | .f64 | .lns => true
  | .int _ _ => false

/-- The code of the largest finite value, sign aside (R120, R124). -/
def Ty.maxCode : Ty → Nat
  | .f32 => 0x7F7FFFFF
  | .f16 => 0x7BFF
  | .bf16 => 0x7F7F
  | .f64 => 0x7FEFFFFFFFFFFFFF
  | .b8 _ u i => (if u then 0xFE else 0x7F) - b2n i
  | .lns => 0x1FFFFFFF
  | .int w s => if s then 2 ^ (w - 1) - 1 else 2 ^ w - 1

/-- The canonical NaN (R120, R121, R123, R125). -/
def Ty.nanCode : Ty → Nat
  | .f32 => 0x7FC00000
  | .f16 => 0x7E00
  | .bf16 => 0x7FC0
  | .f64 => 0x7FF8000000000000
  | .b8 _ u _ => if u then 0xFF else 0x80
  | .lns => 0x40000001
  | .int _ _ => 0

/-- The code of a zero of the sign; binary8 has one zero (R123). -/
def Ty.zeroCode (t : Ty) (neg : Bool) : Nat :=
  if t.isB8 then 0 else b2n neg * 2 ^ (t.width - 1)

/-- The sign bit of a finite non-zero or infinite code. -/
def Ty.signBits (t : Ty) (neg : Bool) : Nat := if t.hasSign then b2n neg * 2 ^ (t.width - 1) else 0

/-- The code of an infinity; the NaN code in a type without one (R123, R127). -/
def Ty.infCode (t : Ty) (neg : Bool) : Nat :=
  match t with
  | .b8 _ u i => if i then (if u then 0xFE else 0x7F + t.signBits neg) else t.nanCode
  | .f32 => 0x7F800000 + t.signBits neg
  | .f16 => 0x7C00 + t.signBits neg
  | .bf16 => 0x7F80 + t.signBits neg
  | .f64 => 0x7FF0000000000000 + t.signBits neg
  | .lns => 0x7FFFFFFF + t.signBits neg
  | .int _ _ => 0

/-- An exact number: (-1)^neg * m * 2^e, an infinity, or a NaN. -/
inductive Num where
  | nan (signalling : Bool)
  | inf (neg : Bool)
  | fin (neg : Bool) (m : Nat) (e : Int)
  deriving DecidableEq, Repr

/-- Whether the number is a NaN. -/
def Num.isNan : Num → Bool
  | .nan _ => true
  | .inf _ => false
  | .fin _ _ _ => false
/-- Whether the number is a signalling NaN. -/
def Num.isSig : Num → Bool
  | .nan s => s
  | .inf _ => false
  | .fin _ _ _ => false
/-- Whether the number is an infinity. -/
def Num.isInf : Num → Bool
  | .inf _ => true
  | .nan _ => false
  | .fin _ _ _ => false
/-- Whether the number is a zero. -/
def Num.isZero : Num → Bool
  | .fin _ m _ => m == 0
  | .nan _ => false
  | .inf _ => false
/-- The sign of the number; false for a NaN. -/
def Num.neg : Num → Bool
  | .fin n _ _ => n
  | .inf n => n
  | .nan _ => false

/-- The classes of a code (R392). -/
inductive Cls where
  | snan | qnan | inf | normal | subnormal | zero
  deriving DecidableEq, Repr

/-- The class, sign and value of a float code (R120, R122, R123). -/
def unpack (t : Ty) (x : Nat) : Cls × Bool × Num :=
  let tb := t.prec - 1
  match t with
  | .b8 _ u i =>
    let neg := !u && bit x 7
    let mag := if u then x % 256 else x % 128
    if x % 256 = t.nanCode then (.qnan, false, .nan false)
    else if i && mag == (if u then 0xFE else 0x7F) then (.inf, neg, .inf neg)
    else
      let e := mag / 2 ^ tb
      let f := mag % 2 ^ tb
      if e = 0 then
        if f = 0 then (.zero, false, .fin false 0 0)
        else (.subnormal, neg, .fin neg f (1 - (t.bias : Int) - tb))
      else (.normal, neg, .fin neg (2 ^ tb + f) ((e : Int) - t.bias - tb))
  | _ =>
    let neg := bit x (t.width - 1)
    let eb := t.width - 1 - tb
    let e := x / 2 ^ tb % 2 ^ eb
    let f := x % 2 ^ tb
    if e = 2 ^ eb - 1 then
      if f = 0 then (.inf, neg, .inf neg)
      else if bit f (tb - 1) then (.qnan, neg, .nan false) else (.snan, neg, .nan true)
    else if e = 0 then
      if f = 0 then (.zero, neg, .fin neg 0 0) else (.subnormal, neg, .fin neg f (1 - (t.bias : Int) - tb))
    else (.normal, neg, .fin neg (2 ^ tb + f) ((e : Int) - t.bias - tb))

/-- The value of a float code. -/
def valueOf (t : Ty) (x : Nat) : Num := (unpack t x).2.2

/-- The value of a float input: with FTZ a subnormal reads as a zero of its sign (R128). -/
def inputOf (t : Ty) (ftz : Bool) (x : Nat) : Num :=
  match unpack t x with
  | (.subnormal, neg, v) => if ftz then .fin neg 0 0 else v
  | (_, _, v) => v

/-- The value of an integer code. -/
def intOf (w : Nat) (signed : Bool) (x : Nat) : Int :=
  let u := x % 2 ^ w
  if signed && bit u (w - 1) then (u : Int) - 2 ^ w else u

/-- An integer as an exact number. -/
def Num.ofInt (i : Int) : Num := .fin (decide (i < 0)) i.natAbs 0

/-- How a rounding is made: the mode of R126, the 64 bits H of R129 for SR, and MODE.SAT and FTZ. -/
structure Rounding where
  rnd : BitVec 3
  h   : Nat
  sat : Bool
  ftz : Bool
  deriving DecidableEq, Repr

/-- RNE with FTZ off and SAT ignored: the fixed roundings of R126. -/
def Rounding.rne : Rounding := { rnd := 0, h := 0, sat := false, ftz := false }

/-- Step of R129. -/
def hStep (x c s : Nat) : Nat :=
  let t := x * c % 2 ^ 64
  t ^^^ (t >>> s)

/-- C0 of R129. -/
def hC0 : Nat := 0xA3C59E2761F4B08D
/-- C1 of R129. -/
def hC1 : Nat := 0x5F1BC64D2E938A77
/-- C2 of R129. -/
def hC2 : Nat := 0x8BD642F19C3AE565
/-- C3 of R129. -/
def hC3 : Nat := 0x7E29D0B413F86CA3

/-- H of R129. -/
def hBits (seed dii lane sub : Nat) : Nat :=
  let w := (lane + 256 * sub) % 2 ^ 64
  let x := (seed ^^^ hC0) % 2 ^ 64
  let x := hStep (x ^^^ dii) hC1 32
  let x := hStep (x ^^^ w) hC2 29
  let x := hStep x hC3 32
  hStep x hC1 29

/-- The floor of log2 (n / d), for n and d above 0. -/
def floorLog2 (n d : Nat) : Int :=
  let e : Int := (Nat.log2 n : Int) - Nat.log2 d
  let up := if e ≥ 0 then decide (d * 2 ^ e.toNat ≤ n) else decide (d ≤ n * 2 ^ (-e).toNat)
  if up then e else e - 1

/-- Numerator and denominator of n / d * 2^k. -/
def scaled (n d : Nat) (k : Int) : Nat × Nat :=
  if k ≥ 0 then (n * 2 ^ k.toNat, d) else (n, d * 2 ^ (-k).toNat)

/-- Rounds the magnitude n / d to an integer in the mode (R126, R130), and says whether it was inexact. In a format with no trailing field
(binary8 with P = 1) the significand 1 is odd, so a tie of RNE goes to the next power of two (DESIGN CHOICE, log 61). -/
def roundMag (r : Rounding) (neg : Bool) (nd : Nat × Nat) : Nat × Bool :=
  let q := nd.1 / nd.2
  let rem := nd.1 % nd.2
  if rem = 0 then (q, false) else
  let up :=
    match r.rnd.toNat with
    | 0 => decide (2 * rem > nd.2) || (decide (2 * rem = nd.2) && bit q 0)
    | 1 => false
    | 2 => !neg
    | 3 => neg
    | 4 => decide (2 * rem ≥ nd.2)
    | _ =>
      let den := nd.2 / Nat.gcd rem nd.2
      let k := Nat.log2 den
      let nb := if 2 ^ k = den then min k 32 else 32
      decide (rem * 2 ^ nb / nd.2 > r.h % 2 ^ nb)
  (if up then q + 1 else q, true)

/-- The code of n * 2^q, which lies on the type's grid and in its range. -/
def packFin (t : Ty) (neg : Bool) (n : Nat) (q : Int) : Nat :=
  let tb := t.prec - 1
  let (n, q) := if n ≥ 2 ^ t.prec then (n / 2, q + 1) else (n, q)
  if n ≥ 2 ^ tb then (q + tb + t.bias).toNat * 2 ^ tb + (n - 2 ^ tb) + t.signBits neg
  else n + t.signBits neg

/-- Whether a * 2^i is above b * 2^j. -/
def dyadGt (a : Nat) (i : Int) (b : Nat) (j : Int) : Bool :=
  let q := min i j
  decide (a * 2 ^ (i - q).toNat > b * 2 ^ (j - q).toNat)

/-- A negative value other than -0, or minus infinity, delivered to an unsigned type (R131). -/
def negToUnsigned (t : Ty) (sat : Bool) : Flagged := if sat then (0, fSATD) else (t.nanCode, fIV)

/-- An infinite operand or an exact infinite result delivered to the type (R127, R131). -/
def deliverInf (t : Ty) (r : Rounding) (neg : Bool) : Flagged :=
  if neg && !t.hasSign then negToUnsigned t r.sat
  else if r.sat then (t.maxCode + t.signBits neg, fSATD)
  else if t.hasInf then (t.infCode neg, 0)
  else (t.nanCode, fIV)

/-- RoundTo (R126-R130): the code of (-1)^neg * n / d * 2^e in the float type, and the flags raised. Where the mode itself delivers the
largest finite value on overflow, SAT = 01 adds no SATD (DESIGN CHOICE, log 61). -/
def roundRat (t : Ty) (r : Rounding) (neg : Bool) (n d : Nat) (e : Int) : Flagged :=
  if n = 0 then (t.zeroCode neg, 0)
  else if neg && !t.hasSign then negToUnsigned t r.sat
  else
    let tb : Int := (t.prec : Int) - 1
    let emin : Int := 1 - (t.bias : Int)
    let lg := floorLog2 n d + e
    let qu := lg - tb
    let nu := (roundMag r neg (scaled n d (e - qu))).1
    let (_, _, big) := unpack t t.maxCode
    let beyond := match big with
      | .fin _ m k => dyadGt nu qu m k
      | .nan _ => false
      | .inf _ => false
    if beyond then
      let toInf := match r.rnd.toNat with
        | 1 => false
        | 2 => !neg
        | 3 => neg
        | _ => true
      if toInf then
        if r.sat then (t.maxCode + t.signBits neg, fOF ||| fNX ||| fSATD)
        else (t.infCode neg, fOF ||| fNX)
      else (t.maxCode + t.signBits neg, fOF ||| fNX)
    else
      let tiny := decide (qu + Nat.log2 nu < emin)
      if tiny && r.ftz then (t.zeroCode neg, fUF ||| fNX)
      else
        let q := max lg emin - tb
        let (m, inx) := roundMag r neg (scaled n d (e - q))
        let fl := (if inx then fNX else 0) ||| (if tiny && inx then fUF else 0)
        if m = 0 then (t.zeroCode neg, fl) else (packFin t neg m q, fl)

/-- RoundTo of an exact number; a NaN becomes the canonical NaN (R121). -/
def roundTo (t : Ty) (r : Rounding) (v : Num) : Flagged :=
  match v with
  | .nan _ => (t.nanCode, 0)
  | .inf neg => deliverInf t r neg
  | .fin neg m e => roundRat t r neg m 1 e

/-- Rounds an exact number to an integer type and clamps it (R131: float to integer). -/
def roundInt (w : Nat) (signed : Bool) (r : Rounding) (v : Num) : Flagged :=
  let lo : Int := if signed then -(2 ^ (w - 1)) else 0
  let hi : Int := if signed then 2 ^ (w - 1) - 1 else 2 ^ w - 1
  match v with
  | .nan _ => (0, fIV)
  | .inf neg => (((if neg then lo else hi) % 2 ^ w).toNat, fIV)
  | .fin neg m e =>
    let (k, inx) := roundMag r neg (scaled m 1 e)
    let i : Int := if neg then -(k : Int) else k
    if i < lo then ((lo % 2 ^ w).toNat, fIV)
    else if i > hi then ((hi % 2 ^ w).toNat, fIV)
    else ((i % 2 ^ w).toNat, if inx then fNX else 0)

/-- Integer to integer (R131): the low bits under SAT 00, the nearer bound under SAT 01. -/
def clampInt (w : Nat) (signed sat : Bool) (i : Int) : Flagged :=
  let lo : Int := if signed then -(2 ^ (w - 1)) else 0
  let hi : Int := if signed then 2 ^ (w - 1) - 1 else 2 ^ w - 1
  if sat && decide (i < lo) then ((lo % 2 ^ w).toNat, fSATD)
  else if sat && decide (i > hi) then ((hi % 2 ^ w).toNat, fSATD)
  else ((i % 2 ^ w).toNat, 0)

/-- The value of an element of any type but lns32, FTZ applied to a float input (R128, R131). -/
def elemValue (t : Ty) (ftz : Bool) (x : Nat) : Num :=
  match t with
  | .int w s => .ofInt (intOf w s x)
  | _ => inputOf t ftz x

/-- Convert of R388 and R131: an exact value to a type. -/
def convertNum (t : Ty) (r : Rounding) (v : Num) : Flagged :=
  match t with
  | .int w s => roundInt w s r v
  | _ => roundTo t r v

/-! Exact arithmetic. -/

/-- The signed mantissa of a finite number at exponent `q`, which is at most its own. -/
def mantAt (neg : Bool) (m : Nat) (e q : Int) : Int :=
  let k : Int := (m * 2 ^ (e - q).toNat : Nat)
  if neg then -k else k

/-- Whether a rounding mode makes an exact zero sum of differing signs negative (R390). -/
def zeroSumNeg (r : Rounding) : Bool := r.rnd.toNat == 3

/-- The exact sum of two finite numbers; the sign of a zero sum follows R390. -/
def addFin (rdn : Bool) (a b : Bool × Nat × Int) : Num :=
  let (an, am, ae) := a
  let (bn, bm, be) := b
  let q := min ae be
  let s := mantAt an am ae q + mantAt bn bm be q
  if s = 0 then .fin (if am = 0 && bm = 0 && an == bn then an else rdn) 0 0
  else .fin (decide (s < 0)) s.natAbs q

/-- a + b, exactly: the value and whether it is invalid (infinities of both signs). -/
def Num.add (rdn : Bool) (a b : Num) : Num × Bool :=
  match a, b with
  | .nan _, _ => (.nan false, false)
  | _, .nan _ => (.nan false, false)
  | .inf x, .inf y => if x = y then (.inf x, false) else (.nan false, true)
  | .inf x, .fin _ _ _ => (.inf x, false)
  | .fin _ _ _, .inf y => (.inf y, false)
  | .fin an am ae, .fin bn bm be => (addFin rdn (an, am, ae) (bn, bm, be), false)

/-- -a. -/
def Num.negate : Num → Num
  | .nan s => .nan s
  | .inf n => .inf (!n)
  | .fin n m e => .fin (!n) m e

/-- a * b, exactly: the value and whether it is invalid (0 * infinity). -/
def Num.mul (a b : Num) : Num × Bool :=
  match a, b with
  | .nan _, _ => (.nan false, false)
  | _, .nan _ => (.nan false, false)
  | .inf x, .inf y => (.inf (x != y), false)
  | .inf x, .fin n m _ => if m = 0 then (.nan false, true) else (.inf (x != n), false)
  | .fin n m _, .inf x => if m = 0 then (.nan false, true) else (.inf (x != n), false)
  | .fin an am ae, .fin bn bm be => (.fin (an != bn) (am * bm) (ae + be), false)

/-- Whether a < b, for numbers that are not NaN. -/
def Num.lt (a b : Num) : Bool :=
  match a, b with
  | .nan _, _ => false
  | _, .nan _ => false
  | .inf x, .inf y => x && !y
  | .inf x, .fin _ _ _ => x
  | .fin _ _ _, .inf y => !y
  | .fin an am ae, .fin bn bm be =>
    let q := min ae be
    decide (mantAt an am ae q < mantAt bn bm be q)

/-- Whether a = b as values. -/
def Num.eqv (a b : Num) : Bool := !a.isNan && !b.isNan && !a.lt b && !b.lt a

/-- The flags of an operation's inputs and of an invalid operation (R121, R390). -/
def ivIf (b : Bool) : BitVec 6 := if b then fIV else 0

/-- One float operation of R390: its exact result with its invalid bit, rounded once. -/
def finishFloat (t : Ty) (r : Rounding) (ins : List Num) (x : Num × Bool) : Flagged :=
  let sig := ivIf (ins.any Num.isSig)
  if ins.any Num.isNan then (t.nanCode, sig)
  else if x.2 then (t.nanCode, fIV)
  else
    let (c, f) := roundTo t r x.1
    (c, f ||| sig)

/-- a + b of R390. -/
def floatAdd (t : Ty) (r : Rounding) (a b : Nat) : Flagged :=
  let x := inputOf t r.ftz a
  let y := inputOf t r.ftz b
  finishFloat t r [x, y] (x.add (zeroSumNeg r) y)

/-- a - b of R390. -/
def floatSub (t : Ty) (r : Rounding) (a b : Nat) : Flagged :=
  let x := inputOf t r.ftz a
  let y := inputOf t r.ftz b
  finishFloat t r [x, y] (x.add (zeroSumNeg r) y.negate)

/-- a * b of R390. -/
def floatMul (t : Ty) (r : Rounding) (a b : Nat) : Flagged :=
  let x := inputOf t r.ftz a
  let y := inputOf t r.ftz b
  finishFloat t r [x, y] (x.mul y)

/-- a * b + d of R390, rounded once. -/
def floatFma (t : Ty) (r : Rounding) (a b d : Nat) : Flagged :=
  let x := inputOf t r.ftz a
  let y := inputOf t r.ftz b
  let z := inputOf t r.ftz d
  let p := x.mul y
  let s := p.1.add (zeroSumNeg r) z
  finishFloat t r [x, y, z] (s.1, p.2 || s.2)

/-- An exact quotient rounded once; the caller has excluded zero and special divisors. -/
def roundQuot (t : Ty) (r : Rounding) (neg : Bool) (n : Nat) (ne : Int) (d : Nat) (de : Int) : Flagged :=
  roundRat t r neg n d (ne - de)

/-- a / b in a float type under IEEE 754-2019, rounded once (used by R190, R195, R214, R218, R219, R235, R236). -/
def floatDiv (t : Ty) (r : Rounding) (a b : Nat) : Flagged :=
  let x := inputOf t r.ftz a
  let y := inputOf t r.ftz b
  let neg := x.neg != y.neg
  if x.isNan || y.isNan then (t.nanCode, ivIf (x.isSig || y.isSig))
  else match x, y with
    | .inf _, .inf _ => (t.nanCode, fIV)
    | .inf _, _ => deliverInf t r neg
    | _, .inf _ => (t.zeroCode neg, 0)
    | .fin _ m e, .fin _ n k =>
      if n = 0 then (if m = 0 then (t.nanCode, fIV) else (t.infCode neg, fDZ))
      else roundQuot t r neg m e n k
    | .nan _, _ => (t.nanCode, 0)
    | .fin _ _ _, .nan _ => (t.nanCode, 0)

/-- The integer square root, bit by bit from bit `k` down. -/
def isqrtBits (n : Nat) : Nat → Nat → Nat
  | 0, r => r
  | k + 1, r => let c := r + 2 ^ k; isqrtBits n k (if c * c ≤ n then c else r)

/-- The floor of the square root. -/
def isqrt (n : Nat) : Nat := isqrtBits n (Nat.log2 n / 2 + 1) 0

/-- The square root in a float type, rounded once (R214, R235). -/
def floatSqrt (t : Ty) (r : Rounding) (a : Nat) : Flagged :=
  match inputOf t r.ftz a with
  | .nan s => (t.nanCode, ivIf s)
  | .inf neg => if neg then (t.nanCode, fIV) else deliverInf t r false
  | .fin neg m e =>
    if m = 0 then (t.zeroCode neg, 0)
    else if neg then (t.nanCode, fIV)
    else
      let m := if e % 2 = 0 then m else 2 * m
      let e := if e % 2 = 0 then e else e - 1
      let n := m * 4 ^ 70
      let s := isqrt n
      let st := if s * s = n then 0 else 1
      roundRat t r false (2 * s + st) 1 (e / 2 - 70 - 1)

/-! The log-number path (R125, R133-R135). Logarithms and powers are irrational off the grid, so they are taken to 192
bits and never tie (DEDUCED, log 23). -/

/-- Bits of the working precision. -/
def lnsPrec : Nat := 192

/-- The first `k` bits of log2 of y / 2^192, for y in [2^192, 2^193). -/
def log2Bits : Nat → Nat → Nat → Nat
  | 0, _, acc => acc
  | k + 1, y, acc =>
    let z := y * y / 2 ^ lnsPrec
    if z ≥ 2 ^ (lnsPrec + 1) then log2Bits k (z / 2) (2 * acc + 1) else log2Bits k z (2 * acc)

/-- 2^(1/2), 2^(1/4), ... , `k` of them, to 192 bits, from the one before. -/
def rootTable : Nat → Nat → List Nat
  | 0, _ => []
  | k + 1, c => let s := isqrt (c * 2 ^ lnsPrec); s :: rootTable k s

/-- 2^f to 192 bits, where `fs` are the bits of the fraction f from the first, beside the table of roots. -/
def powBits : List Bool → List Nat → Nat → Nat
  | [], _, acc => acc
  | _ :: _, [], acc => acc
  | b :: bs, c :: cs, acc => powBits bs cs (if b then acc * c / 2 ^ lnsPrec else acc)

/-- 2^(i / 2^k) as a number: exact when 2^k divides i, otherwise to 192 bits with a last bit that keeps it inexact. -/
def exp2Num (i : Int) (k : Nat) : Num :=
  let ip := i / (2 ^ k : Nat)
  let f := (i % (2 ^ k : Nat)).toNat
  if f = 0 then .fin false 1 ip
  else
    let bs := (List.range k).map fun j => bit f (k - 1 - j)
    let m := powBits bs (rootTable k (2 ^ (lnsPrec + 1))) (2 ^ lnsPrec)
    .fin false (2 * m + 1) (ip - lnsPrec - 1)

/-- log2 of m * 2^e, m above 0, on the 2^-22 grid rounded RNE, and whether it was inexact. -/
def log2Grid (m : Nat) (e : Int) : Int × Bool :=
  let k := Nat.log2 m
  let ip := e + k
  if 2 ^ k = m then (ip * 4194304, false)
  else
    let f := log2Bits 23 (m * 2 ^ lnsPrec / 2 ^ k) 0
    (ip * 4194304 + ((f + 1) / 2 : Nat), true)

/-- The special words of lns32 (R125). -/
def lnsZero (neg : Bool) : Nat := 2 ^ 31 * b2n neg + 0x40000000
/-- The infinities of lns32 (R125). -/
def lnsInf (neg : Bool) : Nat := 2 ^ 31 * b2n neg + 0x7FFFFFFF
/-- A finite lns32 word (R125). -/
def lnsFin (neg : Bool) (l : Int) : Nat := 2 ^ 31 * b2n neg + (l % 2 ^ 30).toNat

/-- What an lns32 word holds. -/
inductive Lns where
  | nan
  | zero (neg : Bool)
  | inf (neg : Bool)
  | fin (neg : Bool) (l : Int)
  deriving DecidableEq, Repr

/-- The value of an lns32 word (R125). -/
def Lns.ofWord (x : Nat) : Lns :=
  let neg := bit x 31
  let l := x % 2 ^ 30
  if bit x 30 then (if l = 0 then .zero neg else if l = 0x3FFFFFFF then .inf neg else .nan)
  else .fin neg (intOf 30 true l)

/-- LCV (R133). -/
def lcv (x : Nat) : Flagged :=
  match valueOf .f32 x with
  | .nan s => (Ty.lns.nanCode, ivIf s)
  | .inf neg => (lnsInf neg, 0)
  | .fin neg m e =>
    if m = 0 then (lnsZero neg, 0)
    else
      let (l, inx) := log2Grid m e
      if l < -536870912 then (lnsZero neg, fUF ||| fNX)
      else if l > 536870911 then (2 ^ 31 * b2n neg + 0x1FFFFFFF, fSATD ||| fNX)
      else (lnsFin neg l, if inx then fNX else 0)

/-- LEX (R133). -/
def lex (r : Rounding) (x : Nat) : Flagged :=
  match Lns.ofWord x with
  | .nan => (Ty.f32.nanCode, 0)
  | .zero neg => (Ty.f32.zeroCode neg, 0)
  | .inf neg => deliverInf .f32 r neg
  | .fin neg l =>
    match exp2Num l 22 with
    | .fin _ m e => roundTo .f32 r (.fin neg m e)
    | .nan _ => (Ty.f32.nanCode, 0)
    | .inf _ => deliverInf .f32 r neg

/-- The range limits of R134 on a log. -/
def lnsRange (neg : Bool) (l : Int) : Flagged :=
  if l > 536870911 then (lnsInf neg, fOF ||| fNX)
  else if l < -536870912 then (lnsZero neg, fUF ||| fNX)
  else (lnsFin neg l, 0)

/-- LMUL (R134). Infinity by infinity, which its table does not name, is infinity with the sign of the sign rule (DESIGN CHOICE, log 69). -/
def lmul (a b : Nat) : Flagged :=
  let nan : Flagged := (Ty.lns.nanCode, 0)
  match Lns.ofWord a, Lns.ofWord b with
  | .nan, _ => nan
  | _, .nan => nan
  | .zero _, .inf _ => (Ty.lns.nanCode, fIV)
  | .inf _, .zero _ => (Ty.lns.nanCode, fIV)
  | .zero x, .zero y => (lnsZero (x != y), 0)
  | .zero x, .fin y _ => (lnsZero (x != y), 0)
  | .fin x _, .zero y => (lnsZero (x != y), 0)
  | .inf x, .inf y => (lnsInf (x != y), 0)
  | .inf x, .fin y _ => (lnsInf (x != y), 0)
  | .fin x _, .inf y => (lnsInf (x != y), 0)
  | .fin x l, .fin y k => lnsRange (x != y) (l + k)

/-- LDIV (R134). -/
def ldiv (a b : Nat) : Flagged :=
  let nan : Flagged := (Ty.lns.nanCode, 0)
  match Lns.ofWord a, Lns.ofWord b with
  | .nan, _ => nan
  | _, .nan => nan
  | .zero _, .zero _ => (Ty.lns.nanCode, fIV)
  | .inf _, .inf _ => (Ty.lns.nanCode, fIV)
  | .fin x _, .zero y => (lnsInf (x != y), fDZ)
  | .inf x, .zero y => (lnsInf (x != y), 0)
  | .zero x, .inf y => (lnsZero (x != y), 0)
  | .fin x _, .inf y => (lnsZero (x != y), 0)
  | .zero x, .fin y _ => (lnsZero (x != y), 0)
  | .inf x, .fin y _ => (lnsInf (x != y), 0)
  | .fin x l, .fin y k => lnsRange (x != y) (l - k)

/-- LPOW (R135): the exponent is the signed word `b` over 2^23. -/
def lpow (a b : Nat) : Flagged :=
  let e := intOf 32 true b
  let integral := decide (e % 8388608 = 0)
  let odd := integral && decide (e / 8388608 % 2 ≠ 0)
  match Lns.ofWord a with
  | .nan => (Ty.lns.nanCode, 0)
  | .zero s => if e > 0 then (lnsZero (s && odd), 0) else if e = 0 then (0, 0) else (lnsInf (s && odd), fDZ)
  | .inf s => if e > 0 then (lnsInf (s && odd), 0) else if e = 0 then (0, 0) else (lnsZero (s && odd), 0)
  | .fin s l =>
    if s && !integral then (Ty.lns.nanCode, fIV)
    else
      let p := l * e
      let (k, inx) := roundMag .rne (decide (p < 0)) (p.natAbs, 8388608)
      let g : Int := if p < 0 then -(k : Int) else k
      let (c, f) := lnsRange (s && odd) g
      (c, f ||| (if inx then fNX else 0))

/-- 2^x for an fp32 code, correctly rounded RNE to fp32 (Exp2 of R223). -/
def exp2F32 (x : Nat) : Nat :=
  match valueOf .f32 x with
  | .nan _ => Ty.f32.nanCode
  | .inf neg => if neg then 0 else Ty.f32.infCode false
  | .fin neg m e =>
    if m = 0 || decide (floorLog2 m 1 + e < -30) then 0x3F800000
    else if decide (floorLog2 m 1 + e > 12) then (if neg then 0 else Ty.f32.infCode false)
    else
      let i : Int := if neg then -(m : Int) else m
      let v := if e ≥ 0 then exp2Num (i * 2 ^ e.toNat) 0 else exp2Num i (-e).toNat
      (roundTo .f32 .rne v).1

/-! Scalar helpers of the fixed fp32 and fp64 roundings (R190, R214, R218, R223, R235). -/

/-- fp32 RNE. -/
def addS (a b : Nat) : Nat := (floatAdd .f32 .rne a b).1
/-- fp32 RNE. -/
def subS (a b : Nat) : Nat := (floatSub .f32 .rne a b).1
/-- fp32 RNE. -/
def mulS (a b : Nat) : Nat := (floatMul .f32 .rne a b).1
/-- fp32 RNE. -/
def divS (a b : Nat) : Nat := (floatDiv .f32 .rne a b).1
/-- fp32 RNE. -/
def sqrtS (a : Nat) : Nat := (floatSqrt .f32 .rne a).1
/-- fp64 RNE. -/
def addD (a b : Nat) : Flagged := floatAdd .f64 .rne a b
/-- fp64 RNE. -/
def subD (a b : Nat) : Flagged := floatSub .f64 .rne a b
/-- fp64 RNE. -/
def mulD (a b : Nat) : Flagged := floatMul .f64 .rne a b
/-- fp64 RNE. -/
def divD (a b : Nat) : Flagged := floatDiv .f64 .rne a b

/-- Whether an fp32 code is a NaN. -/
def isNanS (a : Nat) : Bool := (valueOf .f32 a).isNan
/-- a < b in fp32; false for a NaN. -/
def ltS (a b : Nat) : Bool := (valueOf .f32 a).lt (valueOf .f32 b)
/-- a ≤ b in fp32; false for a NaN. -/
def leS (a b : Nat) : Bool := !isNanS a && !isNanS b && !ltS b a
/-- -a in fp32, as the sign bit. -/
def negS (a : Nat) : Nat := a ^^^ 0x80000000

/-! Exact sums and products of many values, for the entries that round once. -/

/-- An exact rational: a signed numerator, a denominator above 0, and a power of two. -/
structure Rat2 where
  n : Int
  d : Nat
  e : Int
  deriving DecidableEq, Repr

/-- A finite number as an exact rational; 0 for a NaN or infinity, which the caller has excluded. -/
def Rat2.ofNum : Num → Rat2
  | .fin neg m e => { n := if neg then -(m : Int) else m, d := 1, e := e }
  | .nan _ => { n := 0, d := 1, e := 0 }
  | .inf _ => { n := 0, d := 1, e := 0 }

/-- The value of an fp32 code as an exact rational. -/
def Rat2.ofS (x : Nat) : Rat2 := .ofNum (valueOf .f32 x)
/-- The value of an fp64 code as an exact rational. -/
def Rat2.ofD (x : Nat) : Rat2 := .ofNum (valueOf .f64 x)
/-- An integer as an exact rational. -/
def Rat2.ofInt (i : Int) : Rat2 := { n := i, d := 1, e := 0 }
/-- Exact sum. -/
def Rat2.add (a b : Rat2) : Rat2 :=
  let q := min a.e b.e
  { n := a.n * (2 ^ (a.e - q).toNat : Nat) * b.d + b.n * (2 ^ (b.e - q).toNat : Nat) * a.d, d := a.d * b.d, e := q }
/-- Exact opposite. -/
def Rat2.negate (a : Rat2) : Rat2 := { a with n := -a.n }
/-- Exact difference. -/
def Rat2.sub (a b : Rat2) : Rat2 := a.add b.negate
/-- Exact product. -/
def Rat2.mul (a b : Rat2) : Rat2 := { n := a.n * b.n, d := a.d * b.d, e := a.e + b.e }
/-- Exact quotient by a non-zero rational. -/
def Rat2.div (a b : Rat2) : Rat2 :=
  { n := (if b.n < 0 then -a.n else a.n) * b.d, d := a.d * b.n.natAbs, e := a.e - b.e }
/-- Whether the rational is 0. -/
def Rat2.isZero (a : Rat2) : Bool := a.n == 0
/-- Whether a < b. -/
def Rat2.lt (a b : Rat2) : Bool := decide ((a.sub b).n < 0)
/-- The rational rounded once to a float type; an exact 0 is +0. -/
def Rat2.round (t : Ty) (r : Rounding) (a : Rat2) : Flagged := roundRat t r (decide (a.n < 0)) a.n.natAbs a.d a.e
/-- The floor of the rational. -/
def Rat2.floor (a : Rat2) : Int :=
  if a.e ≥ 0 then a.n * (2 ^ a.e.toNat : Nat) / a.d else a.n / ((a.d * 2 ^ (-a.e).toNat : Nat) : Int)
/-- The rational rounded RNE to a multiple of 1 / 2^k, as that multiple. -/
def Rat2.grid (a : Rat2) (k : Nat) : Int :=
  let (q, _) := roundMag .rne (decide (a.n < 0)) (scaled a.n.natAbs a.d (a.e + k))
  if a.n < 0 then -(q : Int) else q

end Sys2Proof.Machine
end

