-- ==== Sys2Proof/Machine/Access.lean ====
section
/-! DEFINITION. The named operations over memory: reading and writing a byte of each space, the physical windows (R267),
translation (R160-R163), the checks of an access in their order (R142-R146), and the black-box record (R279). -/

namespace Sys2Proof.Machine

/-! Parts of the state by name. -/

/-- A stream by its number. -/
def State.stream? (s : State) (sid : Nat) : Option Stream := Tab.get? s.streams sid
/-- Replaces a stream. -/
def State.putStream (s : State) (sid : Nat) (st : Stream) : State := { s with streams := Tab.put s.streams sid st }
/-- A logical cluster (R8). -/
def State.cluster (s : State) (c : Nat) : Cluster := Sp.get Cluster.initial s.clusters c
/-- Replaces a logical cluster. -/
def State.putCluster (s : State) (c : Nat) (cl : Cluster) : State :=
  { s with clusters := Sp.set Cluster.initial s.clusters c cl }
/-- A running launch. -/
def State.launch? (s : State) (l : Nat) : Option Launch := Tab.get? s.launches l
/-- Replaces a launch. -/
def State.putLaunch (s : State) (l : Nat) (la : Launch) : State := { s with launches := Tab.put s.launches l la }
/-- An operation in flight. -/
def State.op? (s : State) (n : Nat) : Option Op := Tab.get? s.ops n
/-- Replaces an operation in flight. -/
def State.putOp (s : State) (n : Nat) (o : Op) : State := { s with ops := Tab.put s.ops n o }
/-- Drops an operation. -/
def State.dropOp (s : State) (n : Nat) : State := { s with ops := Tab.del s.ops n }
/-- A command queue. -/
def State.queue (s : State) (q : Nat) : CmdQueue := Sp.get CmdQueue.initial s.queues q
/-- Replaces a command queue. -/
def State.putQueue (s : State) (q : Nat) (c : CmdQueue) : State :=
  { s with queues := Sp.set CmdQueue.initial s.queues q c }
/-- Physical cluster `n` = 13 * die + number. -/
def State.physAt (s : State) (n : Nat) : Phys := (Tab.get? s.phys n).getD (Phys.initial n)
/-- Replaces a physical cluster. -/
def State.putPhys (s : State) (n : Nat) (p : Phys) : State := { s with phys := Tab.put s.phys n p }
/-- The physical cluster that carries each die index of a die (R9-R13); at reset index i is carried by cluster i. -/
def State.dieRow (s : State) (d : Nat) : List Nat := (Tab.get? s.dieMap d).getD (List.range 12)
/-- Logical clusters presented (R9). -/
def State.presented (s : State) : Nat := ((List.range 4).map fun d => (s.dieRow d).length).sum
/-- The rank of the first logical cluster of a die (R9). -/
def State.dieBase (s : State) (d : Nat) : Nat := ((List.range d).map fun e => (s.dieRow e).length).sum
/-- The die of a logical cluster (R9). -/
def State.dieOf (s : State) (c : Nat) : Nat :=
  if c < s.dieBase 1 then 0 else if c < s.dieBase 2 then 1 else if c < s.dieBase 3 then 2 else 3
/-- The die index of a logical cluster (R9). -/
def State.dieIndex (s : State) (c : Nat) : Nat := c - s.dieBase (s.dieOf c)
/-- The physical cluster that carries a logical cluster. -/
def State.physOf (s : State) (c : Nat) : Nat :=
  13 * s.dieOf c + nth 12 (s.dieRow (s.dieOf c)) (s.dieIndex c)
/-- The sector of a logical cluster (R9): up to three clusters of its die. -/
def State.sectorOf (s : State) (c : Nat) : Nat := 4 * s.dieOf c + s.dieIndex c / 3
/-- The die pair of a logical cluster (R9). -/
def State.pairOf (s : State) (c : Nat) : Nat := s.dieOf c / 2
/-- What a logical cluster keeps for a launch (R33, R34, R40). -/
def State.bay (s : State) (l c : Nat) : Bay :=
  match s.launch? l with
  | some la => Sp.get Bay.initial la.bays c
  | none => Bay.initial
/-- Replaces it. -/
def State.putBay (s : State) (l c : Nat) (b : Bay) : State :=
  match s.launch? l with
  | some la => s.putLaunch l { la with bays := Sp.set Bay.initial la.bays c b }
  | none => s
/-- A region of the RAF (R160). -/
def State.region (s : State) (r : Nat) : Region := Sp.get { root := 0, attr := 0 } s.raf r
/-- A fresh free value's number: the step that draws it moves the counter on (DESIGN CHOICE, log 4). -/
def State.bump (s : State) : State := { s with fresh := s.fresh + 1 }

/-! The black-box record (R279). -/

/-- Writes a record to the ring of a die. -/
def State.box (s : State) (die kind unitw : Nat) (code : Word) (addr detail : BitVec 64) : State :=
  let seq := Sp.get 0 s.bboxSeq die
  let r : BoxRec :=
    { seq := seq, kind := BitVec.ofNat 8 kind, die := BitVec.ofNat 8 die, unitw := BitVec.ofNat 16 unitw,
      code := code, addr := addr, detail := detail }
  let ring := Sp.get [] s.bbox die
  let ring := if ring.length < Config.bboxRecords then ring ++ [r] else ring.drop 1 ++ [r]
  { s with bbox := Sp.set [] s.bbox die ring, bboxSeq := Sp.set 0 s.bboxSeq die (seq + 1) }

/-- UNIT of an event without a core or cluster. -/
def noUnit : Nat := 0xF0FF

/-- UNIT of a core of a logical cluster. -/
def State.unitOf (s : State) (cl core : Nat) : Nat := core * 4096 + s.physOf cl % 13
/-- UNIT of a physical cluster. -/
def clusterUnit (phys : Nat) : Nat := 0xF000 + phys % 13

/-- Who makes an access: the die and UNIT that a BUS or LINK record names. -/
structure Who where
  die  : Nat
  unitw : Nat
  deriving DecidableEq, Repr

/-- The host (R279: events with no device unit go to die 0). -/
def Who.host : Who := { die := 0, unitw := noUnit }

/-! Physical memory (R267). -/

/-- A physical address in its canonical form: a pod address of the package's own rank is a local one. -/
def State.canon (s : State) (pa : Nat) : Nat :=
  if pa / 2 ^ 50 % 4 = 1 ∧ pa / 2 ^ 40 % 2 ^ 10 = s.podRank then pa % 2 ^ 40 else pa

/-- Whether memory stands behind a physical address. Host memory is taken to back its whole window (DESIGN CHOICE, log 24). -/
def backed (pa : Nat) : Bool :=
  match pa / 2 ^ 50 % 4 with
  | 0 => decide (pa % 2 ^ 50 < Config.hbmBytes)
  | 1 => decide (pa % 2 ^ 40 < Config.hbmBytes)
  | 2 => true
  | _ => false

/-- What an unlisted byte of memory reads as: 0 (DESIGN CHOICE, log 1). -/
def emptyByte : Byte := 0

/-- The canonical form of memory: addresses strictly rising, and no entry equal to what an unlisted address reads as. -/
abbrev Memory.wf (m : List Host.Cell) : Prop := Sp.wf emptyByte m = true

/-- Whether a physical address is in another package's memory (R267). -/
def State.isRemote (s : State) (pa : Nat) : Bool := decide (s.canon pa / 2 ^ 50 % 4 = 1)

/-- The package that a pod address names. -/
def rankOf (pa : Nat) : Nat := pa / 2 ^ 40 % 1024

/-- The code of the LINK record of an access that another package does not answer (R271, R279): 1 outside the pod, 2 where
the link's retries are exhausted. -/
def State.linkCode (s : State) (pa : Nat) : Option Nat :=
  if !s.isRemote pa then none
  else if rankOf pa ≥ s.podSize then some 1
  else if s.linkDown.contains (rankOf pa) then some 2
  else none

/-- Whether an access to another package fails (R271). -/
def State.linkFault (s : State) (pa : Nat) : Bool := (s.linkCode pa).isSome

/-- Reads one byte of physical memory; a window address with no memory behind it reads 0 (R267). -/
def State.readPhys (s : State) (pa : Nat) : Byte :=
  if backed (s.canon pa) then Sp.get emptyByte s.mem (s.canon pa) else 0

/-- Writes one byte of physical memory; a write with no memory behind it is discarded (R267), and so is one that another package does
not answer (R271). -/
def State.writePhys (s : State) (pa : Nat) (b : Byte) : State :=
  if backed (s.canon pa) && !s.linkFault pa then { s with mem := Sp.set emptyByte s.mem (s.canon pa) b } else s

/-- Reads `n` bytes of physical memory, little-endian, as a number. -/
def State.readPhysN (s : State) (pa : Nat) : Nat → Nat
  | 0 => 0
  | n + 1 => (s.readPhys pa).toNat + 256 * s.readPhysN (pa + 1) n

/-- Writes the low `n` bytes of `v` at a physical address, little-endian. -/
def State.writePhysN (s : State) (pa v : Nat) : Nat → State
  | 0 => s
  | n + 1 => (s.writePhys pa (BitVec.ofNat 8 v)).writePhysN (pa + 1) (v / 256) n

/-- The LINK record of an access (R271, R279). -/
def State.linkBox (s : State) (who : Who) (pa code : Nat) : State :=
  s.box who.die 13 who.unitw (BitVec.ofNat 32 code) (BitVec.ofNat 64 pa) (BitVec.ofNat 64 (rankOf pa))

/-- The BUS record of an access with no memory behind it (R267, R279). -/
def State.busCheck (s : State) (who : Who) (write : Bool) (pa : Nat) : State :=
  if backed (s.canon pa) then s
  else s.box who.die 12 who.unitw (if write then 2 else 1) (BitVec.ofNat 64 pa) 0

/-- The records of an access that no instruction makes: LINK where another package does not answer, else BUS where no memory
stands (R267, R271). -/
def State.note (s : State) (who : Who) (write : Bool) (pa : Nat) : State :=
  match s.linkCode pa with
  | some c => s.linkBox who pa c
  | none => s.busCheck who write pa

/-! Faults of an access. -/

/-- A fault with a code alone. -/
def Exn.plain (c : FaultCode) : Exn :=
  { code := c, sub := 0, level := 0, sw := 0, addr := 0, mask := none, done := 0, empty := false, pc := none,
    place := 0, link := none, flag := none }
/-- A fault with a code and an address. -/
def Exn.at (c : FaultCode) (a : Addr) : Exn := { Exn.plain c with addr := a }
/-- A TRANSLATION fault (R162): subtype 1 NOT_PRESENT, 2 RESERVED, 3 PERMISSION_LEVEL. -/
def Exn.walk (sub level : Nat) (a : Addr) : Exn := { Exn.at .translation a with sub := sub, level := level }
/-- Whether a fault parks: NOT_PRESENT alone (R254). -/
def Exn.parks (e : Exn) : Bool := e.code == .translation && e.sub == 1

/-- The kinds of access that translation checks (R162). -/
inductive Acc where
  | read | write | exec
  deriving DecidableEq, Repr

/-- The fields of RAFATTR (R160). -/
def Region.valid (r : Region) : Bool := r.attr.getLsbD 0
/-- RAFATTR.PGSZ. -/
def Region.pgsz (r : Region) : Nat := r.attr.toNat / 2 % 4
/-- RAFATTR.ROOTLV: 1 for a root at L4. -/
def Region.rootL4 (r : Region) : Bool := r.attr.getLsbD 3
/-- Whether RAFATTR.PERM allows an access. -/
def Region.allows (r : Region) : Acc → Bool
  | .read => r.attr.getLsbD 4
  | .write => r.attr.getLsbD 5
  | .exec => r.attr.getLsbD 6
/-- RAFATTR.USER. -/
def Region.user (r : Region) : Bool := r.attr.getLsbD 7
/-- RAFATTR.CACHE. -/
def Region.cache (r : Region) : Nat := r.attr.toNat / 256

/-- Whose storage a place is: a launch's Plaza, a stream's stack, or the package's. -/
def Place.owner (p : Place) (launch sid : Nat) : Nat :=
  match p.space with
  | .phys => 0
  | .plaza => launch
  | .stack => sid
  | .ws => 0

/-- Whether an access of `n` bytes meets a word with an uncorrectable error (R266). -/
def State.badWord (s : State) (launch sid : Nat) (p : Place) (n : Nat) : Bool :=
  s.errors.any fun e => match e with
    | .word o q => o == p.owner launch sid && q.space == p.space &&
        decide (q.key / 8 = p.key / 8 ∨ (p.key ≤ q.key ∧ q.key < p.key + n))
    | .vreg _ _ _ => false
    | .sreg _ _ => false
    | .pred _ _ => false
    | .tape _ _ => false
    | .buffer _ _ => false

/-- Whether `n` bytes of physical memory meet an uncorrectable error (R266). -/
def State.bad (s : State) (pa n : Nat) : Bool := s.badWord 0 0 { space := .phys, key := pa } n

/-- The orientation in which an access uses a sector (R156), applied to a cached sector (R157). Every byte of the sector
keeps its value through a turn, and so does its dirty bit: memory here always holds the last write. -/
def State.turn (s : State) (pa policy : Nat) (o : Orient) : State :=
  if policy < 2 ∧ s.canon pa / 2 ^ 50 % 4 = 0 then { s with orient := Sp.set .row s.orient (s.canon pa / 1024) o } else s

/-- The turn of a sector as bytes reach its slice after their instruction has issued (R157): a store's at its commit, an atomic's, a
sum's, a drain's. -/
def State.arrive (s : State) (cached : Bool) (o : Orient) (p : Place) : State :=
  if cached && p.space == .phys then s.turn p.key 0 o else s

/-- The result of a walk: the leaf's frame (its physical address), the bits below `low` kept, its attributes, and whether
the 16 leaves of its 64 KiB group make one translation (R163). -/
structure Leaf where
  base   : Nat
  low    : Nat
  w      : Bool
  x      : Bool
  u      : Bool
  policy : Nat
  group  : Bool
  deriving DecidableEq, Repr

/-- The structure that a space lies in, as an error's record names it (R279): 1 HBM4, which the stacks lie in too, 3 the Plaza,
4 the weight store. Which of HBM4, the LLC and the L1s holds a bad word of memory is not told apart (DESIGN CHOICE, log 17). -/
def Space.structure_ : Space -> Nat
  | .phys => 1
  | .plaza => 3
  | .stack => 1
  | .ws => 4

/-- ECC_UNCORRECTABLE at an address, met in a structure (R266). -/
def Exn.ecc (place : Nat) (a : Addr) : Exn := { Exn.at .eccUncorrectable a with place := place }

/-- The fault of an access that meets an error at a physical address: another package (R271), or uncorrectable (R266). -/
def State.accessError (s : State) (pa : Nat) (a : Addr) : Exn :=
  match s.linkCode pa with
  | some c => { Exn.at .eccUncorrectable a with link := some (pa, c) }
  | none => Exn.ecc 1 a

/-- The key of a table entry in the walk caches (R163): its region, its level, and the address bits that select it. -/
def walkKey (lvl va : Nat) : Nat := 2 ^ 60 * (va / 2 ^ 53) + 2 ^ 57 * lvl + va / 2 ^ (12 + 9 * (lvl - 1))

/-- Whether a table entry may stand at a level of a walk: valid, nothing reserved, a leaf exactly at the leaf level, and
there aligned and without a hint above L1 (R161, R162). The fault where it may not. -/
def pteFault (leaf lvl pte : Nat) (a : Addr) : Option Exn :=
  if !bit pte 0 then some (Exn.walk 1 lvl a)
  else if bits pte 62 52 ≠ 0 then some (Exn.walk 2 lvl a)
  else if lvl > leaf then (if bit pte 1 then some (Exn.walk 2 lvl a) else none)
  else if !bit pte 1 || (decide (leaf > 1) && bit pte 4) ||
      decide (bits pte 51 12 * 4096 % 2 ^ (12 + 9 * (leaf - 1)) ≠ 0) then some (Exn.walk 2 leaf a)
  else none

/-- Whether the 16 entries of a 64 KiB group are one translation (R163): valid leaves with the hint and equal attributes,
their frames contiguous from a 64 KiB aligned first page. -/
def State.groupOk (s : State) (tab idx : Nat) : Bool :=
  let pte := fun k => s.readPhysN (tab + 8 * (idx / 16 * 16 + k)) 8
  let first := bits (pte 0) 51 12
  first % 16 == 0 &&
  (List.range 16).all fun k =>
    let e := pte k
    bit e 0 && bit e 1 && bit e 4 && bits e 62 52 == 0 && bits e 51 12 == first + k && bits e 7 5 == bits (pte 0) 7 5 &&
    bits e 3 2 == bits (pte 0) 3 2

/-- One table entry of a walk (R162), at level `lvl` of a walk whose leaf level is `leaf`, and the state after its read: a row line
(R156), a BUS record (R267), and the entry of L5 to L2 held (R163; DESIGN CHOICE, log 10). -/
def State.walkEntry (s : State) (who : Who) (va leaf lvl tab : Nat) : Except Exn Nat × State :=
  let a : Addr := BitVec.ofNat 64 va
  let pa := tab + 8 * (va / 2 ^ (12 + 9 * (lvl - 1)) % 512)
  let held := if lvl ≥ 2 then Tab.get? s.walks (walkKey lvl va) else none
  if held.isNone && decide (pa / 2 ^ 50 % 4 = 3) then (.error (Exn.walk 2 0 a), s)
  else if held.isNone && (s.linkFault pa || s.bad (s.canon pa) 8) then (.error (s.accessError pa a), s)
  else
    let t := if held.isNone then (s.turn pa 0 .row).busCheck who false pa else s
    let pte := held.getD (s.readPhysN pa 8)
    match pteFault leaf lvl pte a with
    | some e => (.error e, t)
    | none => (.ok pte, if lvl ≥ 2 then { t with walks := Tab.put t.walks (walkKey lvl va) pte } else t)

/-- The walk of R162 below the RAF, from level `lvl` = leaf + fuel down to the leaf, and the state after its reads. -/
def State.walkFrom (who : Who) (va : Nat) (r : Region) (leaf : Nat) : Nat → Nat → State → Except Exn Leaf × State
  | 0, tab, s =>
    match s.walkEntry who va leaf leaf tab with
    | (.error e, s) => (.error e, s)
    | (.ok pte, s) =>
      (.ok { base := bits pte 51 12 * 4096, low := 12 + 9 * (leaf - 1), w := bit pte 2, x := bit pte 3, u := bit pte 5,
             policy := max r.cache (min (bits pte 7 6) 2),
             group := leaf == 1 && bit pte 4 && s.groupOk tab (va / 4096 % 512) }, s)
  | f + 1, tab, s =>
    match s.walkEntry who va leaf (leaf + f + 1) tab with
    | (.error e, s) => (.error e, s)
    | (.ok pte, s) => State.walkFrom who va r leaf f (bits pte 51 12 * 4096) s

/-- Whether a TLB entry translates a page. -/
def TlbEntry.covers (e : TlbEntry) (page : Nat) : Bool := decide (e.page ≤ page ∧ page < e.page + e.pages)

/-- A translation the TLB holds for a page, if it allows the access (R163; DESIGN CHOICE, log 10). -/
def State.tlbHit (s : State) (page : Nat) (acc : Acc) (user : Bool) : Option TlbEntry :=
  s.tlb.find? fun e => e.covers page && (!user || e.user) &&
    (match acc with
     | .read => e.r
     | .write => e.w
     | .exec => e.x)

/-- Translate of R162: the physical address and the cache policy, or the fault with the virtual address, and the state after
the walk, with the translation held in the TLB. -/
def State.translate (s : State) (who : Who) (va : Addr) (acc : Acc) (user : Bool) : Except Exn (Nat × Nat) × State :=
  let v := va.toNat % 2 ^ 57
  let r := s.region (v / 2 ^ 53)
  if !r.valid then (.error (Exn.walk 1 0 va), s)
  else if !r.allows acc || (user && !r.user) then (.error (Exn.walk 3 0 va), s)
  else if r.rootL4 && decide (bits v 52 48 ≠ 0) then (.error (Exn.walk 1 0 va), s)
  else match s.tlbHit (v / 4096) acc user with
    | some e =>
      let pa := (e.frame + (v / 4096 - e.page)) * 4096 + v % 4096
      (if pa / 2 ^ 50 % 4 = 3 then .error (Exn.walk 2 0 va) else .ok (pa, max r.cache e.policy), s)
    | none =>
      let leaf := 1 + r.pgsz
      let top := if r.rootL4 then 4 else 5
      match State.walkFrom who v r leaf (top - leaf) (r.root.toNat * 4096) s with
      | (.error e, s) => (.error { e with addr := va }, s)
      | (.ok l, s) =>
        if (acc == .write && !l.w) || (acc == .exec && !l.x) || (user && !l.u) then (.error (Exn.at .permission va), s)
        else
          let pa := l.base + v % 2 ^ l.low
          if pa / 2 ^ 50 % 4 = 3 then (.error (Exn.walk 2 0 va), s)
          else
            let back := if l.group then v / 4096 % 16 else 0
            let e : TlbEntry :=
              { page := v / 4096 - back, pages := if l.group then 16 else 1, frame := pa / 4096 - back, r := true, w := l.w,
                x := l.x, user := l.u, policy := l.policy }
            (.ok (pa, l.policy), { s with tlb := e :: s.tlb.filter fun t => !t.covers (v / 4096) })

/-- Discards the TLB and walk-cache entries of a region (R163). -/
def State.invalidate (s : State) (region : Nat) : State :=
  { s with tlb := s.tlb.filter (fun t => t.page / 2 ^ 41 ≠ region), walks := s.walks.filter fun e => e.1 / 2 ^ 60 ≠ region }

/-! The checks of an access that need no translation (R142-R146). -/

/-- The tag of a generic pointer. -/
def tagOf (a : Addr) : Nat := a.toNat / 2 ^ 60

/-- Whether the pointer breaks R142 or the limits of R144-R146 for the launch. -/
def apertureBad (la : Launch) (a : Addr) : Bool :=
  let n := a.toNat
  match tagOf a with
  | 0 => decide (bits n 59 57 ≠ 0)
  | 1 => decide (bits n 51 22 ≠ 0) || decide (bits n 59 52 ≠ 0xFF ∧ bits n 59 52 ≥ la.ncl)
         || decide (bits n 21 0 ≥ la.record.plaza)
  | 2 => decide (bits n 59 32 ≠ 0) || decide (bits n 31 0 ≥ 3 * (la.psize / 4))
  | 3 => decide (bits n 59 54 ≠ 0) || decide (bits n 51 28 ≠ 0)
  | _ => true

/-- Checks 1 to 3 of R143 for one lane's access of `n` bytes. -/
def staticCheck (la : Launch) (a : Addr) (n : Nat) (write : Bool) : Option FaultCode :=
  if apertureBad la a then some .aperture
  else if a.toNat % n ≠ 0 then some .alignment
  else if write && tagOf a == 3 then some .wsWrite
  else none

/-- Whether `n` bytes from a virtual address meet a sealed range of a running launch (R201). -/
def State.isSealed (s : State) (a : Addr) (n : Nat) : Bool :=
  s.launches.any fun l => l.2.ranges.any fun r =>
    decide (a.toNat < r.1.toNat + r.2.toNat ∧ r.1.toNat < a.toNat + n)

/-- Whether each of `n` bytes from a virtual address lies in a sealed range of a launch (R201). -/
def Launch.sealedAt (la : Launch) (a : Addr) (n : Nat) : Bool :=
  (List.range n).all fun i =>
    la.ranges.any fun r => decide (r.1.toNat ≤ a.toNat + i ∧ a.toNat + i < r.1.toNat + r.2.toNat)

/-- A byte of a space, as memory holds it. -/
def State.readPlace (s : State) (st : Stream) (p : Place) : Byte :=
  match p.space with
  | .phys => s.readPhys p.key
  | .plaza =>
    match s.launch? st.launch with
    | some la => Sp.get 0 la.plaza p.key
    | none => 0
  | .stack => Sp.get 0 st.stack p.key
  | .ws => Sp.get emptyByte s.ws p.key

/-- The byte that the stream's own buffered stores leave at a place (R178): the newest store's byte, if any. -/
def bufferedByte (p : Place) : List BufItem → Option Byte
  | [] => none
  | b :: t =>
    match bufferedByte p t with
    | some v => some v
    | none =>
      match b.item with
      | .store bs => (bs.find? fun e => e.1 == p).map (·.2)
      | .push _ _ _ | .post _ | .scat _ | .spls _ _ | .tape => none

/-- A byte as the stream's own accesses read it (R178). -/
def State.viewPlace (s : State) (st : Stream) (p : Place) : Byte :=
  match bufferedByte p st.buffer with
  | some b => b
  | none => s.readPlace st p

/-- The place `i` bytes after a place; an access never crosses a page or a launch's Plaza (R143). -/
def Place.plus (p : Place) (i : Nat) : Place := { p with key := p.key + i }

/-- The places of an access of `n` bytes. -/
def Place.span (p : Place) (n : Nat) : List Place := (List.range n).map p.plus

/-- `n` bytes at a place as the stream reads them, as a number. -/
def State.viewN (s : State) (st : Stream) (p : Place) (n : Nat) : Nat :=
  (p.span n).foldr (fun q acc => (s.viewPlace st q).toNat + 256 * acc) 0

/-- `n` bytes at a place as memory holds them, as a number. -/
def State.placeN (s : State) (st : Stream) (p : Place) (n : Nat) : Nat :=
  (p.span n).foldr (fun q acc => (s.readPlace st q).toNat + 256 * acc) 0

/-- A release buffer without the bytes that its stores hold for some places. -/
def withoutPlaces (ps : List Place) (bs : List BufItem) : List BufItem :=
  bs.map fun b => match b.item with
    | .store l => { b with item := .store (l.filter fun e => !ps.contains e.1) }
    | .push _ _ _ | .post _ | .scat _ | .spls _ _ | .tape => b

/-- Writes a byte to a place of a launch: the last byte written stays. -/
def State.writePlace (s : State) (launch sid : Nat) (p : Place) (b : Byte) : State :=
  match p.space with
  | .phys => s.writePhys p.key b
  | .plaza =>
    match s.launch? launch with
    | some la => s.putLaunch launch { la with plaza := Sp.set 0 la.plaza p.key b }
    | none => s
  | .stack =>
    match s.stream? sid with
    | some st => s.putStream sid { st with stack := Sp.set 0 st.stack p.key b }
    | none => s
  | .ws => { s with ws := Sp.set emptyByte s.ws p.key b }

/-- The bytes of a number, little-endian, at the places of an access. -/
def placeBytes (p : Place) (v : Nat) : Nat → List (Place × Byte)
  | 0 => []
  | n + 1 => (p, BitVec.ofNat 8 v) :: placeBytes (p.plus 1) (v / 256) n

end Sys2Proof.Machine
end

