-- ==== Sys2Proof/Machine/Ops.lean ====
section
/-! DEFINITION. The operations the meanings share: splits and turns (R25-R32), the release buffer, commits and
checkpoints (R178, R246-R250), the digest (R202), barriers (R33-R37), the end and the kill of a stream, and taking and
leaving a fault (R254-R263). -/

namespace Sys2Proof.Machine

/-! Launches and streams. -/

/-- A launch record of zeros, for a stream whose launch is gone. -/
def LaunchRec.blank : LaunchRec :=
  { slot := 0, entry := 0, threads := 0, attr := 0, tiles := 0, allot := 16, w := 0, nclus := 0, plaza := 0, tape := 0,
    lossexp := 0, srseed := 0, route := 0, sealedAt := 0, done := 0, tapeBase := 0, tapeSize := 0 }

/-- A launch that has done nothing. -/
def Launch.blank : Launch :=
  { queue := 0, ident := 0, record := .blank, privileged := false, psize := 4096, ncl := 1, total := 0, next := 0,
    mccStart := [], started := false, bays := [], plaza := [], occtab := 0, stats := 0, stages := [], cards := [], parts := [],
    dealt := [], refused := [], dropped := [], posted := [], ranges := [], vfrac := 0, verdicts := [], found := [], clean := 0, mismatch := 0,
    faults := 0, bad := false, wsMaps := [], claims := [], closed := 0, suspended := false, trans := [], colls := [],
    overlap := [] }

/-- Whether the launch is DET (R57). -/
def Launch.det (la : Launch) : Bool := la.record.attr.getLsbD 0
/-- Whether the launch is ROUTED (R57). -/
def Launch.routed (la : Launch) : Bool := la.record.attr.getLsbD 2
/-- Whether the launch starts MCC streams (R57, R74). -/
def Launch.hasMcc (la : Launch) : Bool := la.record.attr.getLsbD 3

/-- The launch of a stream. -/
def State.launchOf (s : State) (st : Stream) : Launch := (s.launch? st.launch).getD Launch.blank
/-- Changes a launch, if it is there. -/
def State.onLaunch (s : State) (l : Nat) (f : Launch -> Launch) : State :=
  match s.launch? l with
  | some la => s.putLaunch l (f la)
  | none => s
/-- Changes a stream, if it is there. -/
def State.onStream (s : State) (sid : Nat) (f : Stream -> Stream) : State :=
  match s.stream? sid with
  | some st => s.putStream sid (f st)
  | none => s

/-- Whether the stream is an MCC stream. -/
def Stream.isMcc (st : Stream) : Bool := st.kind == .mcc
/-- Whether the stream is a verification replay or an arbitration (R203). -/
def Stream.isReplay (st : Stream) : Bool := st.role != .normal
/-- The stage number of a stage wave; none for a launch wave. -/
def Stream.stageOf (st : Stream) : Option Nat :=
  match st.kind with
  | .stage k _ _ => some k
  | .wave => none
  | .mcc => none
/-- Lanes that are launched and have not exited (R22). -/
def Stream.live (st : Stream) : LaneMask := st.launched &&& ~~~st.exited
/-- A split by its number. -/
def Stream.split? (st : Stream) (k : Nat) : Option Split := st.vis.splits.find? fun p => p.num == k
/-- Puts a split in the list, in ascending number. -/
def putSplit : List Split -> Split -> List Split
  | [], p => [p]
  | q :: t, p => if p.num < q.num then p :: q :: t else if q.num = p.num then p :: t else q :: putSplit t p
/-- Replaces a split. -/
def Stream.putSplit (st : Stream) (p : Split) : Stream :=
  { st with vis := { st.vis with splits := Machine.putSplit st.vis.splits p } }
/-- Changes every split. -/
def Stream.mapSplits (st : Stream) (f : Split -> Split) : Stream :=
  { st with vis := { st.vis with splits := st.vis.splits.map f } }
/-- Removes a split. -/
def Stream.dropSplit (st : Stream) (k : Nat) : Stream :=
  { st with vis := { st.vis with splits := st.vis.splits.filter fun p => p.num != k } }
/-- Whether a split can issue (R30, R51). -/
def Split.ready (p : Split) : Bool := p.status == .run && p.hold.isNone
/-- Whether a split runs a trap handler (R32). -/
def Split.inTrap (p : Split) : Bool := p.trap.isSome
/-- Whether any split of the wave runs a handler or is parked on a fault (R263). -/
def Stream.faulting (st : Stream) (k : Nat) : Bool :=
  st.vis.splits.any fun p => p.num != k && (p.inTrap || p.status == .parked)
/-- Entries visible in a window (R43). -/
def windowOf (allot : Nat) : Nat := min 64 allot
/-- Whether the stream recomputes a tape span (R242). -/
def Stream.recomputing (st : Stream) : Bool := st.saved.isSome

/-- Other splits that waited for the fault handler or the park may issue again (R263). -/
def Stream.releaseFaults (st : Stream) : Stream :=
  st.mapSplits fun p => if p.hold = some .otherFault then { p with hold := none } else p

/-! Register storage. -/

/-- A register-stack entry of a lane (R43). An entry that CALL first brings into the window holds 0 if nothing has written it since the
launch, else what an earlier frame left there (DESIGN CHOICE, log 67). -/
def Stream.vreg (st : Stream) (entry lane : Nat) : Word := Sp.get 0 st.vis.vregs (entry * 96 + lane)
/-- Writes a register-stack entry of a lane. -/
def Stream.setVreg (st : Stream) (entry lane : Nat) (v : Word) : Stream :=
  { st with vis := { st.vis with vregs := Sp.set 0 st.vis.vregs (entry * 96 + lane) v },
            dirtyV := Sp.set false st.dirtyV (entry * 96 + lane) true }
/-- An ordinary scalar register. -/
def Stream.sreg (st : Stream) (n : Nat) : Word := Sp.get 0 st.vis.sregs n
/-- Writes an ordinary scalar register. -/
def Stream.setSreg (st : Stream) (n : Nat) (v : Word) : Stream :=
  { st with vis := { st.vis with sregs := Sp.set 0 st.vis.sregs n v }, dirtyS := Sp.set false st.dirtyS n true }
/-- A predicate; p7 is all ones (R54). -/
def Stream.pred (st : Stream) (n : Nat) : LaneMask := if n = 7 then BitVec.allOnes 96 else Sp.get 0 st.vis.preds n
/-- Writes a predicate; p7 keeps its value. -/
def Stream.setPred (st : Stream) (n : Nat) (v : LaneMask) : Stream :=
  if n = 7 then st
  else { st with vis := { st.vis with preds := Sp.set 0 st.vis.preds n v }, dirtyP := Sp.set false st.dirtyP n true }
/-- A reduction register (R188). -/
def Stream.kreg (st : Stream) (n : Nat) : KReg := nth KReg.initial st.vis.kregs n
/-- Writes a reduction register. -/
def Stream.setKreg (st : Stream) (n : Nat) (k : KReg) : Stream :=
  { st with vis := { st.vis with kregs := setNth st.vis.kregs n k } }

/-! The issue context. -/

/-- An instruction as it issues: the state, the issuing stream and split, its launch, the lanes that take part, where
the split goes next, and what the end of the issue has to do: whether it takes a checkpoint, now (`ckpt`) or for the
completion of an adjoint's own region (`later`, R230). -/
structure Cx where
  s       : State
  id      : Nat
  st      : Stream
  sp      : Split
  la      : Launch
  part    : LaneMask
  perLane : Bool
  next    : Addr
  endTurn : Bool
  count   : Bool
  left    : Option Nat
  keep    : Bool
  ckpt    : Bool
  later   : Bool
  deriving DecidableEq, Repr

/-- How an instruction fails to complete: a fault before any effect, the same after reads and pops (`cx` is the context
with them), a hold at issue without effect, a fault after some lanes completed, a wait after its effect, or the end of a
replay at a read its log does not hold (R407). -/
inductive Stop where
  | fault (e : Exn)
  | faultOn (cx : Cx) (e : Exn)
  | hold (h : Hold)
  | after (cx : Cx) (e : Exn)
  | wait (cx : Cx) (h : Hold)
  | endRun (cx : Cx)
  deriving DecidableEq, Repr

/-- The lanes that take part (R24), within the retry set of a reissue (R259). -/
def takesPart (st : Stream) (p : Split) : LaneMask :=
  let g := st.pred p.mode.guard.toNat
  let g := if p.mode.ginv then ~~~g else g
  let m := p.mask &&& g
  match p.retry with
  | some r => m &&& r
  | none => m

/-- The context of the issuing stream and its current split. -/
def Cx.load (s : State) : Option Cx :=
  match s.stream? s.issuer with
  | none => none
  | some st =>
    match st.split? st.vis.cur with
    | none => none
    | some p =>
      some { s := s, id := s.issuer, st := st, sp := p, la := s.launchOf st, part := takesPart st p, perLane := false,
             next := p.pc + 4, endTurn := false, count := true, left := none, keep := true, ckpt := false, later := false }

/-- The state with the context's stream and split written back. -/
def Cx.flush (cx : Cx) : State :=
  cx.s.putStream cx.id (if cx.keep then cx.st.putSplit cx.sp else cx.st)

/-- The context after a change of the state as a whole. -/
def Cx.reload (cx : Cx) (s : State) : Cx :=
  match s.stream? cx.id with
  | none => { cx with s := s }
  | some st =>
    match st.split? cx.sp.num with
    | none => { cx with s := s, st := st }
    | some p => { cx with s := s, st := st, sp := p }

/-- Applies a change of the state as a whole within an issue. -/
def Cx.onState (cx : Cx) (f : State -> State) : Cx := cx.reload (f cx.flush)

/-- Raises flags in the issuing split's FPSTAT (R136). -/
def Cx.raiseFlags (cx : Cx) (f : BitVec 6) : Cx := { cx with sp := { cx.sp with fpstat := cx.sp.fpstat ||| f } }

/-- A fault with a code alone, before any effect. -/
def stopAt {α : Type} (c : FaultCode) : Except Stop α := .error (.fault (Exn.plain c))

/-- Raises the fault unless the condition holds. -/
def must (c : Bool) (f : FaultCode) : Except Stop Unit := if c then .ok () else stopAt f

/-- A fault after the reads of a context. -/
def Cx.stop {α : Type} (cx : Cx) (e : Exn) : Except Stop α := .error (.faultOn cx e)

/-- A fault with a code alone after the reads of a context. -/
def Cx.failAt {α : Type} (cx : Cx) (c : FaultCode) : Except Stop α := cx.stop (Exn.plain c)

/-- Raises the fault after the reads of a context, unless the condition holds. -/
def Cx.need (cx : Cx) (c : Bool) (f : FaultCode) : Except Stop Unit := if c then .ok () else cx.failAt f

/-- A context with what an instruction leaves that faults before any effect: the reads that its checks and its own reads made
stand, in the translations held, the sectors turned, the black box and the input log (R156, R163, R201, R267). -/
def Cx.keepReads (cx r : Cx) : Cx :=
  { cx with
    s := { cx.s with tlb := r.s.tlb, walks := r.s.walks, orient := r.s.orient, bbox := r.s.bbox, bboxSeq := r.s.bboxSeq },
    st := { cx.st with log := r.st.log, logBytes := r.st.logBytes, unverif := r.st.unverif } }

/-- Who accesses, for the black box (R279); an MCC stream is of no core. -/
def State.whoOf (s : State) (st : Stream) : Who :=
  { die := s.dieOf st.cl, unitw := if st.isMcc then clusterUnit (s.physOf st.cl) else s.unitOf st.cl st.core }

/-! The digest (R202). -/

/-- Folds one record into a digest in progress. -/
def digestStep (d : BitVec 64 × BitVec 64 × Nat) (r : DigestRec) : BitVec 64 × BitVec 64 × Nat :=
  let h0 := hStep ((d.1 ^^^ r.a).toNat) hC1 32
  let h1 := hStep ((d.2.1 ^^^ r.data).toNat) hC2 29
  let k := (r.mask.toNat + 256 * r.kind + 65536 * r.sub) % 2 ^ 64
  let h0 := hStep (h0 ^^^ h1 ^^^ k) hC3 32
  let h1 := hStep (h1 ^^^ h0) hC1 29
  (BitVec.ofNat 64 h0, BitVec.ofNat 64 h1, d.2.2 + 1)

/-- The digest before any record, for wave rank g. -/
def digestStart (g : Nat) : BitVec 64 × BitVec 64 × Nat :=
  (BitVec.ofNat 64 hC0, BitVec.ofNat 64 (hC2 ^^^ g), 0)

/-- The finished digest. -/
def digestEnd (d : BitVec 64 × BitVec 64 × Nat) : BitVec 128 :=
  let h0 := hStep ((d.1.toNat ^^^ d.2.2) % 2 ^ 64) hC3 32
  d.2.1 ++ BitVec.ofNat 64 h0

/-! Commits and checkpoints. -/

/-- The stage of a card's producer; none for a launch wave (R71). -/
def Card.poster (c : Card) : Option Nat := if c.prod < 2 ^ 46 then none else some (c.prod / 2 ^ 46 - 1)

/-- A card enters its stage queue (R69), and its producer's stage has posted to that queue (R67). -/
def Launch.post (la : Launch) (c : Card) : Launch :=
  let posted := match c.poster with
    | some k => if la.posted.contains (k, c.stage * 64 + c.cl) then la.posted else la.posted ++ [(k, c.stage * 64 + c.cl)]
    | none => la.posted
  { la with cards := la.cards ++ [c], posted := posted }

/-- Contributions the Arcade's buffers hold beside the scatter log, and the log's bytes for one (DESIGN CHOICE, log 25). -/
def arcadeSlots : Nat := 65536
/-- Bytes of a contribution in the scatter log (DESIGN CHOICE, log 25). -/
def logBytes : Nat := 16

/-- A contribution enters the Arcade (R228). Past the Arcade's buffers it goes to the scatter log (R229), at the first free place there: an
access of R406, of bytes that the spec does not lay out (DESIGN CHOICE, log 25). -/
def State.scatter (s : State) (launch wid : Nat) (c : Contrib) : State :=
  let out := s.arcade.filterMap (·.slot)
  if s.arcade.length - out.length < arcadeSlots then
    { s with arcade := s.arcade ++ [{ launch := launch, wid := wid, c := c, slot := none }] }
  else
    let at_ := fun (k : Nat) => s.slog.1.toNat + logBytes * k
    let a := at_ (((List.range (out.length + 1)).find? fun k => !out.contains (at_ k)).getD 0)
    let t := (List.range logBytes).foldl (fun t i => t.writePhys (a + i) (Config.freeByte (2 ^ 40 * s.fresh + i)))
      (s.note Who.host true a)
    { t.bump with arcade := s.arcade ++ [{ launch := launch, wid := wid, c := c, slot := some a }] }

/-- What one buffered item does when its region commits (R178). A replay's writes are discarded, but for the lane stacks
that it alone reads (R203). A store reaches its sector now, through a row line (R157). No buffered byte is seen before, also where fork and
join edges (R173, R179) would order it first (DEDUCED, log 6). -/
def State.commitItem (launch sid wid cl : Nat) (replay : Bool) (s : State) (b : BufItem) : State :=
  match b.item with
  | .store bs =>
    bs.foldl (fun s e => if replay && e.1.space != .stack then s
      else (s.arrive b.cached .row e.1).writePlace launch sid e.1 e.2) s
  | .push _ q v =>
    if replay then s
    else
      let c := s.bay launch cl
      s.putBay launch cl { c with hwq := Sp.set [] c.hwq q (Sp.get [] c.hwq q ++ [v]) }
  | .post card => if replay then s else s.onLaunch launch (Launch.post · card)
  | .scat c => if replay then s else s.scatter launch wid c
  | .spls list recs =>
    if replay then s
    else s.onLaunch launch fun la =>
      let base := 2 ^ 22 * cl + list
      let rd := fun (pz : List Host.Cell) (o : Nat) =>
        ((List.range 4).foldr (fun i acc => (Sp.get 0 pz (base + o + i)).toNat + 256 * acc) 0)
      let wr := fun (pz : List Host.Cell) (a v : Nat) =>
        (List.range 4).foldl (fun z i => Sp.set 0 z (a + i) (BitVec.ofNat 8 (v / 256 ^ i))) pz
      let add := fun (pz : List Host.Cell) (r : List Word) =>
        let n := rd pz 8
        let fl := rd pz 0x14
        if n < rd pz 4 then
          let at_ := 2 ^ 22 * cl + rd pz 0 + 48 * n
          let pz := (r.zipIdx).foldl (fun z w => wr z (at_ + 4 * w.2) w.1.toNat) pz
          wr (wr pz (base + 8) (n + 1)) (base + 0x14) (fl - fl % 2)
        else wr pz (base + 0x14) (fl - fl % 4 + 2)
      { la with plaza := recs.foldl add la.plaza }
  | .tape => s

/-- Cards held in a release buffer. -/
def postsHeld (bs : List BufItem) : Nat :=
  (bs.filter fun b => match b.item with
    | .post _ => true
    | _ => false).length

/-- The cards posted to each stage, with those of a release buffer (R71). -/
def postCounts (m : List (Nat × Nat)) : List BufItem -> List (Nat × Nat)
  | [] => m
  | b :: t =>
    match b.item with
    | .post c => postCounts (Sp.set 0 m c.stage (Sp.get 0 m c.stage + 1)) t
    | _ => postCounts m t

/-! The host fault queue (R270, R405). -/

/-- Writes one entry, or counts it as dropped with a notice in die 0's black box (R279). -/
def State.faultEntry (s : State) (st : Stream) (sid k : Nat) (fr : FaultRec) (second : Addr) (parked : Bool) : State :=
  let la := s.launchOf st
  if s.fq.cfg && decide ((s.fq.tail - s.fq.head).toNat < 2 ^ s.fq.log2) then
    let idx := s.fq.tail.toNat % 2 ^ s.fq.log2
    let a := s.fq.base.toNat + 64 * idx
    let m := fr.mask.toNat
    let s := s.note Who.host true a
    let s := s.writePhysN a fr.code.toNat 8
    let s := s.writePhysN (a + 8) fr.pc.toNat 8
    let s := s.writePhysN (a + 0x10) fr.addr.toNat 8
    let s := s.writePhysN (a + 0x18) m 12
    let s := s.writePhysN (a + 0x24) la.queue 4
    let s := s.writePhysN (a + 0x28) st.rank.toNat 4
    let s := s.writePhysN (a + 0x2C) st.cl 4
    let s := s.writePhysN (a + 0x30) second.toNat 8
    let s := s.writePhysN (a + 0x38) 0 8
    let named := s.fq.parked.filter fun e => e.1 ≠ idx
    { s with fq := { s.fq with tail := s.fq.tail + 1,
                               parked := if parked then (idx, sid, k) :: named else named } }
  else
    let s := { s with fq := { s.fq with dropped := s.fq.dropped + 1 } }
    s.box 0 2 noUnit 0 0 (BitVec.ofNat 64 s.fq.dropped)

/-- An uncorrectable error that the Arcade, the collective engine or a commit meets for a stream (R266), or an access of theirs that
another package does not answer (R271): the launch will complete with STATUS 3, with an event in the black box and an entry of the
host fault queue. -/
def State.unitError (s : State) (st : Stream) (sid k : Nat) (pc : Addr) (e : Exn) : State :=
  let w := s.whoOf st
  let s := s.onLaunch st.launch fun la => { la with bad := true }
  let s := match e.link with
    | some (pa, c) => s.linkBox w pa c
    | none => s.box w.die 8 w.unitw (BitVec.ofNat 32 e.place) e.addr 0
  s.faultEntry st sid k { code := BitVec.ofNat 32 (0x16 + 2 ^ 31 * b2n st.isMcc), pc := pc, mask := 0, addr := e.addr } 0 false

/-- The error of a store's commit to another package that does not answer (R271), at the address of its first byte. -/
def State.storeError (s : State) (b : BufItem) : Option Exn :=
  match b.item with
  | .store (e :: _) =>
    if e.1.space == .phys && s.linkFault e.1.key then
      some (s.accessError e.1.key (((b.recs.head?.map (·.a)).getD 0) + BitVec.ofNat 64 (e.1.key % 8)))
    else none
  | .store [] | .push _ _ _ | .post _ | .scat _ | .spls _ _ | .tape => none

/-- Errors that a commit meets (R266, R271): a store that another package does not answer, an error in the release buffer, which goes
with the item, and one in the descriptor of a splat list to which it appends. -/
def State.commitErrors (s : State) (sid : Nat) (st : Stream) (bs : List BufItem) : State :=
  let hit := fun (e : ErrSite) => match e with
    | .buffer k i => k == sid && bs.any fun b => b.issue == i
    | .word _ _ | .vreg _ _ _ | .sreg _ _ | .pred _ _ | .tape _ _ => false
  let pc := ((st.split? st.vis.cur).map (·.pc)).getD 0
  let list := fun (b : BufItem) => match b.item with
    | .spls l _ => s.badWord st.launch sid { space := .plaza, key := 2 ^ 22 * st.cl + l } 32
    | .store _ | .push _ _ _ | .post _ | .scat _ | .tape => false
  let s := if st.isReplay then s
    else (bs.filterMap s.storeError).foldl (fun s e => s.unitError st sid st.vis.cur pc e) s
  let s := if s.errors.isEmpty || !bs.any list then s else s.unitError st sid st.vis.cur pc (Exn.ecc 3 0)
  if s.errors.any hit then
    let s := s.unitError st sid st.vis.cur pc (Exn.ecc 8 0)
    { s with errors := s.errors.filter fun e => !hit e }
  else s

/-- The places that an item's STL writes (R175). -/
def BufItem.released (b : BufItem) : List Place :=
  match b.rel, b.item with
  | some _, .store l => l.map (·.1)
  | _, _ => []

/-- Whether a place is the same byte for two streams, given that it has the same key. -/
def Place.common (p : Place) (a b : Stream) : Bool := p.space == .phys || (p.space == .plaza && a.launch == b.launch)

/-- The reads that the commit of an STL of a stream comes after (R175; DEDUCED, log 6): acquires of other streams that saw the value
before, with all that those streams had come after then. An entry is a stream and the stamp of its read. -/
def State.readBefore (s : State) (sid : Nat) (st : Stream) (b : BufItem) : List (Nat × Nat) :=
  s.streams.flatMap fun e =>
    if e.1 == sid then []
    else (e.2.acqs.filter fun a => b.released.contains a.1 && a.1.common st e.2).flatMap fun a =>
      (e.1, a.2) :: (e.2.after.filter fun x => decide (x.2.2 ≤ a.2)).map fun x => (x.1, x.2.1)

/-- The key of a place's last STL: whose storage it is, and the place. -/
def Stream.stlKey (st : Stream) (sid : Nat) (p : Place) : Nat × Place := (p.owner st.launch sid, p)

/-- What the last STLs to some places come after (R175). -/
def State.afterAt (s : State) (sid : Nat) (st : Stream) (ps : List Place) : List (Nat × Nat) :=
  s.stlAfter.flatMap fun e => if ps.any fun p => st.stlKey sid p == e.1 then e.2 else []

/-- Whether such an entry still orders anything: the stream it names holds an STL older than the read. -/
def State.binds (s : State) (e : Nat × Nat) : Bool :=
  match s.stream? e.1 with
  | some st => st.buffer.any fun b => b.rel.isSome && decide (b.issue < e.2)
  | none => false

/-- What a stream comes after once the STLs of some items have committed (R175), each entry from the stamp of its STL on. -/
def State.laterAfter (s : State) (sid : Nat) (st : Stream) (bs : List BufItem) : List (Nat × Nat × Nat) :=
  let more := bs.flatMap fun b => if b.rel.isNone then []
    else (s.readBefore sid st b ++ s.afterAt sid st b.released).map fun e => (e.1, e.2, b.issue + 1)
  (st.after ++ more).filter fun e => e.1 != sid && s.binds (e.1, e.2.1)

/-- The record of what the last STL to a place comes after, once some items have committed (R175). -/
def State.noteStls (s : State) (sid : Nat) (st : Stream) (bs : List BufItem) (after : List (Nat × Nat × Nat)) : State :=
  let put := fun (m : List ((Nat × Place) × List (Nat × Nat))) (b : BufItem) =>
    let known := (after.filter fun e => decide (e.2.2 ≤ b.issue + 1)).map fun e => (e.1, e.2.1)
    b.released.foldl (fun m p =>
      let m := m.filter fun e => e.1 != st.stlKey sid p
      if known.isEmpty then m else (st.stlKey sid p, known) :: m) m
  let m := bs.foldl put s.stlAfter
  { s with stlAfter := (m.map fun e => (e.1, e.2.filter s.binds)).filter fun e => !e.2.isEmpty }

/-- A stream whose items `bs` are committed and whose items `rest` stay, in a new region (R178): nothing left to undo, what it now comes
after (R175), and the records of the items in the digest of a selected wave or a replay. -/
def Stream.commit (st : Stream) (bs rest : List BufItem) (after : List (Nat × Nat × Nat)) : Stream :=
  { st with buffer := rest, pops := [], region := st.region + 1, tileUndo := [], refusals := [], newParts := [],
            acqs := if after.isEmpty then [] else st.acqs,
            after := after, posts := postCounts st.posts bs, postSeq := st.postSeq + postsHeld bs,
            digest := if st.selected || st.isReplay then (bs.flatMap (·.recs)).foldl digestStep st.digest else st.digest }

/-- Acquires that an uncommitted STL of another stream held may look again (R175). -/
def State.wakeAcquires (s : State) : State :=
  { s with streams := s.streams.map fun e =>
      (e.1, e.2.mapSplits fun p => if p.hold = some .acquire then { p with hold := none } else p) }

/-- Commits items of a stream's release buffer, in program order, and keeps the rest there (R178). -/
def State.commitItems (s : State) (sid : Nat) (bs rest : List BufItem) : State :=
  match s.stream? sid with
  | none => s
  | some st =>
    let after := if st.isReplay then [] else s.laterAfter sid st bs
    let s := bs.foldl (State.commitItem st.launch sid st.wid st.cl st.isReplay) (s.commitErrors sid st bs)
    let s := s.onStream sid (Stream.commit · bs rest after)
    if bs.any fun b => b.rel.isSome then (if st.isReplay then s else s.noteStls sid st bs after).wakeAcquires else s

/-- Commits the release buffer of a stream and opens a new region (R178); the contributions of an adjoint that is not over stay (R230). -/
def State.commit (s : State) (sid : Nat) : State :=
  match s.stream? sid with
  | none => s
  | some st => s.commitItems sid (st.buffer.filter fun b => !b.own) (st.buffer.filter (·.own))

/-- The lowest window base of the wave's splits (R249). -/
def lowBase (ps : List Split) : Nat :=
  match ps with
  | [] => 0
  | p :: t => t.foldl (fun m q => min m q.winbase) p.winbase

/-- A split whose instruction will issue again whole. -/
def Split.whole (p : Split) : Split :=
  { p with retry := none, retryOp := none, serial := none, trap := p.trap.map fun t => { t with retry := BitVec.allOnes 96 } }

/-- A split as a checkpoint takes it (R248). An adjoint that is not over starts again whole, for a kill discards its contributions (R230);
so does a parked read, whose registers a kill leaves undefined in every lane (R250). The finished lanes of an ATOM, which have left
their records, are not repeated. -/
def Stream.checkSplit (st : Stream) (p : Split) : Split :=
  if (st.buffer.any fun b => b.own && p.serial == some b.issue) || (p.retryOp.isSome && p.recs.isEmpty) then p.whole else p

/-- What a checkpoint of the wave holds now (R248). -/
def Stream.snapshot (st : Stream) : Checkpoint :=
  { splits := st.vis.splits.map st.checkSplit, exited := st.exited, allot := st.vis.allot, pfill := st.vis.pfill, alphastop := st.vis.alphastop,
    tba := st.vis.tba, kregs := st.vis.kregs, frames := st.vis.vregs, writes := [], lowBase := lowBase st.vis.splits,
    tape := st.tape, digest := st.digest, logLen := st.log.length, logBytes := st.logBytes }

/-- Takes a checkpoint of a wave (R248); an MCC stream is saved, not replayed, and takes none (R351). -/
def Stream.checkpoint (st : Stream) : Stream :=
  if st.isMcc then st
  else { st with ckpt := some st.snapshot, nextCkpt := none, ckptNo := st.ckptNo + 1, dirtyS := [], dirtyV := [],
                 dirtyP := [] }

/-- Whether an adjoint operation of the stream has not committed its own region yet (R230). -/
def State.adjointOpen (s : State) (sid : Nat) : Bool :=
  s.ops.any fun o => o.2.stream == sid &&
    match o.2.kind with
    | .texadj | .edgs => true
    | .splat adj _ => adj
    | _ => false

/-- Whether a raster thread of the stream's open region is still running (R212). -/
def State.rasterBusy (s : State) (sid : Nat) (st : Stream) : Bool :=
  s.ops.any fun o => o.2.stream == sid && o.2.region == st.region &&
    match o.2.kind with
    | .raster _ _ => true
    | _ => false

/-- Whether a commit of the stream's contributions finds the scatter log full (R229). -/
def State.logFull (s : State) (st : Stream) : Bool :=
  let n := (st.buffer.filter fun b => match b.item with
    | .scat _ => true
    | _ => false).length
  decide (n > 0) && !st.isReplay && decide (s.arcade.length + n > arcadeSlots + s.slog.2 / logBytes)

/-- Records the hold of a commit at a full scatter log (R229). -/
def Cx.logHold (cx : Cx) : Cx :=
  let w := cx.s.whoOf cx.st
  let s := cx.s.box w.die 11 w.unitw 0 cx.sp.pc cx.la.ident
  { cx with s := s.faultEntry cx.st cx.id cx.sp.num { code := 0, pc := cx.sp.pc, mask := cx.sp.mask, addr := 0 } 0 false }

/-- The base sets of R167 that hold another stream, by the logical placement of both (R9, R10). -/
def State.inBase (s : State) (code : Nat) (a b : Nat × Stream) : Bool :=
  let c := a.2.cl
  let d := b.2.cl
  match code with
  | 0 => a.1 == b.1
  | 1 => a.1 == b.1
  | 2 => a.2.launch == b.2.launch && c == d && (List.range 16).any fun q =>
      (Sp.get [] (s.bay a.2.launch c).quarters q).contains a.1 && (Sp.get [] (s.bay a.2.launch c).quarters q).contains b.1
  | 3 => c == d && a.2.core == b.2.core
  | 4 => c == d
  | 5 => s.sectorOf c == s.sectorOf d
  | 6 => s.dieOf c == s.dieOf d
  | 7 => s.pairOf c == s.pairOf d
  | _ => true

/-- Whether stream `b` is in the instance of a scope for stream `a` (R167): the union of the base sets up to the scope's. -/
def State.inScope (s : State) (scope : Nat) (a b : Nat × Stream) : Bool :=
  (List.range (scope + 1)).any fun c => s.inBase c a b

/-- Whether STL number `i` of stream `a` comes before what stream `b` does at stamp `now` in every order that R175 allows (DEDUCED, log
6): through reads that saw a value older than a later STL. -/
def State.ordered (s : State) (b now : Nat) : Nat -> Nat -> Nat -> Bool
  | 0, _, _ => false
  | fuel + 1, a, i =>
    let since := fun (st : Stream) => (st.after.filter fun e => e.1 == a && decide (i < e.2.1)).map (·.2.2)
    let reads := s.streams.flatMap fun e =>
      e.2.acqs.filter fun q => if e.1 = a then decide (i < q.2) else (since e.2).any fun n => decide (n ≤ q.2)
    ((s.stream? b).map fun st => (since st).any fun n => decide (n ≤ now)).getD false ||
    reads.any fun q => s.streams.any fun e => e.1 != a && e.2.buffer.any fun x =>
      x.released.contains q.1 && (if e.1 = b then decide (x.issue ≤ now) else s.ordered b now fuel e.1 x.issue)

/-- Whether an access of a scope to some places, at stamp `now` of the issuing stream, comes after another stream's STL to one of them
that has not committed (R175). -/
def State.stlBefore (s : State) (me : Nat × Stream) (scope now : Nat) (ps : List Place) : Bool :=
  !me.2.isReplay && s.streams.any fun e => e.1 != me.1 && !e.2.isReplay && e.2.buffer.any fun x =>
    match x.rel with
    | none => false
    | some r =>
      (x.released.any fun p => ps.contains p && p.common me.2 e.2) && s.inScope r e me && s.inScope scope me e &&
      s.ordered me.1 now s.streams.length e.1 x.issue

/-- Whether the commit of one of the stream's STLs has to wait for that of another stream (R175). -/
def Cx.stlHeld (cx : Cx) : Bool :=
  cx.st.buffer.any fun b => match b.rel with
    | none => false
    | some r => cx.flush.stlBefore (cx.id, cx.st) r b.issue b.released

/-- A commit point before or at an instruction (R178): it waits for the region's raster threads, for the own region of an
adjoint before it, since regions commit in program order (R202, R230), for room in the scatter log, and for other streams' STLs that its own come after (R175);
then it commits, takes a checkpoint at the instruction, and asks for another after it. -/
def Cx.commit (cx : Cx) : Except Stop Cx :=
  if cx.s.rasterBusy cx.id cx.st then .error (.hold .raster)
  else if cx.s.adjointOpen cx.id then .error (.hold .adjoints)
  else if cx.s.logFull cx.st then .error (.hold .scatterLog)
  else if cx.stlHeld then .error (.hold .acquire)
  else
    let cx := cx.onState fun s => (s.commit cx.id).onStream cx.id Stream.checkpoint
    .ok { cx with ckpt := true }

/-- Room for `n` more bytes in the release buffer (R246); a recomputation holds nothing (R242). -/
def Cx.bufferRoom (cx : Cx) (n : Nat) : Except Stop Unit :=
  cx.need (cx.st.recomputing || decide ((cx.st.buffer.map (·.size)).sum + n ≤ Config.releaseBytes)) .releaseOverflow

/-- Puts an item of a reissue in its place: after the items of earlier issues and of lower lanes of its own (R202). -/
def insertItem (b : BufItem) : List BufItem -> List BufItem
  | [] => [b]
  | c :: t => if c.issue < b.issue ∨ (c.issue = b.issue ∧ c.lane ≤ b.lane) then c :: insertItem b t else b :: c :: t

/-- The stamp that the split's instruction takes in the release buffer: a reissue has that of its first issue. -/
def Cx.stampNo (cx : Cx) : Nat := if cx.sp.retry.isSome then cx.sp.serial.getD cx.st.stamp else cx.st.stamp

/-- A stream with more items in its release buffer, all of one stamp. -/
def Stream.hold (st : Stream) (n : Nat) (again : Bool) (items : List BufItem) : Stream :=
  let items := items.map fun b => { b with issue := n }
  { st with buffer := if again then items.foldl (fun l b => insertItem b l) st.buffer else st.buffer ++ items,
            stamp := st.stamp + 1 }

/-- Adds items to the release buffer; past 16 KiB they raise RELEASE_OVERFLOW before any effect (R246). A recomputation
discards them (R242). -/
def Cx.buffer (cx : Cx) (items : List BufItem) : Except Stop Cx := do
  cx.bufferRoom (items.map (·.size)).sum
  .ok (if cx.st.recomputing then cx
    else { cx with st := cx.st.hold cx.stampNo cx.sp.retry.isSome items,
                   sp := { cx.sp with serial := if cx.sp.inTrap then cx.sp.serial else some cx.stampNo } })

/-- The contributions of an adjoint that is over commit with the stream's next region (R230). -/
def Stream.disown (st : Stream) (serial : Option Nat) : Stream :=
  { st with buffer := st.buffer.map fun b => if serial == some b.issue then { b with own := false } else b }

/-- Folds records into the digest of a selected wave or a replay (R202). -/
def Stream.fold (st : Stream) (rs : List DigestRec) : Stream :=
  { st with digest := if st.selected || st.isReplay then rs.foldl digestStep st.digest else st.digest }

/-- A split past its instruction, within its clause (R29, R86). What a reissue kept goes with its instruction; a handler's
instructions leave that of the interrupted one alone. -/
def Split.advance (p : Split) : Split :=
  let q := { p with pc := p.pc + 4, dii := p.dii + 1, left := p.left - 1, hold := none, retry := none, retryOp := none,
                    trap := p.trap.map fun t => { t with count := t.count + 1 } }
  if p.inTrap then q else { q with kept := none, serial := none, recs := [] }

/-! Spilling of frames (R47). -/

/-- Entries of a linkage entry's frame. -/
def Linkage.size : Linkage -> Nat
  | .call _ f => f
  | .trap f => f

/-- How many of the oldest frames are spilled so that the rest fits the allotment; none when the spill area cannot take
them (R47). `frames` is oldest first. -/
def spillCount (allot psize : Nat) (frames : List Nat) (spilled : Nat) : Option Nat :=
  let need := windowOf allot
  let fits := fun n => decide ((frames.drop n).sum + need ≤ allot)
  let cand := (List.range (frames.length + 1)).filter fun n => decide (spilled ≤ n) && fits n
  match cand with
  | [] => if frames.length ≤ spilled then some spilled else none
  | n :: _ =>
    if n = spilled then some n
    else if ((frames.take n).map (· + 2)).sum ≤ psize / 16 then some n else none

/-- The frames of a split, oldest first. -/
def Split.frames (p : Split) : List Nat := p.linkage.reverse.map Linkage.size

/-! Barriers (R33-R37). -/

/-- Members of a quarter. -/
def Bay.members (c : Bay) (q : Nat) : List Nat := Sp.get [] c.quarters q
/-- A barrier never bound. -/
def Barrier.free : Barrier :=
  { bound := false, quarter := 0, decl := 0, expected := 0, kept := 0, phase := 0, arrived := [], partly := [],
    early := [], earlyPart := [], waiting := [] }
/-- The barrier under a key: core of the cluster * 128 + number (R34). -/
def Bay.barrier (c : Bay) (key : Nat) : Barrier := Sp.get Barrier.free c.barriers key

/-- The end of a barrier's phase (R35): the next one opens with the early arrivals, and the barrier is free when nothing
of the new phase names it (R34). -/
def Barrier.turn (b : Barrier) (members : Nat) : Barrier :=
  let w := b.waiting.filter fun e => decide (e.2.2 > b.phase)
  { b with phase := b.phase + 1, arrived := b.early, partly := b.earlyPart, early := [], earlyPart := [], waiting := w,
           expected := if b.decl = 0 then members else b.kept,
           bound := !(b.early.isEmpty && b.earlyPart.isEmpty && w.isEmpty) }

/-- Completes the phase when N = E (R35), and the next one too when the early arrivals alone make its count. -/
def Barrier.complete (b : Barrier) (members : Nat) : Barrier :=
  if b.bound && b.arrived.length == b.expected then
    let b := b.turn members
    if b.bound && !b.arrived.isEmpty && b.arrived.length == b.expected then b.turn members else b
  else b

/-- A split's arrival (R35, R36); none when it is held until the phase completes. -/
def Barrier.arrive (b : Barrier) (sid k : Nat) (splits : List Nat) : Option Barrier :=
  if b.arrived.contains sid then
    if b.early.contains sid || b.earlyPart.contains (sid, k) then none
    else
      let ep := b.earlyPart ++ [(sid, k)]
      if splits.all fun j => ep.contains (sid, j) then
        some { b with early := b.early ++ [sid], earlyPart := ep.filter fun e => e.1 ≠ sid }
      else some { b with earlyPart := ep }
  else if b.partly.contains (sid, k) then none
  else
    let pt := b.partly ++ [(sid, k)]
    if splits.all fun j => pt.contains (sid, j) then
      some { b with arrived := b.arrived ++ [sid], partly := pt.filter fun e => e.1 ≠ sid }
    else some { b with partly := pt }

/-- A barrier without what splits of a wave that are no more have left there. -/
def Barrier.prune (b : Barrier) (sid : Nat) (splits : List Nat) : Barrier :=
  let here := fun (e : Nat × Nat) => e.1 ≠ sid || splits.contains e.2
  { b with partly := b.partly.filter here, earlyPart := b.earlyPart.filter here,
           waiting := b.waiting.filter fun e => e.1 ≠ sid || splits.contains e.2.1 }

/-- A wave's partial arrivals looked at again after one of its splits ended or merged (R36). An arrival belongs to a split
number, so of splits that merge the lowest number's arrival counts (DESIGN CHOICE, log 58). -/
def Barrier.recheck (b : Barrier) (sid : Nat) (splits : List Nat) : Barrier :=
  let b := b.prune sid splits
  let hasP := b.partly.any fun e => e.1 == sid
  let b := if hasP && splits.all (fun j => b.partly.contains (sid, j)) then
    { b with arrived := b.arrived ++ [sid], partly := b.partly.filter fun e => e.1 ≠ sid } else b
  let hasE := b.earlyPart.any fun e => e.1 == sid
  if hasE && splits.all (fun j => b.earlyPart.contains (sid, j)) then
    { b with early := b.early ++ [sid], earlyPart := b.earlyPart.filter fun e => e.1 ≠ sid } else b

/-- LEAVE as a bound barrier of the quarter sees it (R35, R37). -/
def Barrier.leave (b : Barrier) (sid : Nat) : Barrier :=
  { b with expected := b.expected - 1, kept := b.kept - 1,
           arrived := b.arrived.filter fun e => e ≠ sid, partly := b.partly.filter fun e => e.1 ≠ sid,
           early := b.early.filter fun e => e ≠ sid, earlyPart := b.earlyPart.filter fun e => e.1 ≠ sid }

/-- Advances a split whose barrier phase or epoch is over (R35, R227), and lets a held arrival issue again. -/
def Split.settle (c : Bay) (closed : Nat) (p : Split) : Split :=
  match p.hold with
  | some (.barrierWait key ph) => if (c.barrier key).phase > ph then p.advance else p
  | some (.barrierArrive key ph) => if (c.barrier key).phase > ph then { p with hold := none } else p
  | some (.epoch n) => if closed > n then p.advance else p
  | _ => p

/-- Settles the splits of a stream after a phase or an epoch is over. -/
def State.settleStream (s : State) (sid : Nat) : State :=
  s.onStream sid fun st => st.mapSplits (Split.settle (s.bay st.launch st.cl) (s.launchOf st).closed)

/-- Settles every resident stream. -/
def State.settle (s : State) : State := (s.streams.map (·.1)).foldl State.settleStream s

/-- Applies a change to every bound barrier of the quarter, then completes phases. -/
def Bay.onQuarter (c : Bay) (q : Nat) (f : Barrier -> Barrier) : Bay :=
  { c with barriers := c.barriers.map fun e =>
      if e.2.bound && e.2.quarter == q then (e.1, (f e.2).complete (c.members q).length) else e }

/-- JOIN (R33, R35). -/
def Bay.join (c : Bay) (q sid : Nat) : Bay :=
  if (c.members q).contains sid then c
  else
    let c := { c with quarters := Sp.set [] c.quarters q (c.members q ++ [sid]) }
    c.onQuarter q fun b => if b.decl = 0 then { b with expected := b.expected + 1 } else b

/-- LEAVE (R33, R35). -/
def Bay.leave (c : Bay) (q sid : Nat) : Bay :=
  if (c.members q).contains sid then
    let c := { c with quarters := Sp.set [] c.quarters q ((c.members q).filter fun x => x ≠ sid) }
    c.onQuarter q (Barrier.leave · sid)
  else c

/-- LEAVE of every quarter (R33: a wave that ends leaves every quarter). -/
def Bay.leaveAll (c : Bay) (sid : Nat) : Bay := (List.range 16).foldl (fun c q => c.leave q sid) c

/-- The barriers after a split of the stream ended or merged (R36). -/
def Bay.recheck (c : Bay) (sid : Nat) (splits : List Nat) : Bay :=
  { c with barriers := c.barriers.map fun e =>
      if e.2.bound then (e.1, (e.2.recheck sid splits).complete (c.members e.2.quarter).length) else e }

/-- The barriers of a stream's cluster after one of its splits ended or merged (R36). -/
def State.recheckBarriers (s : State) (sid : Nat) : State :=
  match s.stream? sid with
  | none => s
  | some st =>
    if st.isReplay then s
    else (s.putBay st.launch st.cl ((s.bay st.launch st.cl).recheck sid (st.vis.splits.map (·.num)))).settle

/-! Splits at a turn's end (R28, R30). -/

/-- Whether two splits merge without MERGE (R28). -/
def sameSplit (a b : Split) : Bool :=
  a.ready && b.ready && a.pc == b.pc && a.winbase == b.winbase && a.linkage == b.linkage && a.dii == b.dii &&
  !a.inTrap && !b.inTrap && a.mode == b.mode && a.srseed == b.srseed && a.lossexp == b.lossexp &&
  a.scatbs == b.scatbs && a.stack.isEmpty && b.stack.isEmpty && a.left == b.left && a.hdr == b.hdr &&
  a.retry.isNone && b.retry.isNone

/-- The union of two splits, with the state of the first, its latched high halves of R55 among it (R28; DESIGN CHOICE,
log 58). -/
def joinSplit (a b : Split) : Split :=
  { a with born := min a.born b.born, members := a.members ||| b.members, mask := a.mask ||| b.mask, fpstat := a.fpstat ||| b.fpstat,
           num := min a.num b.num, late := a.late ++ b.late }

/-- Merges a split into the first of a list that is identical to it, with the renumbering of operations that makes. -/
def absorb (p : Split) : List Split -> Option (List Split × List (Nat × Nat))
  | [] => none
  | q :: t =>
    if sameSplit q p then some (joinSplit q p :: t, [(p.num, min q.num p.num), (q.num, min q.num p.num)])
    else (absorb p t).map fun r => (q :: r.1, r.2)

/-- Merges every set of identical splits (R28), with the renumbering of their operations. -/
def implicitMerge : List Split -> List Split × List (Nat × Nat)
  | [] => ([], [])
  | p :: t =>
    let r := implicitMerge t
    match absorb p r.1 with
    | some (l, m) => (l, r.2 ++ m)
    | none => (p :: r.1, r.2)

/-- The split that held an operation at checkpoint number `n` (R250): the one before the first merge since. -/
def Op.homeAt (o : Op) (n : Nat) : Nat := ((o.home.find? fun h => decide (n ≤ h.1)).map (·.2)).getD o.owner

/-- Gives the operations of split `a` of a stream to split `b` (R88). -/
def State.moveOps (s : State) (sid a b : Nat) : State :=
  let n := ((s.stream? sid).map (·.ckptNo)).getD 0
  { s with ops := s.ops.map fun o =>
      if o.2.stream = sid ∧ o.2.owner = a then (o.1, { o.2 with owner := b, home := if o.2.home.any fun h => decide (n ≤ h.1) then o.2.home else o.2.home ++ [(n, a)] }) else o }

/-- The next ready split after number `k`, in ascending number and wrapping (R30), `k` itself last; the number after `k` while none is
ready. -/
def nextReady (ps : List Split) (k : Nat) : Nat :=
  let r := ps.filter Split.ready
  match r.find? fun p => decide (p.num > k) with
  | some p => p.num
  | none =>
    match r with
    | p :: _ => p.num
    | [] => (k + 1) % 4

/-- The end of a split's turn: identical splits merge and the wave passes to its next ready split (R28, R30). -/
def State.endTurn (s : State) (sid : Nat) : State :=
  match s.stream? sid with
  | none => s
  | some st =>
    let (ps, moves) := implicitMerge st.vis.splits
    let ps := ps.foldl putSplit []
    let s := moves.foldl (fun s m => s.moveOps sid m.1 m.2) s
    let s := s.onStream sid fun st => { st with vis := { st.vis with splits := ps, cur := nextReady ps st.vis.cur } }
    if moves.isEmpty then s else s.recheckBarriers sid

/-- The end of an instruction that completed: the split moves on, a checkpoint is taken where the region ended, and a
turn that is over passes to the next split. -/
def Cx.finish (cx : Cx) : State :=
  let p := cx.sp.advance
  let p := { p with pc := cx.next, dii := if cx.count then p.dii else cx.sp.dii,
                    left := cx.left.getD p.left,
                    trap := if cx.count then p.trap else cx.sp.trap }
  let cx' := { cx with sp := p }
  let s := cx'.flush
  let s := if cx.ckpt then s.onStream cx.id Stream.checkpoint else s
  let s := if cx.later then s.onStream cx.id fun st => { st with nextCkpt := some st.snapshot, ckptNo := st.ckptNo + 1 } else s
  if cx.endTurn || (cx.count && p.left == 0) || !cx.keep then s.endTurn cx.id else s

/-! The end of a stream, and slots (R50-R53, R323). -/

/-- Whether a wave takes a slot of the partition of its core; a replay runs beside them (DEDUCED, log 16). -/
def Stream.inPartition (st : Stream) (cl core part : Nat) : Bool :=
  st.life == .resident && !st.isMcc && !st.isReplay && st.cl == cl && st.core == core && st.part == part

/-- Whether some split of the wave can issue (R50). -/
def Stream.anyReady (st : Stream) : Bool := st.vis.splits.any Split.ready

/-- The long-latency stalls of R51 and of the rules that name one (R71, R227, R229, R320); a wait of another kind is a short-latency
interlock (R50, R182). An acquire or a commit that waits for another stream's commit is taken as long (DEDUCED, log 6). -/
def Hold.long : Hold -> Bool
  | .flags _ | .flagFull _ | .own | .queueEmpty _ | .queueFull _ | .barrierWait _ _ | .barrierArrive _ _ | .grow _ | .tile _ | .lease
  | .copySlot | .partition _ _ | .epoch _ | .adjoints | .acquire | .scatterLog => true
  | .mxu | .reads | .raster | .otherFault | .wsCopy _ => false

/-- Whether a split is in a long-latency stall (R51). -/
def Split.stalled (p : Split) : Bool :=
  match p.status, p.hold with
  | .run, some h => h.long
  | .run, none => false
  | .merge _, _ => true
  | .parked, _ => true
  | .ended, _ => true

/-- Whether a wave stalls (R51): every one of its splits does. One that does not is ready for an exchange (R50). -/
def Stream.stalled (st : Stream) : Bool := st.vis.splits.all Split.stalled

/-- When the wave became ready (R51): at the step that stamped it, or in this one. -/
def Stream.since (st : Stream) : Nat := st.readyAt.getD (2 ^ 64)

/-- Stamps every resident wave that has become ready since the step before, and takes the stamp from one that is ready no
more, whose turns in its slot count anew (R51, R52). -/
def State.stampReady (s : State) : State :=
  let news := fun (st : Stream) => st.life == .resident && !st.stalled && st.readyAt.isNone
  let mark := fun (st : Stream) =>
    if st.life == .resident && !st.stalled then { st with readyAt := some (st.readyAt.getD s.nextId) }
    else { st with readyAt := none, turns := 0 }
  { s with streams := s.streams.map (fun e => (e.1, mark e.2)),
           nextId := if s.streams.any (fun e => news e.2) then s.nextId + 1 else s.nextId }

/-- Gives a freed active slot to the pending wave that has been ready longest (R51). -/
def State.promote (s : State) (cl core part : Nat) : State :=
  let here := s.streams.filter fun e => e.2.inPartition cl core part
  if (here.filter fun e => e.2.active).length < Config.activeSlots then
    let cand := here.filter fun e => !e.2.active && !e.2.stalled
    match cand with
    | [] => s
    | c :: t =>
      let best := t.foldl (fun b e => if e.2.since < b.2.since then e else b) c
      s.onStream best.1 fun st => if st.inPartition cl core part then { st with active := true, turns := 0 } else st
  else s

/-- The end of a stream: it leaves its quarters, unmaps its ports and frees its slot (R323); a lease it holds ends. -/
def State.endStream (s : State) (sid : Nat) : State :=
  match s.stream? sid with
  | none => s
  | some st =>
    let s := if st.isReplay then s else s.putBay st.launch st.cl ((s.bay st.launch st.cl).leaveAll sid)
    let c := s.cluster st.cl
    let c := { c with mccNow := c.mccNow.filter fun k => k ≠ sid, lease := c.lease.filter fun l => l.stream ≠ sid,
                      leaseReqs := c.leaseReqs.filter fun r => r.1 ≠ sid }
    let s := s.putCluster st.cl c
    let s := s.putStream sid
      { st with life := .ended, active := false, pendKill := none, vis := { st.vis with ports := [], splits := [] } }
    (s.promote st.cl st.core st.part).settle

/-! MERGE groups and the end of a split (R27, R323). -/

/-- The union of a group of splits parked at one MERGE, `a` the oldest so far (R27, R98, R137, R225, R227). The rest of its
state, the latched high halves of R55 among it, is the oldest's (DESIGN CHOICE, log 58). -/
def groupSplit (a b : Split) : Split :=
  let o := if a.born ≤ b.born then a else b
  { o with num := min a.num b.num, born := min a.born b.born, members := a.members ||| b.members,
           mask := a.mask ||| b.mask, fpstat := a.fpstat ||| b.fpstat, late := a.late ++ b.late,
           dii := if a.dii.toNat ≤ b.dii.toNat then b.dii else a.dii, scatbs := max a.scatbs b.scatbs }

/-- Whether a split parked at a MERGE belongs to the group of another (R27). -/
def sameGroup (a b : Split) : Bool := a.status == b.status && a.winbase == b.winbase

/-- Puts a parked split into its group. -/
def addGroup (p : Split) : List (Split × List Nat) -> List (Split × List Nat)
  | [] => [(p, [p.num])]
  | g :: t => if sameGroup g.1 p then (groupSplit g.1 p, g.2 ++ [p.num]) :: t else g :: addGroup p t

/-- A group past its MERGE: it issued once, and the split goes on at the next header (R27, R29). -/
def passMerge (g : Split) : Split :=
  match g.status with
  | .merge a => { g with pc := a + 4, dii := g.dii + 1, left := 0, status := .run, hold := none, retry := none }
  | _ => g

/-- When every split of the wave is parked at a MERGE, each group becomes one split (R27). The turn passes on from the split that parked
last (R30). -/
def State.mergeGroups (s : State) (sid : Nat) : State :=
  match s.stream? sid with
  | none => s
  | some st =>
    let parked := st.vis.splits.all fun p => match p.status with
      | .merge _ => true
      | _ => false
    if parked && !st.vis.splits.isEmpty then
      let gs := st.vis.splits.foldl (fun g p => addGroup p g) []
      let s := gs.foldl (fun s g => g.2.foldl (fun s k => s.moveOps sid k g.1.num) s) s
      let ps := gs.foldl (fun l g => putSplit l (passMerge g.1)) []
      (s.onStream sid fun st => { st with vis := { st.vis with splits := ps } }).recheckBarriers sid
    else s

/-- The end of a split whose lanes have exited (R323): the last one ends the stream; the others may now merge, complete
a barrier or issue again. -/
def State.endSplit (s : State) (sid k : Nat) : State :=
  match s.stream? sid with
  | none => s
  | some st =>
    let gone := match st.split? k with
      | some p => p.members
      | none => 0
    let st := ({ st with exited := st.exited ||| gone }.dropSplit k).releaseFaults
    let s := s.putStream sid st
    if st.vis.splits.isEmpty then s.endStream sid
    else
      ((s.mergeGroups sid).recheckBarriers sid).settle

/-- Whether an operation that the split issued is outstanding (R88). -/
def State.ownBusy (s : State) (sid k : Nat) : Bool :=
  s.ops.any fun o => o.2.stream == sid && o.2.owner == k &&
    match o.2.kind with
    | .raster _ _ => false
    | _ => true

/-! Kill (R248-R250). -/

/-- A register value after a kill (R249): undefined, so free. -/
def scramble {α : Type} (get : Nat -> α) (put : List (Nat × α) -> Nat -> α -> List (Nat × α))
    (dirty : List (Nat × Bool)) (m : List (Nat × α)) : List (Nat × α) :=
  dirty.foldl (fun m e => put m e.1 (get e.1)) m

/-- The frames below the checkpoint's lowest window base take their checkpoint values (R249). -/
def restoreFrames (low : Nat) (saved now : List (Nat × Word)) : List (Nat × Word) :=
  let keep := now.filter fun e => decide (e.1 / 96 ≥ low)
  let old := saved.filter fun e => decide (e.1 / 96 < low)
  old.foldr (fun e m => Sp.set 0 m e.1 e.2) keep

/-- The linkage below the trap frame, with the entries of every frame above it and of itself. -/
def unwindTrap : List Linkage -> Nat × List Linkage
  | [] => (0, [])
  | .trap f :: t => (f, t)
  | .call _ f :: t => let r := unwindTrap t; (r.1 + f, r.2)

/-- Whether a hold is a wait that its instruction makes after its effect, which a checkpoint holds on to (R35, R227, R323). -/
def Hold.standing : Hold -> Bool
  | .barrierWait _ _ => true
  | .epoch _ => true
  | .own => true
  | _ => false

/-- A split of a checkpoint as it resumes (R249): a parked fault's record is dropped and a trap in progress ends, so its
instruction issues again for the lanes it had left; a late engine fault that entered the handler is to be raised again (R266). -/
def Split.atReplay (p : Split) : Split :=
  match p.trap with
  | some t =>
    let r := unwindTrap p.linkage
    { p with pc := t.pc, left := t.left, hdr := t.hdr, mode := t.mode, mask := t.mask &&& p.members,
             winbase := p.winbase - r.1, linkage := r.2, spilled := min p.spilled r.2.length, trap := none,
             retry := some t.retry, retryOp := none, hold := none,
             stack := p.stack.drop (p.stack.length - t.depth), status := .run, late := t.late ++ p.late }
  | none =>
    match p.status with
    | .parked => { p with status := .run, retryOp := none, hold := none }
    | .run | .merge _ | .ended => { p with retryOp := none, hold := p.hold.filter Hold.standing }

/-- The stream as it stands on replay from its checkpoint (R249). -/
def Stream.rollback (st : Stream) (ck : Checkpoint) (n : Nat) : Stream :=
  let sregs := scramble (fun k => Config.freeWord (n * 65536 + k)) (Sp.set 0) st.dirtyS st.vis.sregs
  let vregs := scramble (fun k => Config.freeWord (n * 65536 + 64 + k)) (Sp.set 0) st.dirtyV st.vis.vregs
  let preds := scramble (fun k => BitVec.ofNat 96 ((Config.freeDouble (n * 65536 + k)).toNat
      + 2 ^ 64 * (Config.freeWord (n * 65536 + k)).toNat)) (Sp.set 0) st.dirtyP st.vis.preds
  { st with
    vis := { st.vis with
      splits := ck.splits.map Split.atReplay, cur := nextReady (ck.splits.map Split.atReplay) 3, sregs := sregs, vregs := restoreFrames ck.lowBase ck.frames (ck.writes.foldl (fun m r => Sp.set 0 m r.1 r.2) vregs), preds := preds,
      kregs := ck.kregs, allot := ck.allot, pfill := ck.pfill, alphastop := ck.alphastop, tba := ck.tba },
    exited := ck.exited, region := st.region + 1, acqs := [], refusals := [], newParts := [],
    flags := [], buffer := [], redeliver := st.pops ++ st.redeliver, pops := [], dirtyS := [], dirtyV := [], dirtyP := [],
    tileUndo := [], tape := ck.tape, saved := none, digest := ck.digest, nextCkpt := none,
    log := st.log.take ck.logLen, logBytes := ck.logBytes }

/-- Tile entries that the killed region changed return to their state at the region start (R153). -/
def Cluster.undoTiles (c : Cluster) (undo : List (Nat × Tile)) : Cluster :=
  { c with tiles := undo.foldl (fun t e => Sp.set Tile.initial t e.1 e.2) c.tiles }

/-- The parked faults of a stream are void: a RESUME that names their entry is refused (R250). -/
def State.voidParked (s : State) (sid : Nat) : State :=
  { s with fq := { s.fq with parked := s.fq.parked.filter fun e => e.2.1 ≠ sid } }

/-- The registers that operations abandoned at a kill would have written: they are undefined afterwards (R250). -/
def abandonedDirty (ops : List (Nat × Op)) (sid : Nat) : List (Nat × Bool) × List (Nat × Bool) :=
  (ops.filter fun o => o.2.stream == sid && o.2.waiting).foldl
    (fun d o =>
      (o.2.pendV.foldl (fun m e => allLanes.foldl (fun m l => Sp.set false m (e * 96 + l) true) m) d.1,
       o.2.pendS.foldl (fun m e => Sp.set false m e true) d.2)) ([], [])

/-- After a wave was killed: if it was the last of its launch on the cluster, the MCC stream of the launch there is due
for a save (R252). -/
def State.markSave (s : State) (launch cl : Nat) : State :=
  if s.streams.any fun e => e.2.launch == launch && e.2.cl == cl && e.2.life == .resident && !e.2.isMcc && !e.2.isReplay then s
  else { s with streams := s.streams.map fun e =>
      if e.2.launch = launch ∧ e.2.cl = cl ∧ e.2.isMcc ∧ e.2.life = .resident then (e.1, { e.2 with saveDue := true }) else e }

/-- What the killed region of a stream did to its launch goes (R249): copies in the overlap record (R250), POSTs refused, which
count again on replay (they stay counted where none follows; DESIGN CHOICE, log 68), and the partitions that its first POSTs reserved. -/
def Launch.unregion (la : Launch) (sid : Nat) (st : Stream) (prod : Nat) (again : Bool) : Launch :=
  { la with overlap := la.overlap.filter fun e => !(e.1 == sid && e.2.1 / 1024 == st.region),
            refused := if again then st.refusals.foldl (fun m r => Sp.set 0 m r.1 (Sp.get 0 m r.1 - r.2)) la.refused else la.refused,
            parts := la.parts.filter fun p => !(p.prod == prod && st.newParts.contains (p.stage, p.cl)) }

/-- The place of a producer in the order of R71: launch waves by g, then stage waves by (stage, cluster, j). -/
def Stream.producer (st : Stream) : Nat :=
  match st.kind with
  | .wave => st.rank.toNat
  | .stage k j c => 2 ^ 40 * ((k + 1) * 64 + c.cl) + j
  | .mcc => 0

/-- Carries out a kill once nothing of the stream is outstanding (R248-R250, R256): the release buffer is discarded, tile
entries return, and the stream waits for re-admission, or ends. -/
def State.killNow (s : State) (sid : Nat) : State :=
  match s.stream? sid with
  | none => s
  | some st =>
    let (dv, ds) := abandonedDirty s.ops sid
    let s := { s with ops := s.ops.filter fun o => !(o.2.stream == sid && o.2.waiting) }
    let s := s.voidParked sid
    let s := s.putCluster st.cl ((s.cluster st.cl).undoTiles st.tileUndo)
    let s := if st.isReplay then s
      else s.onLaunch st.launch (Launch.unregion · sid st st.producer (st.pendKill != some .final))
    let s := s.bump.wakeAcquires
    match st.pendKill with
    | some .final =>
      let s := s.putStream sid { st with buffer := [], pops := [], tileUndo := [], saved := none, failed := true }
      let s := if st.isReplay then s
        else s.onLaunch st.launch fun la => { la with faults := la.faults + 1, bad := true }
      let s := s.endStream sid
      if st.isMcc || st.isReplay then s else s.markSave st.launch st.cl
    | _ =>
      let mark := fun (m : List (Nat × Bool)) (e : Nat × Bool) => Sp.set false m e.1 e.2
      let st := { st with dirtyV := dv.foldl mark st.dirtyV, dirtyS := ds.foldl mark st.dirtyS }
      let st := match st.ckpt with
        | some ck => st.rollback ck s.fresh
        | none => { st with buffer := [], redeliver := st.pops ++ st.redeliver, pops := [], flags := [], tileUndo := [],
                            saved := none, region := st.region + 1, acqs := [], refusals := [], newParts := [] }
      let s := if st.isReplay then { s with streams := Tab.del s.streams sid }
        else (s.putStream sid { st with life := .killed, active := false, pendKill := none, yielded := false }).markSave
          st.launch st.cl
      s.promote st.cl st.core st.part

/-- Asks for a kill; the wave leaves its slot with WAVE_KILL (R248). A final kill is not undone by a later request. -/
def State.requestKill (s : State) (sid : Nat) (k : KillKind) : State :=
  s.onStream sid fun st =>
    { st with pendKill := if st.pendKill = some .final then some .final else some k }

/-! Faults (R254-R263). -/

/-- The number of a fault code (R254). -/
def FaultCode.num : FaultCode -> Nat
  | .illegalInstruction => 0x01
  | .illegalOperand => 0x02
  | .illegalReg => 0x03
  | .illegalMode => 0x04
  | .unflaggedRead => 0x05
  | .alignment => 0x06
  | .aperture => 0x07
  | .translation => 0x08
  | .permission => 0x09
  | .staleHandle => 0x0A
  | .tileState => 0x0B
  | .wsWrite => 0x0C
  | .copyOverlap => 0x0D
  | .detViolation => 0x0E
  | .tapeMix => 0x0F
  | .tapeExhausted => 0x10
  | .releaseOverflow => 0x11
  | .divergenceOverflow => 0x12
  | .stackOverflow => 0x13
  | .noLease => 0x14
  | .queueConfig => 0x15
  | .eccUncorrectable => 0x16
  | .doubleFault => 0x17
  | .software => 0x18
  | .privilege => 0x19
  | .route => 0x1A

/-- FAULTCODE (R255). -/
def Exn.word (e : Exn) (mcc : Bool) : Word :=
  BitVec.ofNat 32 (2 ^ 31 * b2n mcc + 2 ^ 20 * e.sw + 2 ^ 16 * e.level + 2 ^ 8 * e.sub + e.code.num)

/-- The fault record of a fault met by the split at its instruction (R255). -/
def Cx.record (cx : Cx) (e : Exn) : FaultRec :=
  { code := e.word cx.st.isMcc, pc := e.pc.getD cx.sp.pc,
    mask := e.mask.getD (if cx.perLane then cx.part else cx.sp.mask), addr := e.addr }

/-- The retry set (R255). -/
def Cx.retrySet (cx : Cx) (e : Exn) : LaneMask :=
  if e.empty then 0 else (if cx.perLane then cx.part else cx.sp.mask) &&& ~~~e.done

/-- Ends a replay or an arbitration without a digest (R407). -/
def Cx.failReplay (cx : Cx) : State :=
  { cx with st := { cx.st with failed := true, unverif := true, pendKill := some .final } }.flush

/-- Kills without replay (R256, R262): the region is discarded, and the record goes to the host fault queue and the black
box, kind 2, or kind 3 with the second fault's PC. -/
def Cx.killFault (cx : Cx) (fr : FaultRec) (second : Option Addr) : State :=
  let st := { cx.st with vis := { cx.st.vis with fault := fr }, pendKill := some .final, buffer := [] }
  let cx := { cx with st := st }
  let w := cx.s.whoOf st
  let s := cx.flush
  let s := s.box w.die (if second.isSome then 3 else 2) w.unitw fr.code (second.getD fr.pc) cx.la.ident
  s.faultEntry st cx.id cx.sp.num fr (second.getD 0) false

/-- Handler entry (R258): what the split saves, its new window, mode and mask; none when the frame cannot be spilled. -/
def Cx.enterHandler (cx : Cx) (fr : FaultRec) (retry : LaneMask) : Option Split :=
  let p := cx.sp
  let f := if cx.st.isMcc then 0 else windowOf cx.st.vis.allot
  let linkage := Linkage.trap f :: p.linkage
  let spilled := if cx.st.isMcc then some 0
    else spillCount cx.st.vis.allot cx.la.psize (linkage.reverse.map Linkage.size) p.spilled
  match spilled with
  | none => none
  | some n =>
    some { p with
      winbase := p.winbase + f, linkage := linkage, spilled := n,
      trap := some { mode := p.mode, mask := p.mask, hdr := p.hdr, left := p.left, retry := retry, pc := p.pc, count := 0,
                     depth := p.stack.length, late := [] },
      mode := Mode.initial, mask := fr.mask &&& p.members, pc := cx.st.vis.tba, left := 0, hold := none, retry := none, kept := none,
      hdr := { fa := none, fb := none } }

/-- The handler's frame with the late engine fault that it was entered by, if it was one (R266). -/
def Split.withLate (p : Split) (e : Exn) : Split :=
  match e.flag, e.pc with
  | some f, some pc => { p with trap := p.trap.map fun t => { t with late := [(f, pc, { e with pc := none, flag := none })] } }
  | _, _ => p

/-- The event of an access that another package did not answer (R271), or of an uncorrectable error (R266, R279). -/
def Cx.errorEvent (cx : Cx) (e : Exn) : Cx :=
  let w := cx.s.whoOf cx.st
  match e.link with
  | some (pa, c) => { cx with s := cx.s.linkBox w pa c }
  | none => if e.place = 0 then cx else { cx with s := cx.s.box w.die 8 w.unitw (BitVec.ofNat 32 e.place) e.addr 0 }

/-- The split is held at its instruction, which has no effect; its turn is over. -/
def Cx.holdAt (cx : Cx) (h : Hold) : State := ({ cx with sp := { cx.sp with hold := some h } }.flush).endTurn cx.id

/-- TAKING A FAULT (R254-R263): the one place where a fault is taken. A fault of another split waits while one is parked
or in its handler (R263); one in trap mode is a DOUBLE_FAULT (R262); NOT_PRESENT parks (R164); with TBA = 0 the stream is
killed (R256); otherwise the handler is entered (R258). -/
def Cx.takeFault (cx : Cx) (e : Exn) : State :=
  let cx := cx.errorEvent e
  if cx.st.isReplay && (e.parks || cx.sp.inTrap || cx.st.vis.tba == 0) then cx.failReplay
  else if cx.sp.inTrap then
    let fr := cx.st.vis.fault
    cx.killFault { fr with code := fr.code &&& 0xFFFFFF00 ||| 0x17 } (some cx.sp.pc)
  else if cx.st.faulting cx.sp.num then cx.holdAt .otherFault
  else
    let fr := cx.record e
    let retry := cx.retrySet e
    let cx := { cx with st := { cx.st with vis := { cx.st.vis with fault := fr } } }
    if e.parks then
      let cx := { cx with sp := { cx.sp with status := .parked, retry := some retry } }
      let s := cx.flush.faultEntry cx.st cx.id cx.sp.num fr 0 true
      s.endTurn cx.id
    else if cx.st.vis.tba = 0 then cx.killFault fr none
    else
      match cx.enterHandler fr retry with
      | none => if cx.st.isReplay then cx.failReplay else cx.killFault { fr with code := fr.code &&& 0xFFFFFF00 ||| 0x17 } (some cx.sp.pc)
      | some p => ({ cx with sp := p.withLate e }.flush).endTurn cx.id

/-- RETURN FROM A FAULT (R259): the window, mode, mask and header of before, less the lanes that exited; the instruction
issues again for the retry set, or the split goes on after it. None when the trap frame is not the newest linkage. -/
def Cx.leaveHandler (cx : Cx) (skip : Bool) : Option Split :=
  match cx.sp.trap, cx.sp.linkage with
  | some t, .trap f :: rest =>
    let p := cx.sp
    let mask := t.mask &&& p.members
    let p := { p with
      winbase := p.winbase - f, linkage := rest, spilled := min p.spilled rest.length, mode := t.mode, mask := mask,
      trap := none, hdr := t.hdr, hold := none, stack := p.stack }
    if skip then some { p with pc := t.pc + 4, left := t.left - 1, retry := none, retryOp := none, kept := none, serial := none, recs := [] }
    else some { p with pc := t.pc, left := t.left, retry := some (t.retry &&& mask) }
  | _, _ => none

/-- The operands of a parked instruction as they stood at its first issue (R164). -/
def Cx.operands (cx r : Cx) : Kept :=
  cx.sp.kept.getD { sregs := cx.st.vis.sregs, pops := r.st.pops.drop cx.st.pops.length }

/-- A stream in which the entries that an instruction popped wait to be delivered again. -/
def Stream.giveBack (st : Stream) (ps : List (Nat × Word)) : Stream :=
  { st with pops := ps.foldl List.erase st.pops, redeliver := ps ++ st.redeliver }

/-- The context `r` that an instruction issued in `cx` leaves when it faults (R164, R259): one that parks keeps its operands
as they stood; what another popped is delivered again. -/
def Cx.stopped (cx r : Cx) (e : Exn) : Cx :=
  if e.parks && !cx.sp.inTrap then { r with sp := { r.sp with kept := some (cx.operands r) } }
  else { r with st := r.st.giveBack (cx.operands r).pops }

/-- What the machine does when an instruction does not complete. -/
def Cx.onStop (cx : Cx) (st : Stop) : State :=
  match st with
  | .fault e => cx.takeFault e
  | .faultOn r e =>
    if cx.st.faulting cx.sp.num && !cx.sp.inTrap then cx.holdAt .otherFault
    else if e.parks && !cx.sp.inTrap then (cx.stopped r e).takeFault e
    else
      let cx := cx.keepReads r
      ({ cx with st := cx.st.giveBack (match cx.sp.kept with
        | some k => k.pops
        | none => []) }).takeFault e
  | .after r e =>
    let s := (cx.stopped r e).takeFault e
    if r.ckpt then s.onStream r.id Stream.checkpoint else s
  | .hold h => (if h = .scatterLog then cx.logHold else cx).holdAt h
  | .wait cx' h =>
    let s := { cx' with sp := { cx'.sp with hold := some h } }.flush
    let s := if cx'.ckpt then s.onStream cx'.id Stream.checkpoint else s
    s.endTurn cx'.id
  | .endRun cx' =>
    ({ cx' with st := { cx'.st with failed := true } }.flush).endStream cx'.id

end Sys2Proof.Machine
end

