-- ==== Sys2Proof/Machine/Operands.lean ====
section
/-! DEFINITION. Operand codes (R92-R94), queue ports (R39-R42), the register window (R43), the faults at issue in their
order (R100), and the wrapper in which every instruction word issues. -/

namespace Sys2Proof.Machine

/-- What a 7-bit operand field may name (R92). -/
inductive OpndKind where
  | vec | sca | any
  deriving DecidableEq, Repr

/-- An operand field of an instruction: its code, the kind it has to be, whether it names the even register of a pair,
how many registers it names or implies, and whether it is read, written, or the destination of a long-latency form. -/
structure Opnd where
  code : BitVec 7
  kind : OpndKind
  even : Bool
  n    : Nat
  rd   : Bool
  wr   : Bool
  long : Bool
  deriving DecidableEq, Repr

/-- Whether an operand code names a v register (R92). -/
def isVec (c : BitVec 7) : Bool := decide (c.toNat < 64)
/-- The number of the register in its file. -/
def regNo (c : BitVec 7) : Nat := c.toNat % 64
/-- A source field of any kind. -/
def Opnd.src (c : BitVec 7) : Opnd := { code := c, kind := .any, even := false, n := 1, rd := true, wr := false, long := false }
/-- A source field that has to be a scalar. -/
def Opnd.srcS (c : BitVec 7) : Opnd := { Opnd.src c with kind := .sca }
/-- A source field that has to be a vector. -/
def Opnd.srcV (c : BitVec 7) : Opnd := { Opnd.src c with kind := .vec }
/-- A source field that has to be a vector, read in other lanes than those that take part (R264). -/
def Opnd.otherV (c : BitVec 7) : Opnd := { Opnd.srcV c with rd := false }
/-- A destination field that has to be a vector. -/
def Opnd.dstV (c : BitVec 7) : Opnd := { Opnd.src c with kind := .vec, rd := false, wr := true }
/-- A destination field that has to be a scalar. -/
def Opnd.dstS (c : BitVec 7) : Opnd := { Opnd.src c with kind := .sca, rd := false, wr := true }
/-- The operand as a register that is read and written. -/
def Opnd.both (o : Opnd) : Opnd := { o with rd := true, wr := true }
/-- The operand as an even pair. -/
def Opnd.pair (o : Opnd) : Opnd := { o with even := true, n := 2 }
/-- The operand as the first of `n` registers. -/
def Opnd.many (o : Opnd) (n : Nat) : Opnd := { o with n := n }
/-- The operand as an even first register of `n`. -/
def Opnd.evenMany (o : Opnd) (n : Nat) : Opnd := { o with even := true, n := n }
/-- The operand as the destination of a long-latency operation. -/
def Opnd.pending (o : Opnd) : Opnd := { o with long := true }
/-- The scalar code of a scalar index (L format). -/
def scalarCode (s : BitVec 6) : BitVec 7 := BitVec.ofNat 7 (64 + s.toNat)

/-- How an instruction issues: whether its fields are legal (R84), the sides that accept it (R101), whether it ends its
clause (R86), is a commit point (R178) or is allowed in a recomputation (R242), its flag (R89: false A, true B), whether
MODE raises ILLEGAL_MODE, whether it needs privilege (R403), its operands, the further ILLEGAL_OPERAND,
ILLEGAL_REG and UNFLAGGED_READ conditions of its fields, whether it acts per lane (R94), whether it is a clause header, and the
predicates that it reads beside its guard. -/
structure Desc where
  legal   : Bool
  waves   : Bool
  mcc     : Bool
  ctrl    : Bool
  commits : Bool
  recomp  : Bool
  flag    : Option Bool
  badMode : Bool
  priv    : Bool
  opnds   : List Opnd
  ok      : Bool
  regOk   : Bool
  free    : Bool
  perLane : Bool
  header  : Bool
  preds   : List Nat
  deriving DecidableEq, Repr

/-- An instruction of the waves alone, per lane, with nothing special. -/
def Desc.lane (os : List Opnd) : Desc :=
  { legal := true, waves := true, mcc := false, ctrl := false, commits := false, recomp := true, flag := none,
    badMode := false, priv := false, opnds := os, ok := true, regOk := true, free := true, perLane := true,
    header := false, preds := [] }
/-- An instruction of both sides, once per split, with nothing special. -/
def Desc.split (os : List Opnd) : Desc :=
  { Desc.lane os with mcc := true, perLane := false }

/-- The mapping of the port that a scalar number names (R39). -/
def Stream.port (st : Stream) (n : Nat) : Option Port :=
  if 48 ≤ n ∧ n ≤ 55 then Tab.get? st.vis.ports (n - 48) else none

/-- Whether an operand names a mapped port (R92). -/
def Opnd.mapped (st : Stream) (o : Opnd) : Bool :=
  !isVec o.code && (List.range o.n).any fun i => (st.port (regNo o.code + i)).isSome

/-- Whether an operand's registers lie within the window (R43). -/
def Opnd.inWindow (st : Stream) (o : Opnd) : Bool :=
  !isVec o.code || decide (o.code.toNat + o.n ≤ windowOf st.vis.allot)

/-- Whether a register-stack entry is pending in any of the lanes (R90), the split's own unfinished operation aside. -/
def Cx.pendingV (cx : Cx) (entry : Nat) (lanes : LaneMask) : Bool :=
  cx.s.ops.any fun o => o.2.stream == cx.id && some o.1 != cx.sp.retryOp && (o.2.lanes &&& lanes) != 0 &&
    o.2.pendV.contains entry

/-- Whether a scalar register is pending (R90). -/
def Cx.pendingS (cx : Cx) (n : Nat) : Bool :=
  cx.s.ops.any fun o => o.2.stream == cx.id && some o.1 != cx.sp.retryOp && o.2.pendS.contains n

/-- Whether an operand names a pending register in a lane that takes part (R90). -/
def Opnd.isPending (cx : Cx) (o : Opnd) : Bool :=
  (List.range o.n).any fun i =>
    if isVec o.code then cx.pendingV (cx.sp.winbase + regNo o.code + i) cx.part
    else cx.pendingS (regNo o.code + i)

/-- Whether an operand breaks its kind or pairing, or names a port where none may stand (R92, R93, R40). -/
def Opnd.bad (st : Stream) (o : Opnd) : Bool :=
  (match o.kind with
   | .vec => !isVec o.code
   | .sca => isVec o.code
   | .any => false) ||
  (o.even && o.code.toNat % 2 == 1) ||
  (o.mapped st && (decide (o.n > 1) || o.long))

/-- Whether an operand uses a port against its direction (R40). -/
def Opnd.badPort (st : Stream) (o : Opnd) : Bool :=
  !isVec o.code &&
    match st.port (regNo o.code) with
    | none => false
    | some p => (o.rd && !p.pop) || (o.wr && !p.push)

/-- ILLEGAL_INSTRUCTION of R100: field values, the side, the clause, trap mode, a recomputation, a flag not enabled. -/
def Cx.illegal (cx : Cx) (d : Desc) : Bool :=
  !d.legal || (if cx.st.isMcc then !d.mcc || d.opnds.any (fun o => isVec o.code) else !d.waves) ||
  (if d.header then cx.sp.left != 0 else cx.sp.left == 0) || (d.ctrl && cx.sp.left != 1) || (d.commits && cx.sp.inTrap) ||
  (cx.st.recomputing && (!d.recomp || d.opnds.any (Opnd.mapped cx.st))) ||
  (match d.flag with
   | none => false
   | some false => cx.sp.hdr.fa.isNone
   | some true => cx.sp.hdr.fb.isNone)

/-- The faults at issue, in the order of R100, up to those that depend on values. -/
def Cx.check (cx : Cx) (d : Desc) : Except Stop Cx := do
  must (!cx.illegal d) .illegalInstruction
  must (!d.badMode) .illegalMode
  must (!d.priv || cx.st.privileged) .privilege
  must (d.ok && !d.opnds.any (Opnd.bad cx.st)) .illegalOperand
  must (d.regOk && d.opnds.all (Opnd.inWindow cx.st)) .illegalReg
  must (d.free && !d.opnds.any (Opnd.isPending cx)) .unflaggedRead
  must (!d.opnds.any (Opnd.badPort cx.st)) .queueConfig
  .ok { cx with perLane := d.perLane }

/-- The lanes in which an operand reads a register with an uncorrectable error (R266); all of them for a scalar. -/
def Opnd.struck (cx : Cx) (o : Opnd) : LaneMask :=
  if !o.rd then 0
  else
    let entry := cx.sp.winbase + regNo o.code
    cx.s.errors.foldl (fun m e => m ||| match e with
      | .vreg sid k l =>
        if sid = cx.id ∧ isVec o.code = true ∧ entry ≤ k ∧ k < entry + o.n then maskOf fun j => j == l && inMask cx.part j else 0
      | .sreg sid n =>
        if sid = cx.id ∧ isVec o.code = false ∧ regNo o.code ≤ n ∧ n < regNo o.code + o.n then BitVec.allOnes 96 else 0
      | .word _ _ | .pred _ _ | .tape _ _ | .buffer _ _ => 0) 0

/-- The fault of an instruction whose operands, whose guard, or whose other predicates hold an uncorrectable error (R266): no address,
and the lanes that read it. -/
def Cx.struck (cx : Cx) (d : Desc) : Option Exn :=
  let pred := (cx.sp.mode.guard.toNat :: d.preds).any fun n => cx.s.errors.contains (.pred cx.id n)
  let m := d.opnds.foldl (fun m o => m ||| o.struck cx) (if pred then BitVec.allOnes 96 else 0)
  if m = 0 then none
  else some { Exn.ecc 6 0 with
    mask := if m = BitVec.allOnes 96 then none else some (m &&& cx.part) }

/-- Whether a register-stack entry of a lane holds an uncorrectable error that a read meets (R266); a lane never launched reads PFILL. -/
def Cx.badEntry (cx : Cx) (entry lane : Nat) : Bool :=
  !cx.s.errors.isEmpty && inMask cx.st.launched lane && cx.s.errors.contains (.vreg cx.id entry lane)

/-- The fault of an instruction that reads, beside its operands, a register with an uncorrectable error (R266), in the lanes that the
test names. -/
def Cx.sound (cx : Cx) (bad : Nat -> Bool) : Except Stop Unit :=
  let m := maskOf fun l => inMask cx.part l && bad l
  if m = 0 then .ok () else cx.stop { Exn.ecc 6 0 with mask := some m }

/-- The issue of an instruction word: the checks, its effect, and what follows (R100, R254). -/
def issue (s : State) (d : Desc) (body : Cx -> Except Stop Cx) : Host.Outcome State Fault Refusal :=
  match Cx.load s with
  | none => .fault .noIssuer
  | some cx =>
    match cx.check d with
    | .error e => .next ({ cx with perLane := d.perLane }.onStop e)
    | .ok cx =>
      if let some e := cx.struck d then .next (cx.takeFault e) else
      match body cx with
      | .error e => .next (cx.onStop e)
      | .ok cx' => .next cx'.finish

/-! Queue ports (R39-R42). -/

/-- Pushes to a queue that the launch's streams on the cluster hold uncommitted (R40). -/
def State.heldPushes (s : State) (launch cl q : Nat) : Nat :=
  ((s.streams.filter fun e => e.2.launch == launch && e.2.cl == cl && !e.2.isReplay).map fun e =>
    (e.2.buffer.filter fun b => match b.item with
      | .push _ k _ => k == q
      | _ => false).length).sum

/-- Whether a queue is full, with the issuing context's own held pushes (R40). -/
def Cx.queueFull (cx : Cx) (q : Nat) : Bool :=
  let s := cx.flush
  decide ((Sp.get [] (s.bay cx.st.launch cx.st.cl).hwq q).length + s.heldPushes cx.st.launch cx.st.cl q ≥ Config.queueEntries)

/-- Adds an entry to the input log of a selected wave; past 64 KiB it becomes unverifiable (R201). -/
def Stream.logInput (st : Stream) (kind bytes : Nat) (v : BitVec 64) : Stream :=
  if st.selected && !st.unverif && !st.isReplay then
    if st.logBytes + bytes > 65536 then { st with unverif := true }
    else { st with log := st.log ++ [{ kind := kind, value := v, tile := none }], logBytes := st.logBytes + bytes }
  else st

/-- A selected wave retains the tile-table entry that an instruction finds, beside the bytes of its input log (DESIGN CHOICE, log 66). -/
def Stream.logTile (st : Stream) (t : Tile) : Stream :=
  if st.selected && !st.unverif && !st.isReplay then { st with log := st.log ++ [{ kind := 3, value := 0, tile := some t }] } else st

/-- The next entry of a replay's input log, if it is of the kind (R203, R407). -/
def Cx.takeEntry (cx : Cx) (kind : Nat) : Except Stop (LogEntry × Cx) :=
  match cx.st.log with
  | e :: t => if e.kind = kind then .ok (e, { cx with st := { cx.st with log := t } }) else .error (.endRun cx)
  | [] => .error (.endRun cx)

/-- Its value. -/
def Cx.takeLog (cx : Cx) (kind : Nat) : Except Stop (BitVec 64 × Cx) := (cx.takeEntry kind).map fun r => (r.1.value, r.2)

/-- Takes the first entry of a queue out of a list of kept pops. -/
def takeKept (q : Nat) : List (Nat × Word) -> Option (Word × List (Nat × Word))
  | [] => none
  | e :: t => if e.1 = q then some (e.2, t) else (takeKept q t).map fun r => (r.1, e :: r.2)

/-- Pops one entry of a queue (R40): a kept entry first after a kill (R42). -/
def Cx.popQueue (cx : Cx) (q : Nat) : Except Stop (Word × Cx) :=
  if cx.st.isReplay then (cx.takeLog 1).map fun r => (lo32 r.1, r.2)
  else
    match takeKept q cx.st.redeliver with
    | some (v, t) =>
      .ok (v, { cx with st := { cx.st.logInput 1 4 (v.setWidth 64) with redeliver := t,
                                                                        pops := cx.st.pops ++ [(q, v)] } })
    | none =>
      let c := cx.s.bay cx.st.launch cx.st.cl
      match Sp.get [] c.hwq q with
      | [] => .error (.hold (.queueEmpty q))
      | v :: t =>
        .ok (v, { cx with s := cx.s.putBay cx.st.launch cx.st.cl { c with hwq := Sp.set [] c.hwq q t },
                          st := { cx.st.logInput 1 4 (v.setWidth 64) with pops := cx.st.pops ++ [(q, v)] } })

/-- Reads a port (R40): one that an instruction popped before it parked gives the same entry again (R164). -/
def Cx.pop (cx : Cx) (q : Nat) : Except Stop (Word × Cx) :=
  match cx.sp.kept with
  | none => cx.popQueue q
  | some k =>
    match takeKept q k.pops with
    | some (v, t) => .ok (v, { cx with sp := { cx.sp with kept := some { k with pops := t } } })
    | none => cx.popQueue q

/-- Pushes one entry: it is held in the release buffer until the commit (R42). -/
def Cx.push (cx : Cx) (q : Nat) (v : Word) : Except Stop Cx :=
  if !cx.st.isReplay && cx.queueFull q then .error (.hold (.queueFull q))
  else cx.buffer [{ size := 8, item := .push cx.st.cl q v, issue := 0, lane := 0, rel := none, cached := false, own := false,
                    recs := [{ a := BitVec.ofNat 64 q, data := v.setWidth 64, mask := 0x0F, kind := 3, sub := 0 }] }]

/-! Reading and writing registers (R23, R43, R92). -/

/-- A word of a mask: 0 for s60, 1 for s61, 2 for s62 (R21). -/
def maskWord (m : LaneMask) (i : Nat) : Word := m.extractLsb' (32 * i) 32

/-- The mask with one word replaced. -/
def setMaskWord (m : LaneMask) (i : Nat) (w : Word) : LaneMask :=
  let keep := BitVec.ofNat 96 (2 ^ 96 - 1 - (2 ^ 32 - 1) * 2 ^ (32 * i))
  (m &&& keep) ||| (w.setWidth 96 <<< (32 * i))

/-- An ordinary scalar as the instruction finds it: a parked one as it stood (R164). -/
def Cx.sreg (cx : Cx) (n : Nat) : Word :=
  match cx.sp.kept with
  | some k => Sp.get 0 k.sregs n
  | none => cx.st.sreg n

/-- A scalar register without its port (R23, R92). -/
def Cx.scalar (cx : Cx) (n : Nat) : Word :=
  if n = 63 then 0 else if n < 60 then cx.sreg n else maskWord cx.sp.mask (n - 60)

/-- Reads a scalar operand; a mapped port pops an entry (R40). -/
def Cx.readS (cx : Cx) (n : Nat) : Except Stop (Word × Cx) :=
  match cx.st.port n with
  | some p => cx.pop p.queue
  | none => .ok (cx.scalar n, cx)

/-- Writes a scalar register: s63 discards, s60-s62 set the mask within the membership, a mapped port pushes. -/
def Cx.writeS (cx : Cx) (n : Nat) (v : Word) : Except Stop Cx :=
  match cx.st.port n with
  | some p => cx.push p.queue v
  | none =>
    if n = 63 then .ok cx
    else if n < 60 then .ok { cx with st := cx.st.setSreg n v }
    else .ok { cx with sp := { cx.sp with mask := setMaskWord cx.sp.mask (n - 60) v &&& cx.sp.members } }

/-- A scalar pair as 64 bits (R93); no port stands in a pair. -/
def Cx.scalar64 (cx : Cx) (n : Nat) : BitVec 64 := pair64 (cx.scalar n) (cx.scalar (n + 1))

/-- Writes a scalar pair. -/
def Cx.writeS64 (cx : Cx) (n : Nat) (v : BitVec 64) : Except Stop Cx := do
  let cx ← cx.writeS n (lo32 v)
  cx.writeS (n + 1) (hi32 v)

/-- Register vi of a lane in the issuing split's window (R43). -/
def Cx.vec (cx : Cx) (i lane : Nat) : Word := cx.st.vreg (cx.sp.winbase + i) lane

/-- A lane's 32-bit source: the scalar broadcast, or its own register (R92). -/
def Cx.laneOf (cx : Cx) (c : BitVec 7) (bcast : Word) (lane : Nat) : Word :=
  if isVec c then cx.vec c.toNat lane else bcast

/-- Reads a 32-bit source field: the word that broadcasts, if it is a scalar (popping its port), and the context after. -/
def Cx.source (cx : Cx) (c : BitVec 7) : Except Stop (Word × Cx) :=
  if isVec c then .ok (0, cx) else cx.readS (regNo c)

/-- A lane's 64-bit source pair (R93). -/
def Cx.lane64 (cx : Cx) (c : BitVec 7) (lane : Nat) : BitVec 64 :=
  if isVec c then pair64 (cx.vec c.toNat lane) (cx.vec (c.toNat + 1) lane) else cx.scalar64 (regNo c)

/-- Writes register vi of one lane. -/
def Cx.setVec (cx : Cx) (i lane : Nat) (v : Word) : Cx := { cx with st := cx.st.setVreg (cx.sp.winbase + i) lane v }

/-- Writes registers of one lane from vd on. -/
def Cx.setVecs (cx : Cx) (d lane : Nat) : List Word -> Cx
  | [] => cx
  | v :: t => (cx.setVec d lane v).setVecs (d + 1) lane t

/-- Writes, in each lane that takes part, registers from vd on, and raises the lane's flags. The results are computed
from the context before any write, so a destination may overlap a source (R380). -/
def Cx.writeLanes (cx : Cx) (d : Nat) (f : Nat -> List Word × BitVec 6) : Cx :=
  (lanesOf cx.part).foldl (fun c l => ((c.setVecs d l (f l).1).raiseFlags (f l).2)) cx

/-- Register vi of a source lane that may not take part (R264): PFILL for a never-launched or absent lane. -/
def Cx.anyLane (cx : Cx) (i lane : Nat) : Word :=
  if inMask cx.st.launched lane then cx.vec i lane else cx.st.vis.pfill

/-- How MODE rounds element `sub` of a lane (R126-R129). -/
def Cx.rounding (cx : Cx) (lane sub : Nat) : Rounding :=
  { rnd := cx.sp.mode.rnd, h := hBits cx.sp.srseed.toNat cx.sp.dii.toNat lane sub,
    sat := cx.sp.mode.sat == 1, ftz := cx.sp.mode.ftz }

/-- The element type of MODE (R96); MODE never holds a reserved code (R95). -/
def Cx.ty (cx : Cx) : Ty := (Ty.ofCode cx.sp.mode.etype).getD .f32

/-- Element `i` of width `w` in a register. -/
def subElem (w i x : Nat) : Nat := x / 2 ^ (w * i) % 2 ^ w

/-- Builds a register from its elements and collects their flags. -/
def packElems (w n : Nat) (f : Nat -> Flagged) : Nat × BitVec 6 :=
  (List.range n).foldr (fun i acc => ((f i).1 + 2 ^ w * acc.1, (f i).2 ||| acc.2)) (0, 0)

/-- Replaces element `i` of width `w` in a register. -/
def setElem (w i x v : Nat) : Nat := x - subElem w i x * 2 ^ (w * i) + v % 2 ^ w * 2 ^ (w * i)

/-- The ETYPE of the split that issues; what an instruction that acts per element checks its operands by. -/
def State.issueTy (s : State) : Ty :=
  match Cx.load s with
  | some cx => cx.ty
  | none => .f32

/-- A question about the issuing context; false without one. -/
def State.issueHas (s : State) (f : Cx -> Bool) : Bool :=
  match Cx.load s with
  | some cx => f cx
  | none => false

/-- Whether the issuing split runs a trap handler (R261, R371). -/
def State.inHandler (s : State) : Bool := s.issueHas fun cx => cx.sp.inTrap

/-- An operand under an ETYPE: a pair when its elements are 64 bits wide (R93, R380). -/
def Opnd.under (o : Opnd) (t : Ty) : Opnd := if t.width = 64 then o.pair else o

/-- A lane's operand as a number: the pair when it is wide, else the register or the scalar that broadcasts. -/
def Cx.laneNat (cx : Cx) (wide : Bool) (c : BitVec 7) (bcast : Word) (lane : Nat) : Nat :=
  if wide then (cx.lane64 c lane).toNat else (cx.laneOf c bcast lane).toNat

/-- The words of a result: a pair when it is wide. -/
def wordsOf (wide : Bool) (v : Nat) : List Word :=
  if wide then [BitVec.ofNat 32 v, BitVec.ofNat 32 (v / 2 ^ 32)] else [BitVec.ofNat 32 v]

/-- The elements of a lane's operand (R93): the whole pair of a 64-bit type, else the packed elements. -/
def Ty.count (t : Ty) : Nat := if t.width = 64 then 1 else t.perReg

/-- An instruction that acts per element of ETYPE on A and B, and on D where it reads it (R380, R382, R390): `f` gives the
element's result from how it is rounded and a, b and d. -/
def elemOp (s : State) (d a b : BitVec 7) (readD : Bool) (ok : Ty -> Bool)
    (f : Ty -> Rounding -> Nat -> Nat -> Nat -> Flagged) : Host.Outcome State Fault Refusal :=
  let t := s.issueTy
  let w := t.width == 64
  let dd := (Opnd.dstV d).under t
  issue s (Desc.lane [(Opnd.src a).under t, (Opnd.src b).under t, if readD then dd.both else dd])
    fun cx => do
      must (ok t) .illegalOperand
      let (x, cx) ← cx.source a
      let (y, cx) ← cx.source b
      .ok (cx.writeLanes d.toNat fun l =>
        let av := cx.laneNat w a x l
        let bv := cx.laneNat w b y l
        let dv := cx.laneNat w d 0 l
        let r := packElems t.width t.count fun i =>
          f t (cx.rounding l i) (subElem t.width i av) (subElem t.width i bv) (subElem t.width i dv)
        (wordsOf w r.1, r.2))

/-- An instruction that acts per element of ETYPE on A alone. -/
def elemOp1 (s : State) (d a : BitVec 7) (ok : Ty -> Bool) (f : Ty -> Rounding -> Nat -> Flagged) :
    Host.Outcome State Fault Refusal :=
  let t := s.issueTy
  let w := t.width == 64
  issue s (Desc.lane [(Opnd.src a).under t, (Opnd.dstV d).under t]) fun cx => do
    must (ok t) .illegalOperand
    let (x, cx) ← cx.source a
    .ok (cx.writeLanes d.toNat fun l =>
      let av := cx.laneNat w a x l
      let r := packElems t.width t.count fun i => f t (cx.rounding l i) (subElem t.width i av)
      (wordsOf w r.1, r.2))

/-- An instruction that acts on whole 32-bit registers A, B and D, ETYPE aside (R97, R382). -/
def rawOp (s : State) (d a b : BitVec 7) (readD : Bool) (f : Word -> Word -> Word -> Word) :
    Host.Outcome State Fault Refusal :=
  issue s (Desc.lane [.src a, .src b, if readD then (Opnd.dstV d).both else .dstV d]) fun cx => do
    let (x, cx) ← cx.source a
    let (y, cx) ← cx.source b
    .ok (cx.writeLanes d.toNat fun l => ([f (cx.laneOf a x l) (cx.laneOf b y l) (cx.vec d.toNat l)], 0))

/-- Writes predicate p in the lanes that take part (R108). -/
def Cx.writePred (cx : Cx) (p : Nat) (f : Nat -> Bool) : Cx :=
  let m := maskOf fun l => inMask cx.part l && f l
  { cx with st := cx.st.setPred p ((cx.st.pred p &&& ~~~cx.part) ||| m) }

/-- A per-element compare that writes a predicate (R108, R383, R393): a lane's bit is the AND of its elements'. -/
def compareOp (s : State) (p : BitVec 3) (a b : BitVec 7) (legal : Bool) (ok : Ty -> Bool)
    (f : Ty -> Bool -> Nat -> Nat -> Bool × BitVec 6) : Host.Outcome State Fault Refusal :=
  let t := s.issueTy
  let w := t.width == 64
  issue s { Desc.lane [(Opnd.src a).under t, (Opnd.src b).under t] with legal := legal, ok := p != 7 } fun cx => do
    must (ok t) .illegalOperand
    let (x, cx) ← cx.source a
    let (y, cx) ← cx.source b
    let res := fun l => (List.range t.count).map fun i =>
      f t cx.sp.mode.ftz (subElem t.width i (cx.laneNat w a x l)) (subElem t.width i (cx.laneNat w b y l))
    let cx := (lanesOf cx.part).foldl (fun c l => (res l).foldl (fun c r => c.raiseFlags r.2) c) cx
    .ok (cx.writePred p.toNat fun l => (res l).all (·.1))

/-- The flag a long-latency form chooses (R89). -/
def Cx.flagOf (cx : Cx) (b : Bool) : Option Nat := if b then cx.sp.hdr.fb else cx.sp.hdr.fa

/-- A completion flag of the wave (R88). -/
def Stream.flag (st : Stream) (f : Nat) : Nat := Sp.get 0 st.flags f
/-- Whether every flag of a mask is clear. -/
def Stream.flagsClear (st : Stream) (m : BitVec 12) : Bool :=
  (List.range 12).all fun f => !m.getLsbD f || st.flag f == 0

/-- An operation with nothing pending. -/
def Op.blank (cx : Cx) (k : OpKind) : Op :=
  { stream := cx.id, owner := cx.sp.num, flag := none, pc := cx.sp.pc, region := cx.st.region, ckptNo := cx.st.ckptNo,
    mark := cx.st.stamp, pendV := [], lanes := 0, pendS := [], kind := k, vres := [], sres := [], contribs := [], trans := [],
    waiting := false, held := false, fault := none, home := [] }

/-- Issues a long-latency operation on a flag (R88): at 255 the split is held. -/
def Cx.launchOp (cx : Cx) (flag : Option Nat) (o : Op) : Except Stop Cx :=
  let n := cx.s.nextId
  let s := { cx.s with nextId := n + 1 }
  match flag with
  | none => .ok { cx with s := s.putOp n { o with flag := none } }
  | some f =>
    if cx.st.flag f ≥ 255 then .error (.hold (.flagFull f))
    else .ok { cx with s := s.putOp n { o with flag := some f },
                       st := { cx.st with flags := Sp.set 0 cx.st.flags f (cx.st.flag f + 1) } }

/-- Whether a wave's split stands inside a divergence (R189). -/
def Cx.divergent (cx : Cx) : Bool := cx.sp.members != cx.st.live || !cx.sp.stack.isEmpty

end Sys2Proof.Machine
end

