-- ==== Sys2Proof/Machine/Reach.lean ====
section
/-! DEFINITION. How the lanes of an instruction reach memory: the checks in their order (R143), parking and partial
completion (R164, R255), the values read (R178, R201), the bytes held (R246) and their digest records (R202). -/

namespace Sys2Proof.Machine

/-- The lane number of an access that no lane makes: one access for the split (R363). -/
def noLane : Nat := 96

/-- The addresses of an access: each participating lane's pair plus an offset, or the one address of a split. -/
def Cx.laneAddrs (cx : Cx) (once : Bool) (a : BitVec 7) (off : Int) : List (Nat × Addr) :=
  let o := BitVec.ofInt 64 off
  if once then [(noLane, cx.scalar64 (regNo a) + o)]
  else (lanesOf cx.part).map fun l => (l, cx.lane64 a l + o)

/-- Checks 1 to 3 of R143 over every lane, before any effect; `deny` names the tags the instruction does not accept. -/
def Cx.staticLanes (cx : Cx) (n : Nat) (write : Bool) (deny : List Nat) (as : List (Nat × Addr)) : Except Stop Unit :=
  let chk := fun e : Nat × Addr =>
    (if deny.contains (tagOf e.2) then some FaultCode.aperture else staticCheck cx.la e.2 n write).map fun c => (e, c)
  match as.filterMap chk with
  | [] => .ok ()
  | f :: t =>
    let m := maskOf fun l => (f :: t).any fun g => g.1.1 == l && g.2 == f.2
    cx.stop { Exn.at f.2 f.1.2 with mask := if f.1.1 = noLane then none else some m }

/-- Whether a CPY into the weight store of a die is in flight (R146). -/
def State.wsCopying (s : State) (die : Nat) : Bool :=
  s.ops.any fun o => match o.2.kind with
    | .copy _ _ _ dies => dies.contains die
    | _ => false

/-- A read of weight stores maps each of their dies for the launch (R146); it is held while a copy into one is in flight
that the launch does not map yet. -/
def Cx.mapWs (cx : Cx) (as : List Addr) : Except Stop Cx :=
  let dies := (as.filter fun a => tagOf a == 3).map fun a => bits a.toNat 53 52
  let new := dies.filter fun d => !cx.la.wsMaps.contains d
  match new.find? cx.s.wsCopying with
  | some d => .error (.hold (.wsCopy d))
  | none =>
    let maps := new.foldl (fun m d => if m.contains d then m else m ++ [d]) cx.la.wsMaps
    .ok { cx with s := cx.s.onLaunch cx.st.launch (fun la => { la with wsMaps := maps }),
                  la := { cx.la with wsMaps := maps } }

/-- Whether a stream's read of `n` bytes at a place meets an uncorrectable error, in storage or in its release buffer (R266). -/
def State.badFor (s : State) (sid : Nat) (st : Stream) (p : Place) (n : Nat) : Bool :=
  !s.errors.isEmpty &&
  (s.badWord st.launch sid p n ||
   st.buffer.any fun b => s.errors.contains (.buffer sid b.issue) &&
     match b.item with
     | .store l => l.any fun e => (p.span n).contains e.1
     | .push _ _ _ | .post _ | .scat _ | .spls _ _ | .tape => false)

/-- The same of the issuing stream. -/
def Cx.badAt (cx : Cx) (p : Place) (n : Nat) : Bool := cx.s.badFor cx.id cx.st p n

/-- The place of a generic address that no translation makes: Plaza, private stack, weight store (R144-R146). -/
def Cx.placeOf (cx : Cx) (lane : Nat) (a : Addr) : Place :=
  let v := a.toNat
  match tagOf a with
  | 1 => { space := .plaza, key := 2 ^ 22 * (if bits v 59 52 = 0xFF then cx.st.cl else bits v 59 52) + bits v 21 0 }
  | 2 => { space := .stack, key := 2 ^ 24 * lane + bits v 31 0 }
  | _ => { space := .ws, key := 2 ^ 28 * bits v 53 52 + bits v 27 0 }

/-- Checks 4 and 5 of R143 for one access: where its bytes are, and the context after its translation (R162). -/
def Cx.locate (cx : Cx) (acc : Acc) (n lane : Nat) (a : Addr) : Except Exn (Place × Nat) × Cx :=
  if tagOf a = 0 then
    match cx.s.translate (cx.s.whoOf cx.st) a acc (!cx.st.privileged) with
    | (.error e, s) => (.error e, { cx with s := s })
    | (.ok (pa, policy), s) =>
      if acc == .write && s.isSealed a n then (.error (Exn.at .permission a), { cx with s := s })
      else (.ok ({ space := .phys, key := s.canon pa }, policy), { cx with s := s })
  else (.ok (cx.placeOf lane a, 0), cx)

/-- The access itself at its place: the fault of one that another package does not answer, or of a read that meets an error
(check 6 of R143, R266, R271); else the sector turned (R157), by a write only once its bytes reach the slice, and the BUS notice (R267). -/
def Cx.touch (cx : Cx) (acc : Acc) (rd : Bool) (n : Nat) (o : Orient) (a : Addr) (p : Place) (policy : Nat) :
    Except Exn Place × Cx :=
  if p.space = .phys then
    if cx.s.linkFault p.key then (.error (cx.s.accessError p.key a), cx)
    else
      let t := if acc == .write then cx.s else cx.s.turn p.key policy o
      let cx := { cx with s := t.busCheck (cx.s.whoOf cx.st) (acc == .write) p.key }
      if rd && cx.badAt p n then (.error (Exn.ecc 1 a), cx) else (.ok p, cx)
  else if rd && cx.badAt p n then (.error (Exn.ecc p.space.structure_ a), cx)
  else (.ok p, cx)

/-- Checks 4 to 6 of R143 for one access: where its bytes are, and the context after it. -/
def Cx.reach (cx : Cx) (acc : Acc) (rd : Bool) (n : Nat) (o : Orient) (lane : Nat) (a : Addr) : Except Exn Place × Cx :=
  match cx.locate acc n lane a with
  | (.error e, cx) => (.error e, cx)
  | (.ok (p, policy), cx) => cx.touch acc rd n o a p policy

/-- Whether an access that passes its checks goes through the LLC (R157, R160). -/
def Cx.cached (cx : Cx) (acc : Acc) (a : Addr) : Bool :=
  match (cx.locate acc 1 noLane a).1 with
  | .ok (p, policy) => p.space == .phys && decide (policy < 2)
  | .error _ => false

/-- An access that passed every check: its lane, its address and its place. -/
structure Reached where
  lane  : Nat
  addr  : Addr
  place : Place
  deriving DecidableEq, Repr

/-- Checks 4 to 6 of every access in order: those that pass, and the faults of those that do not. -/
def Cx.reachAll (cx : Cx) (acc : Acc) (rd : Bool) (n : Nat) (o : Orient) (as : List (Nat × Addr)) :
    Cx × List Reached × List (Nat × Exn) :=
  as.foldl (fun r e =>
    match r.1.reach acc rd n o e.1 e.2 with
    | (.ok p, cx) => (cx, r.2.1 ++ [{ lane := e.1, addr := e.2, place := p }], r.2.2)
    | (.error x, cx) => (cx, r.2.1, r.2.2 ++ [(e.1, x)])) (cx, [], [])

/-- The lanes of a list of accesses. -/
def lanesIn (ls : List Nat) : LaneMask := maskOf ls.contains

/-- The fault of an instruction some of whose lanes failed checks 4 to 6 (R164, R254): one that is not replayable wins;
it names the unfinished lanes. -/
def laneFault (oks : List Reached) : List (Nat × Exn) -> Option Exn
  | [] => none
  | f :: t =>
    let hard := (f :: t).find? fun e => !e.2.parks
    let e := (hard.getD f).2
    some { e with mask := if f.1 = noLane then none else some (lanesIn ((f :: t).map (·.1))),
                  done := lanesIn (oks.map (·.lane)) }

/-- The granule of 8 bytes that an access of at most 8 aligned bytes touches. -/
def granule (a : Addr) : BitVec 64 := a &&& 0xFFFFFFFFFFFFFFF8

/-- The record of a store (R202, kind 0): its bytes in their granule. -/
def storeRec (a : Addr) (v n : Nat) : DigestRec :=
  let sh := a.toNat % 8
  { a := granule a, data := BitVec.ofNat 64 (v % 2 ^ (8 * n) * 2 ^ (8 * sh)),
    mask := BitVec.ofNat 8 ((2 ^ n - 1) * 2 ^ sh), kind := 0, sub := 0 }

/-- The record of an ATOM or a contribution (R202, kinds 1 and 2): its operand and its sub-code. -/
def operandRec (kind : Nat) (a : Addr) (v : BitVec 64) (n sub : Nat) : DigestRec :=
  { a := granule a, data := v, mask := BitVec.ofNat 8 ((2 ^ n - 1) * 2 ^ (a.toNat % 8)), kind := kind, sub := sub }

/-- A lane's store of `n` bytes as the release buffer holds it (R246), with its scope if it is an STL (R175). -/
def storeItem (lane : Nat) (rel : Option Nat) (p : Place) (a : Addr) (v n : Nat) : BufItem :=
  { size := 8, item := .store (placeBytes p v n), recs := [storeRec a v n], issue := 0, lane := lane, rel := rel,
    cached := false, own := false }

/-- Reads `n` bytes for the wave: a Plaza read comes from a replay's log, or goes to a selected wave's log; a global read
outside the sealed ranges makes a selected wave unverifiable (R178, R201, R203). -/
def Cx.readAt (cx : Cx) (a : Addr) (p : Place) (n : Nat) : Except Stop (Nat × Cx) :=
  if tagOf a = 1 && cx.st.isReplay then (cx.takeLog 0).map fun r => (r.1.toNat % 2 ^ (8 * n), r.2)
  else
    let v := cx.s.viewN cx.st p n
    let st := cx.st
    let st := if tagOf a = 1 then st.logInput 0 n (BitVec.ofNat 64 v)
      else if tagOf a = 0 && st.selected && !cx.la.sealedAt a n then { st with unverif := true }
      else st
    .ok (v, { cx with st := st })

/-- Reads every reached access, in order. -/
def Cx.readAll (cx : Cx) (n : Nat) : List Reached -> Except Stop (List (Nat × Nat) × Cx)
  | [] => .ok ([], cx)
  | r :: t => do
    let (v, cx) ← cx.readAt r.addr r.place n
    let (vs, cx) ← cx.readAll n t
    .ok ((r.lane, v) :: vs, cx)

/-- A long-latency access over its lanes (R88, R90, R164): with no fault its operation will complete. A fault that parks
leaves the operation outstanding and unfinished; a fault that traps ends it with the lanes that completed. -/
def Cx.longAccess (cx : Cx) (flag : Option Nat) (o : Op) (oks : List Reached) (err : Option Exn) : Except Stop Cx :=
  let prior := cx.sp.retryOp.bind fun n => (cx.s.op? n).map fun p => (n, p)
  let o := match prior with
    | some (_, p) => { o with flag := p.flag, lanes := p.lanes, vres := p.vres ++ o.vres, sres := p.sres ++ o.sres,
                                contribs := o.contribs.foldl (fun l b => insertItem b l) p.contribs, fault := p.fault.orElse fun _ => o.fault }
    | none => o
  let done := lanesIn (oks.map (·.lane))
  let put := fun (o : Op) => match prior with
    | some (n, _) => .ok { cx with s := cx.s.putOp n o }
    | none => cx.launchOp flag o
  match err with
  | none => put { o with waiting := false }
  | some e =>
    if cx.st.faulting cx.sp.num then .error (.hold .otherFault)
    else if e.parks then do
      let n := match prior with
        | some (n, _) => n
        | none => cx.s.nextId
      let cx ← put { o with waiting := true }
      .error (.after { cx with sp := { cx.sp with retryOp := some n } } e)
    else if prior.isNone && done == 0 then cx.stop e
    else do
      let cx ← put { o with waiting := false, lanes := match prior with
        | some (_, p) => p.lanes &&& ~~~(cx.part &&& ~~~done)
        | none => done }
      .error (.after { cx with sp := { cx.sp with retryOp := none } } e)

/-- A fault of an instruction that has committed the region before it: the commit stands, and a kill replays the instruction (R178). A
recomputation commits nothing (R242). -/
def afterCommit {α : Type} (cx : Cx) (r : Except Stop α) : Except Stop α :=
  if cx.st.recomputing then r else
  match r with
  | .error (.fault e) => .error (.after { cx with ckpt := false } e)
  | .error (.faultOn c e) => .error (.after { c with ckpt := false } e)
  | .error s => .error s
  | .ok v => .ok v

/-- The items of a release buffer without the bytes for some places that items older than a stamp hold. -/
def withoutOlder (mark : Nat) (ps : List Place) (bs : List BufItem) : List BufItem :=
  bs.flatMap fun b => if b.issue < mark then withoutPlaces ps [b] else [b]

/-- The writes of a thread forked when the release buffer's next stamp was `mark` (R173, R179): they come after the stores that the
issuer made before it, which its buffer may still hold. -/
def State.engineWrite (s : State) (launch sid mark : Nat) (bs : List (Place × Byte)) : State :=
  let ps := bs.map (·.1)
  let s := s.onStream sid fun st => if st.buffer.isEmpty then st else { st with buffer := withoutOlder mark ps st.buffer }
  bs.foldl (fun s b => s.writePlace launch sid b.1 b.2) s

/-- The byte that such a thread reads (R179): its issuer's stores before it are visible to it. -/
def State.engineByte (s : State) (sid mark : Nat) (p : Place) : Byte :=
  match s.stream? sid with
  | none => 0
  | some st =>
    match bufferedByte p (st.buffer.filter fun b => decide (b.issue < mark)) with
    | some b => b
    | none => s.readPlace st p

/-- `n` bytes as such a thread reads them, as a number. -/
def State.engineN (s : State) (sid mark : Nat) (p : Place) (n : Nat) : Nat :=
  (p.span n).foldr (fun q acc => (s.engineByte sid mark q).toNat + 256 * acc) 0

/-- The lanes of a list as accesses that passed. -/
def reachedOf (ls : List Nat) : List Reached := ls.map fun l => { lane := l, addr := 0, place := { space := .phys, key := 0 } }

/-- A long-latency engine operation (R266): one whose read meets an error stops, so its registers in those lanes hold free values
(DESIGN CHOICE, log 4), and the fault waits for the split's next wait on its flag; other faults are the instruction's. -/
def Cx.engineAccess (cx : Cx) (flag : Option Nat) (o : Op) (oks : List Reached) (errs : List (Nat × Exn)) : Except Stop Cx :=
  let ecc := errs.filter fun e => e.2.code == .eccUncorrectable
  let hard := errs.filter fun e => e.2.code != .eccUncorrectable
  match laneFault [] ecc with
  | none => cx.longAccess flag o oks (laneFault oks hard)
  | some e =>
    let free := fun (k : Nat) => Config.freeWord (2 ^ 24 * cx.s.fresh + k)
    let vs := (ecc.map (·.1)).flatMap fun l => o.pendV.map fun k => (k * 96 + l, free (k * 96 + l))
    let ss := if ecc.any fun x => x.1 == noLane then o.pendS.map fun k => (k, free k) else []
    let oks := oks ++ reachedOf (ecc.map (·.1))
    { cx with s := cx.s.bump }.longAccess flag { o with vres := o.vres ++ vs, sres := o.sres ++ ss, fault := some e } oks
      (laneFault oks hard)

/-- The flag of a new long-latency operation has room (R88); a reissued one keeps its own. -/
def Cx.flagRoom (cx : Cx) (flag : Option Nat) : Except Stop Unit :=
  match flag with
  | none => .ok ()
  | some f => if cx.sp.retryOp.isNone && decide (cx.st.flag f ≥ 255) then .error (.hold (.flagFull f)) else .ok ()

/-- The registers of a destination of `k` words: entries of the register stack, or ordinary scalars (s63 discards). -/
def Cx.destV (cx : Cx) (d : BitVec 7) (k : Nat) : List Nat :=
  if isVec d then (List.range k).map fun i => cx.sp.winbase + d.toNat + i else []
/-- The scalar destinations. -/
def destS (d : BitVec 7) (k : Nat) : List Nat :=
  if isVec d then [] else ((List.range k).map fun i => regNo d + i).filter (· < 63)

/-- The register writes that a value of `k` words makes at completion. -/
def Cx.writesOf (cx : Cx) (d : BitVec 7) (k lane v : Nat) : List (Nat × Word) × List (Nat × Word) :=
  let w := fun i => BitVec.ofNat 32 (v / 2 ^ (32 * i))
  if isVec d then ((List.range k).map fun i => ((cx.sp.winbase + d.toNat + i) * 96 + lane, w i), [])
  else ([], (List.range k).map fun i => (regNo d + i, w i))

/-- Whether an acquire of some places has to wait for the commit of another stream's STL (R175): reading the older value would
close a circle. -/
def Cx.acquireHeld (cx : Cx) (scope : Nat) (ps : List Place) : Bool := cx.s.stlBefore (cx.id, cx.st) scope cx.st.stamp ps

/-- An acquire of some places (R175): it comes after what their last STLs came after, and before the STLs whose values it did not see. -/
def Cx.acquire (cx : Cx) (ps : List Place) : Cx :=
  let st := cx.st
  let known := (cx.s.afterAt cx.id st ps).filter fun e => e.1 != cx.id && cx.s.binds e
  if st.isReplay || (st.after.isEmpty && known.isEmpty && !(st.buffer.any fun b => b.rel.isSome)) then cx
  else { cx with st := { st with acqs := st.acqs ++ ps.map (fun p => (p, st.stamp)),
                                 after := st.after ++ known.map (fun e => (e.1, e.2, st.stamp + 1)),
                                 stamp := if known.isEmpty then st.stamp else st.stamp + 1 } }

/-- A load of LD, LDC, LDA and SLD (R332, R333, R363): memory is read at issue, the registers are written at completion (DEDUCED,
log 6). `acq` is the scope of an acquire (R175). -/
def Cx.loadLanes (cx : Cx) (flag : Option Nat) (d a : BitVec 7) (off : Int) (n : Nat) (once : Bool) (deny : List Nat)
    (o : Orient) (acq : Option Nat) : Except Stop Cx := do
  let k := if n = 8 then 2 else 1
  let as := cx.laneAddrs once a off
  cx.staticLanes n false deny as
  cx.flagRoom flag
  let cx ← cx.mapWs (as.map (·.2))
  let (cx, oks, errs) := cx.reachAll .read true n o as
  let ps := oks.flatMap fun r => r.place.span n
  if (acq.map fun c => cx.acquireHeld c ps).getD false then .error (.hold .acquire)
  let (vs, cx) ← cx.readAll n oks
  let cx := if acq.isSome then cx.acquire ps else cx
  let ws := vs.map fun e => cx.writesOf d k e.1 e.2
  let op := { Op.blank cx .load with
    pendV := cx.destV d k, lanes := cx.part, pendS := destS d k, vres := ws.flatMap (·.1), sres := ws.flatMap (·.2) }
  cx.longAccess flag op oks (laneFault oks errs)

/-- An access that writes no register, after its lanes: with no fault it is done, and a fault before any lane completed
leaves no effect. -/
def Cx.faultAfter (cx : Cx) (oks : List Reached) (err : Option Exn) : Except Stop Cx :=
  match err with
  | none => .ok cx
  | some e =>
    if cx.st.faulting cx.sp.num then .error (.hold .otherFault)
    else if oks.isEmpty then cx.stop e
    else .error (.after cx e)

/-- A store of ST, STL and SST (R363, R368, R369): the bytes are held until the commit; lanes ascend, so the highest lane
supplies a byte that several write (R180). `rel` is the scope of an STL. -/
def Cx.storeLanes (cx : Cx) (a : BitVec 7) (off : Int) (n : Nat) (once : Bool) (deny : List Nat) (rel : Option Nat)
    (data : Nat -> Nat) : Except Stop Cx := do
  let as := cx.laneAddrs once a off
  cx.staticLanes n true deny as
  cx.bufferRoom (8 * as.length)
  let (cx, oks, errs) := cx.reachAll .write false n .row as
  let cx ← cx.buffer (oks.map fun r =>
    { storeItem r.lane rel r.place r.addr (data r.lane) n with cached := cx.cached .write r.addr })
  cx.faultAfter oks (laneFault oks errs)

end Sys2Proof.Machine
end

