-- ==== Sys2Proof/Machine/Memory.lean ====
section
/-! DEFINITION. The memory instructions (class 0x5, R109, R181-R184, R226, R227, R309, R325, R331-R334, R359-R363,
R367-R369). -/

namespace Sys2Proof.Machine

/-- Bytes of an access size field (R331). -/
def sizeOf (z : BitVec 2) : Nat := 2 ^ z.toNat

/-- Whether a scope code is one of the twelve (R99). -/
def scopeOk (c : BitVec 4) : Bool := decide (c.toNat < 12)

/-- A data or destination register of `n` bytes: an even pair for 8 (R93). -/
def Opnd.sized (o : Opnd) (n : Nat) : Opnd := if n = 8 then o.pair else o

/-- LD and LDC (R332, R334): per lane into a vector register. -/
def vectorLoad (s : State) (d a : BitVec 7) (o : BitVec 5) (z : BitVec 2) (f : BitVec 1) (ok : Bool) (or : Orient) :
    Host.Outcome State Fault Refusal :=
  let n := sizeOf z
  issue s { Desc.lane [((Opnd.dstV d).sized n).pending, (Opnd.src a).pair] with flag := some (f == 1), ok := ok } fun cx =>
    cx.loadLanes (cx.flagOf (f == 1)) d a (o.toInt * n) n false [] or none

/-- LD (R332). -/
def execLd (d a : BitVec 7) (o : BitVec 5) (z : BitVec 2) (f : BitVec 1) (s : State) : Host.Outcome State Fault Refusal :=
  vectorLoad s d a o z f true .row

/-- LDC (R334): the same values through column lines. -/
def execLdc (d a : BitVec 7) (o : BitVec 5) (z : BitVec 2) (f : BitVec 1) (s : State) : Host.Outcome State Fault Refusal :=
  vectorLoad s d a o z f (z != 3) (match z.toNat with
    | 0 => .col1
    | 1 => .col2
    | _ => .col4)

/-- LDA (R333): per lane, or once for the split with a scalar D and a scalar address. Every committed write is visible at
once, so a promotion (R177) orders nothing further; an acquire may wait for another stream's STL (R175; DEDUCED, log 6). -/
def execLda (d a : BitVec 7) (z : BitVec 2) (_ : BitVec 1) (f : BitVec 1) (c : BitVec 4) (s : State) :
    Host.Outcome State Fault Refusal :=
  let n := sizeOf z
  let once := !isVec d
  issue s { Desc.lane [(({ Opnd.dstV d with kind := .any } : Opnd).sized n).pending, (Opnd.src a).pair] with
      mcc := true, perLane := !once, legal := scopeOk c, flag := some (f == 1), ok := !(once && isVec a) } fun cx =>
    cx.loadLanes (cx.flagOf (f == 1)) d a 0 n once (if once then [2] else []) .row (some c.toNat)

/-- SLD (R363): once per split. -/
def execSld (d a : BitVec 7) (o : BitVec 5) (z : BitVec 2) (f : BitVec 1) (s : State) : Host.Outcome State Fault Refusal :=
  let n := sizeOf z
  issue s { Desc.split [((Opnd.dstS d).sized n).pending, (Opnd.srcS a).pair] with flag := some (f == 1) } fun cx =>
    cx.loadLanes (cx.flagOf (f == 1)) d a (o.toInt * n) n true [2] .row none

/-- The data of a store: a lane's register or pair, or the scalar that broadcasts. -/
def Cx.storeData (cx : Cx) (d : BitVec 7) (bcast : Word) (n lane : Nat) : Nat :=
  if n = 8 then (cx.lane64 d lane).toNat else (cx.laneOf d bcast lane).toNat

/-- ST (R368). -/
def execSt (d a : BitVec 7) (o : BitVec 5) (z : BitVec 2) (s : State) : Host.Outcome State Fault Refusal :=
  let n := sizeOf z
  issue s (Desc.lane [(Opnd.src d).sized n, (Opnd.src a).pair]) fun cx => do
    let (x, cx) ← cx.source d
    cx.storeLanes a (o.toInt * n) n false [] none (cx.storeData d x n)

/-- SST (R363): once per split; a mapped port as D pops the data. -/
def execSst (d a : BitVec 7) (o : BitVec 5) (z : BitVec 2) (s : State) : Host.Outcome State Fault Refusal :=
  let n := sizeOf z
  issue s (Desc.split [(Opnd.srcS d).sized n, (Opnd.srcS a).pair]) fun cx => do
    let (x, cx) ← cx.source d
    cx.storeLanes a (o.toInt * n) n true [2] none (cx.storeData d x n)

/-- STL (R369): a store held as ST's; once for the split with a scalar D and a scalar address. -/
def execStl (d a : BitVec 7) (z : BitVec 2) (c : BitVec 4) (s : State) : Host.Outcome State Fault Refusal :=
  let n := sizeOf z
  let once := !isVec d
  issue s { Desc.lane [(Opnd.src d).sized n, (Opnd.src a).pair] with
      mcc := true, perLane := !once, legal := scopeOk c, ok := !(once && isVec a) } fun cx => do
    let (x, cx) ← cx.source d
    cx.storeLanes a 0 n once (if once then [2] else []) (some c.toNat) (cx.storeData d x n)

/-- FENCE (R182): an acquire waits for the split's reads, a release commits the region. -/
def execFence (sub c : BitVec 4) (s : State) : Host.Outcome State Fault Refusal :=
  issue s { Desc.split [] with
      legal := decide (sub.toNat < 3) && scopeOk c, commits := sub != 0, recomp := sub == 0 } fun cx => do
    let reads := cx.s.ops.any fun o => o.2.stream == cx.id && o.2.owner == cx.sp.num &&
      match o.2.kind with
      | .load | .atom _ => true
      | _ => false
    if sub ≠ 1 ∧ reads then .error (.hold .reads)
    else if sub = 0 then .ok cx
    else cx.commit

/-- The element type an ATOM works on: 8 bytes for the key operations; none where ETYPE is not accepted (R183). -/
def atomTy (sub : Nat) (t : Ty) : Option Ty :=
  if sub ≥ 8 then some (.int 64 false)
  else match t with
    | .f32 | .f64 | .int 32 _ | .int 64 _ => some t
    | .f16 | .bf16 | .lns | .int _ _ | .b8 _ _ _ => none

/-- The new value of an ATOM (R183). -/
def atomNew (sub : Nat) (t : Ty) (old opd new : Nat) : Nat :=
  let w := t.width
  match sub with
  | 0 => if t.isFloat then (floatAdd t .rne old opd).1 else (old + opd) % 2 ^ w
  | 1 => if t.isFloat then
      (let a := valueOf t old
       let b := valueOf t opd
       if a.isNan then (if b.isNan then t.nanCode else opd)
       else if b.isNan then old
       else if (if a.isZero && b.isZero then b.neg && !a.neg else b.lt a) then opd else old)
    else if intOf w t.hasSign opd < intOf w t.hasSign old then opd else old
  | 2 => if t.isFloat then
      (let a := valueOf t old
       let b := valueOf t opd
       if a.isNan then (if b.isNan then t.nanCode else opd)
       else if b.isNan then old
       else if (if a.isZero && b.isZero then a.neg && !b.neg else a.lt b) then opd else old)
    else if intOf w t.hasSign old < intOf w t.hasSign opd then opd else old
  | 3 => opd
  | 4 => if old = opd then new else old
  | 5 => old &&& opd
  | 6 => old ||| opd
  | 7 => old ^^^ opd
  | 8 => max old opd
  | _ => min old opd

/-- Makes one read-modify-write of a stream (R183): the old value, and the state after it. It reads what memory holds: the region before the
ATOM has committed, and a store that another split has buffered since is no write yet (R171, R178). -/
def State.rmw (s : State) (sid : Nat) (r : Rmw) : Nat × State :=
  match s.stream? sid, (Ty.ofCode r.etype).bind (atomTy r.sub) with
  | some st, some t =>
    let old := s.placeN st r.place r.n
    let bs := placeBytes r.place (atomNew r.sub t old r.opd r.new) r.n
    (old, bs.foldl (fun s e => s.writePlace st.launch sid e.1 e.2) (s.arrive r.cached .row r.place))
  | _, _ => (0, s)

/-- The register writes that a read-modify-write's old value makes. -/
def Rmw.results (r : Rmw) (old : Nat) : List (Nat × Word) × List (Nat × Word) :=
  let w := fun (k : Nat × Nat) => (k.1, BitVec.ofNat 32 (old / 2 ^ (32 * k.2)))
  (r.vdst.zipIdx.map w, r.sdst.zipIdx.map w)

/-- The error that a lane's read-modify-write meets if it comes after the issue: another package that does not answer any more (R271), or an
uncorrectable error (R266). -/
def State.rmwError (s : State) (o : Op) (r : Rmw) : Option Exn :=
  match s.stream? o.stream with
  | none => none
  | some st =>
    if r.place.space == .phys && s.linkFault r.place.key then some (s.accessError r.place.key r.addr)
    else if s.badWord st.launch o.stream r.place r.n then some (Exn.ecc r.place.space.structure_ r.addr)
    else none

/-- The next read-modify-write of an ATOM (R183): lanes act in ascending order. One that meets an error is not made; its lane's registers
hold a free value, and the split meets the fault at its next wait on the flag (DEDUCED, log 70). -/
def State.rmwStep (s : State) (n : Nat) : State :=
  match s.op? n with
  | none => s
  | some o =>
    match o.kind with
    | .atom (r :: t) =>
      let err := s.rmwError o r
      let (old, s) := if err.isSome then ((Config.freeDouble s.fresh).toNat, s.bump) else s.rmw o.stream r
      let w := r.results old
      s.putOp n { o with kind := .atom t, vres := o.vres ++ w.1, sres := o.sres ++ w.2, fault := o.fault.orElse fun _ => err }
    | _ => s

/-- The read-modify-writes that an operation has still to make. -/
def Op.todo (o : Op) : Nat :=
  match o.kind with
  | .atom t => t.length
  | _ => 0

/-- Every read-modify-write that a split's ATOMs have still to make, in the order of their issue. -/
def State.drainAtoms (s : State) (sid k : Nat) : State :=
  s.ops.foldl (fun s o =>
    if o.2.stream = sid ∧ o.2.owner = k then (List.range o.2.todo).foldl (fun s _ => s.rmwStep o.1) s else s) s

/-- Puts a record in its place by its lane (R202). -/
def insertRecord (r : Nat × DigestRec) : List (Nat × DigestRec) -> List (Nat × DigestRec)
  | [] => [r]
  | q :: t => if r.1 < q.1 then r :: q :: t else q :: insertRecord r t

/-- The records of an ATOM's finished lanes (R202): in the digest, in ascending lane, once its last lane is done. -/
def Cx.atomRecords (cx : Cx) (rs : List (Nat × DigestRec)) (done : Bool) : Cx :=
  let all := rs.foldl (fun l r => insertRecord r l) cx.sp.recs
  if done then { cx with st := cx.st.fold (all.map (·.2)), sp := { cx.sp with recs := [] } }
  else { cx with sp := { cx.sp with recs := all } }

/-- ATOM (R183, R184, R309): the region commits first, and stays committed if every lane faults; the lanes act one by one until the operation completes, but at once where
a lane faults. In a DET launch D is not written; a replay writes nothing but its own stacks. -/
def execAtom (d a : BitVec 7) (sub c : BitVec 4) (s : State) : Host.Outcome State Fault Refusal :=
  let t := (atomTy sub.toNat s.issueTy).getD .f32
  let k := t.width / 32
  let cnt := if sub = 4 then 2 * k else k
  let once := !isVec d
  let dd : Opnd := { Opnd.dstV d with kind := .any, rd := true, long := true, even := decide (cnt > 1), n := cnt }
  issue s { Desc.lane [dd, (Opnd.src a).pair] with
      mcc := true, perLane := !once, legal := decide (sub.toNat < 10) && scopeOk c, commits := true, recomp := false,
      flag := some false, ok := !(once && isVec a) && (cnt != 4 || d.toNat % 4 == 0) } fun cx => do
    must (atomTy sub.toNat s.issueTy).isSome .illegalOperand
    let sb := sub.toNat
    must (!(cx.la.det && (sb == 3 || sb == 4 || (decide (sb ≤ 2) && t.isFloat)))) .detViolation
    let n := t.width / 8
    let as := cx.laneAddrs once a 0
    cx.staticLanes n true (if once then [2] else []) as
    cx.flagRoom (cx.flagOf false)
    let cx ← cx.commit
    afterCommit cx do
      let (cx, oks, errs) := cx.reachAll .write true n .row as
      let word := fun i l => if isVec d then (cx.vec (d.toNat + i) l).toNat else (cx.scalar (regNo d + i)).toNat
      let val := fun i l => if k = 2 then word i l + 2 ^ 32 * word (i + 1) l else word i l
      let regs := fun l => if cx.la.det then ([], []) else (cx.writesOf d k l 0)
      let todo := oks.map fun r =>
        ({ place := r.place, n := n, sub := sb, etype := cx.sp.mode.etype, opd := val 0 r.lane,
           new := if sub = 4 then val k r.lane else 0, vdst := (regs r.lane).1.map (·.1), sdst := (regs r.lane).2.map (·.1), addr := r.addr,
           cached := cx.cached .write r.addr } : Rmw)
      let todo := if cx.st.isReplay then todo.filter fun r => r.place.space == .stack else todo
      let cx := cx.atomRecords (oks.map fun r => (r.lane, operandRec 1 r.addr (BitVec.ofNat 64 (val 0 r.lane)) n sb)) errs.isEmpty
      let op := { Op.blank cx (.atom []) with pendV := cx.destV d k, lanes := cx.part, pendS := destS d k }
      if errs.isEmpty then cx.longAccess (cx.flagOf false) { op with kind := .atom todo } oks none
      else
        let (s, vs, ss) := todo.foldl (fun q r =>
          let (old, s) := q.1.rmw cx.id r
          (s, q.2.1 ++ (r.results old).1, q.2.2 ++ (r.results old).2)) (cx.flush, [], [])
        (cx.reload s).longAccess (cx.flagOf false) { op with vres := vs, sres := ss } oks (laneFault oks errs)

/-- A contribution converted to the launch's reference exponent (R225), with its flags. -/
def lossConvert (kref k : BitVec 16) (x : Nat) : Flagged :=
  match valueOf .f32 x with
  | .nan sg => (Ty.f32.nanCode, ivIf sg)
  | .inf _ => (x, 0)
  | .fin neg m e =>
    if m = 0 then (x, 0)
    else
      let r := roundTo .f32 .rne (.fin neg m (e + kref.toInt - k.toInt))
      if r.2 = 0 then r
      else if r.2 &&& fOF ≠ 0 then (Ty.f32.infCode neg, fOF)
      else (Ty.f32.zeroCode neg, fUF)

/-- The epoch of the split's contributions: 0 in a ROUTED launch (R227). -/
def Cx.epoch (cx : Cx) : Nat := if cx.la.routed then 0 else cx.sp.scatbs

/-- A contribution as the release buffer holds it (R224, R225, R246), and the flags its conversion raises. The record's
sub-code is LOSSEXP as the register reads. -/
def Cx.contribution (cx : Cx) (p : Place) (a : Addr) (x lane j : Nat) : BufItem × BitVec 6 :=
  let v := lossConvert cx.la.record.lossexp cx.sp.lossexp x
  ({ size := 8,
     item := .scat { addr := a, place := p, value := BitVec.ofNat 32 v.1, epoch := cx.epoch, dii := cx.sp.dii, lane := lane,
                     j := j, loss := cx.sp.lossexp, cached := cx.cached .write a },
     recs := [operandRec 2 a (BitVec.ofNat 64 v.1) 4 (cx.sp.lossexp.signExtend 32).toNat], issue := 0, lane := lane,
     rel := none, cached := false, own := false }, v.2)

/-- SCAT (R226): one contribution of each lane, held until the commit. -/
def execScat (d a : BitVec 7) (o : BitVec 5) (z : BitVec 2) (s : State) : Host.Outcome State Fault Refusal :=
  issue s { Desc.lane [.src d, (Opnd.src a).pair] with ok := z == 2 } fun cx => do
    let (x, cx) ← cx.source d
    let as := cx.laneAddrs false a (o.toInt * 4)
    cx.staticLanes 4 true [1, 2] as
    cx.bufferRoom (8 * as.length)
    let (cx, oks, errs) := cx.reachAll .write false 4 .row as
    let cs := oks.map fun r => cx.contribution r.place r.addr (cx.laneOf d x r.lane).toNat r.lane 0
    let cx ← cx.buffer (cs.map (·.1))
    let cx := cs.foldl (fun c e => c.raiseFlags e.2) cx
    cx.faultAfter oks (laneFault oks errs)

/-- Whether an adjoint operation that the split issued is outstanding (R227). -/
def Cx.adjointsBusy (cx : Cx) : Bool :=
  cx.s.ops.any fun o => o.2.stream == cx.id && o.2.owner == cx.sp.num &&
    match o.2.kind with
    | .texadj | .edgs => true
    | .splat adj _ => adj
    | _ => false

/-- SCATB (R227): commits the region and counts; in DET it waits for the close of the epoch, but for a replay. -/
def execScatb (s : State) : Host.Outcome State Fault Refusal :=
  issue s { Desc.split [] with mcc := false, commits := true, recomp := false } fun cx => do
    must (!cx.la.routed) .route
    must (!(cx.la.det && cx.divergent)) .detViolation
    if cx.adjointsBusy then .error (.hold .adjoints)
    else
      let n := cx.sp.scatbs
      let cx ← cx.commit
      let cx := { cx with sp := { cx.sp with scatbs := n + 1 } }
      if cx.la.det ∧ !cx.st.isReplay ∧ cx.la.closed ≤ n then .error (.wait cx (.epoch n)) else .ok cx

end Sys2Proof.Machine
end

