-- ==== Sys2Proof/Machine/Raster.lean ====
section
/-! DEFINITION. Rasterisation by PRIM (R207-R212, R348). -/

namespace Sys2Proof.Machine

/-- A raster target (R208). -/
structure Target where
  base   : Addr
  pitch  : Nat
  width  : Nat
  height : Nat
  cull   : Nat
  deriving DecidableEq, Repr

/-- The target of a record's four 64-bit words, if its fields are legal (R208). -/
def parseTarget (w0 w1 w2 w3 : Nat) : Option Target :=
  let t : Target := { base := BitVec.ofNat 64 w0, pitch := bits w1 31 0, width := bits w1 47 32, height := bits w1 63 48,
                      cull := w2 }
  if w0 / 2 ^ 57 ≠ 0 ∨ t.pitch % 8 ≠ 0 ∨ t.pitch < 8 * t.width ∨ t.width = 0 ∨ t.width > 16384 ∨ t.height = 0
    ∨ t.height > 16384 ∨ w2 > 2 ∨ w3 ≠ 0 then none
  else some t

/-- A vertex as the raster rule uses it: x and y in units of 2^-8, and z. -/
structure Vertex where
  x : Int
  y : Int
  z : Rat2
  deriving DecidableEq, Repr

/-- A vertex snapped (R211); none when its triangle is discarded. An infinite z gives no fragment. -/
def snapVertex (x y z : Nat) : Option Vertex :=
  let fin := fun c => match valueOf .f32 c with
    | .fin _ _ _ => true
    | .nan _ => false
    | .inf _ => false
  let sx := (Rat2.ofS x).grid 8
  let sy := (Rat2.ofS y).grid 8
  let inside := fun (v : Int) => decide (-8388608 ≤ v ∧ v < 8388608)
  if fin x && fin y && fin z && inside sx && inside sy then some { x := sx, y := sy, z := Rat2.ofS z } else none

/-- E of R211. -/
def edgeFn (a b : Int × Int) (p : Int × Int) : Int := (b.1 - a.1) * (p.2 - a.2) - (b.2 - a.2) * (p.1 - a.1)

/-- Inc of R211: (a.y, a.x) below (b.y, b.x). -/
def edgeInc (a b : Int × Int) : Bool := decide (a.2 < b.2 ∨ (a.2 = b.2 ∧ a.1 < b.1))

/-- Inside of R211. -/
def edgeInside (a b p : Int × Int) : Bool :=
  decide (edgeFn a b p > 0) || (edgeFn a b p == 0 && edgeInc a b)

/-- The place of a vertex in the plane. -/
def Vertex.at (v : Vertex) : Int × Int := (v.x, v.y)

/-- The pixels of an interval of sample positions, within `n`. -/
def pixelRange (lo hi : Int) (n : Nat) : List Nat :=
  let a := max 0 ((lo - 128) / 256)
  let b := min ((n : Int) - 1) ((hi - 128) / 256 + 1)
  (List.range (b - a + 1).toNat).map fun i => a.toNat + i

/-- The depth code of a fragment, if it lies in [0, 1] (R211); the weights are those of vertices 1 and 2. -/
def fragDepth (v0 v1 v2 : Vertex) (e20 e01 area : Int) : Option Nat :=
  let num := ((Rat2.ofInt e20).mul (v1.z.sub v0.z)).add ((Rat2.ofInt e01).mul (v2.z.sub v0.z))
  let c := ((v0.z.add (num.div (Rat2.ofInt area))).round .f32 .rne).1
  let c := if c = 0x80000000 then 0 else c
  if c ≤ 0x3F800000 then some c else none

/-- The fragments of a triangle (R211): pixel and key. -/
def Target.fragments (t : Target) (v0 v1 v2 : Vertex) (vis : Nat) : List (Nat × Nat × Nat) :=
  let area := edgeFn v0.at v1.at v2.at
  if area = 0 ∨ (t.cull = 1 ∧ area < 0) ∨ (t.cull = 2 ∧ area > 0) then []
  else
    let (v1, v2) := if area < 0 then (v2, v1) else (v1, v2)
    let area := if area < 0 then -area else area
    let q0 := v0.at
    let q1 := v1.at
    let q2 := v2.at
    let xs := pixelRange (min q0.1 (min q1.1 q2.1)) (max q0.1 (max q1.1 q2.1)) t.width
    let ys := pixelRange (min q0.2 (min q1.2 q2.2)) (max q0.2 (max q1.2 q2.2)) t.height
    ys.flatMap fun (py : Nat) => xs.filterMap fun (px : Nat) =>
      let p : Int × Int := (((256 * px + 128 : Nat) : Int), ((256 * py + 128 : Nat) : Int))
      if edgeInside q0 q1 p && edgeInside q1 q2 p && edgeInside q2 q0 p then
        (fragDepth v0 v1 v2 (edgeFn q2 q0 p) (edgeFn q0 q1 p) area).map fun z => (px, py, 2 ^ 32 * z + vis)
      else none

/-- The fragments of a lane's triangle with the address of each entry (R209, R211). `obj` is the word of v(D+10). -/
def Target.lane (t : Target) (w : Nat -> Nat) (obj : Nat) : List (Addr × BitVec 64) :=
  match snapVertex (w 0) (w 1) (w 2), snapVertex (w 3) (w 4) (w 5), snapVertex (w 6) (w 7) (w 8) with
  | some a, some b, some c =>
    if w 9 = 0xFFFFFFFF ∨ obj / 2 ^ 20 ≠ 0 then []
    else (t.fragments a b c (w 9)).map fun f =>
      (t.base + BitVec.ofNat 64 (f.2.1 * t.pitch + f.1 * 8), BitVec.ofNat 64 f.2.2)
  | _, _, _ => []

/-- Reaches the entries of a lane's fragments; entries that meet an error (R266, R271) are left out, with their faults. -/
def Cx.reachFrags (cx : Cx) (acc : Acc) (obj : Option (Spot × Nat)) (lane : Nat) :
    List (Addr × BitVec 64) -> Except Exn (List Fragment × List Exn) × Cx
  | [] => (.ok ([], []), cx)
  | f :: t =>
    match cx.reach acc true 8 .row lane f.1 with
    | (.error e, cx) =>
      if e.code = .eccUncorrectable then
        let r := cx.reachFrags acc obj lane t
        (r.1.map fun q => (q.1, e :: q.2), r.2)
      else (.error e, cx)
    | (.ok p, cx) =>
      let r := cx.reachFrags acc obj lane t
      (r.1.map fun q => ({ entry := { place := p, addr := f.1, cached := cx.cached acc f.1 }, key := f.2, obj := obj } :: q.1, q.2), r.2)

/-- Reaches everything that a lane's triangle touches: its entries, and its byte of the occlusion table. -/
def Cx.reachTriangle (cx : Cx) (mode obj lane : Nat) (fs : List (Addr × BitVec 64)) :
    Except Exn (List Fragment × List Exn) × Cx :=
  let acc := if mode = 2 then Acc.read else Acc.write
  if fs.isEmpty then (.ok ([], []), cx)
  else if mode = 0 ∨ obj = 0xFFFFF then cx.reachFrags acc none lane fs
  else
    let a := cx.la.occtab + BitVec.ofNat 64 (obj / 8)
    match cx.reach .write true 1 .row lane a with
    | (.error e, cx) => if e.code = .eccUncorrectable then (.ok ([], [e]), cx) else (.error e, cx)
    | (.ok p, cx) => cx.reachFrags acc (some ({ place := p, addr := a, cached := cx.cached .write a }, obj % 8)) lane fs

/-- Four 64-bit words of a record, read for the split. -/
def Cx.readWords (cx : Cx) (a : Addr) (p : Place) : Nat -> Except Stop (List Nat × Cx)
  | 0 => .ok ([], cx)
  | n + 1 => do
    let (v, cx) ← cx.readAt a p 8
    let (vs, cx) ← cx.readWords (a + 8) (p.plus 8) n
    .ok (v :: vs, cx)

/-- PRIM (R210-R212, R348): a raster thread whose fragments act when it completes. A fault of an entry or of the
occlusion table faults the lane (DEDUCED, log 26), but an uncorrectable error is the thread's (R266); a replay forks no thread. -/
def execPrim (d a : BitVec 7) (m : BitVec 2) (s : State) : Host.Outcome State Fault Refusal :=
  issue s { Desc.lane [(Opnd.srcV d).many (if m = 0 then 10 else 11), (Opnd.srcS a).pair] with
      legal := m != 3, recomp := false, ok := decide (d.toNat ≤ 53),
      regOk := s.issueHas fun cx => decide (d.toNat + 11 ≤ windowOf cx.st.vis.allot) } fun cx => do
    must (m == 0 || cx.la.occtab != 0) .route
    must (!(m == 1 && cx.la.det)) .detViolation
    let addr := cx.scalar64 (regNo a)
    cx.staticLanes 32 false [1, 2, 3] [(noLane, addr)]
    match cx.reach .read true 32 .row noLane addr with
    | (.error e, cx) => cx.stop { e with mask := none }
    | (.ok p, cx) =>
      let (ws, cx) ← cx.readWords addr p 4
      match parseTarget (nth 0 ws 0) (nth 0 ws 1) (nth 0 ws 2) (nth 0 ws 3) with
      | none => cx.failAt .illegalOperand
      | some t =>
        if t.base.toNat % 8 ≠ 0 then cx.stop (Exn.at .alignment t.base)
        let mode := m.toNat
        let obj := fun l => if mode = 0 then 0xFFFFF else (cx.vec (d.toNat + 10) l).toNat
        let (cx, oks, errs) := (lanesOf cx.part).foldl (fun r l =>
          let fs := t.lane (fun i => (cx.vec (d.toNat + i) l).toNat) (obj l)
          match r.1.reachTriangle mode (obj l) l fs with
          | (.ok fr, c) => (c, r.2.1 ++ [(l, fr)], r.2.2)
          | (.error e, c) => (c, r.2.1, r.2.2 ++ [(l, e)]))
            (cx, ([] : List (Nat × List Fragment × List Exn)), ([] : List (Nat × Exn)))
        let frags := oks.flatMap (·.2.1)
        let late := (oks.flatMap (·.2.2)).head?
        let reached := oks.map fun e => (Reached.mk e.1 addr p)
        let err := laneFault reached errs
        if err.isSome && cx.st.faulting cx.sp.num then .error (.hold .otherFault)
        else do
          let cx ← if cx.st.isReplay || (frags.isEmpty && late.isNone) then .ok cx
            else cx.launchOp none { Op.blank cx (.raster mode frags) with fault := late }
          cx.faultAfter reached err

/-- The error of a thread's access to another package that does not answer any more (R271). -/
def State.spotError (s : State) (x : Spot) : Option Exn :=
  if x.place.space == .phys && s.linkFault x.place.key then some (s.accessError x.place.key x.addr) else none

/-- What one fragment of a thread does (R211): an unsigned minimum of its entry, or a read, and the occlusion bit it may set, each
through a row line (R157). The stores that the PRIM's wave made before it come first (R179). -/
def State.fragment (sid mark mode : Nat) (s : State) (f : Fragment) : State :=
  match s.stream? sid with
  | none => s
  | some st =>
    if (s.spotError f.entry).isSome then s else
    let old := s.engineN sid mark f.entry.place 8
    let s := s.arrive f.entry.cached .row f.entry.place
    let s := if mode ≠ 2 ∧ f.key.toNat < old then s.engineWrite st.launch sid mark (placeBytes f.entry.place f.key.toNat 8) else s
    match f.obj with
    | some (x, b) =>
      if f.key.toNat ≤ old ∧ (s.spotError x).isNone then
        (s.arrive x.cached .row x.place).engineWrite st.launch sid mark
          [(x.place, s.engineByte sid mark x.place ||| BitVec.ofNat 8 (2 ^ b))]
      else s
    | none => s

end Sys2Proof.Machine
end

