-- ==== Sys2Proof/Machine/Tiles.lean ====
section
/-! DEFINITION. The tile table and its instructions (R149-R153, R165, R374-R377), and WSREF (R148, R398). -/

namespace Sys2Proof.Machine

/-- A tile-table entry of a cluster. -/
def Cluster.tile (c : Cluster) (t : Nat) : Tile := Sp.get Tile.initial c.tiles t
/-- Replaces a tile-table entry. -/
def State.putTile (s : State) (cl t : Nat) (v : Tile) : State :=
  s.putCluster cl { s.cluster cl with tiles := Sp.set Tile.initial (s.cluster cl).tiles t v }
/-- The tile that an instruction names. -/
def Cx.tile (cx : Cx) (t : Nat) : Tile := (cx.s.cluster cx.st.cl).tile t
/-- The element type of a tile. -/
def Tile.ty (t : Tile) : Ty := (Ty.ofCode t.etype).getD .f32
/-- Bytes of a tile's element. -/
def Tile.width (t : Tile) : Nat := t.ty.width / 8
/-- The Plaza offset of element (r, c) (R150). -/
def Tile.elem (t : Tile) (r c : Nat) : Nat :=
  t.base + (if t.orient then c * t.pitch + r * t.width else r * t.pitch + c * t.width)
/-- Whether another running launch owns the tile (R149). -/
def Tile.foreign (t : Tile) (launch : Nat) : Bool :=
  match t.owner with
  | none => false
  | some l => l != launch

/-- The tile-status word (R151). -/
def Tile.word (t : Tile) (launch : Nat) : Word :=
  let st := match t.st with
    | .empty => 0
    | .filling => 1
    | .ready => 2
    | .draining => 3
  BitVec.ofNat 32 (t.done.toNat * 65536 + t.nsec * 256 + b2n t.part * 8 + b2n (t.owner == some launch) * 4 + st)

/-- Whether an MMA or MMAS that has not completed reads the tile (R341): its operands, and the scale tiles of MMAS. -/
def State.tileInUse (s : State) (cl t : Nat) : Bool :=
  s.ops.any fun o => match o.2.kind with
    | .mma _ a b scaled _ _ _ _ =>
      (match s.stream? o.2.stream with
       | some st => st.cl == cl
       | none => false) &&
      (a == t || b == t || (scaled && (((s.cluster cl).tile a).pair == t || ((s.cluster cl).tile b).pair == t)))
    | _ => false

/-- Changes a tile for the issuing stream; the state it had at the region's start is kept for a kill (R153). -/
def Cx.setTile (cx : Cx) (t : Nat) (undo : Bool) (v : Tile) : Cx :=
  let old := cx.tile t
  let st := if undo && (Tab.get? cx.st.tileUndo t).isNone then { cx.st with tileUndo := Tab.put cx.st.tileUndo t old }
    else cx.st
  { cx with s := cx.s.putTile cx.st.cl t v, st := st }

/-- The tile-table entry that a tile instruction finds, which a selected wave retains; a replay's is the one that its original found
(R203; DESIGN CHOICE, log 66). -/
def Cx.findTile (cx : Cx) (t : Nat) : Except Stop (Tile × Cx) :=
  if cx.st.isReplay then (cx.takeEntry 3).map fun r => (r.1.tile.getD Tile.initial, r.2)
  else .ok (cx.tile t, { cx with st := cx.st.logTile (cx.tile t) })

/-- The same, owned by no other launch (R149). -/
def Cx.ownTile (cx : Cx) (t : Nat) : Except Stop (Tile × Cx) := do
  let (v, cx) ← cx.findTile t
  cx.need (!v.foreign cx.st.launch) .tileState
  .ok (v, cx)

/-- The context `r` of an instruction that began in `cx` and parks: its reissue finds its tile again. -/
def Cx.refind (cx r : Cx) (e : Exn) : Cx := if e.parks then { r with st := { r.st with log := cx.st.log } } else r

/-- The commit before a tile instruction that began in `first`: a kill finds its tile again. -/
def Cx.commitTile (first cx : Cx) : Except Stop Cx :=
  cx.commit.map fun c => { c with st := { c.st with ckpt := c.st.ckpt.map fun k => { k with logLen := first.st.log.length } } }

/-- The descriptor of s(A) to s(A+3), if it follows the field rules of R150. -/
def descriptor (w : Nat -> Nat) (old : Tile) : Option Tile :=
  let e := BitVec.ofNat 6 (bits (w 0) 5 0)
  let kind := bits (w 0) 9 8
  let rows := bits (w 0) 21 16 + 1
  let cols := bits (w 0) 29 24 + 1
  let orient := bit (w 0) 7
  let base := bits (w 1) 21 0
  let pitch := bits (w 2) 21 0
  let paired := bit (w 3) 5
  let tyOk := match Ty.ofCode e with
    | some .f32 | some .f16 | some .bf16 | some (.b8 _ _ _) => kind != 1
    | some (.int k sg) => if kind = 1 then k == 8 && !sg else decide (k ≤ 32)
    | some .f64 | some .lns => false
    | none => false
  let t : Tile := { old with etype := e, kind := BitVec.ofNat 2 kind, orient := orient, rows := rows, cols := cols,
                             base := base, pitch := pitch, paired := paired, pair := bits (w 3) 4 0 }
  let line := (if orient then rows else cols) * t.width
  if bits (w 0) 31 30 ≠ 0 ∨ bits (w 0) 23 22 ≠ 0 ∨ bits (w 0) 15 10 ≠ 0 ∨ bit (w 0) 6 ∨ bits (w 1) 31 22 ≠ 0
    ∨ bits (w 2) 31 22 ≠ 0 ∨ bits (w 3) 31 6 ≠ 0 ∨ kind = 3 ∨ !tyOk ∨ base % 32 ≠ 0 ∨ pitch % 32 ≠ 0 ∨ pitch < line
    ∨ (paired ∧ kind ≠ 0) then none
  else some t

/-- Bytes from the start of the Plaza to the end of a tile's footprint. -/
def Tile.top (t : Tile) : Nat :=
  let lines := if t.orient then t.cols else t.rows
  t.base + (lines - 1) * t.pitch + (if t.orient then t.rows else t.cols) * t.width

/-- A scalar of the first of four that a tile instruction names. -/
def Cx.word (cx : Cx) (a : BitVec 7) (i : Nat) : Nat := (cx.scalar (regNo a + i)).toNat

/-- TDSC (R150, R375). -/
def execTdsc (t : BitVec 5) (a : BitVec 7) (s : State) : Host.Outcome State Fault Refusal :=
  issue s { Desc.split [(Opnd.srcS a).many 4] with
      recomp := false, ok := a.toNat % 4 == 0 && decide (regNo a ≤ 60) } fun cx => do
    let (old, cx) ← cx.ownTile t.toNat
    match descriptor (cx.word a) old with
    | none => cx.failAt .illegalOperand
    | some v =>
      cx.need (decide (v.top ≤ cx.la.record.plaza)) .aperture
      cx.need (old.st == .empty) .tileState
      .ok (if cx.st.isReplay then cx else cx.setTile t.toNat true { v with owner := some cx.st.launch })

/-- Whether a tile is in the way of a TST or TFREE (R149, R341): still filling, or read by an MMA or MMAS that runs. -/
def Cx.tileBusy (cx : Cx) (t : Nat) : Bool :=
  (cx.tile t).st == .filling && !(cx.tile t).part || cx.s.tileInUse cx.st.cl t

/-- Whether a tile's state admits an instruction that needs it READY (R149), or PARTIAL where that will do. -/
def Tile.admits (v : Tile) (partOk : Bool) : Bool :=
  match v.st with
  | .ready => true
  | .filling => !v.part || partOk
  | .empty => false
  | .draining => false

/-- TFREE (R377): it commits the region once, at its first issue, and then waits until nothing reads or fills the tile. -/
def execTfree (t : BitVec 5) (s : State) : Host.Outcome State Fault Refusal :=
  issue s { Desc.split [] with commits := true, recomp := false } fun cx => do
    let first := cx
    let (v, cx) ← if cx.sp.serial.isSome then .ok (cx.tile t.toNat, cx) else cx.ownTile t.toNat
    cx.need (v.admits true) .tileState
    let cx ← if cx.sp.serial.isSome then .ok cx else first.commitTile cx
    if cx.st.isReplay then .ok cx
    else if cx.tileBusy t.toNat then .error (.wait { cx with sp := { cx.sp with serial := some cx.st.stamp } } (.tile t.toNat))
    else .ok (cx.setTile t.toNat false { v with st := .empty, part := false })

/-- The memory matrix of a fill or drain (R152): its rows, and the bytes of a row. -/
def Tile.matrix (t : Tile) (tr : Bool) : Nat × Nat :=
  if tr then (t.cols, t.rows * t.width) else (t.rows, t.cols * t.width)

/-- Blocks across a matrix of `mb` bytes a row, and down one of `mr` rows. -/
def blocks (n : Nat) : Nat := (n + 31) / 32

/-- The bytes of sector i of a fill or drain, in increasing address: each byte's offset from the sector's address, and
its offset in the Plaza (R152, R158). -/
def Tile.sector (t : Tile) (tr : Bool) (i : Nat) : List (Nat × Nat) :=
  let (mr, mb) := t.matrix tr
  let nb := blocks mb
  let e := t.width
  (List.range 32).flatMap fun r =>
    (List.range 32).filterMap fun x =>
      let row := i / nb * 32 + r
      let byte := i % nb * 32 + x
      if row < mr ∧ byte < mb then
        let c := byte / e
        some (32 * r + x, (if tr then t.elem c row else t.elem row c) + byte % e)
      else none

/-- The sectors of a fill or drain. -/
def Tile.sectors (t : Tile) (tr : Bool) : Nat :=
  let (mr, mb) := t.matrix tr
  blocks mr * blocks mb

/-- The generic address of sector i (R152). -/
def Tile.sectorAddr (t : Tile) (tr : Bool) (base : Addr) (stride : Word) (i : Nat) : Addr :=
  let nb := blocks (t.matrix tr).2
  base + BitVec.ofNat 64 (i / nb * stride.toNat + i % nb * 1024)

/-- A fault at an address unless the condition holds. -/
def Cx.needAt (cx : Cx) (c : Bool) (f : FaultCode) (a : Addr) : Except Stop Unit := if c then .ok () else cx.stop (Exn.at f a)

/-- The address checks of TLD and TST (R152, R376), before any of its effects. -/
def Cx.checkSectors (cx : Cx) (t : Tile) (tr write : Bool) (base : Addr) (stride : Word) : Except Stop Unit := do
  let (mr, mb) := t.matrix tr
  cx.needAt (base.toNat % 1024 == 0 && stride.toNat % 1024 == 0) .alignment base
  cx.need (decide (mr ≤ 32 ∨ stride.toNat ≥ blocks mb * 1024)) .illegalOperand
  let last := fun i => ((t.sector tr i).getLast?.map (·.1)).getD 0
  let bad := (List.range (t.sectors tr)).find? fun i =>
    let a := t.sectorAddr tr base stride i
    apertureBad cx.la a || apertureBad cx.la (a + BitVec.ofNat 64 (last i)) || tagOf a == 2
  match bad with
  | some i => cx.stop (Exn.at .aperture (t.sectorAddr tr base stride i))
  | none => cx.needAt (!(write && tagOf base == 3)) .wsWrite base

/-- The sectors that translate, in increasing order, up to the first that does not (R165), and the errors met. A drain goes on past a
sector that another package does not answer (R271), whose bytes are lost. -/
def Cx.reachSectors (cx : Cx) (t : Tile) (tr write : Bool) (base : Addr) (stride : Word) (o : Orient) :
    List Nat -> Cx × List (Nat × Place) × List (Nat × Exn)
  | [] => (cx, [], [])
  | i :: rest =>
    let a := t.sectorAddr tr base stride i
    match cx.reach (if write then .write else .read) false 1 o noLane a with
    | (.error e, cx) =>
      if write && e.link.isSome then
        let r := cx.reachSectors t tr write base stride o rest
        (r.1, r.2.1, (i, { e with addr := a }) :: r.2.2)
      else (cx, [], [(i, { e with addr := a })])
    | (.ok p, cx) =>
      if write && tagOf a == 0 && (t.sector tr i).any (fun b => cx.s.isSealed (a + BitVec.ofNat 64 b.1) 1) then
        (cx, [], [(i, Exn.at .permission a)])
      else
        let r := cx.reachSectors t tr write base stride o rest
        (r.1, (i, p) :: r.2.1, r.2.2)

/-- The column orientation of an element width (R156): COL4 also for the 8 bytes of a record that COLL combines, of which the rule names no
columns (DESIGN CHOICE, log 72). -/
def colOrient (e : Nat) : Orient := if e = 1 then .col1 else if e = 2 then .col2 else .col4

/-- Whether a tile's copy engine has room (R320). -/
def State.copyRoom (s : State) (cl core : Nat) : Bool :=
  decide ((s.ops.filter fun o =>
    (match s.stream? o.2.stream with
     | some st => st.cl == cl && st.core == core
     | none => false) &&
    (match o.2.kind with
     | .copy _ _ _ _ => true
     | .tileFill _ _ _ => o.2.flag.isSome
     | .tileDrain _ _ => true
     | _ => false)).length < Config.copySlots)

/-- Bytes in address order, as the granules of 8 bytes they touch. -/
def granules : List (Addr × Byte) -> List DigestRec
  | [] => []
  | e :: t =>
    let sh := e.1.toNat % 8
    let one : DigestRec := { a := granule e.1, data := e.2.setWidth 64 <<< (8 * sh), mask := (1 : BitVec 8) <<< sh,
                             kind := 0, sub := 0 }
    match granules t with
    | r :: rs => if r.a = one.a then { one with data := one.data ||| r.data, mask := one.mask ||| r.mask } :: rs
      else one :: r :: rs
    | [] => [one]

/-- The Plaza reads of an engine that a selected wave logs (R201, R376), one entry for each granule. -/
def Cx.logGranules (cx : Cx) (rs : List DigestRec) : Cx :=
  { cx with st := rs.foldl (fun st r => st.logInput 0 8 r.data) cx.st }

/-- The same reads of a replay, from its log. -/
def Cx.takeGranules (cx : Cx) : List DigestRec -> Except Stop (List DigestRec × Cx)
  | [] => .ok ([], cx)
  | r :: t => do
    let (v, cx) ← cx.takeLog 0
    let (rs, cx) ← cx.takeGranules t
    .ok ({ r with data := v } :: rs, cx)

/-- The bytes of reached sectors as the engine reads them for the wave: generic address, Plaza offset, byte. -/
def Cx.sectorBytes (cx : Cx) (t : Tile) (tr : Bool) (base : Addr) (stride : Word) (ps : List (Nat × Place)) :
    List (Addr × Nat × Byte) :=
  ps.flatMap fun p => (t.sector tr p.1).map fun b =>
    (t.sectorAddr tr base stride p.1 + BitVec.ofNat 64 b.1, b.2, cx.s.viewPlace cx.st (p.2.plus b.1))

/-- A key of the Plaza for an offset on the issuer's cluster. -/
def Cx.plazaKey (cx : Cx) (off : Nat) : Nat := 2 ^ 22 * cx.st.cl + off

/-- The first sector whose read meets an uncorrectable error (R266), or that another package does not answer (R271). -/
def Cx.badSector (cx : Cx) (t : Tile) (tr : Bool) (base : Addr) (stride : Word) (ps : List (Nat × Place))
    (errs : List (Nat × Exn)) : Option (Nat × Exn) :=
  let hit := ps.find? fun p => (t.sector tr p.1).any fun b => cx.badAt (p.2.plus b.1) 1
  match hit with
  | some p => some (p.1, Exn.ecc p.2.space.structure_ (t.sectorAddr tr base stride p.1))
  | none => errs.find? fun e => e.2.code == .eccUncorrectable

/-- The bits of sectors in DONE. -/
def doneBits (is : List Nat) : BitVec 16 := is.foldl (fun m i => m ||| ((1 : BitVec 16) <<< i)) 0

/-- TLD (R152, R165, R376): a fault in the middle leaves the tile FILLING and PARTIAL with the sectors before it. The
fill's bytes are read at issue and written at completion (DEDUCED, log 7). -/
def execTld (t : BitVec 5) (a : BitVec 7) (r f : BitVec 1) (s : State) : Host.Outcome State Fault Refusal :=
  issue s { Desc.split [(Opnd.srcS a).evenMany 3] with
      recomp := false, flag := some (f == 1), ok := decide (regNo a ≤ 60) } fun cx => do
    let first := cx
    let tr := r == 1
    let (v, cx) ← cx.ownTile t.toNat
    let base := cx.scalar64 (regNo a)
    let stride := cx.scalar (regNo a + 2)
    cx.checkSectors v tr false base stride
    let again := v.st == .filling && v.part && v.addr == base && v.stride == stride && v.tr == tr
    cx.need (v.st == .empty || again) .tileState
    cx.flagRoom (cx.flagOf (f == 1))
    if !cx.s.copyRoom cx.st.cl cx.st.core then .error (.hold .copySlot)
    let n := v.sectors tr
    let done := if again then v.done else 0
    let todo := (List.range n).filter fun i => !done.getLsbD i
    let cx ← cx.mapWs [base]
    let (cx, ps, errs) := cx.reachSectors v tr false base stride (if tr then colOrient v.width else .row) todo
    let ecc := cx.badSector v tr base stride ps errs
    let ps := match ecc with
      | some e => ps.filter fun p => decide (p.1 < e.1)
      | none => ps
    let bytes := cx.sectorBytes v tr base stride ps
    let cx := if cx.st.selected && tagOf base == 0 && bytes.any (fun b => !cx.la.sealedAt b.1 1) then
      { cx with st := { cx.st with unverif := true } } else cx
    let gs := if tagOf base = 1 then granules (bytes.map fun b => (b.1, b.2.2)) else []
    let err := if ecc.isSome then none else errs.head?
    let got := done ||| doneBits (ps.map (·.1))
    let fill := { v with st := .filling, done := got, nsec := n, addr := base, stride := stride, tr := tr, part := false }
    let part := { fill with part := true }
    let masked := fun (e : Exn) =>
      { e with mask := some (part.done.setWidth 96 ||| (BitVec.setWidth 96 (part.word cx.st.launch) <<< (32 : Nat))) }
    if cx.st.isReplay then do
      let (_, cx) ← cx.takeGranules gs
      match err with
      | some e => cx.stop (masked e.2)
      | none => .ok cx
    else
      let cx := cx.logGranules gs
      let out := bytes.map fun b => (cx.plazaKey b.2.1, b.2.2)
      match err with
      | some e =>
        let cx := cx.setTile t.toNat true part
        let cx := cx.onState fun s => s.engineWrite cx.st.launch cx.id cx.st.stamp
          (out.map fun b => ({ space := .plaza, key := b.1 }, b.2))
        if cx.st.faulting cx.sp.num then .error (.hold .otherFault)
        else .error (.after (first.refind cx e.2) (masked e.2))
      | none =>
        let cx := cx.setTile t.toNat true { fill with done := done }
        let op := { Op.blank cx (.tileFill t.toNat out 0) with trans := [(got.toNat, n)], fault := ecc.map (·.2) }
        cx.launchOp (cx.flagOf (f == 1)) op

/-- TST (R152, R376): the region commits, then the tile's bytes are read; they are written at completion. -/
def execTst (t : BitVec 5) (a : BitVec 7) (f : BitVec 1) (s : State) : Host.Outcome State Fault Refusal :=
  issue s { Desc.split [(Opnd.srcS a).evenMany 3] with
      recomp := false, commits := true, flag := some (f == 1), ok := decide (regNo a ≤ 60) } fun cx => do
    let first := cx
    let (v, cx) ← cx.ownTile t.toNat
    let base := cx.scalar64 (regNo a)
    let stride := cx.scalar (regNo a + 2)
    cx.checkSectors v false true base stride
    cx.need (v.admits false) .tileState
    if !cx.st.isReplay && cx.tileBusy t.toNat then .error (.hold (.tile t.toNat))
    cx.flagRoom (cx.flagOf (f == 1))
    if !cx.s.copyRoom cx.st.cl cx.st.core then .error (.hold .copySlot)
    let cx ← first.commitTile cx
    let n := v.sectors false
    let (cx, ps, errs) :=
      cx.reachSectors v false true base stride (if v.orient then colOrient v.width else .row) (List.range n)
    match errs.find? fun e => e.2.link.isNone with
    | some e =>
      if cx.st.faulting cx.sp.num then .error (.hold .otherFault)
      else .error (.after { first.refind cx e.2 with ckpt := false } e.2)
    | none =>
      let key := fun (b : Nat × Nat) => ({ space := .plaza, key := cx.plazaKey b.2 } : Place)
      let bad := ps.any fun p => (v.sector false p.1).any fun b => cx.badAt (key b) 1
      let out := ps.flatMap fun p => (v.sector false p.1).map fun b =>
        (v.sectorAddr false base stride p.1 + BitVec.ofNat 64 b.1, p.2.plus b.1, cx.s.viewPlace cx.st (key b))
      let gs := granules (out.map fun b => (b.1, b.2.2))
      if cx.st.isReplay then do
        let (gs, cx) ← cx.takeGranules gs
        .ok { cx with st := cx.st.fold gs }
      else
        let cx := cx.logGranules gs
        let cx := { cx with st := cx.st.fold gs }
        let cx := cx.setTile t.toNat false { v with st := .draining, done := 0, nsec := n }
        cx.launchOp (cx.flagOf (f == 1)) { Op.blank cx (.tileDrain t.toNat (if bad then [] else out.map (·.2))) with
          trans := ps.filterMap fun p =>
            let a := v.sectorAddr false base stride p.1
            if tagOf a = 0 then some (a.toNat / 4096, 4 * (p.2.key / 4096) + (if cx.cached .write a then 0 else 2)) else none,
          fault := if bad then some (Exn.ecc 3 base) else errs.head?.map (·.2) }

/-- TSTAT (R151, R377). -/
def execTstat (d : BitVec 7) (t : BitVec 5) (s : State) : Host.Outcome State Fault Refusal :=
  issue s (Desc.split [(Opnd.dstS d).pending]) fun cx => do
    let (v, cx) ← cx.ownTile t.toNat
    cx.writeS (regNo d) (v.word cx.st.launch)

/-- TWAIT (R377). -/
def execTwait (t : BitVec 5) (s : State) : Host.Outcome State Fault Refusal :=
  issue s (Desc.split []) fun cx => do
    let (v, cx) ← cx.ownTile t.toNat
    if !cx.st.isReplay ∧ (v.st = .draining ∨ (v.st = .filling ∧ !v.part)) then .error (.hold (.tile t.toNat)) else .ok cx

/-- WSREF (R147, R148): the clocks left in the phase are a free value (DESIGN CHOICE, log 9). -/
def execWsref (d a : BitVec 7) (s : State) : Host.Outcome State Fault Refusal :=
  issue s (Desc.split [(Opnd.srcS a).pair, (Opnd.dstS d).pending]) fun cx => do
    let x := (cx.scalar64 (regNo a)).toNat
    must (decide (x / 2 ^ 60 = 3 ∧ bits x 59 54 = 0 ∧ bits x 51 28 = 0)) .illegalOperand
    let bank := bits x 14 10
    if cx.la.det then cx.writeS (regNo d) (BitVec.ofNat 32 bank)
    else
      let remain := (Config.freeWord cx.s.fresh).toNat % 8192
      let phase := Sp.get 0 cx.s.wsPhase (bits x 53 52)
      { cx with s := cx.s.bump }.writeS (regNo d) (BitVec.ofNat 32 (remain * 65536 + phase % 32 * 256 + bank))

end Sys2Proof.Machine
end

