-- ==== Sys2Proof/Machine/Copy.lean ====
section
/-! DEFINITION. Shape records and handles (R166), bulk copies (R79-R81, R165, R318-R320) and the copy-queue barrier. -/

namespace Sys2Proof.Machine

/-- A little-endian field of a record's bytes. -/
def fieldAt (b : Nat -> Nat) (o : Nat) : Nat -> Nat
  | 0 => 0
  | n + 1 => b o + 256 * fieldAt b (o + 1) n

/-- The shape of a slot's bytes, beside its generation; none for a malformed slot (R166). -/
def parseShape (b : Nat -> Nat) : Nat × Option Shape :=
  let gen := fieldAt b 8 2
  let e := b 0x0A
  let form := b 0x0B
  let nd := form % 8
  let lay := form / 8 % 4
  let dim := fun k => fieldAt b (0x0C + 4 * k) 4
  let stride := fun k => fieldAt b (0x20 + 8 * (k - 1)) 8
  let base := fieldAt b 0 8
  let used := (List.range 5).filter (· < nd)
  let bad := gen / 4096 ≠ 0 ∨ e ≥ 64 ∨ (Ty.ofCode (BitVec.ofNat 6 e)).isNone ∨ form / 32 ≠ 0 ∨ nd = 0 ∨ nd > 5 ∨ lay = 3
    ∨ used.any (fun k => dim k == 0) ∨ ((List.range 5).filter (nd ≤ ·)).any (fun k => dim k != 0)
    ∨ ([1, 2, 3, 4].filter (nd ≤ ·)).any (fun k => stride k != 0)
    ∨ (lay ≠ 0 ∧ (base % 1024 ≠ 0 ∨ stride 1 % 1024 ≠ 0))
  (gen % 4096,
   if bad then none
   else some { base := BitVec.ofNat 64 base, etype := BitVec.ofNat 6 e, ndim := nd, layout := lay, dims := used.map dim,
               strides := [1, 2, 3, 4].map stride })

/-- Resolves a handle (R166): a privileged read of its slot, through a row line and with the issuer's own stores visible (R179), then
STALE_HANDLE, then ILLEGAL_OPERAND. -/
def Cx.handle (cx : Cx) (h : Word) : Except Stop (Shape × Cx) := do
  let slot := h.toNat % 2 ^ 20
  cx.need (decide (slot < cx.s.shapeCnt.toNat)) .staleHandle
  let a := cx.s.shapeBase + BitVec.ofNat 64 (64 * slot)
  if a.toNat / 2 ^ 57 ≠ 0 then cx.stop (Exn.at .aperture a)
  if a.toNat % 8 ≠ 0 then cx.stop (Exn.at .alignment a)
  match cx.s.translate (cx.s.whoOf cx.st) a .read false with
  | (.error e, s) => Cx.stop { cx with s := s } e
  | (.ok (pa, policy), s) =>
    let p : Place := { space := .phys, key := s.canon pa }
    match ({ cx with s := s } : Cx).touch .read true 64 .row a p policy with
    | (.error e, cx) => cx.stop e
    | (.ok p, cx) =>
      let r := parseShape fun i => (cx.s.viewPlace cx.st (p.plus i)).toNat
      cx.need (r.1 == h.toNat / 2 ^ 20) .staleHandle
      match r.2 with
      | none => cx.failAt .illegalOperand
      | some sh => .ok (sh, cx)

/-- Bytes of a shape's element. -/
def Shape.width (s : Shape) : Nat := ((Ty.ofCode s.etype).getD .f32).width / 8

/-- Every index of a shape in increasing linear order, dimension 0 fastest (R319). -/
def indices : List Nat -> List (List Nat)
  | [] => [[]]
  | d :: ds => (indices ds).flatMap fun t => (List.range d).map (· :: t)

/-- The byte offset of the dimensions from `k` on. -/
def strideSum (strides : List Nat) : Nat -> List Nat -> Nat
  | _, [] => 0
  | k, i :: t => i * nth 0 strides (k - 1) + strideSum strides (k + 1) t

/-- Elem of R319. -/
def Shape.elem (s : Shape) (i : List Nat) : Addr :=
  let e := s.width
  let i0 := nth 0 i 0
  s.base + BitVec.ofNat 64
    (if s.layout = 0 then i0 * e + strideSum s.strides 1 (i.drop 1)
     else
      let r := nth 0 i 1
      r / 32 * nth 0 s.strides 0 + i0 * e / 32 * 1024 + r % 32 * 32 + i0 * e % 32 + strideSum s.strides 2 (i.drop 2))

/-- The addresses of a shape's elements, in order. -/
def Shape.elems (s : Shape) : List Addr := (indices s.dims).map s.elem

/-- The lines a shape's accesses use (R156): column lines in the column layout. -/
def Shape.orient (s : Shape) : Orient := if s.layout = 2 then colOrient s.width else .row

/-- The address checks of a shaped access over every element (R142, R145, R146, R319). -/
def Cx.checkElems (cx : Cx) (e : Nat) (as : List Addr) : Except Stop Unit :=
  match as.find? fun a => apertureBad cx.la a || tagOf a == 2 with
  | some a => cx.stop (Exn.at .aperture a)
  | none =>
    match as.find? fun a => a.toNat % e != 0 with
    | some a => cx.stop (Exn.at .alignment a)
    | none => .ok ()

/-- The pages of global addresses, ascending, each with its lowest address. -/
def pagesOf (as : List Addr) : List (Nat × Addr) :=
  as.foldl (fun m a =>
    if tagOf a = 0 then
      match Tab.get? m (a.toNat / 4096) with
      | some b => if a.toNat < b.toNat then Tab.put m (a.toNat / 4096) a else m
      | none => Tab.put m (a.toNat / 4096) a
    else m) []

/-- Translates the pages of an extent in increasing address order (R165): for each page, 4 times its frame plus its cache policy. The
engine's own accesses come later (R320). -/
def Cx.translatePages (cx : Cx) (acc : Acc) : List (Nat × Addr) -> Except Stop (List (Nat × Nat) × Cx)
  | [] => .ok ([], cx)
  | (pg, a) :: t =>
    match cx.locate acc 1 noLane a with
    | (.error e, cx) => cx.stop e
    | (.ok (p, policy), cx) =>
      (cx.translatePages acc t).map fun r => ((pg, 4 * (p.key / 4096) + min policy 3) :: r.1, r.2)

/-- The place of a generic address under an engine's own translations. -/
def enginePlace (cl : Nat) (trans : List (Nat × Nat)) (a : Addr) : Place :=
  let v := a.toNat
  match tagOf a with
  | 0 => { space := .phys, key := (Tab.get? trans (v / 4096)).getD 0 / 4 * 4096 + v % 4096 }
  | 1 => { space := .plaza, key := 2 ^ 22 * (if bits v 59 52 = 0xFF then cl else bits v 59 52) + bits v 21 0 }
  | _ => { space := .ws, key := 2 ^ 28 * bits v 53 52 + bits v 27 0 }

/-- An engine's access to `n` bytes (R266, R271): its error, if it meets one; else the sector turned (R157) and the BUS record
(R267). -/
def State.engineTouch (s : State) (sid : Nat) (st : Stream) (write : Bool) (o : Orient) (n : Nat) (trans : List (Nat × Nat))
    (a : Addr) : Option Exn × State :=
  let p := enginePlace st.cl trans a
  let s' := if p.space = .phys then
      (s.turn p.key ((Tab.get? trans (a.toNat / 4096)).getD 0 % 4) o).busCheck (s.whoOf st) write p.key
    else s
  if p.space == .phys && s.linkFault p.key then (some (s.accessError p.key a), s)
  else if !write && s.badFor sid st p n then (some (Exn.ecc p.space.structure_ a), s')
  else (none, s')

/-- The accesses of an engine to elements of `n` bytes, up to the first that meets an error: how many it made, and that error. -/
def State.engineTouches (s : State) (sid : Nat) (st : Stream) (write : Bool) (o : Orient) (n : Nat)
    (trans : List (Nat × Nat)) : List Addr -> Nat × Option Exn × State
  | [] => (0, none, s)
  | a :: t =>
    match s.engineTouch sid st write o n trans a with
    | (some e, s) => (0, some e, s)
    | (none, s) =>
      let r := s.engineTouches sid st write o n trans t
      (r.1 + 1, r.2)

/-- A generic address with the issuer's own cluster by its rank, so that extents compare. -/
def Cx.plain (cx : Cx) (a : Addr) : Nat :=
  let v := a.toNat
  if tagOf a = 1 ∧ bits v 59 52 = 0xFF then v - 0xFF * 2 ^ 52 + 2 ^ 52 * cx.st.cl else v

/-- The extent of element addresses: its lowest and highest byte. -/
def extent (e : Nat) : List Nat -> Nat × Nat
  | [] => (1, 0)
  | a :: t => t.foldl (fun x b => (min x.1 b, max x.2 (b + e - 1))) (a, a + e - 1)

/-- Whether two extents share a byte. -/
def meets (a b : Nat × Nat) : Bool := decide (a.1 ≤ b.2 ∧ b.1 ≤ a.2)

/-- Whether a later barrier of a core covers both queues (R81). -/
def barred (core q r : Nat) (after : List CopyItem) : Bool :=
  after.any fun i => match i with
    | .barrier c m => c == core && m.getLsbD q && m.getLsbD r
    | .copy _ _ _ => false

/-- A core's number in the package. -/
def Stream.coreNo (st : Stream) : Nat := st.cl * 4 + st.core

/-- The launch and the destination extent of a copy in flight. -/
def State.copyExtent (s : State) (n : Nat) : Nat × Nat × Nat :=
  match s.op? n with
  | some o =>
    (match o.kind, s.stream? o.stream with
     | .copy _ _ dst _, some st =>
       (st.launch, extent dst.width (dst.elems.map fun a =>
         let v := a.toNat
         if tagOf a = 1 ∧ bits v 59 52 = 0xFF then v - 0xFF * 2 ^ 52 + 2 ^ 52 * st.cl else v))
     | _, _ => (0, 1, 0))
  | none => (0, 1, 0)

/-- Whether two extents of destinations share a byte: the Plaza bytes of two launches are not the same (R144). -/
def meetsOf (same : Bool) (a b : Nat × Nat) : Bool :=
  meets a b && (same || !decide (2 ^ 60 ≤ max a.1 b.1 ∧ min a.2 b.2 < 2 ^ 61))

/-- COPY_OVERLAP in FREE (R81): a copy in flight in another queue of the core that no barrier separates. -/
def State.overlapFree (s : State) (launch core q : Nat) (x : Nat × Nat) : List CopyItem -> Bool
  | [] => false
  | .barrier _ _ :: t => s.overlapFree launch core q x t
  | .copy n c r :: t =>
    let y := s.copyExtent n
    (c == core && r != q && !barred core q r t && meetsOf (y.1 == launch) x y.2) || s.overlapFree launch core q x t

/-- The code of a CQBAR in a launch's overlap record. -/
def barCode (m : BitVec 8) : Nat := 256 + m.toNat

/-- COPY_OVERLAP in DET (R81): a copy that the same wave issued, whether or not it has completed. An entry is the stream,
the queue or barrier code with its region, and the extent. Only the wave's own CQBARs separate its copies, so that the outcome does not
depend on timing (DESIGN CHOICE, log 60). -/
def overlapDet (sid q : Nat) (x : Nat × Nat) : List (Nat × Nat × Nat × Nat) -> Bool
  | [] => false
  | e :: t =>
    let r := e.2.1 % 1024
    let sep := t.any fun f => f.1 == sid && decide (f.2.1 % 1024 ≥ 256) && bit (f.2.1 % 1024) q && bit (f.2.1 % 1024) r
    (e.1 == sid && decide (r < 8) && r != q && !sep && meets x e.2.2) || overlapDet sid q x t

/-- CPY (R79-R81, R319, R320). It maps the weight stores that it reads only once its whole extent has translated, since no byte moves before
(R146, R165). -/
def execCpy (d a : BitVec 7) (q : BitVec 3) (f : BitVec 1) (s : State) : Host.Outcome State Fault Refusal :=
  issue s { Desc.split [.srcS a, .srcS d] with recomp := false, flag := some (f == 1) } fun cx => do
    let (ha, cx) ← cx.readS (regNo a)
    let (hd, cx) ← cx.readS (regNo d)
    let (src, cx) ← cx.handle ha
    let (dst, cx) ← cx.handle hd
    cx.need (src.etype == dst.etype && src.ndim == dst.ndim && src.dims == dst.dims) .illegalOperand
    cx.need (!(src.ndim == 1 && (src.layout != 0 || dst.layout != 0))) .illegalOperand
    let e := src.width
    let sa := src.elems
    let da := dst.elems
    cx.checkElems e sa
    cx.checkElems e da
    let dies := (List.range 4).filter fun d => da.any fun a => tagOf a == 3 && bits a.toNat 53 52 == d
    cx.need (!(dies.any fun d => cx.s.launches.any fun l => l.2.wsMaps.contains d)) .wsWrite
    cx.need (dies.isEmpty || !cx.la.det) .detViolation
    let core := cx.st.coreNo
    let x := extent e (da.map cx.plain)
    cx.need (!(if cx.la.det then overlapDet cx.id q.toNat x cx.la.overlap
      else cx.s.overlapFree cx.st.launch core q.toNat x cx.s.copyq)) .copyOverlap
    cx.flagRoom (cx.flagOf (f == 1))
    if !cx.s.copyRoom cx.st.cl cx.st.core then .error (.hold .copySlot)
    let (m1, cx) ← cx.translatePages .read (pagesOf sa)
    let (m2, cx) ← cx.translatePages .write (pagesOf da)
    match da.find? fun a => tagOf a == 0 && cx.s.isSealed a e with
    | some a => cx.stop (Exn.at .permission a)
    | none =>
      let cx ← cx.mapWs (sa.filter fun a => tagOf a == 3)
      if cx.st.isReplay then .ok cx
      else
        let n := cx.s.nextId
        let trans := m2.foldl (fun m p => Tab.put m p.1 p.2) (m1.foldl (fun m p => Tab.put m p.1 p.2) [])
        let op := { Op.blank cx (.copy q.toNat src dst dies) with trans := trans }
        let cx ← cx.launchOp (cx.flagOf (f == 1)) op
        let s := { cx.s with copyq := cx.s.copyq ++ [.copy n core q.toNat] }
        let s := if cx.la.det then s.onLaunch cx.st.launch fun la =>
            { la with overlap := la.overlap ++ [(cx.id, q.toNat + 1024 * cx.st.region, x.1, x.2)] } else s
        .ok { cx with s := s }

/-- CQBAR (R80): a barrier in every masked queue of the core; a mask of 0 has no effect. -/
def execCqbar (a : BitVec 7) (s : State) : Host.Outcome State Fault Refusal :=
  issue s { Desc.split [.srcS a] with recomp := false } fun cx => do
    let (x, cx) ← cx.readS (regNo a)
    cx.need (decide (x.toNat < 256)) .illegalOperand
    if x = 0 ∨ cx.st.isReplay then .ok cx
    else
      let m := BitVec.ofNat 8 x.toNat
      let s := { cx.s with copyq := cx.s.copyq ++ [.barrier cx.st.coreNo m] }
      let s := if cx.la.det then s.onLaunch cx.st.launch fun la =>
          { la with overlap := la.overlap ++ [(cx.id, barCode m + 1024 * cx.st.region, 0, 0)] } else s
      .ok { cx with s := s }

/-- Whether a copy may complete (R79, R80): none before it in its queue, and no barrier before it over its queue that has
copies before it in a masked queue. -/
def mayComplete (n core q : Nat) (seen : List CopyItem) : List CopyItem -> Bool
  | [] => false
  | .copy m c r :: t =>
    if m = n then true
    else if c = core ∧ r = q then false
    else mayComplete n core q (seen ++ [.copy m c r]) t
  | .barrier c mk :: t =>
    if c = core ∧ mk.getLsbD q ∧ seen.any (fun i => match i with
      | .copy _ k r => k == core && mk.getLsbD r
      | .barrier _ _ => false) then false
    else mayComplete n core q (seen ++ [.barrier c mk]) t

/-- Drops a completed copy, and barriers at the front that order nothing more. -/
def dropCopy (n : Nat) (l : List CopyItem) : List CopyItem :=
  let l := l.filter fun i => match i with
    | .copy m _ _ => m != n
    | .barrier _ _ => true
  l.dropWhile fun i => match i with
    | .copy _ _ _ => false
    | .barrier _ _ => true

end Sys2Proof.Machine
end

