-- ==== Sys2Proof/Machine/Scalar.lean ====
section
/-! DEFINITION. The scalar instructions (class 0x1, R104, R356-R358). -/

namespace Sys2Proof.Machine

/-- A scalar instruction of two sources: A is read, then B, and D is written (R357). -/
def scalar2 (s : State) (d a b : BitVec 7) (f : Word -> Word -> Word) : Host.Outcome State Fault Refusal :=
  issue s (Desc.split [.srcS a, .srcS b, .dstS d]) fun cx => do
    let (x, cx) ← cx.readS (regNo a)
    let (y, cx) ← cx.readS (regNo b)
    cx.writeS (regNo d) (f x y)

/-- A scalar instruction of one source. -/
def scalar1 (s : State) (d a : BitVec 7) (f : Word -> Word) : Host.Outcome State Fault Refusal :=
  issue s (Desc.split [.srcS a, .dstS d]) fun cx => do
    let (x, cx) ← cx.readS (regNo a)
    cx.writeS (regNo d) (f x)

/-- Whether a < b, signed or unsigned (R357). -/
def wordLt (uns : Bool) (a b : Word) : Bool := if uns then a.ult b else a.slt b

/-- The number of leading zeros of the low `w` bits of `x`. -/
def leadZeros (w x : Nat) : Nat := if x = 0 then w else w - 1 - Nat.log2 x

/-- The number of set bits among the low `w` bits of `x`. -/
def setBits (w x : Nat) : Nat := ((List.range w).map fun i => b2n (bit x i)).sum

/-- The field extraction of R358; none when the field word breaks its rule. -/
def fieldOf (sx : Bool) (a b : Word) : Option Word :=
  let n := b.toNat
  let p := n % 32
  let w := if bits n 12 8 = 0 then 32 else bits n 12 8
  if bits n 31 13 ≠ 0 ∨ bits n 7 5 ≠ 0 ∨ p + w > 32 then none
  else some (BitVec.ofInt 32 (intOf w sx (a.toNat / 2 ^ p)))

/-- SADD (R357). -/
def execSadd (d a b : BitVec 7) (s : State) : Host.Outcome State Fault Refusal := scalar2 s d a b (· + ·)

/-- SADDI (R357): a mapped port pops, and then receives the result. -/
def execSaddi (sr : BitVec 6) (i : BitVec 16) (s : State) : Host.Outcome State Fault Refusal :=
  issue s (Desc.split [(Opnd.srcS (scalarCode sr)).both]) fun cx => do
    let (x, cx) ← cx.readS sr.toNat
    cx.writeS sr.toNat (x + i.signExtend 32)

/-- SADDX (R357): 64-bit addition of pairs. -/
def execSaddx (d a b : BitVec 7) (s : State) : Host.Outcome State Fault Refusal :=
  issue s (Desc.split [(Opnd.srcS a).pair, (Opnd.srcS b).pair, (Opnd.dstS d).pair]) fun cx =>
    cx.writeS64 (regNo d) (cx.scalar64 (regNo a) + cx.scalar64 (regNo b))

/-- SAND (R357). -/
def execSand (d a b : BitVec 7) (s : State) : Host.Outcome State Fault Refusal := scalar2 s d a b (· &&& ·)

/-- SBFX (R358). -/
def execSbfx (d a b : BitVec 7) (x : BitVec 1) (s : State) : Host.Outcome State Fault Refusal :=
  issue s (Desc.split [.srcS a, .srcS b, .dstS d]) fun cx => do
    let (u, cx) ← cx.readS (regNo a)
    let (v, cx) ← cx.readS (regNo b)
    match fieldOf (x == 1) u v with
    | none => cx.failAt .illegalOperand
    | some r => cx.writeS (regNo d) r

/-- SCLZ (R357). -/
def execSclz (d a : BitVec 7) (s : State) : Host.Outcome State Fault Refusal :=
  scalar1 s d a fun x => BitVec.ofNat 32 (leadZeros 32 x.toNat)

/-- SCMP (R357). -/
def execScmp (d a b : BitVec 7) (x : BitVec 1) (s : State) : Host.Outcome State Fault Refusal :=
  scalar2 s d a b fun u v => if wordLt (x == 1) u v then 0xFFFFFFFF else if u = v then 0 else 1

/-- SLIH (R357): the high half is replaced. -/
def execSlih (sr : BitVec 6) (i : BitVec 16) (s : State) : Host.Outcome State Fault Refusal :=
  issue s (Desc.split [(Opnd.srcS (scalarCode sr)).both]) fun cx => do
    let (x, cx) ← cx.readS sr.toNat
    cx.writeS sr.toNat (i ++ x.extractLsb' 0 16)

/-- SLIL (R357): reads nothing. -/
def execSlil (sr : BitVec 6) (i : BitVec 16) (s : State) : Host.Outcome State Fault Refusal :=
  issue s (Desc.split [.dstS (scalarCode sr)]) fun cx => cx.writeS sr.toNat (i.setWidth 32)

/-- SMAX (R357). -/
def execSmax (d a b : BitVec 7) (x : BitVec 1) (s : State) : Host.Outcome State Fault Refusal :=
  scalar2 s d a b fun u v => if wordLt (x == 1) u v then v else u

/-- SMIN (R357). -/
def execSmin (d a b : BitVec 7) (x : BitVec 1) (s : State) : Host.Outcome State Fault Refusal :=
  scalar2 s d a b fun u v => if wordLt (x == 1) v u then v else u

/-- SMOV (R357). -/
def execSmov (d a : BitVec 7) (s : State) : Host.Outcome State Fault Refusal := scalar1 s d a fun x => x

/-- SMUL (R357). -/
def execSmul (d a b : BitVec 7) (s : State) : Host.Outcome State Fault Refusal := scalar2 s d a b (· * ·)

/-- SMULH (R357). -/
def execSmulh (d a b : BitVec 7) (x : BitVec 1) (s : State) : Host.Outcome State Fault Refusal :=
  scalar2 s d a b fun u v =>
    if x = 1 then BitVec.ofNat 32 (u.toNat * v.toNat / 2 ^ 32) else BitVec.ofInt 32 (u.toInt * v.toInt / 2 ^ 32)

/-- SOR (R357). -/
def execSor (d a b : BitVec 7) (s : State) : Host.Outcome State Fault Refusal := scalar2 s d a b (· ||| ·)

/-- SPOPC (R357). -/
def execSpopc (d a : BitVec 7) (s : State) : Host.Outcome State Fault Refusal :=
  scalar1 s d a fun x => BitVec.ofNat 32 (setBits 32 x.toNat)

/-- SSEL (R357): D is read last, and may be no mapped port. -/
def execSsel (d a b : BitVec 7) (s : State) : Host.Outcome State Fault Refusal :=
  issue s (Desc.split [.srcS a, .srcS b, (Opnd.dstS d).both.pending]) fun cx => do
    let (x, cx) ← cx.readS (regNo a)
    let (y, cx) ← cx.readS (regNo b)
    let (z, cx) ← cx.readS (regNo d)
    cx.writeS (regNo d) (if z ≠ 0 then x else y)

/-- SSHL (R357). -/
def execSshl (d a b : BitVec 7) (s : State) : Host.Outcome State Fault Refusal :=
  scalar2 s d a b fun u v => u <<< (v.toNat % 32)

/-- SSHR (R357). -/
def execSshr (d a b : BitVec 7) (s : State) : Host.Outcome State Fault Refusal :=
  scalar2 s d a b fun u v => u >>> (v.toNat % 32)

/-- SSRA (R357). -/
def execSsra (d a b : BitVec 7) (s : State) : Host.Outcome State Fault Refusal :=
  scalar2 s d a b fun u v => u.sshiftRight (v.toNat % 32)

/-- SSUB (R357). -/
def execSsub (d a b : BitVec 7) (s : State) : Host.Outcome State Fault Refusal := scalar2 s d a b (· - ·)

/-- SXOR (R357). -/
def execSxor (d a b : BitVec 7) (s : State) : Host.Outcome State Fault Refusal := scalar2 s d a b (· ^^^ ·)

end Sys2Proof.Machine
end

