-- ==== Sys2Proof/Machine/Vector.lean ====
section
/-! DEFINITION. The vector integer instructions (class 0x2, R105, R380-R385), and the trap-frame moves (R260). -/

namespace Sys2Proof.Machine

/-- The signedness of an integer type. -/
def Ty.signed : Ty -> Bool
  | .int _ s => s
  | .f32 | .f16 | .bf16 | .f64 | .lns | .b8 _ _ _ => false

/-- The signed or unsigned value of an element. -/
def Ty.toInt (t : Ty) (x : Nat) : Int := intOf t.width t.signed x

/-- A result that wraps or saturates (R382). -/
def satInt (f : Int -> Int -> Int -> Int) (t : Ty) (r : Rounding) (a b d : Nat) : Flagged :=
  clampInt t.width t.signed r.sat (f (t.toInt a) (t.toInt b) (t.toInt d))

/-- A result taken modulo 2^w. -/
def wrapNat (f : Nat -> Nat -> Nat -> Nat) (t : Ty) (_ : Rounding) (a b _ : Nat) : Flagged :=
  (f t.width a b % 2 ^ t.width, 0)

/-- VABS (R382). -/
def execVabs (d a : BitVec 7) (s : State) : Host.Outcome State Fault Refusal :=
  elemOp1 s d a Ty.isInt fun t r x => clampInt t.width t.signed r.sat (t.toInt x).natAbs

/-- VADD (R382). -/
def execVadd (d a b : BitVec 7) (s : State) : Host.Outcome State Fault Refusal :=
  elemOp s d a b false Ty.isInt (satInt fun x y _ => x + y)

/-- VADDI (R382). -/
def execVaddi (d a : BitVec 7) (i : BitVec 8) (s : State) : Host.Outcome State Fault Refusal :=
  elemOp1 s d a Ty.isInt fun t r x => clampInt t.width t.signed r.sat (t.toInt x + i.toInt)

/-- VAND (R382). -/
def execVand (d a b : BitVec 7) (s : State) : Host.Outcome State Fault Refusal :=
  rawOp s d a b false fun x y _ => x &&& y

/-- VBFX (R382): the field word of a lane that breaks R358 raises ILLEGAL_OPERAND before any effect. -/
def execVbfx (d a b : BitVec 7) (x : BitVec 1) (s : State) : Host.Outcome State Fault Refusal :=
  issue s (Desc.lane [.src a, .src b, .dstV d]) fun cx => do
    must s.issueTy.isInt .illegalOperand
    let (u, cx) ← cx.source a
    let (v, cx) ← cx.source b
    let res := fun l => fieldOf (x == 1) (cx.laneOf a u l) (cx.laneOf b v l)
    cx.need ((lanesOf cx.part).all fun l => (res l).isSome) .illegalOperand
    .ok (cx.writeLanes d.toNat fun l => ([(res l).getD 0], 0))

/-- VCLZ (R382). -/
def execVclz (d a : BitVec 7) (s : State) : Host.Outcome State Fault Refusal :=
  elemOp1 s d a Ty.isInt fun t _ x => (leadZeros t.width x, 0)

/-- An integer condition of R108. -/
def intCond (c : Nat) (x y : Int) : Bool :=
  match c with
  | 0 => x == y
  | 1 => x != y
  | 2 => decide (x < y)
  | 3 => decide (x ≤ y)
  | 4 => decide (x > y)
  | _ => decide (x ≥ y)

/-- VCMP (R383). -/
def execVcmp (p : BitVec 3) (c : BitVec 4) (a b : BitVec 7) (s : State) : Host.Outcome State Fault Refusal :=
  compareOp s p a b (decide (c.toNat < 6)) Ty.isInt fun t _ x y => (intCond c.toNat (t.toInt x) (t.toInt y), 0)

/-- The conversion of one element from type `f` to type `t` (R131). -/
def convertElem (f t : Ty) (r : Rounding) (x : Nat) : Flagged :=
  match f, t with
  | .int w sg, .int v sd => clampInt v sd r.sat (intOf w sg x)
  | _, _ =>
    let n := elemValue f r.ftz x
    let (c, fl) := convertNum t r n
    (c, fl ||| ivIf n.isSig)

/-- VCVT (R132, R384): the sub-elements read and written by the ratio of the widths; no half is selected where that is 4 or
more, which is ILLEGAL_OPERAND whatever X. -/
def execVcvt (d a : BitVec 7) (e : BitVec 6) (x : BitVec 1) (s : State) : Host.Outcome State Fault Refusal :=
  let t := s.issueTy
  let f := (Ty.ofCode e).getD .f32
  let half := x.toNat
  let near := decide (t.width ≤ 2 * f.width ∧ f.width ≤ 2 * t.width)
  let halved := t.width ≠ f.width ∧ t.width < 64 ∧ f.width < 64
  let kept := decide (t.width < f.width ∧ f.width < 64)
  let dd := (Opnd.dstV d).under t
  issue s { Desc.lane [(Opnd.src a).under f, if kept then dd.both else dd] with
      legal := (Ty.ofCode e).isSome && (x == 0 || decide halved || !near) } fun cx => do
    must (f != .lns && t != .lns && near) .illegalOperand
    let (u, cx) ← cx.source a
    .ok (cx.writeLanes d.toNat fun l =>
      let av := cx.laneNat (f.width == 64) a u l
      let n := min f.count t.count
      let from_ := if t.width > f.width ∧ t.width < 64 then n * half else 0
      let tb := if kept then n * half else 0
      let r := packElems t.width n fun i => convertElem f t (cx.rounding l (i + tb)) (subElem f.width (i + from_) av)
      let old := (cx.vec d.toNat l).toNat
      let v := if kept then (List.range n).foldl (fun o i => setElem t.width (i + tb) o (subElem t.width i r.1)) old
        else r.1
      (wordsOf (t.width == 64) v, r.2))

/-- Whether a vector register lies in the window of the issuing wave (R43); a register of an interrupted frame has the
same limit (R260). -/
def State.inWindow (s : State) (c : BitVec 7) : Bool :=
  s.issueHas fun cx => decide (c.toNat < windowOf cx.st.vis.allot)

/-- VLANE (R385): once per split, whatever the lane's state. -/
def execVlane (d a : BitVec 7) (i : BitVec 8) (s : State) : Host.Outcome State Fault Refusal :=
  issue s { Desc.split [.dstS d] with
      mcc := false, legal := decide (i.toNat < 96), ok := isVec a, regOk := s.inWindow a,
      free := s.issueHas fun cx => !cx.pendingV (cx.sp.winbase + a.toNat) (maskOf fun l => l == i.toNat) } fun cx => do
    if cx.badEntry (cx.sp.winbase + a.toNat) i.toNat then cx.stop (Exn.ecc 6 0)
    cx.writeS (regNo d) (cx.anyLane a.toNat i.toNat)

/-- VMAD (R382). -/
def execVmad (d a b : BitVec 7) (s : State) : Host.Outcome State Fault Refusal :=
  elemOp s d a b true Ty.isInt (satInt fun x y z => x * y + z)

/-- VMAX (R382). -/
def execVmax (d a b : BitVec 7) (s : State) : Host.Outcome State Fault Refusal :=
  elemOp s d a b false Ty.isInt (satInt fun x y _ => max x y)

/-- VMIN (R382). -/
def execVmin (d a b : BitVec 7) (s : State) : Host.Outcome State Fault Refusal :=
  elemOp s d a b false Ty.isInt (satInt fun x y _ => min x y)

/-- VMOV (R382). -/
def execVmov (d a : BitVec 7) (s : State) : Host.Outcome State Fault Refusal :=
  issue s (Desc.lane [.src a, .dstV d]) fun cx => do
    let (x, cx) ← cx.source a
    .ok (cx.writeLanes d.toNat fun l => ([cx.laneOf a x l], 0))

/-- The window base of the interrupted frame (R258, R260). -/
def Cx.frameBase (cx : Cx) : Nat := cx.sp.winbase - (unwindTrap cx.sp.linkage).1

/-- VMOV.FRM (R260): from the interrupted frame into the handler's register, in trap mode alone. -/
def execVmovFrm (d a : BitVec 7) (s : State) : Host.Outcome State Fault Refusal :=
  issue s { Desc.lane [.dstV d] with
      legal := s.issueHas fun cx => cx.sp.inTrap, ok := isVec a, regOk := s.inWindow a,
      free := s.issueHas fun cx => !cx.pendingV (cx.frameBase + a.toNat) cx.part } fun cx => do
    cx.sound (cx.badEntry (cx.frameBase + a.toNat))
    .ok (cx.writeLanes d.toNat fun l => ([cx.st.vreg (cx.frameBase + a.toNat) l], 0))

/-- VMOV.TO (R260): from the handler's register into the interrupted frame, in trap mode alone. -/
def execVmovTo (d a : BitVec 7) (s : State) : Host.Outcome State Fault Refusal :=
  issue s { Desc.lane [.srcV a] with
      legal := s.issueHas fun cx => cx.sp.inTrap, ok := isVec d, regOk := s.inWindow d,
      free := s.issueHas fun cx => !cx.pendingV (cx.frameBase + d.toNat) cx.part } fun cx =>
    .ok ((lanesOf cx.part).foldl
      (fun c l => { c with st := c.st.setVreg (cx.frameBase + d.toNat) l (cx.vec a.toNat l) }) cx)

/-- VMUL (R382). -/
def execVmul (d a b : BitVec 7) (s : State) : Host.Outcome State Fault Refusal :=
  elemOp s d a b false Ty.isInt (satInt fun x y _ => x * y)

/-- VMULH (R382). -/
def execVmulh (d a b : BitVec 7) (s : State) : Host.Outcome State Fault Refusal :=
  elemOp s d a b false Ty.isInt fun t _ x y _ =>
    ((t.toInt x * t.toInt y / 2 ^ t.width % 2 ^ t.width).toNat, 0)

/-- VOR (R382). -/
def execVor (d a b : BitVec 7) (s : State) : Host.Outcome State Fault Refusal :=
  rawOp s d a b false fun x y _ => x ||| y

/-- VPOPC (R382). -/
def execVpopc (d a : BitVec 7) (s : State) : Host.Outcome State Fault Refusal :=
  elemOp1 s d a Ty.isInt fun t _ x => (setBits t.width x, 0)

/-- VSEL (R382). -/
def execVsel (d a b : BitVec 7) (s : State) : Host.Outcome State Fault Refusal :=
  rawOp s d a b true fun x y z => if z ≠ 0 then x else y

/-- VSHL (R382). -/
def execVshl (d a b : BitVec 7) (s : State) : Host.Outcome State Fault Refusal :=
  elemOp s d a b false Ty.isInt (wrapNat fun w x y => x * 2 ^ (y % w))

/-- VSHR (R382). -/
def execVshr (d a b : BitVec 7) (s : State) : Host.Outcome State Fault Refusal :=
  elemOp s d a b false Ty.isInt (wrapNat fun w x y => x / 2 ^ (y % w))

/-- VSRA (R382): the element's top bit enters, whatever the signedness. -/
def execVsra (d a b : BitVec 7) (s : State) : Host.Outcome State Fault Refusal :=
  elemOp s d a b false Ty.isInt (wrapNat fun w x y => (intOf w true x / 2 ^ (y % w) % 2 ^ w).toNat)

/-- VSUB (R382). -/
def execVsub (d a b : BitVec 7) (s : State) : Host.Outcome State Fault Refusal :=
  elemOp s d a b false Ty.isInt (satInt fun x y _ => x - y)

/-- VXOR (R382). -/
def execVxor (d a b : BitVec 7) (s : State) : Host.Outcome State Fault Refusal :=
  rawOp s d a b false fun x y _ => x ^^^ y

end Sys2Proof.Machine
end

