-- ==== Sys2Proof/Machine/Float.lean ====
section
/-! DEFINITION. The float, log-number and narrow instructions (class 0x3, R106, R133-R135, R140, R141, R386-R393). -/

namespace Sys2Proof.Machine

/-- A log-number instruction acts on 32-bit registers, whatever ETYPE is (R97, R133-R135). -/
def logOp (s : State) (d a b : BitVec 7) (f : Nat -> Nat -> Flagged) : Host.Outcome State Fault Refusal :=
  issue s (Desc.lane [.src a, .src b, .dstV d]) fun cx => do
    let (x, cx) ← cx.source a
    let (y, cx) ← cx.source b
    .ok (cx.writeLanes d.toNat fun l =>
      let r := f (cx.laneOf a x l).toNat (cx.laneOf b y l).toNat
      ([BitVec.ofNat 32 r.1], r.2))

/-- LCV (R133). -/
def execLcv (d a : BitVec 7) (s : State) : Host.Outcome State Fault Refusal :=
  issue s (Desc.lane [.src a, .dstV d]) fun cx => do
    let (x, cx) ← cx.source a
    .ok (cx.writeLanes d.toNat fun l =>
      let r := lcv (cx.laneOf a x l).toNat
      ([BitVec.ofNat 32 r.1], r.2))

/-- LDIV (R134). -/
def execLdiv (d a b : BitVec 7) (s : State) : Host.Outcome State Fault Refusal := logOp s d a b ldiv

/-- LEX (R133). -/
def execLex (d a : BitVec 7) (s : State) : Host.Outcome State Fault Refusal :=
  issue s (Desc.lane [.src a, .dstV d]) fun cx => do
    let (x, cx) ← cx.source a
    .ok (cx.writeLanes d.toNat fun l =>
      let r := lex (cx.rounding l 0) (cx.laneOf a x l).toNat
      ([BitVec.ofNat 32 r.1], r.2))

/-- LMUL (R134). -/
def execLmul (d a b : BitVec 7) (s : State) : Host.Outcome State Fault Refusal := logOp s d a b lmul

/-- LPOW (R135). -/
def execLpow (d a b : BitVec 7) (s : State) : Host.Outcome State Fault Refusal := logOp s d a b lpow

/-- A sum in progress: its value, and whether it was invalid so far. -/
abbrev Sum := Num × Bool

/-- Adds a term; a NaN of an operand is no invalid operation. -/
def Sum.plus (rdn : Bool) (s t : Sum) : Sum :=
  let r := s.1.add rdn t.1
  (r.1, s.2 || t.2 || r.2)

/-- The sum of terms, exactly; a NaN or an invalid term wins, and infinities of both signs are invalid wherever they
stand (R138, R140). An exact sum of zero has the sign that R390 gives VFADD: -0 only where every term is -0, or in RDN (DESIGN CHOICE, log
61). -/
def sumNums (rdn : Bool) (ts : List Sum) : Sum :=
  let r := match ts with
    | [] => (Num.fin false 0 0, false)
    | t :: u => u.foldl (Sum.plus rdn) t
  (r.1, r.2 || (ts.any fun t => t.1.isInf && t.1.neg) && ts.any fun t => t.1.isInf && !t.1.neg)

/-- A sum of products delivered (R138, R140, R141): NaN, or the exact value rounded once. -/
def deliverSum (t : Ty) (r : Rounding) (s : Sum) (sig : Bool) : Flagged :=
  if s.1.isNan then (t.nanCode, ivIf (s.2 || sig))
  else
    let x := roundTo t r s.1
    (x.1, x.2 ||| ivIf (s.2 || sig))

/-- VDOTB (R140): the scaled dot product of each block of eight lanes. -/
def execVdotb (d a b : BitVec 7) (x : BitVec 1) (s : State) : Host.Outcome State Fault Refusal :=
  issue s { Desc.lane [.srcV a, (Opnd.otherV a).many 2, .srcV b, (Opnd.dstV d).both] with ok := decide (a.toNat ≤ 62) } fun cx => do
    must cx.ty.isB8 .illegalOperand
    cx.sound fun l => cx.badEntry (cx.sp.winbase + a.toNat + 1) (8 * (l / 8))
    let t := cx.ty
    let ftz := cx.sp.mode.ftz
    let lanes := fun j => (List.range 8).map (8 * j + ·) |>.filter (inMask cx.part)
    let prod := fun l i =>
      let u := inputOf t ftz (subElem 8 i (cx.vec a.toNat l).toNat)
      let v := inputOf t ftz (subElem 8 i (cx.vec b.toNat l).toNat)
      u.mul v
    let blockSum := fun j => sumNums false ((lanes j).flatMap fun l => (List.range 4).map (prod l))
    let res := fun (sum : Sum) l =>
      let sc := (cx.anyLane (a.toNat + 1) (8 * (l / 8))).toNat
      let ea := subElem 8 (2 * x.toNat) sc
      let eb := subElem 8 (2 * x.toNat + 1) sc
      let dn := inputOf .f32 ftz (cx.vec d.toNat l).toNat
      if ea = 255 ∨ eb = 255 then (Ty.f32.nanCode, fIV)
      else
        let scale : Num := .fin false 1 ((ea : Int) + eb - 254)
        let sc := if sum.1.isNan then sum else (sum.1.mul scale |>.1, sum.2)
        deliverSum .f32 (cx.rounding l 0) (Sum.plus (zeroSumNeg (cx.rounding l 0)) (dn, false) sc) dn.isSig
    .ok ((List.range 12).foldl (fun c j =>
      let sum := blockSum j
      (lanes j).foldl (fun c l =>
        let r := res sum l
        (c.setVec d.toNat l (BitVec.ofNat 32 r.1)).raiseFlags r.2) c) cx)

/-- The narrow types of VDQNT and VQNT (R387). -/
def Ty.narrow : Ty -> Bool
  | .f16 | .bf16 | .b8 _ _ _ => true
  | .int w _ => w == 8 || w == 16
  | .f32 | .f64 | .lns => false

/-- VDQNT (R388). -/
def execVdqnt (d a b : BitVec 7) (s : State) : Host.Outcome State Fault Refusal :=
  let t := s.issueTy
  let n := if t.narrow then t.count else 1
  issue s (Desc.lane [.src a, .src b, (Opnd.dstV d).many n]) fun cx => do
    must t.narrow .illegalOperand
    let (x, cx) ← cx.source a
    let (y, cx) ← cx.source b
    .ok (cx.writeLanes d.toNat fun l =>
      let sc := inputOf .f32 cx.sp.mode.ftz (cx.laneOf b y l).toNat
      let rs := (List.range n).map fun i =>
        let v := elemValue t cx.sp.mode.ftz (subElem t.width i (cx.laneOf a x l).toNat)
        finishFloat .f32 (cx.rounding l i) [v, sc] (v.mul sc)
      (rs.map fun r => BitVec.ofNat 32 r.1, rs.foldl (fun f r => f ||| r.2) 0))

/-- VQNT (R388). -/
def execVqnt (d a b : BitVec 7) (s : State) : Host.Outcome State Fault Refusal :=
  let t := s.issueTy
  let n := if t.narrow then t.count else 1
  issue s (Desc.lane [(Opnd.srcV a).many n, .src b, .dstV d]) fun cx => do
    must t.narrow .illegalOperand
    let (y, cx) ← cx.source b
    .ok (cx.writeLanes d.toNat fun l =>
      let sc := inputOf .f32 cx.sp.mode.ftz (cx.laneOf b y l).toNat
      let r := packElems t.width n fun i =>
        let v := inputOf .f32 cx.sp.mode.ftz (cx.vec (a.toNat + i) l).toNat
        let p := v.mul sc
        if t.isInt then
          let k := convertNum t (cx.rounding l i) p.1
          (k.1, k.2 ||| ivIf (p.2 || v.isSig || sc.isSig))
        else finishFloat t (cx.rounding l i) [v, sc] p
      ([BitVec.ofNat 32 r.1], r.2))

/-- The code with its sign bit cleared (R391). -/
def absCode (t : Ty) (x : Nat) : Nat :=
  match t with
  | .b8 _ u _ => if u || x == 0x80 then x else x % 128
  | _ => x % 2 ^ (t.width - 1)

/-- VFABS (R391). -/
def execVfabs (d a : BitVec 7) (s : State) : Host.Outcome State Fault Refusal :=
  elemOp1 s d a Ty.isFloat fun t _ x => (absCode t x, 0)

/-- VFADD (R390). -/
def execVfadd (d a b : BitVec 7) (s : State) : Host.Outcome State Fault Refusal :=
  elemOp s d a b false Ty.isFloat fun t r x y _ => floatAdd t r x y

/-- The class mask of R392. -/
def classMask (t : Ty) (x : Nat) : Nat :=
  let (c, neg, _) := unpack t x
  let k := match c with
    | .snan => 0
    | .qnan => 1
    | .inf => if neg then 2 else 9
    | .normal => if neg then 3 else 8
    | .subnormal => if neg then 4 else 7
    | .zero => if neg then 5 else 6
  if t.isB8 then 2 ^ (if k ≤ 5 then k - 1 else k - 2) else 2 ^ k

/-- VFCLS (R392): an fp64 source is a pair, and the result is one register. -/
def execVfcls (d a : BitVec 7) (s : State) : Host.Outcome State Fault Refusal :=
  let t := s.issueTy
  issue s (Desc.lane [(Opnd.src a).under t, .dstV d]) fun cx => do
    must t.isFloat .illegalOperand
    let (x, cx) ← cx.source a
    .ok (cx.writeLanes d.toNat fun l =>
      let av := cx.laneNat (t.width == 64) a x l
      ([BitVec.ofNat 32 (packElems t.width t.count fun i => (classMask t (subElem t.width i av), 0)).1], 0))

/-- A float condition of R108, with the flags of R393. -/
def floatCond (c : Nat) (t : Ty) (ftz : Bool) (x y : Nat) : Bool × BitVec 6 :=
  let a := inputOf t ftz x
  let b := inputOf t ftz y
  let un := a.isNan || b.isNan
  let r := match c with
    | 0 => a.eqv b
    | 1 => !a.eqv b
    | 2 => a.lt b
    | 3 => !un && !b.lt a
    | 4 => b.lt a
    | 5 => !un && !a.lt b
    | 6 => un
    | _ => !un
  (r, ivIf (if 2 ≤ c ∧ c ≤ 5 then un else a.isSig || b.isSig))

/-- VFCMP (R393). -/
def execVfcmp (p : BitVec 3) (c : BitVec 4) (a b : BitVec 7) (s : State) : Host.Outcome State Fault Refusal :=
  compareOp s p a b (decide (c.toNat < 8)) Ty.isFloat (floatCond c.toNat)

/-- VFDOT2 (R391). -/
def execVfdot2 (d a b : BitVec 7) (s : State) : Host.Outcome State Fault Refusal :=
  let t := s.issueTy
  issue s (Desc.lane [.src a, .src b, (Opnd.dstV d).both]) fun cx => do
    must (t == .f16 || t == .bf16) .illegalOperand
    let (x, cx) ← cx.source a
    let (y, cx) ← cx.source b
    .ok (cx.writeLanes d.toNat fun l =>
      let ftz := cx.sp.mode.ftz
      let u := fun i => inputOf t ftz (subElem 16 i (cx.laneOf a x l).toNat)
      let v := fun i => inputOf t ftz (subElem 16 i (cx.laneOf b y l).toNat)
      let z := inputOf .f32 ftz (cx.vec d.toNat l).toNat
      let r := cx.rounding l 0
      let sum := sumNums (zeroSumNeg r) [(u 0).mul (v 0), (u 1).mul (v 1), (z, false)]
      let k := finishFloat .f32 r [u 0, v 0, u 1, v 1, z] sum
      ([BitVec.ofNat 32 k.1], k.2))

/-- VFMA (R390). -/
def execVfma (d a b : BitVec 7) (s : State) : Host.Outcome State Fault Refusal :=
  elemOp s d a b true Ty.isFloat fun t r x y z => floatFma t r x y z

/-- Whether a < b with -0 below +0 (R391). -/
def Num.ltZ (a b : Num) : Bool := if a.isZero && b.isZero then a.neg && !b.neg else a.lt b

/-- VFMAX and VFMIN (R391): the operand itself; a NaN loses, and with FTZ a subnormal result is a zero of its sign. -/
def floatPick (larger : Bool) (t : Ty) (r : Rounding) (x y : Nat) : Flagged :=
  let a := valueOf t x
  let b := valueOf t y
  let iv := ivIf (a.isSig || b.isSig)
  let c := if a.isNan then (if b.isNan then t.nanCode else y)
    else if b.isNan then x
    else if larger then (if a.ltZ b then y else x) else (if b.ltZ a then y else x)
  match unpack t c with
  | (.subnormal, neg, _) => (if r.ftz then t.zeroCode neg else c, iv)
  | _ => (c, iv)

/-- VFMAX (R391). -/
def execVfmax (d a b : BitVec 7) (s : State) : Host.Outcome State Fault Refusal :=
  elemOp s d a b false Ty.isFloat fun t r x y _ => floatPick true t r x y

/-- VFMIN (R391). -/
def execVfmin (d a b : BitVec 7) (s : State) : Host.Outcome State Fault Refusal :=
  elemOp s d a b false Ty.isFloat fun t r x y _ => floatPick false t r x y

/-- VFMUL (R390). -/
def execVfmul (d a b : BitVec 7) (s : State) : Host.Outcome State Fault Refusal :=
  elemOp s d a b false Ty.isFloat fun t r x y _ => floatMul t r x y

/-- Rounding to an integral value (R391). -/
def floatRint (t : Ty) (r : Rounding) (x : Nat) : Flagged :=
  match inputOf t r.ftz x with
  | .nan sg => (t.nanCode, ivIf sg)
  | .inf _ => (x, 0)
  | .fin neg m e =>
    let (k, inx) := roundMag r neg (scaled m 1 e)
    if inx then
      let c := roundTo t r (.fin neg k 0)
      (c.1, c.2 ||| fNX)
    else if m = 0 then (t.zeroCode neg, 0)
    else (x, 0)

/-- VFRND (R391). -/
def execVfrnd (d a : BitVec 7) (s : State) : Host.Outcome State Fault Refusal :=
  elemOp1 s d a Ty.isFloat floatRint

/-- VFSUB (R390). -/
def execVfsub (d a b : BitVec 7) (s : State) : Host.Outcome State Fault Refusal :=
  elemOp s d a b false Ty.isFloat fun t r x y _ => floatSub t r x y

/-- One lane of VXF64 (R141): the camera-relative point, then the three rows. -/
def xf64 (o : Nat -> Nat) (m : Nat -> Nat -> Nat) (p : Nat -> Nat) (rnd : Nat -> Rounding) : List Flagged :=
  let q := fun c =>
    let x := inputOf .f64 (rnd 0).ftz (p c)
    let y := valueOf .f64 (o c)
    finishFloat .f64 .rne [x, y] (x.add false y.negate)
  let fl := (q 0).2 ||| (q 1).2 ||| (q 2).2
  (List.range 3).map fun r =>
    let w := fun c => valueOf .f64 (m r c)
    let v := fun c => valueOf .f64 (q c).1
    let sum := sumNums (zeroSumNeg (rnd r)) [(w 0).mul (v 0), (w 1).mul (v 1), (w 2).mul (v 2), (w 3, false)]
    let k := deliverSum .f32 (rnd r) sum ((List.range 4).any fun c => (w c).isSig)
    (k.1, k.2 ||| fl)

/-- VXF64 (R141). -/
def execVxf64 (d a b : BitVec 7) (s : State) : Host.Outcome State Fault Refusal :=
  issue s { Desc.lane [(Opnd.srcV a).evenMany 6, (Opnd.srcS b).evenMany 30, (Opnd.dstV d).many 3] with
      ok := decide (regNo b ≤ 18) } fun cx =>
    let n := regNo b
    .ok (cx.writeLanes d.toNat fun l =>
      let rs := xf64 (fun c => (cx.scalar64 (n + 2 * c)).toNat) (fun r c => (cx.scalar64 (n + 6 + 8 * r + 2 * c)).toNat)
        (fun c => (pair64 (cx.vec (a.toNat + 2 * c) l) (cx.vec (a.toNat + 2 * c + 1) l)).toNat) (cx.rounding l)
      (rs.map fun r => BitVec.ofNat 32 r.1, rs.foldl (fun f r => f ||| r.2) 0))

end Sys2Proof.Machine
end

