-- ==== Sys2Proof/Machine/Texture.lean ====
section
/-! DEFINITION. Texture sampling (R213, R214, R378), and the plain reads that the texture, ray and image units make for
each lane. -/

namespace Sys2Proof.Machine

/-! Reads of many places by a lane. -/

/-- Reaches every address of a lane's plain reads. -/
def Cx.gather (cx : Cx) (n lane : Nat) : List Addr -> Except Exn (List (Addr × Place)) × Cx
  | [] => (.ok [], cx)
  | a :: t =>
    match cx.reach .read true n .row lane a with
    | (.error e, cx) => (.error e, cx)
    | (.ok p, cx) =>
      let r := cx.gather n lane t
      (r.1.map fun ps => (a, p) :: ps, r.2)

/-- Reaches the addresses of every lane: the lanes that pass, and the faults of those that do not. -/
def Cx.gatherLanes (cx : Cx) (n : Nat) (as : List (Nat × List Addr)) :
    Cx × List (Nat × List (Addr × Place)) × List (Nat × Exn) :=
  as.foldl (fun r e =>
    match r.1.gather n e.1 e.2 with
    | (.ok ps, cx) => (cx, r.2.1 ++ [(e.1, ps)], r.2.2)
    | (.error x, cx) => (cx, r.2.1, r.2.2 ++ [(e.1, x)])) (cx, [], [])

/-- Reads a list of places for the wave. -/
def Cx.readList (cx : Cx) (n : Nat) : List (Addr × Place) -> Except Stop (List Nat × Cx)
  | [] => .ok ([], cx)
  | p :: t => do
    let (v, cx) ← cx.readAt p.1 p.2 n
    let (vs, cx) ← cx.readList n t
    .ok (v :: vs, cx)

/-- Reads the places of every lane. -/
def Cx.readLists (cx : Cx) (n : Nat) : List (Nat × List (Addr × Place)) -> Except Stop (List (Nat × List Nat) × Cx)
  | [] => .ok ([], cx)
  | e :: t => do
    let (v, cx) ← cx.readList n e.2
    let (vs, cx) ← cx.readLists n t
    .ok ((e.1, v) :: vs, cx)

/-! The texture. -/

/-- Whether a slot is a texture (R213). -/
def Shape.isTexture (s : Shape) : Bool :=
  let ty := Ty.ofCode s.etype
  let w := nth 0 s.dims 0
  let h := nth 0 s.dims 1
  let n := nth 0 s.dims 2
  s.ndim == 3 && s.layout == 0 && (ty == some .f32 || ty == some .f16 || ty == some .bf16 || ty == some (.int 8 false)) &&
  decide (1 ≤ w ∧ w ≤ 32768 ∧ 1 ≤ h ∧ h ≤ 32768 ∧ 1 ≤ n ∧ n ≤ 1 + Nat.log2 (max w h)) &&
  (tagOf s.base == 0 || tagOf s.base == 3)

/-- Width of level m. -/
def Shape.levelW (s : Shape) (m : Nat) : Nat := max 1 (nth 0 s.dims 0 / 2 ^ m)
/-- Height of level m. -/
def Shape.levelH (s : Shape) (m : Nat) : Nat := max 1 (nth 0 s.dims 1 / 2 ^ m)
/-- Levels of a texture. -/
def Shape.levels (s : Shape) : Nat := nth 0 s.dims 2

/-- The address of component `c` of texel (x, y) of level m (R213). -/
def Shape.texel (s : Shape) (m x y c : Nat) : Addr :=
  s.base + BitVec.ofNat 64 (m * nth 0 s.strides 1 + y * nth 0 s.strides 0 + x * 4 * s.width + c * s.width)

/-- The value of a texel's component: n8 reads as value / 255 (R213). The pair is its number and what divides it. -/
def Shape.component (s : Shape) (x : Nat) : Num :=
  match (Ty.ofCode s.etype).getD .f32 with
  | .int _ _ => .fin false (x % 256) 0
  | t => valueOf t x

/-- What the components of a texture are divided by. -/
def Shape.unit (s : Shape) : Nat :=
  match (Ty.ofCode s.etype).getD .f32 with
  | .int _ _ => 255
  | .f32 | .f16 | .bf16 | .f64 | .lns | .b8 _ _ _ => 1

/-- The index that an address mode gives (R214). -/
def mapIndex (mode : Nat) (i : Int) (n : Nat) : Nat :=
  match mode with
  | 0 => (i % n).toNat
  | 1 => (min (max i 0) ((n : Int) - 1)).toNat
  | _ =>
    let k := (i % (2 * n : Nat)).toNat
    if k < n then k else 2 * n - 1 - k

/-- A weight as an exact number: w / 2^24. -/
structure Tap where
  w : Nat
  m : Nat
  x : Nat
  y : Nat
  deriving DecidableEq, Repr

/-- The fp32 code of an integer (exact for the integers it is used on). -/
def intS (i : Int) : Nat := (roundTo .f32 .rne (.ofInt i)).1
/-- The fp32 code of 0.5. -/
def halfS : Nat := 0x3F000000

/-- floor(s) and the fraction of s on the 1/256 grid, in 256ths (R214). -/
def splitCoord (s : Nat) : Int × Nat :=
  let i := (Rat2.ofS s).floor
  let a := ((Rat2.ofS (subS s (intS i))).grid 8).toNat
  if a = 256 then (i + 1, 0) else (i, a)

/-- The four taps of Bil (R214), each weight times `f`, in 2^-24. -/
def Shape.bil (s : Shape) (mode m f u v : Nat) : List Tap :=
  let w := s.levelW m
  let h := s.levelH m
  let (i, a) := splitCoord (subS (mulS u (intS w)) halfS)
  let (j, b) := splitCoord (subS (mulS v (intS h)) halfS)
  let tap := fun (k : Nat) (di dj : Int) => { w := f * k, m := m, x := mapIndex mode (i + di) w, y := mapIndex mode (j + dj) h : Tap }
  [tap ((256 - a) * (256 - b)) 0 0, tap (a * (256 - b)) 1 0, tap ((256 - a) * b) 0 1, tap (a * b) 1 1]

/-- Tri (R214): `lam` is in 256ths. -/
def Shape.tri (s : Shape) (mode : Nat) (lam : Int) (u v : Nat) : List Tap :=
  let l := (min (max lam 0) (((s.levels - 1) * 256 : Nat) : Int)).toNat
  let m := l / 256
  let f := l % 256
  s.bil mode m (256 - f) u v ++ s.bil mode (min (m + 1) (s.levels - 1)) f u v

/-- Lod (R214) in 256ths; the log of 0 gives 0, and a log beyond lns32 lies beyond every level. -/
def lodOf (r : Nat) : Int :=
  if (valueOf .f32 r).isZero then 0
  else
    match Lns.ofWord (lcv r).1 with
    | .fin _ l =>
      let (q, _) := roundMag .rne (decide (l < 0)) (l.natAbs, 16384)
      if l < 0 then -(q : Int) else q
    | .zero _ => -65536
    | .inf _ => 65536
    | .nan => 0

/-- The derivatives of a sample: (du/dx, dv/dx, du/dy, dv/dy), as fp32 codes. -/
structure Derivs where
  ux : Nat
  vx : Nat
  uy : Nat
  vy : Nat
  deriving DecidableEq, Repr

/-- The length of a derivative vector in level-0 texels (R214). -/
def Shape.reachOf (s : Shape) (du dv : Nat) : Nat :=
  let a := mulS du (intS (s.levelW 0))
  let b := mulS dv (intS (s.levelH 0))
  sqrtS (addS (mulS a a) (mulS b b))

/-- The number of taps along an anisotropic footprint; none when the spec's ratio has no value (infinity over
infinity). -/
def anisoCount (rmax rmin : Nat) : Option Nat :=
  if (valueOf .f32 rmin).isZero then some 16
  else
    match valueOf .f32 (divS rmax rmin) with
    | .nan _ => none
    | .inf _ => some 16
    | .fin neg m e => some (max 1 (min 16 (-(Rat2.ofNum (.fin (!neg) m e)).floor).toNat))

/-- What a sample is (R214): the canonical NaN, a value the spec does not state, or a weighted sum of texels over a
number of footprint taps. -/
inductive Sample where
  | nan
  | open_
  | taps (ts : List Tap) (n : Nat)
  deriving DecidableEq, Repr

/-- Whether an fp32 code is finite. -/
def finS (x : Nat) : Bool :=
  match valueOf .f32 x with
  | .fin _ _ _ => true
  | .nan _ => false
  | .inf _ => false

/-- Whether a filter brings its own derivatives (R213): .trix and .anix. -/
def hasX (filter : Nat) : Bool := filter == 3 || filter == 5

/-- The sample of R214. `filter` is SUB[3:1]: 0 pt, 1 bil, 2 and 3 tri, 4 and 5 ani. The spec states no result for an
infinite coordinate, nor for a footprint whose ratio has no value (DESIGN CHOICE, log 4). -/
def Shape.sample (s : Shape) (filter mode u v : Nat) (d : Derivs) : Sample :=
  let ds := [d.ux, d.vx, d.uy, d.vy]
  if isNanS u || isNanS v || ds.any isNanS then .nan
  else if !finS u || !finS v then .open_
  else
    let whole : Nat := 65536 * 256
    match filter with
    | 0 =>
      let x := (Rat2.ofS (mulS u (intS (s.levelW 0)))).floor
      let y := (Rat2.ofS (mulS v (intS (s.levelH 0)))).floor
      .taps [{ w := whole, m := 0, x := mapIndex mode x (s.levelW 0), y := mapIndex mode y (s.levelH 0) }] 1
    | 1 => .taps (s.bil mode 0 256 u v) 1
    | _ =>
      let rx := s.reachOf d.ux d.vx
      let ry := s.reachOf d.uy d.vy
      let rmax := if ltS rx ry then ry else rx
      let rmin := if ltS rx ry then rx else ry
      if filter < 4 then .taps (s.tri mode (lodOf rmax) u v) 1
      else
        match anisoCount rmax rmin with
        | none => .open_
        | some n =>
          let du := if ltS rx ry then d.uy else d.ux
          let dv := if ltS rx ry then d.vy else d.vx
          let lam := lodOf (divS rmax (intS n))
          let off := fun (k : Nat) => subS (divS (addS (intS k) halfS) (intS n)) halfS
          let us := (List.range n).map fun (k : Nat) => (addS u (mulS (off k) du), addS v (mulS (off k) dv))
          if us.all fun p => finS p.1 && finS p.2 then .taps (us.flatMap fun p => s.tri mode lam p.1 p.2) n
          else .open_

/-- A component of the sample: the exact weighted sum over the taps, rounded once (R214). -/
def Shape.blend (s : Shape) (ts : List Tap) (n : Nat) (vals : List Nat) : Nat :=
  let terms := (ts.zip vals).map fun e => (Num.fin false e.1.w (-24)).mul (s.component e.2)
  match (sumNums false terms).1 with
  | .nan _ => Ty.f32.nanCode
  | .inf neg => Ty.f32.infCode neg
  | .fin neg m e => (roundRat .f32 .rne neg m (n * s.unit) e).1

/-- Whether an operand of the quads of the participating lanes is pending (R90, R264). -/
def Cx.quadPending (cx : Cx) (i : Nat) : Bool :=
  cx.pendingV (cx.sp.winbase + i) (maskOf fun l => inMask cx.st.launched l && (List.range 4).any fun k =>
    inMask cx.part (l / 4 * 4 + k))

/-- The fault of a sample whose quads hold an uncorrectable error in a lane whose coordinates it reads (R213, R266). -/
def Cx.quadsSound (cx : Cx) (filter d : Nat) : Except Stop Unit :=
  cx.sound fun l => !hasX filter && (List.range 2).any fun i => (List.range 3).any fun k =>
    cx.badEntry (cx.sp.winbase + d + i) (l / 4 * 4 + k)

/-- The derivatives of a lane (R213): its own registers for the forms with x, else differences over its quad. -/
def Cx.derivs (cx : Cx) (filter : Nat) (d l : Nat) : Derivs :=
  let sgl := fun (w : Word) (i : Nat) => (roundTo .f32 .rne (valueOf .f16 (subElem 16 i w.toNat))).1
  if hasX filter then
    let a := cx.vec (d + 2) l
    let b := cx.vec (d + 3) l
    { ux := sgl a 0, vx := sgl a 1, uy := sgl b 0, vy := sgl b 1 }
  else
    let q := l / 4 * 4
    let g := fun i k => (cx.anyLane (d + i) (q + k)).toNat
    { ux := subS (g 0 1) (g 0 0), vx := subS (g 1 1) (g 1 0), uy := subS (g 0 2) (g 0 0), vy := subS (g 1 2) (g 1 0) }

/-- A sample of a lane's coordinates in vD and v(D+1). -/
def Cx.sampleLane (cx : Cx) (s : Shape) (filter mode d l : Nat) : Sample :=
  s.sample filter mode (cx.vec d l).toNat (cx.vec (d + 1) l).toNat (cx.derivs filter d l)

/-- The texels' component addresses of a sample, tap by tap. -/
def Shape.tapAddrs (s : Shape) : Sample -> List Addr
  | .taps ts _ => ts.flatMap fun t => (List.range 4).map fun c => s.texel t.m t.x t.y c
  | .nan => []
  | .open_ => []

/-- Component c of the values read in tap order. -/
def everyFourth (c : Nat) (vals : List Nat) : List Nat :=
  (List.range (vals.length / 4)).map fun i => nth 0 vals (4 * i + c)

/-- The four results of a lane; `fresh` numbers the free values of a result the spec does not state. -/
def Shape.results (s : Shape) (smp : Sample) (fresh lane : Nat) (vals : List Nat) : List Word :=
  (List.range 4).map fun c =>
    match smp with
    | .nan => BitVec.ofNat 32 Ty.f32.nanCode
    | .open_ => Config.freeWord (fresh * 65536 + lane * 4 + c)
    | .taps ts n => BitVec.ofNat 32 (s.blend ts n (everyFourth c vals))

/-- Resolves a texture handle (R213, R378). -/
def Cx.texture (cx : Cx) (h : Word) : Except Stop (Shape × Cx) := do
  let (s, cx) ← cx.handle h
  cx.need s.isTexture .illegalOperand
  .ok (s, cx)

/-- TEX (R213, R214, R378): the texels are read at issue, the registers written at completion. -/
def execTex (d a : BitVec 7) (t : BitVec 3) (f : BitVec 1) (m : BitVec 2) (s : State) :
    Host.Outcome State Fault Refusal :=
  let filter := t.toNat
  issue s { Desc.lane [(Opnd.dstV d).both.many 4, .srcS a] with
      legal := decide (filter < 6) && m != 3, flag := some (f == 1), ok := decide (d.toNat ≤ 60),
      free := s.issueHas fun cx => hasX filter || !(cx.quadPending d.toNat || cx.quadPending (d.toNat + 1)) }
    fun cx => do
    let (h, cx) ← cx.readS (regNo a)
    let (sh, cx) ← cx.texture h
    let dn := d.toNat
    cx.quadsSound filter dn
    let smp := (lanesOf cx.part).map fun l => (l, cx.sampleLane sh filter m.toNat dn l)
    let as := smp.map fun e => (e.1, sh.tapAddrs e.2)
    cx.staticLanes sh.width false [1, 2] (as.flatMap fun e => e.2.map fun a => (e.1, a))
    cx.flagRoom (cx.flagOf (f == 1))
    let cx ← cx.mapWs (as.flatMap (·.2))
    let (cx, oks, errs) := cx.gatherLanes sh.width as
    let (vs, cx) ← cx.readLists sh.width oks
    let fresh := cx.s.fresh
    let res := vs.map fun e =>
      let sm := ((smp.find? fun q => q.1 == e.1).map (·.2)).getD .nan
      (e.1, sm, sh.results sm fresh e.1 e.2)
    let cx := if res.any fun r => r.2.1 == .nan then cx.raiseFlags fIV else cx
    let cx := { cx with s := cx.s.bump }
    let ws := res.flatMap fun r => (r.2.2.zipIdx).map fun w => ((cx.sp.winbase + dn + w.2) * 96 + r.1, w.1)
    let op := { Op.blank cx .tex with pendV := cx.destV d 4, lanes := cx.part, vres := ws }
    cx.engineAccess (cx.flagOf (f == 1)) op (reachedOf (oks.map (·.1))) errs

end Sys2Proof.Machine
end

