-- ==== Sys2Proof/Machine/Rays.lean ====
section
/-! DEFINITION. Ray states and ray walks: RTINI and RTSTEP (R215-R219, R354, R355). -/

namespace Sys2Proof.Machine

/-- The STATUS codes of a ray state that the walk writes (R215). -/
def stHit : Nat := 1
/-- DONE. -/
def stDone : Nat := 2
/-- BUDGET. -/
def stBudget : Nat := 3
/-- DEPTH. -/
def stDepth : Nat := 4
/-- INVALID. -/
def stInvalid : Nat := 5

/-- RTINI (R217, R354). -/
def execRtini (d a : BitVec 7) (s : State) : Host.Outcome State Fault Refusal :=
  issue s { Desc.lane [(Opnd.srcV a).many 9, (Opnd.dstV d).many 16] with
      ok := decide (d.toNat ≤ 48) && decide (a.toNat ≤ 55) } fun cx =>
    .ok (cx.writeLanes d.toNat fun l =>
      let w := fun i => cx.vec (a.toNat + i) l
      let x := fun i => (w i).toNat
      let zero := fun i => (valueOf .f32 (x i)).isZero
      let bad := ((List.range 8).any fun i => !finS (x i)) || (zero 3 && zero 4 && zero 5) || ltS (x 6) 0 || ltS (x 7) (x 6)
      ([w 0, w 1, w 2, w 3, w 4, w 5, w 6, w 7, 0xFFFFFFFF, 0, 0, 0, 0, 0,
        BitVec.ofNat 32 (if bad then stInvalid * 256 else 0), w 8], 0))

/-- An instance that the walk is inside: its node's level and address, its id, and the ray outside it. -/
structure Inst where
  level : Nat
  addr  : Nat
  id    : Nat
  o     : List Nat
  d     : List Nat
  deriving DecidableEq, Repr

/-- A ray walk of one lane (R215): its state, the ray in the space of the current node, and the instances on its path,
innermost first. -/
structure Walk where
  o      : List Nat
  d      : List Nat
  tmin   : Nat
  tbest  : Nat
  hit    : Nat
  uv     : Nat
  node   : Nat
  trail  : Nat
  kind   : Nat
  status : Nat
  skip   : Bool
  level  : Nat
  insts  : List Inst
  deriving DecidableEq, Repr

/-- How a part of a walk ends: it goes on, the walk has ended, or the instruction stops for the lane. -/
inductive Flow where
  | go | ended | stop
  deriving DecidableEq, Repr

/-- Word i of a node. -/
def nodeWord (n i : Nat) : Nat := n / 2 ^ (32 * i) % 2 ^ 32
/-- The CHILD or ROOT word of a node (R216). -/
def nodeLink (n : Nat) : Nat := bits n 447 384
/-- The PARENT word of a node (R216). -/
def nodeParent (n : Nat) : Nat := bits n 511 448
/-- The address of child c of an internal node. -/
def childAddr (n c : Nat) : Nat := bits (nodeLink n) 56 6 * 64 + 64 * c
/-- The kind of child c of an internal node. -/
def childKind (n c : Nat) : Nat := if c = 0 then bits (nodeLink n) 3 2 else bits (nodeLink n) 5 4
/-- The axis of an internal node. -/
def nodeAxis (n : Nat) : Nat := nodeLink n % 4

/-- Whether a node is well formed for its kind (R216): no reserved value, and every zero field 0. -/
def nodeOk (kind n : Nat) : Bool :=
  let p := nodeParent n
  let parentOk := bits p 5 1 == 0 && bits p 63 57 == 0
  parentOk &&
  match kind with
  | 0 => nodeAxis n != 3 && bits (nodeLink n) 63 57 == 0
  | 1 => bits (nodeWord n 9) 31 25 == 0 && nodeWord n 10 == 0 && nodeWord n 11 == 0 && nodeLink n == 0
  | 2 => bits (nodeLink n) 63 57 != 0x7F && bits (nodeLink n) 5 0 == 0
  | _ => false

/-- Reads a node for a lane, as plain reads of a tag 0x0 address (R143, R216, R218); a fault comes with the context after the reads before
it. -/
def Cx.nodeAt (cx : Cx) (lane a : Nat) : Except (Exn × Cx) (Nat × Cx) :=
  let ad := BitVec.ofNat 64 a
  match if tagOf ad = 0 then staticCheck cx.la ad 64 false else some .aperture with
  | some c => .error (Exn.at c ad, cx)
  | none =>
  match cx.reach .read true 64 .row lane ad with
  | (.error e, cx) => .error (e, cx)
  | (.ok p, cx) =>
    let st := cx.st
    let st := if st.selected && !cx.la.sealedAt ad 64 then { st with unverif := true } else st
    .ok (cx.s.viewN cx.st p 64, { cx with st := st })

/-- A row of an instance matrix applied to a vector, one rounding (R218); `one` adds the fourth column. -/
def matRow (n r : Nat) (v : List Nat) (one : Bool) : Nat :=
  let m := fun c => valueOf .f32 (nodeWord n (4 * r + c))
  let terms := (List.range 3).map fun c => (m c).mul (valueOf .f32 (nth 0 v c))
  let terms := if one then terms ++ [(m 3, false)] else terms
  (deliverSum .f32 .rne (sumNums false terms) false).1

/-- The walk inside an instance node (R218). -/
def Walk.enter (w : Walk) (n addr level : Nat) : Walk :=
  { w with o := (List.range 3).map fun r => matRow n r w.o true, d := (List.range 3).map fun r => matRow n r w.d false,
           insts := { level := level, addr := addr, id := bits (nodeLink n) 63 57, o := w.o, d := w.d } :: w.insts }

/-- The lesser of two fp32 codes. -/
def minS (a b : Nat) : Nat := if ltS b a then b else a
/-- The greater of two fp32 codes. -/
def maxS (a b : Nat) : Nat := if ltS a b then b else a

/-- Box of R218 for child c of an internal node. -/
def Walk.box (w : Walk) (n c : Nat) : Bool :=
  let one := 0x3F800000
  let lim := (List.range 3).map fun i =>
    let inv := divS one (nth 0 w.d i)
    let a := mulS (subS (nodeWord n (6 * c + i)) (nth 0 w.o i)) inv
    let b := mulS (subS (nodeWord n (6 * c + 3 + i)) (nth 0 w.o i)) inv
    if isNanS a || isNanS b then (0xFF800000, 0x7F800000) else (minS a b, maxS a b)
  let near := lim.foldl (fun m x => maxS m x.1) w.tmin
  let far := lim.foldl (fun m x => minS m x.2) w.tbest
  childKind n c != 3 && leS near far

/-- Stops a walk with INVALID (R216). -/
def Walk.invalid (w : Walk) : Walk := { w with status := stInvalid }

/-- Sets bit k of TRAIL. -/
def setTrail (t k : Nat) (b : Bool) : Nat := if bit t k = b then t else if b then t + 2 ^ k else t - 2 ^ k

/-- Descend of R218. -/
def Walk.descend (w : Walk) (c k : Nat) (far : Bool) : Walk :=
  { w with node := c, kind := k, level := w.level + 1, trail := setTrail w.trail w.level far }

/-- Ascend of R218; each turn of the loop leaves a level. -/
def Cx.ascend (lane : Nat) : Nat -> Walk -> Cx -> Except (Exn × Cx) (Walk × Flow × Cx)
  | 0, w, cx => .ok (w, .ended, cx)
  | fuel + 1, w, cx =>
    if w.level ≤ 1 then .ok (w, .ended, cx)
    else
      match cx.nodeAt lane w.node with
      | .error e => .error e
      | .ok (n, cx) =>
        if !nodeOk w.kind n then .ok (w.invalid, .stop, cx)
        else if nodeParent n = 0 then
          match w.insts with
          | [] => .ok (w.invalid, .stop, cx)
          | i :: t =>
            Cx.ascend lane fuel
              { w with node := i.addr, kind := 2, level := w.level - 1, o := i.o, d := i.d, insts := t } cx
        else
          let pa := bits (nodeParent n) 56 6 * 64
          let up := { w with trail := setTrail w.trail (w.level - 1) false, node := pa, kind := 0, level := w.level - 1 }
          if bit w.trail (w.level - 1) then Cx.ascend lane fuel up cx
          else
            match cx.nodeAt lane pa with
            | .error e => .error e
            | .ok (p, cx) =>
              let c := 1 - nodeParent n % 2
              if !nodeOk 0 p then .ok (w.invalid, .stop, cx)
              else if w.box p c then
                .ok ({ w with node := childAddr p c, kind := childKind p c, trail := setTrail w.trail (w.level - 1) true },
                     .go, cx)
              else Cx.ascend lane fuel up cx

/-- A vertex in ray space (R219): X, Y and Z. -/
structure RayVertex where
  x : Nat
  y : Nat
  z : Nat
  deriving DecidableEq, Repr

/-- The edge value of R211 on exact coordinates, at the origin. -/
def edgeRat (a b : Rat2 × Rat2) : Rat2 :=
  ((b.2.sub a.2).mul a.1).sub ((b.1.sub a.1).mul a.2)

/-- Inc on (Y, X) (R219). -/
def incRat (a b : Rat2 × Rat2) : Bool := a.2.lt b.2 || (!b.2.lt a.2 && a.1.lt b.1)

/-- Inside of R211 at the origin. -/
def insideRat (a b : Rat2 × Rat2) : Bool :=
  let e := edgeRat a b
  decide (e.n > 0) || (e.isZero && incRat a b)

/-- Test of R219: t and UV of a triangle that the ray meets, before the limits on t. What the spec does not state, a ray
space with a coordinate that is not finite, is free (DESIGN CHOICE, log 4). -/
def Walk.test (w : Walk) (n fresh : Nat) : Option (Nat × Nat) :=
  let d := fun i => nth 0 w.d i
  let mag := fun i => d i % 2 ^ 31
  let kz := if mag 0 ≥ mag 1 ∧ mag 0 ≥ mag 2 then 0 else if mag 1 ≥ mag 2 then 1 else 2
  let k1 := (kz + 1) % 3
  let k2 := (k1 + 1) % 3
  let swap := ltS (d kz) 0
  let kx := if swap then k2 else k1
  let ky := if swap then k1 else k2
  let sx := divS (d kx) (d kz)
  let sy := divS (d ky) (d kz)
  let sz := divS 0x3F800000 (d kz)
  let vert := fun v =>
    let a := fun i => subS (nodeWord n (3 * v + i)) (nth 0 w.o i)
    { x := subS (a kx) (mulS sx (a kz)), y := subS (a ky) (mulS sy (a kz)), z := mulS sz (a kz) : RayVertex }
  let vs := (List.range 3).map vert
  if !(vs.all fun v => finS v.x && finS v.y && finS v.z) then
    if Config.freeChoice fresh then some ((Config.freeWord fresh).toNat, (Config.freeWord (fresh + 1)).toNat) else none
  else
    let at_ := fun i =>
      let v := nth { x := 0, y := 0, z := 0 : RayVertex } vs i
      (Rat2.ofS v.x, Rat2.ofS v.y)
    let zOf := fun i => Rat2.ofS (nth { x := 0, y := 0, z := 0 : RayVertex } vs i).z
    let sum := fun (a b c : Rat2) => (a.add b).add c
    let area := sum (edgeRat (at_ 1) (at_ 2)) (edgeRat (at_ 2) (at_ 0)) (edgeRat (at_ 0) (at_ 1))
    let i1 := if area.n < 0 then 2 else 1
    let i2 := if area.n < 0 then 1 else 2
    let e0 := edgeRat (at_ i1) (at_ i2)
    let e1 := edgeRat (at_ i2) (at_ 0)
    let e2 := edgeRat (at_ 0) (at_ i1)
    let det := sum e0 e1 e2
    if det.isZero || !(insideRat (at_ i1) (at_ i2) && insideRat (at_ i2) (at_ 0) && insideRat (at_ 0) (at_ i1)) then none
    else
      let t := ((sum (e0.mul (zOf 0)) (e1.mul (zOf i1)) (e2.mul (zOf i2))).div det).round .f32 .rne
      let half := fun (e : Rat2) => ((e.div det).round .f16 .rne).1
      let wa := half e1
      let wb := half e2
      some (t.1, if area.n < 0 then wb + 65536 * wa else wa + 65536 * wb)

/-- The walk after a triangle visit's test, if it is a hit (R219). -/
def Walk.tested (w : Walk) (n fresh : Nat) : Option Walk :=
  match w.test n fresh with
  | none => none
  | some (t, uv) =>
    if ltS w.tmin t && ltS t w.tbest then
      let id := match w.insts with
        | i :: _ => i.id
        | [] => 0x7F
      some { w with tbest := t, hit := bits (nodeWord n 9) 24 0 * 128 + id, uv := uv }
    else none

/-- The end of a visit: a walk that has ended is DONE (R218). -/
def Walk.close (w : Walk) (f : Flow) : Walk := if f = .ended then { w with status := stDone } else w

/-- The visit of an internal node (R218). -/
def Cx.visitInternal (lane n : Nat) (w : Walk) (cx : Cx) : Except (Exn × Cx) (Walk × Flow × Cx) :=
  let hit := fun c => !w.skip && w.box n c
  let w' := { w with skip := false }
  let near := if bit (nth 0 w.d (nodeAxis n)) 31 then 1 else 0
  if (hit 0 || hit 1) && w.level == 64 then .ok ({ w with status := stDepth }, .stop, cx)
  else if hit near then .ok (w'.descend (childAddr n near) (childKind n near) false, .go, cx)
  else if hit (1 - near) then .ok (w'.descend (childAddr n (1 - near)) (childKind n (1 - near)) true, .go, cx)
  else Cx.ascend lane 65 w' cx

/-- The visit of an instance node (R218): at level 64 it stops with DEPTH, or with SKIP its root is treated as missed (DEDUCED, log 40);
else the walk goes down to its root, where SKIP acts. -/
def Cx.visitInstance (lane n : Nat) (w : Walk) (cx : Cx) : Except (Exn × Cx) (Walk × Flow × Cx) :=
  if w.level = 64 then
    if w.skip then Cx.ascend lane 65 { w with skip := false } cx else .ok ({ w with status := stDepth }, .stop, cx)
  else
    let w' := w.enter n w.node w.level
    .ok ({ w' with node := bits (nodeLink n) 56 0, kind := 0, level := w.level + 1, trail := setTrail w.trail w.level true },
         .go, cx)

/-- The visit of a triangle (R218). -/
def Cx.visitTriangle (lane n fresh : Nat) (w : Walk) (cx : Cx) : Except (Exn × Cx) (Walk × Flow × Cx) :=
  match w.tested n fresh with
  | none => Cx.ascend lane 65 w cx
  | some w' =>
    match Cx.ascend lane 65 w' cx with
    | .error e => .error e
    | .ok (w, .go, cx) => .ok ({ w with status := stHit }, .stop, cx)
    | .ok (w, .ended, cx) => .ok ({ w with status := stDone }, .stop, cx)
    | .ok (w, .stop, cx) => .ok (w, .stop, cx)

/-- The loop of R218 under a budget of visits. -/
def Cx.walk (lane fresh : Nat) : Nat -> Walk -> Cx -> Except (Exn × Cx) (Walk × Cx)
  | 0, w, cx => .ok ({ w with status := stBudget }, cx)
  | k + 1, w, cx =>
    match cx.nodeAt lane w.node with
    | .error e => .error e
    | .ok (n, cx) =>
      if !nodeOk w.kind n then .ok (w.invalid, cx)
      else
        let r := match w.kind with
          | 1 => Cx.visitTriangle lane n (fresh + 2 * k) w cx
          | 2 => Cx.visitInstance lane n w cx
          | _ => Cx.visitInternal lane n w cx
        match r with
        | .error e => .error e
        | .ok (w, .go, cx) => Cx.walk lane fresh k w cx
        | .ok (w, f, cx) => .ok (w.close f, cx)

/-- The path from the world root down to the current node (R218): the ray in its space, and the instances passed. The
walk is malformed when the path is. -/
def Cx.retrace (lane : Nat) : Nat -> Nat -> Nat -> Nat -> Walk -> Cx -> Except (Exn × Cx) (Option Walk × Cx)
  | 0, _, _, _, w, cx => .ok (some w, cx)
  | k + 1, lvl, addr, kind, w, cx =>
    match cx.nodeAt lane addr with
    | .error e => .error e
    | .ok (n, cx) =>
      if !nodeOk kind n then .ok (none, cx)
      else
        match kind with
        | 0 =>
          let near := if bit (nth 0 w.d (nodeAxis n)) 31 then 1 else 0
          let c := if bit w.trail lvl then 1 - near else near
          Cx.retrace lane k (lvl + 1) (childAddr n c) (childKind n c) w cx
        | 2 => Cx.retrace lane k (lvl + 1) (bits (nodeLink n) 56 0) 0 (w.enter n addr lvl) cx
        | _ => .ok (none, cx)

/-- A lane's state as a walk, from its sixteen words. -/
def Walk.ofWords (x : Nat -> Nat) : Walk :=
  { o := [x 0, x 1, x 2], d := [x 3, x 4, x 5], tmin := x 6, tbest := x 7, hit := x 8, uv := x 9,
    node := x 10 + 2 ^ 32 * x 11, trail := x 12 + 2 ^ 32 * x 13, kind := bits (x 14) 13 12, status := bits (x 14) 11 8,
    skip := bit (x 14) 7, level := bits (x 14) 6 0, insts := [] }

/-- The words 7 to 14 that a walk writes. -/
def Walk.words (w : Walk) : List Word :=
  [w.tbest, w.hit, w.uv, w.node, w.node / 2 ^ 32, w.trail, w.trail / 2 ^ 32,
   w.kind * 4096 + w.status * 256 + b2n w.skip * 128 + w.level].map (BitVec.ofNat 32)

/-- RTSTEP for one lane (R218). -/
def Cx.stepRay (cx : Cx) (lane fresh budget root : Nat) (x : Nat -> Nat) : Except (Exn × Cx) (List Word × Cx) :=
  let w := Walk.ofWords x
  let f := x 14
  if f / 2 ^ 14 ≠ 0 ∨ w.kind = 3 ∨ w.status > 5 ∨ w.level > 64 then
    .ok (w.words.take 7 ++ [BitVec.ofNat 32 (f - w.status * 256 + stInvalid * 256)], cx)
  else if w.status = stDone ∨ w.status = stInvalid then .ok (w.words, cx)
  else
    let w := if w.level = 0 then { w with node := root, kind := 0, level := 1, trail := 0 } else w
    match Cx.retrace lane (w.level - 1) 1 root 0 w cx with
    | .error e => .error e
    | .ok (none, cx) => .ok (w.invalid.words, cx)
    | .ok (some w, cx) =>
      match Cx.walk lane fresh budget w cx with
      | .error e => .error e
      | .ok (w, cx) => .ok (w.words, cx)

/-- RTSTEP (R218, R355): the walk runs at issue, the state registers are written at completion. -/
def execRtstep (d a : BitVec 7) (f : BitVec 1) (s : State) : Host.Outcome State Fault Refusal :=
  issue s { Desc.lane [(Opnd.srcS a).many 4, (Opnd.dstV d).both.many 16] with
      flag := some (f == 1), ok := a.toNat % 4 == 0 && decide (regNo a ≤ 60) && decide (d.toNat ≤ 48) } fun cx => do
    let n := (cx.scalar (regNo a)).toNat
    let root := cx.scalar64 (regNo a + 2)
    must (decide (1 ≤ n ∧ n < 65536) && cx.scalar (regNo a + 1) == 0) .illegalOperand
    if cx.part ≠ 0 then cx.staticLanes 64 false [1, 2, 3] [(noLane, root)]
    cx.flagRoom (cx.flagOf (f == 1))
    let dn := d.toNat
    let fresh := cx.s.fresh
    let (cx, oks, errs) := (lanesOf cx.part).foldl (fun r l =>
      match r.1.stepRay l (262144 * (fresh * 128 + l)) n root.toNat (fun i => (cx.vec (dn + i) l).toNat) with
      | .ok (ws, c) => (c, r.2.1 ++ [(l, ws)], r.2.2)
      | .error (e, c) => (c, r.2.1, r.2.2 ++ [(l, e)])) (cx, ([] : List (Nat × List Word)), ([] : List (Nat × Exn)))
    let cx := { cx with s := cx.s.bump }
    let ws := oks.flatMap fun r => (r.2.zipIdx).map fun w => ((cx.sp.winbase + dn + 7 + w.2) * 96 + r.1, w.1)
    let op := { Op.blank cx .rtstep with pendV := cx.destV d 16, lanes := cx.part, vres := ws }
    cx.engineAccess (cx.flagOf (f == 1)) op (reachedOf (oks.map (·.1))) errs

end Sys2Proof.Machine
end

