-- ==== Sys2Proof/Machine/Splats.lean ====
section
/-! DEFINITION. Splat lists: SPLS and SPLC (R221-R223, R364, R365). -/

namespace Sys2Proof.Machine

/-- A splat list's descriptor (R221), with its own offset. -/
structure SplatList where
  off    : Nat
  recs   : Nat
  cap    : Nat
  count  : Nat
  tileX  : Nat
  tileY  : Nat
  stop   : Nat
  flags  : Nat
  deriving DecidableEq, Repr

/-- The own-cluster generic address of a Plaza offset (R144). -/
def plazaAddr (off : Nat) : Addr := BitVec.ofNat 64 (0x1FF * 2 ^ 52 + off)

/-- The place of an offset of the issuer's Plaza. -/
def Cx.plazaPlace (cx : Cx) (off : Nat) : Place := { space := .plaza, key := cx.plazaKey off }

/-- Reads the descriptor of a list, once per split (R221, R365). -/
def Cx.splatList (cx : Cx) (off : Nat) : Except Stop (SplatList × Cx) := do
  let top := cx.la.record.plaza
  let within := fun (cx : Cx) (o n : Nat) => if o + n ≤ top then .ok () else cx.stop (Exn.at .aperture (plazaAddr o))
  cx.need (off % 32 == 0) .illegalOperand
  within cx off 32
  if cx.badAt (cx.plazaPlace off) 32 then cx.stop (Exn.ecc 3 (plazaAddr off))
  let (w, cx) ← cx.readWords (plazaAddr off) (cx.plazaPlace off) 4
  let g := fun i => nth 0 w i
  let l : SplatList :=
    { off := off, recs := bits (g 0) 31 0, cap := bits (g 0) 63 32, count := bits (g 1) 31 0, tileX := bits (g 1) 47 32,
      tileY := bits (g 1) 63 48, stop := bits (g 2) 31 0, flags := bits (g 2) 63 32 }
  cx.need (l.recs % 64 == 0 && l.stop % 4 == 0 && decide (l.flags < 4) && g 3 == 0) .illegalOperand
  within cx l.recs (48 * max l.cap l.count)
  within cx l.stop 1024
  .ok (l, cx)

/-- SPLS (R222, R365): the records are held at issue, and the flag clears when the operation completes. -/
def execSpls (d a : BitVec 7) (f : BitVec 1) (s : State) : Host.Outcome State Fault Refusal :=
  issue s { Desc.lane [(Opnd.srcV d).many 11, .srcS a] with flag := some (f == 1), ok := decide (d.toNat ≤ 53) } fun cx => do
    let (x, cx) ← cx.readS (regNo a)
    let (l, cx) ← cx.splatList x.toNat
    cx.flagRoom (cx.flagOf (f == 1))
    let recs := (lanesOf cx.part).map fun ln => ((List.range 11).map fun i => cx.vec (d.toNat + i) ln) ++ [0]
    let cx ← cx.buffer (if recs.isEmpty then []
      else [{ size := 48 * recs.length, item := .spls l.off recs, recs := [], issue := 0, lane := 0, rel := none,
              cached := false, own := false }])
    cx.launchOp (cx.flagOf (f == 1)) (Op.blank cx (.splat false []))

/-- A record of a list: its twelve words. -/
abbrev SplatRec := List Nat

/-- The sort key depth : id (R223). -/
def splatKey (r : SplatRec) : Nat := 2 ^ 32 * nth 0 r 6 + nth 0 r 7

/-- Puts a record into a sorted list; which of two records of one key comes first is a free value (R223). -/
def insertRec (fresh : Nat) (r : Nat × SplatRec) : List (Nat × SplatRec) -> List (Nat × SplatRec)
  | [] => [r]
  | q :: t =>
    if splatKey r.2 < splatKey q.2 then r :: q :: t
    else if splatKey r.2 = splatKey q.2 ∧ Config.freeChoice (fresh + r.1 * 65536 + q.1) = true then r :: q :: t
    else q :: insertRec fresh r t

/-- The records of a list in the order that SPLC composites them (R223). -/
def sortRecs (fresh : Nat) (rs : List SplatRec) : List SplatRec :=
  ((rs.zipIdx.map fun r => (r.2, r.1)).foldl (fun l r => insertRec fresh r l) []).map (·.2)

/-- Reads the records of a list. -/
def Cx.splatRecs (cx : Cx) (base : Nat) : Nat -> Except Stop (List SplatRec × Cx)
  | 0 => .ok ([], cx)
  | n + 1 => do
    let (w, cx) ← cx.readWords (plazaAddr base) (cx.plazaPlace base) 6
    let (rs, cx) ← cx.splatRecs (base + 48) n
    .ok (w.flatMap (fun x => [x % 2 ^ 32, x / 2 ^ 32]) :: rs, cx)

/-- -0.7213475 in fp32 (R223). -/
def splatScale : Nat := (roundRat .f32 .rne true 7213475 10000000 0).1
/-- 0.99 in fp32 (R223). -/
def splatMax : Nat := (roundRat .f32 .rne false 99 100 0).1
/-- The greater of two fp32 codes, where a NaN loses. -/
def maxN (a b : Nat) : Nat := if isNanS a then b else if isNanS b then a else if ltS a b then b else a
/-- The lesser of two fp32 codes, where a NaN loses. -/
def minN (a b : Nat) : Nat := if isNanS a then b else if isNanS b then a else if ltS b a then b else a

/-- The position of pixel p (R223). -/
def SplatList.pixel (l : SplatList) (p : Nat) : Nat × Nat :=
  (addS (intS (16 * l.tileX + p % 16 : Nat)) halfS, addS (intS (16 * l.tileY + p / 16 : Nat)) halfS)

/-- q, g and the clamped alpha of a record at a pixel (R223), beside dx, dy and opacity * g; none when it is passed
over. -/
structure SplatTerm where
  dx : Nat
  dy : Nat
  q  : Nat
  g  : Nat
  og : Nat
  al : Nat
  deriving DecidableEq, Repr

/-- The term of R223. -/
def splatTerm (r : SplatRec) (px : Nat × Nat) : Option SplatTerm :=
  let w := fun i => nth 0 r i
  let dx := subS px.1 (w 0)
  let dy := subS px.2 (w 1)
  let q := addS (addS (mulS (mulS (w 2) dx) dx) (mulS (mulS (mulS 0x40000000 (w 3)) dx) dy)) (mulS (mulS (w 4) dy) dy)
  if leS 0 q then
    let g := exp2F32 (mulS splatScale q)
    let og := mulS (w 5) g
    some { dx := dx, dy := dy, q := q, g := g, og := og, al := minN (maxN og 0) splatMax }
  else none

/-- The state of a pixel being composited: T, C, s, and whether it stopped (R223). -/
structure Pixel where
  t    : Nat
  c    : List Nat
  s    : Nat
  done : Bool
  deriving DecidableEq, Repr

/-- One record of the loop of R223. -/
def Pixel.step (stop : Nat) (px : Nat × Nat) (a : Pixel) (r : SplatRec × Nat) : Pixel :=
  if a.done then a
  else
    match splatTerm r.1 px with
    | none => a
    | some k =>
      let w := mulS a.t k.al
      let c := (a.c.zipIdx).map fun e => addS e.1 (mulS w (nth 0 r.1 (8 + e.2)))
      let t := mulS a.t (subS 0x3F800000 k.al)
      if ltS t stop then { t := t, c := c, s := r.2 + 1, done := true } else { a with t := t, c := c }

/-- The composited pixel (R223). -/
def compositePixel (rs : List SplatRec) (stop : Nat) (px : Nat × Nat) : Pixel :=
  rs.zipIdx.foldl (Pixel.step stop px) { t := 0x3F800000, c := [0, 0, 0], s := rs.length, done := false }

/-- The Plaza bytes of a 32-bit word at an offset. -/
def Cx.plazaWord (cx : Cx) (off v : Nat) : List (Nat × Byte) :=
  (List.range 4).map fun i => (cx.plazaKey (off + i), BitVec.ofNat 8 (v / 256 ^ i))

/-- An operand of a lane that breaks its limit faults the instruction before any effect, so its retry set is every lane that takes part
(R255). -/
def Cx.needLanes (cx : Cx) (ok : Nat -> Bool) (c : FaultCode) : Except Stop Unit := cx.need ((lanesOf cx.part).all ok) c

/-- The records of a list as an engine's reads meet them: the error of those that hold one, for each lane (R266). -/
def Cx.listErrors (cx : Cx) (l : SplatList) : List (Nat × Exn) :=
  if (List.range l.count).any fun i => cx.badAt (cx.plazaPlace (l.recs + 48 * i)) 48 then
    (lanesOf cx.part).map fun ln => (ln, Exn.ecc 3 (plazaAddr l.recs))
  else []

/-- SPLC (R223, R365): the list as it stands at issue is sorted and composited; the sort, the stop words and the
registers are written at completion. -/
def execSplc (d a : BitVec 7) (f : BitVec 1) (s : State) : Host.Outcome State Fault Refusal :=
  issue s { Desc.lane [(Opnd.dstV d).both.many 5, .srcS a] with
      flag := some (f == 1), recomp := false, ok := decide (d.toNat ≤ 59) } fun cx => do
    let (x, cx) ← cx.readS (regNo a)
    let (l, cx) ← cx.splatList x.toNat
    let dn := d.toNat
    let px := fun ln => (cx.vec dn ln).toNat
    cx.needLanes (fun ln => decide (px ln < 256)) .illegalOperand
    cx.flagRoom (cx.flagOf (f == 1))
    let errs := cx.listErrors l
    let (rs, cx) ← cx.splatRecs l.recs l.count
    let sort := l.flags % 2 == 0
    let rs := if sort then sortRecs (2 ^ 40 * cx.s.fresh) rs else rs
    let cx := { cx with s := cx.s.bump }
    let good := if errs.isEmpty then lanesOf cx.part else []
    let res := good.map fun ln => (ln, compositePixel rs cx.st.vis.alphastop.toNat (l.pixel (px ln)))
    let stops := res.flatMap fun r => cx.plazaWord (l.stop + 4 * px r.1) r.2.s
    let sorted := if sort then
      ((rs.zipIdx).flatMap fun r => ((r.1.zipIdx).flatMap fun w => cx.plazaWord (l.recs + 48 * r.2 + 4 * w.2) w.1)) ++
        cx.plazaWord (l.off + 0x14) (l.flags + 1) else []
    let ws := res.flatMap fun r =>
      (((r.2.c ++ [r.2.t, r.2.s]).zipIdx).map fun w => ((cx.sp.winbase + dn + w.2) * 96 + r.1, BitVec.ofNat 32 w.1))
    let bytes := if cx.st.isReplay || !errs.isEmpty then [] else sorted ++ stops
    let op := { Op.blank cx (.splat false bytes) with pendV := cx.destV d 5, lanes := cx.part, vres := ws }
    cx.engineAccess (cx.flagOf (f == 1)) op (reachedOf good) errs

end Sys2Proof.Machine
end

