-- ==== Sys2Proof/Machine/Adjoints.lean ====
section
/-! DEFINITION. The adjoint instructions (R230-R236, R322, R350, R353, R365, R378) and their contributions. -/

namespace Sys2Proof.Machine

/-! Forming contributions. -/

/-- The contributions of a lane in emission order: target and fp32 value before the LOSSEXP conversion. -/
abbrev Emits := List (Addr × Nat)

/-- Reaches the targets of a lane's contributions and forms them (R225, R226): the items and the flags. A fault comes with the
context after the accesses before it. -/
def Cx.formLane (cx : Cx) (lane : Nat) : Nat -> Emits -> Except (Exn × Cx) (List BufItem × BitVec 6 × Cx)
  | _, [] => .ok ([], 0, cx)
  | j, e :: t =>
    match cx.reach .write false 4 .row lane e.1 with
    | (.error x, cx) => .error (x, cx)
    | (.ok p, cx) =>
      let c := cx.contribution p e.1 e.2 lane j
      (cx.formLane lane (j + 1) t).map fun r => (c.1 :: r.1, c.2 ||| r.2.1, r.2.2)

/-- Forms the contributions of every lane: those formed, their flags, the lanes that passed, and the faults. -/
def Cx.formLanes (cx : Cx) (es : List (Nat × Emits)) : Cx × List BufItem × List Nat × List (Nat × Exn) :=
  es.foldl (fun r e =>
    match r.1.formLane e.1 0 e.2 with
    | .ok (bs, f, cx) => (cx.raiseFlags f, r.2.1 ++ bs, r.2.2.1 ++ [e.1], r.2.2.2)
    | .error (x, cx) => (cx, r.2.1, r.2.2.1, r.2.2.2 ++ [(e.1, x)])) (cx, [], [], [])

/-- The checks of an adjoint's targets before any effect (R226, R350, R378): checks 1 to 3 of R143, and room for its
contributions, which are a region of their own (R230, R246). -/
def Cx.checkEmits (cx : Cx) (es : List (Nat × Emits)) : Except Stop Unit := do
  cx.staticLanes 4 true [1, 2] (es.flatMap fun e => e.2.map fun c => (e.1, c.1))
  let n := 8 * (es.map fun e => e.2.length).sum
  cx.need (cx.st.recomputing || decide (n ≤ Config.releaseBytes)) .releaseOverflow

/-- A checkpoint in which the issuing split, whose adjoint issues again, starts it whole (R230). -/
def Stream.checkpointWhole (st : Stream) (k : Nat) : Stream :=
  let whole := fun (p : Split) => if p.num = k then { p with retry := none, retryOp := none, serial := none } else p
  { st.checkpoint with ckpt := some { st.snapshot with splits := st.vis.splits.map whole } }

/-- The commit before an adjoint that issues again for some of its lanes (R230): of everything but its own contributions, which stay
with the region that it forms. A kill before its completion replays it whole. -/
def Cx.reopen (cx : Cx) : Except Stop Cx :=
  let mine := fun (b : BufItem) => cx.sp.serial == some b.issue
  let bs := cx.st.buffer.filter fun b => !mine b
  let open_ := { cx.s with ops := cx.s.ops.filter fun o => some o.1 != cx.sp.retryOp }
  if cx.s.rasterBusy cx.id cx.st then .error (.hold .raster)
  else if open_.adjointOpen cx.id then .error (.hold .adjoints)
  else if cx.s.logFull { cx.st with buffer := bs } then .error (.hold .scatterLog)
  else
    .ok (cx.onState fun s =>
      (s.commitItems cx.id bs (cx.st.buffer.filter mine)).onStream cx.id (Stream.checkpointWhole · cx.sp.num))

/-- The commit before an adjoint issues (R230); a recomputation commits nothing (R242). -/
def Cx.openRegion (cx : Cx) : Except Stop Cx :=
  if cx.st.recomputing then .ok cx else if cx.sp.retry.isSome then cx.reopen else cx.commit

/-- The form of an adjoint instruction: it commits, so trap mode refuses it (R261). -/
def Desc.adjoint (os : List Opnd) : Desc := { Desc.lane os with commits := true }

/-- A short-latency adjoint (R230, R350): its contributions, then what `after` does for the lanes that passed, then the
commit of its own region. -/
def Cx.shortAdjoint (cx : Cx) (es : List (Nat × Emits)) (after : Cx -> List Nat -> Cx) : Except Stop Cx := do
  cx.checkEmits es
  let cx0 ← cx.openRegion
  afterCommit cx0 do
    let (cx, items, good, errs) := cx0.formLanes es
    let cx ← cx.buffer (items.map fun b => { b with own := true })
    let cx := after cx good
    let reached := reachedOf good
    let err := laneFault reached errs
    let cx := { cx with ckpt := cx.ckpt && err.isNone }
    let cx ← cx.faultAfter reached err
    if cx.st.recomputing then .ok cx
    else if cx.s.logFull cx.st then .error (.wait cx0.logHold .scatterLog)
    else Cx.commit { cx with st := cx.st.disown cx.sp.serial }

/-- The contributions of a long-latency adjoint with its stamp, and those of its earlier lanes that wait in the release buffer:
together they are its own region (R230). -/
def Cx.ownItems (cx : Cx) (items : List BufItem) : Cx × List BufItem :=
  let n := cx.stampNo
  let again := cx.sp.retry.isSome
  let old := if again then cx.st.buffer.filter fun b => b.issue == n else []
  let rest := if again then cx.st.buffer.filter fun b => b.issue != n else cx.st.buffer
  ({ cx with st := { cx.st with buffer := rest, stamp := cx.st.stamp + 1 }, sp := { cx.sp with serial := some n } },
   (items.map fun b => { b with issue := n }).foldl (fun l b => insertItem b l) old)

/-- A long-latency adjoint (R230, R231), its region open: its contributions commit together when the operation completes, and the
replay of a kill before that starts at the instruction. `errs` are the faults that its lanes met before their targets. -/
def Cx.longAdjoint (cx : Cx) (flag : Option Nat) (kind : OpKind) (es : List (Nat × Emits)) (errs : List (Nat × Exn)) :
    Except Stop Cx := do
  let (cx, items, good, more) := cx.formLanes es
  let (cx, items) := if cx.st.recomputing then (cx, []) else cx.ownItems items
  let errs := errs ++ more
  let hard := errs.any fun e => e.2.code != .eccUncorrectable
  let cx := { cx with ckpt := false, later := !hard && !cx.st.recomputing }
  cx.engineAccess flag { Op.blank cx kind with lanes := cx.part, contribs := items } (reachedOf good) errs

/-- The same after its checks and the commit before it. -/
def Cx.openAdjoint (cx : Cx) (flag : Option Nat) (kind : OpKind) (es : List (Nat × Emits)) (errs : List (Nat × Exn)) :
    Except Stop Cx := do
  cx.checkEmits es
  cx.flagRoom flag
  let cx ← cx.openRegion
  afterCommit cx (cx.longAdjoint flag kind es errs)

/-! Exact sums of weighted upstream gradients. -/

/-- The sum of upstream gradients times exact coefficients, rounded once to fp32 (R230). -/
def weighted (ts : List (Num × Rat2)) : Nat :=
  let bad := ts.any fun t => t.1.isNan || (t.1.isInf && t.2.isZero)
  let sign := fun (t : Num × Rat2) => t.1.neg != decide (t.2.n < 0)
  let infs := ts.filter fun t => t.1.isInf
  if bad || (infs.any sign && infs.any fun t => !sign t) then Ty.f32.nanCode
  else if infs.any sign then Ty.f32.infCode true
  else if !infs.isEmpty then Ty.f32.infCode false
  else ((ts.foldl (fun a t => a.add ((Rat2.ofNum t.1).mul t.2)) (Rat2.ofInt 0)).round .f32 .rne).1

/-! RASADJ. -/

/-- The value and a partial derivative of an exact expression. -/
structure Dual where
  v : Rat2
  d : Rat2
  deriving DecidableEq, Repr

/-- A constant. -/
def Dual.const (v : Rat2) : Dual := { v := v, d := Rat2.ofInt 0 }
/-- Sum. -/
def Dual.add (a b : Dual) : Dual := { v := a.v.add b.v, d := a.d.add b.d }
/-- Difference. -/
def Dual.sub (a b : Dual) : Dual := { v := a.v.sub b.v, d := a.d.sub b.d }
/-- Product. -/
def Dual.mul (a b : Dual) : Dual := { v := a.v.mul b.v, d := (a.d.mul b.v).add (a.v.mul b.d) }
/-- Quotient by an expression that is not 0. -/
def Dual.div (a b : Dual) : Dual :=
  { v := a.v.div b.v, d := ((a.d.mul b.v).sub (a.v.mul b.d)).div (b.v.mul b.v) }

/-- The variables of an expression, the `k`-th of which is differentiated by. -/
def dualVars (vs : List Rat2) (k : Nat) : List Dual :=
  vs.zipIdx.map fun e => { v := e.1, d := Rat2.ofInt (if e.2 = k then 1 else 0) }

/-- A variable of a list. -/
def dualAt (vs : List Dual) (i : Nat) : Dual := nth (Dual.const (Rat2.ofInt 0)) vs i

/-- E of R211 on exact expressions. -/
def dualEdge (ax ay bx by_ px py : Dual) : Dual :=
  ((bx.sub ax).mul (py.sub ay)).sub ((by_.sub ay).mul (px.sub ax))

/-- b1 and b2 of R232 with their derivatives by variable k of x0, y0, x1, y1, x2, y2; none when the area is 0. -/
def baryDuals (q : List Rat2) (px py : Nat) (k : Nat) : Option (Dual × Dual) :=
  let v := dualVars q k
  let x := fun i => dualAt v (2 * i)
  let y := fun i => dualAt v (2 * i + 1)
  let half := fun (n : Nat) => Dual.const { n := 2 * (n : Int) + 1, d := 1, e := -1 }
  let area := dualEdge (x 0) (y 0) (x 1) (y 1) (x 2) (y 2)
  if area.v.isZero then none
  else
    some ((dualEdge (x 2) (y 2) (x 0) (y 0) (half px) (half py)).div area,
          (dualEdge (x 0) (y 0) (x 1) (y 1) (half px) (half py)).div area)

/-- E of R211 as a number, for vertices that may be infinite. -/
def edgeNum (ax ay bx by_ px py : Num) : Num :=
  let sub := fun (a b : Num) => (a.add false b.negate).1
  (((sub bx ax).mul (sub py ay)).1.add false ((sub by_ ay).mul (sub px ax)).1.negate).1

/-- The contributions of RASADJ for one lane (R232). An infinite vertex whose area is no NaN leaves the six values open
(DESIGN CHOICE, log 4). -/
def rasEmits (w : Nat -> Nat) (g : Addr) (fresh : Nat) : Emits :=
  let num := fun i => valueOf .f32 (w i)
  let px := w 6 % 65536
  let py := w 6 / 65536
  let addr := fun (k a : Nat) => g + BitVec.ofNat 64 (8 * w (9 + k) + 4 * a)
  let area := edgeNum (num 0) (num 1) (num 2) (num 3) (num 4) (num 5)
  let nan := ([0, 1, 2, 3, 4, 5, 7, 8].any fun i => isNanS (w i)) || area.isNan
  if nan then []
  else if !((List.range 6).all fun i => finS (w i)) then
    (List.range 6).map fun i => (addr (i / 2) (i % 2), (Config.freeWord (fresh + i)).toNat)
  else
    let q := (List.range 6).map fun i => Rat2.ofS (w i)
    (List.range 6).filterMap fun i =>
      (baryDuals q px py i).map fun b => (addr (i / 2) (i % 2), weighted [(num 7, b.1.d), (num 8, b.2.d)])

/-- RASADJ (R230-R232, R350). -/
def execRasadj (d a : BitVec 7) (s : State) : Host.Outcome State Fault Refusal :=
  issue s { Desc.adjoint [(Opnd.srcV d).many 12, (Opnd.srcS a).pair] with ok := decide (d.toNat ≤ 52) } fun cx =>
    let g := cx.scalar64 (regNo a)
    let f := cx.s.fresh
    let es := (lanesOf cx.part).map fun l =>
      (l, rasEmits (fun i => (cx.vec (d.toNat + i) l).toNat) g ((f * 128 + l) * 8))
    { cx with s := cx.s.bump }.shortAdjoint es fun cx _ => cx

/-! RTADJ. -/

/-- The cross product. -/
def dualCross (a b : List Dual) : List Dual :=
  let x := dualAt a
  let y := dualAt b
  [((x 1).mul (y 2)).sub ((x 2).mul (y 1)), ((x 2).mul (y 0)).sub ((x 0).mul (y 2)),
   ((x 0).mul (y 1)).sub ((x 1).mul (y 0))]

/-- The dot product. -/
def dualDot (a b : List Dual) : Dual :=
  (((dualAt a 0).mul (dualAt b 0)).add ((dualAt a 1).mul (dualAt b 1))).add ((dualAt a 2).mul (dualAt b 2))

/-- The difference of two vectors. -/
def dualSub (a b : List Dual) : List Dual := (a.zip b).map fun e => e.1.sub e.2

/-- t, u and v of R234 with their derivatives by variable k of o, d, V0, V1, V2; none when n = 0 or d.n = 0. -/
def rayDuals (vs : List Rat2) (k : Nat) : Option (List Dual) :=
  let v := dualVars vs k
  let part := fun i => (v.drop (3 * i)).take 3
  let o := part 0
  let d := part 1
  let e1 := dualSub (part 3) (part 2)
  let e2 := dualSub (part 4) (part 2)
  let n := dualCross e1 e2
  let dn := dualDot d n
  let nn := dualDot n n
  if dn.v.isZero || nn.v.isZero then none
  else
    let t := (dualDot (dualSub (part 2) o) n).div dn
    let x := (o.zip d).map fun e => e.1.add (t.mul e.2)
    let xv := dualSub x (part 2)
    some [t, (dualDot (dualCross xv e2) n).div nn, (dualDot (dualCross e1 xv) n).div nn]

/-- The gradients of RTADJ by o, d, V0, V1, V2 (R234); none when the instruction forms nothing. -/
def rayGrads (vs gs : List Nat) (fresh : Nat) : Option (List Nat) :=
  if vs.any isNanS then some (List.replicate 15 Ty.f32.nanCode)
  else if !vs.all finS then some ((List.range 15).map fun i => (Config.freeWord (fresh + i)).toNat)
  else
    let rs := vs.map Rat2.ofS
    ((List.range 15).map fun k =>
      (rayDuals rs k).map fun q => weighted ((gs.zip q).map fun e => (valueOf .f32 e.1, e.2.d))).foldr
        (fun a b => match a, b with
          | some x, some t => some (x :: t)
          | _, _ => none) (some [])

/-- RTADJ (R230, R231, R234, R353). -/
def execRtadj (d a : BitVec 7) (s : State) : Host.Outcome State Fault Refusal :=
  let dn := d.toNat
  let an := a.toNat
  let apart := dn + 19 < an ∨ an + 15 < dn + 14
  issue s { Desc.adjoint [(Opnd.srcV d).evenMany 20, (Opnd.srcV a).many 16] with
      ok := decide (dn ≤ 44) && decide (an ≤ 48) && decide apart } fun cx =>
    let f := cx.s.fresh
    let res : List (Nat × Option (List Nat) × Addr × Nat) := (lanesOf cx.part).map fun l =>
      let x := fun i => (cx.vec (dn + i) l).toNat
      let r := fun i => (cx.vec (an + i) l).toNat
      let vs := ((List.range 6).map r) ++ (List.range 9).map fun i => x (2 + i)
      (l, if r 8 = 0xFFFFFFFF then none else rayGrads vs [x 11, x 12, x 13] ((f * 128 + l) * 16), cx.lane64 d l,
       r 8 / 128)
    let es := res.map fun r =>
      (r.1, match r.2.1 with
        | none => []
        | some g => (List.range 9).map fun i =>
            (r.2.2.1 + BitVec.ofNat 64 (36 * r.2.2.2 + 4 * i), nth 0 g (6 + i)))
    let after := fun (cx : Cx) (good : List Nat) => res.foldl (fun (c : Cx) r =>
      if good.contains r.1 then
        c.setVecs (dn + 14) r.1 (match r.2.1 with
          | none => List.replicate 6 0
          | some g => (g.take 6).map (BitVec.ofNat 32))
      else c) cx
    { cx with s := cx.s.bump }.shortAdjoint es after

/-! TEXADJ. -/

/-- Taps of a sample whose result the spec does not state: free ones (DESIGN CHOICE, log 4). -/
def Shape.openTaps (s : Shape) (fresh : Nat) : List Tap :=
  (List.range 4).map fun i =>
    let f := fun j => (Config.freeWord (fresh + 4 * i + j)).toNat
    let m := f 0 % s.levels
    { w := f 1 % (2 ^ 24 + 1), m := m, x := f 2 % s.levelW m, y := f 3 % s.levelH m }

/-- The contributions of TEXADJ for one lane (R233): `s` is the texture, `gt` the gradient texture. -/
def texEmits (s gt : Shape) (smp : Sample) (g : Nat -> Nat) (fresh : Nat) : Emits :=
  let (taps, n) := match smp with
    | .nan => ([], 1)
    | .open_ => (s.openTaps fresh, 1)
    | .taps ts n => (ts, n)
  (taps.filter fun t => t.w != 0).flatMap fun t => (List.range 4).map fun c =>
    (gt.texel t.m t.x t.y c, weighted [(valueOf .f32 (g c), { n := t.w, d := n, e := -24 })])

/-- TEXADJ (R230, R231, R233, R378). -/
def execTexadj (d a : BitVec 7) (t : BitVec 3) (f : BitVec 1) (m : BitVec 2) (s : State) :
    Host.Outcome State Fault Refusal :=
  let filter := t.toNat
  issue s { Desc.adjoint [(Opnd.srcV d).many 8, (Opnd.srcS a).many 2] with
      legal := decide (filter < 6) && m != 3, flag := some (f == 1), ok := decide (d.toNat ≤ 56) && decide (regNo a ≤ 62),
      free := s.issueHas fun cx => hasX filter || !(cx.quadPending d.toNat || cx.quadPending (d.toNat + 1)) }
    fun cx => do
    let (sh, cx) ← cx.texture (cx.scalar (regNo a))
    let (gt, cx) ← cx.texture (cx.scalar (regNo a + 1))
    cx.need (Ty.ofCode gt.etype == some .f32 && tagOf gt.base == 0 && gt.dims == sh.dims) .illegalOperand
    let dn := d.toNat
    let fr := cx.s.fresh
    cx.quadsSound filter dn
    let smp := (lanesOf cx.part).map fun l => (l, cx.sampleLane sh filter m.toNat dn l)
    let es := smp.map fun e =>
      (e.1, texEmits sh gt e.2 (fun c => (cx.vec (dn + 4 + c) e.1).toNat) ((fr * 128 + e.1) * 16))
    let cx := if smp.any fun e => e.2 == .nan then cx.raiseFlags fIV else cx
    { cx with s := cx.s.bump }.openAdjoint (cx.flagOf (f == 1)) .texadj es []

/-! EDGS. -/

/-- An fp32 code as fp64, exactly. -/
def widen (x : Nat) : Nat := (roundTo .f64 .rne (valueOf .f32 x)).1
/-- fp64 RNE: a + b. -/
def dAdd (a b : Nat) : Nat := (addD a b).1
/-- fp64 RNE: a - b. -/
def dSub (a b : Nat) : Nat := (subD a b).1
/-- fp64 RNE: a * b. -/
def dMul (a b : Nat) : Nat := (mulD a b).1
/-- fp64 RNE: a / b. -/
def dDiv (a b : Nat) : Nat := (divD a b).1
/-- -a in fp64, as the sign bit. -/
def dNeg (a : Nat) : Nat := a ^^^ 2 ^ 63
/-- 1.0 in fp64. -/
def dOne : Nat := 0x3FF0000000000000

/-- The part of [0, 1] that keeps one coordinate of the edge in [p, p + 1] (R235). -/
def clipAxis (x0 x1 : Rat2) (p : Nat) : Option (Rat2 × Rat2) :=
  let lo := (Rat2.ofInt p).sub x0
  let hi := (Rat2.ofInt (p + 1)).sub x0
  let dx := x1.sub x0
  if dx.isZero then if decide (lo.n > 0) || decide (hi.n < 0) then none else some (Rat2.ofInt 0, Rat2.ofInt 1)
  else
    let a := lo.div dx
    let b := hi.div dx
    if a.lt b then some (a, b) else some (b, a)

/-- The lesser of two rationals. -/
def Rat2.min (a b : Rat2) : Rat2 := if b.lt a then b else a
/-- The greater of two rationals. -/
def Rat2.max (a b : Rat2) : Rat2 := if a.lt b then b else a

/-- sa and sb of R235 in fp64; none for an empty set. -/
def clipEdge (x0 y0 x1 y1 : Rat2) (px py : Nat) : Option (Nat × Nat) :=
  match clipAxis x0 x1 px, clipAxis y0 y1 py with
  | some a, some b =>
    let lo := (Rat2.ofInt 0).max (a.1.max b.1)
    let hi := (Rat2.ofInt 1).min (a.2.min b.2)
    if hi.lt lo then none else some ((lo.round .f64 .rne).1, (hi.round .f64 .rne).1)
  | _, _ => none

/-- The contributions of EDGS for one lane (R235): `w` are its registers, `c` the six image components, inside first.
An infinite end point leaves the four values open (DESIGN CHOICE, log 4). -/
def edgEmits (w : Nat -> Nat) (c : Nat -> Nat) (g : Addr) (h fresh : Nat) : Emits :=
  let px := w 4 % 65536
  let py := w 4 / 65536
  let addr := fun (i a : Nat) => g + BitVec.ofNat 64 (8 * w (5 + i) + 4 * a)
  let places := [addr 0 0, addr 0 1, addr 1 0, addr 1 1]
  if ([0, 1, 2, 3, 7, 8, 9].any fun i => isNanS (w i)) || (List.range 6).any fun i => isNanS (c i) then []
  else if !((List.range 4).all fun i => finS (w i)) then
    (places.zipIdx).map fun p => (p.1, (Config.freeWord (fresh + p.2)).toNat)
  else
    let x := fun i => widen (w i)
    let dx := dSub (x 2) (x 0)
    let dy := dSub (x 3) (x 1)
    let len := (floatSqrt .f64 .rne (dAdd (dMul dx dx) (dMul dy dy))).1
    match clipEdge (Rat2.ofS (w 0)) (Rat2.ofS (w 1)) (Rat2.ofS (w 2)) (Rat2.ofS (w 3)) px py with
    | none => []
    | some (sa, sb) =>
      if (valueOf .f64 len).isZero || !(valueOf .f64 sa).lt (valueOf .f64 sb) then []
      else
        let tau := (roundRat .f64 .rne false (2 * (h / 2 ^ 40) + 1) 1 (-25)).1
        let gap := dSub sb sa
        let sv := dAdd sa (dMul tau gap)
        let ell := dMul gap len
        let nx := dDiv dy len
        let ny := dDiv (dNeg dx) len
        let term := fun i => dMul (widen (w (7 + i))) (dSub (widen (c i)) (widen (c (3 + i))))
        let wt := dAdd (dAdd (term 0) (term 1)) (term 2)
        let k := dMul wt ell
        let out := fun (a n : Nat) => (roundTo .f32 .rne (valueOf .f64 (dMul a n))).1
        let k0 := dMul k (dSub dOne sv)
        let k1 := dMul k sv
        places.zip [out k0 nx, out k0 ny, out k1 nx, out k1 ny]

/-- EDGS (R230, R231, R235, R322). -/
def execEdgs (d a : BitVec 7) (f : BitVec 1) (s : State) : Host.Outcome State Fault Refusal :=
  issue s { Desc.adjoint [(Opnd.srcV d).many 10, (Opnd.srcS a).evenMany 4] with
      flag := some (f == 1), ok := decide (d.toNat ≤ 54) && decide (regNo a ≤ 60) } fun cx => do
    let (ins, cx) ← cx.texture (cx.scalar (regNo a))
    let (outs, cx) ← cx.texture (cx.scalar (regNo a + 1))
    cx.need (Ty.ofCode ins.etype == some .f32 && Ty.ofCode outs.etype == some .f32) .illegalOperand
    let g := cx.scalar64 (regNo a + 2)
    let dn := d.toNat
    let w := fun (l i : Nat) => (cx.vec (dn + i) l).toNat
    let px := fun l => w l 4 % 65536
    let py := fun l => w l 4 / 65536
    let within := fun (sh : Shape) l => decide (px l < sh.levelW 0 ∧ py l < sh.levelH 0)
    cx.needLanes (fun l => within ins l && within outs l) .illegalOperand
    let as := (lanesOf cx.part).map fun l =>
      (l, ((List.range 3).map fun c => ins.texel 0 (px l) (py l) c) ++ (List.range 3).map fun c => outs.texel 0 (px l) (py l) c)
    cx.staticLanes 4 false [1, 2] (as.flatMap fun e => e.2.map fun x => (e.1, x))
    let cx ← cx.mapWs (as.flatMap (·.2))
    let (cx, oks, more) := cx.gatherLanes 4 as
    let (vs, cx) ← cx.readLists 4 oks
    let fr := cx.s.fresh
    let es := vs.map fun e =>
      (e.1, edgEmits (w e.1) (fun i => nth 0 e.2 i) g (hBits cx.sp.srseed.toNat cx.sp.dii.toNat e.1 0)
        ((fr * 128 + e.1) * 4))
    { cx with s := cx.s.bump }.openAdjoint (cx.flagOf (f == 1)) .edgs es more

/-! SPLADJ. -/

/-- The records that SPLC composited for a pixel, oldest first, each with its transmittance before it, and the final
transmittance (R236). -/
def splatTrace (rs : List SplatRec) (px : Nat × Nat) : List (SplatRec × SplatTerm × Nat) × Nat :=
  rs.foldl (fun a r =>
    match splatTerm r px with
    | none => a
    | some k => (a.1 ++ [(r, k, a.2)], mulS a.2 (subS 0x3F800000 k.al))) ([], 0x3F800000)

/-- The dot product over R, G and B (R236). -/
def dotS (a b : List Nat) : Nat :=
  addS (addS (mulS (nth 0 a 0) (nth 0 b 0)) (mulS (nth 0 a 1) (nth 0 b 1))) (mulS (nth 0 a 2) (nth 0 b 2))

/-- One record of SPLADJ (R236): its nine values and S after it. -/
def splatBack (gc : List Nat) (gt ts : Nat) (e : SplatRec × SplatTerm × Nat) (sv : List Nat) : List Nat × List Nat :=
  let (r, k, ti) := e
  let w := fun i => nth 0 r i
  let two := 0x40000000
  let col := [w 8, w 9, w 10]
  let ta := mulS ti k.al
  let gcol := gc.map (mulS ta)
  let ga := subS (dotS gc (col.map (mulS ti))) (divS (addS (dotS gc sv) (mulS gt ts)) (subS 0x3F800000 k.al))
  let sv := (sv.zip col).map fun x => addS x.1 (mulS ta x.2)
  let ga := if ltS k.og 0 || ltS splatMax k.og then 0 else ga
  let gop := mulS ga k.g
  let gq := mulS (mulS ga (w 5)) (mulS 0xBF000000 k.g)
  let gx := mulS gq (negS (mulS two (addS (mulS (w 2) k.dx) (mulS (w 3) k.dy))))
  let gy := mulS gq (negS (mulS two (addS (mulS (w 3) k.dx) (mulS (w 4) k.dy))))
  ([gx, gy, mulS (mulS gq k.dx) k.dx, mulS (mulS gq (mulS two k.dx)) k.dy, mulS (mulS gq k.dy) k.dy, gop] ++ gcol, sv)

/-- The contributions of SPLADJ for one pixel (R236): the records below s, from the last to the first. -/
def splatEmits (rs : List SplatRec) (px : Nat × Nat) (gc : List Nat) (gt : Nat) (g : Addr) : Emits :=
  let (tr, ts) := splatTrace rs px
  (tr.reverse.foldl (fun a e =>
    let r := splatBack gc gt ts e a.2
    let at_ := g + BitVec.ofNat 64 (48 * nth 0 e.1 7)
    (a.1 ++ ([0, 1, 2, 3, 4, 5, 8, 9, 10].zip r.1).map (fun w => (at_ + BitVec.ofNat 64 (4 * w.1), w.2)), r.2))
    (([] : Emits), [0, 0, 0])).1

/-- Reads the stop word of each lane's pixel (R236). -/
def Cx.stopWords (cx : Cx) (l : SplatList) (px : Nat -> Nat) : List Nat -> Except Stop (List (Nat × Nat) × Cx)
  | [] => .ok ([], cx)
  | ln :: t => do
    let off := l.stop + 4 * px ln
    let (v, cx) ← cx.readAt (plazaAddr off) (cx.plazaPlace off) 4
    let (vs, cx) ← cx.stopWords l px t
    .ok ((ln, v) :: vs, cx)

/-- What SPLADJ reads and forms (R236) once the region before it has committed (R365): the list, the stop words, the contributions
of each lane, and the errors that the unit's reads meet (R266). -/
def Cx.splatAdjoint (cx : Cx) (off dn : Nat) (g : Addr) : Except Stop (List (Nat × Emits) × List (Nat × Exn) × Cx) := do
  let (l, cx) ← cx.splatList off
  cx.need (l.flags % 2 == 1) .illegalOperand
  let w := fun (ln i : Nat) => (cx.vec (dn + i) ln).toNat
  cx.needLanes (fun ln => decide (w ln 0 < 256)) .illegalOperand
  let errs := if cx.badAt (cx.plazaPlace l.stop) 1024 then
      (lanesOf cx.part).map fun ln => (ln, Exn.ecc 3 (plazaAddr l.stop)) else cx.listErrors l
  let (rs, cx) ← cx.splatRecs l.recs l.count
  let (stops, cx) ← cx.stopWords l (fun ln => w ln 0) (lanesOf cx.part)
  cx.need (stops.all fun e => decide (e.2 ≤ l.count)) .illegalOperand
  let es := stops.map fun e =>
    (e.1, splatEmits (rs.take e.2) (l.pixel (w e.1 0)) [w e.1 1, w e.1 2, w e.1 3] (w e.1 4) g)
  .ok (if errs.isEmpty then es else [], errs, cx)

/-- SPLADJ (R230, R231, R236, R364, R365): it commits the region before it reads its list. -/
def execSpladj (d a : BitVec 7) (f : BitVec 1) (s : State) : Host.Outcome State Fault Refusal :=
  issue s { Desc.adjoint [(Opnd.srcV d).many 5, (Opnd.srcS a).evenMany 4] with
      flag := some (f == 1), ok := decide (d.toNat ≤ 59) && decide (regNo a ≤ 60) } fun cx => do
    must (cx.scalar (regNo a + 1) == 0) .illegalOperand
    cx.flagRoom (cx.flagOf (f == 1))
    let cx ← cx.openRegion
    afterCommit cx do
      let (es, errs, cx) ← cx.splatAdjoint (cx.scalar (regNo a)).toNat d.toNat (cx.scalar64 (regNo a + 2))
      cx.checkEmits es
      cx.longAdjoint (cx.flagOf (f == 1)) (.splat true []) es errs

end Sys2Proof.Machine
end

