-- ==== Sys2Proof/Machine/Sync.lean ====
section
/-! DEFINITION. Quarters and named barriers (R33-R38, R310, R311, R328), queue ports (R39, R41, R349), job cards and
occlusion queries (R68-R73, R345, R347), and collectives (R272, R273, R317). -/

namespace Sys2Proof.Machine

/-! Barriers. -/

/-- What a barrier instruction names: its quarter, its declared count, and the key of the barrier in the cluster. -/
structure BarName where
  quarter : Nat
  decl    : Nat
  key     : Nat
  deriving DecidableEq, Repr

/-- The operand of a barrier instruction (R34, R37). -/
def Cx.barName (cx : Cx) (a b : BitVec 7) : Except Stop (BarName × Cx) := do
  let (x, cx) ← cx.readS (regNo a)
  let n := x.toNat
  cx.need (bits n 7 4 == 0 && bits n 31 16 == 0) .illegalOperand
  let q := bits n 3 0
  .ok ({ quarter := q, decl := bits n 15 8, key := q % 4 * 128 + b.toNat }, cx)

/-- What the issuer's cluster keeps for its launch. -/
def Cx.bay (cx : Cx) : Bay := cx.s.bay cx.st.launch cx.st.cl

/-- Replaces it. -/
def Cx.putBay (cx : Cx) (c : Bay) : Cx := { cx with s := cx.s.putBay cx.st.launch cx.st.cl c }

/-- The barrier that an instruction names. -/
def Cx.barrierAt (cx : Cx) (n : BarName) : Barrier := cx.bay.barrier n.key

/-- The conditions of R34, R37 and R311: a member, and a barrier that is free or bound as the operand says. -/
def Cx.checkBarrier (cx : Cx) (n : BarName) : Except Stop Unit := do
  let b := cx.barrierAt n
  cx.need ((cx.bay.members n.quarter).contains cx.id) .illegalOperand
  cx.need (!b.bound || (b.quarter == n.quarter && b.decl == n.decl)) .illegalOperand

/-- The barrier as an arrival finds it: a free one becomes bound (R35, R37). -/
def Barrier.bind (b : Barrier) (n : BarName) (members : Nat) : Barrier :=
  if b.bound then b
  else
    { b with bound := true, quarter := n.quarter, decl := n.decl,
             expected := if n.decl = 0 then members else n.decl, kept := n.decl, arrived := [], partly := [],
             early := [], earlyPart := [], waiting := [] }

/-- Stores a barrier, completes its phase, and lets go what waited for it (R35). -/
def Cx.putBarrier (cx : Cx) (n : BarName) (b : Barrier) : Cx :=
  cx.onState fun s =>
    let c := s.bay cx.st.launch cx.st.cl
    let b := b.complete (c.members n.quarter).length
    (s.putBay cx.st.launch cx.st.cl { c with barriers := Sp.set Barrier.free c.barriers n.key b }).settle

/-- The phase that an arrival counts for: the next one once the wave has arrived in this one (R36). -/
def Barrier.phaseOf (b : Barrier) (sid : Nat) : Nat := if b.arrived.contains sid then b.phase + 1 else b.phase

/-- The wait for a phase, unless it is over (R35). -/
def Cx.waitBarrier (cx : Cx) (n : BarName) (ph : Nat) : Except Stop Cx :=
  let b := cx.barrierAt n
  if b.phase > ph then .ok cx
  else
    let b := { b with waiting := b.waiting ++ [(cx.id, cx.sp.num, ph)] }
    let cx := cx.putBay { cx.bay with barriers := Sp.set Barrier.free cx.bay.barriers n.key b }
    .error (.wait cx (.barrierWait n.key ph))

/-- An arrival (R35, R36, R311): the commit, then the arrival; a further arrival is held before both. The phase it
counts for. A replay only commits (R301). -/
def Cx.arriveAt (cx : Cx) (n : BarName) : Except Stop (Nat × Cx) := do
  if cx.st.isReplay then do
    let cx ← cx.commit
    .ok (0, cx)
  else do
    cx.checkBarrier n
    let b := (cx.barrierAt n).bind n (cx.bay.members n.quarter).length
    match b.arrive cx.id cx.sp.num (cx.st.vis.splits.map (·.num)) with
    | none => .error (.hold (.barrierArrive n.key b.phase))
    | some b' =>
      let cx ← cx.commit
      .ok (b.phaseOf cx.id, cx.putBarrier n b')

/-- The form of a barrier instruction. -/
def Desc.barrier (a : BitVec 7) (commits : Bool) : Desc :=
  { Desc.split [.srcS a] with commits := commits, recomp := false }

/-- BARA (R35, R310, R311). -/
def execBara (a b : BitVec 7) (s : State) : Host.Outcome State Fault Refusal :=
  issue s (Desc.barrier a true) fun cx => do
    let (n, cx) ← cx.barName a b
    let (_, cx) ← cx.arriveAt n
    .ok cx

/-- BARS (R35): BARA, then BARW. -/
def execBars (a b : BitVec 7) (s : State) : Host.Outcome State Fault Refusal :=
  issue s (Desc.barrier a true) fun cx => do
    let (n, cx) ← cx.barName a b
    let (ph, cx) ← cx.arriveAt n
    if cx.st.isReplay then .ok cx else cx.waitBarrier n ph

/-- BARW (R35, R311): it waits for the phase of the wave's latest arrival, or else for the current one. -/
def execBarw (a b : BitVec 7) (s : State) : Host.Outcome State Fault Refusal :=
  issue s (Desc.barrier a false) fun cx => do
    let (n, cx) ← cx.barName a b
    if cx.st.isReplay then .ok cx
    else do
      let bar := cx.barrierAt n
      cx.need ((cx.bay.members n.quarter).contains cx.id) .illegalOperand
      if !bar.bound then .ok cx
      else do
        cx.checkBarrier n
        let early := bar.early.contains cx.id || bar.earlyPart.contains (cx.id, cx.sp.num)
        cx.waitBarrier n (if early then bar.phase + 1 else bar.phase)

/-- JOIN (R33, R328). -/
def execJoin (q : BitVec 4) (s : State) : Host.Outcome State Fault Refusal :=
  issue s { Desc.split [] with recomp := false } fun cx =>
    .ok (if cx.st.isReplay then cx
      else cx.onState fun s => (s.putBay cx.st.launch cx.st.cl ((s.bay cx.st.launch cx.st.cl).join q.toNat cx.id)).settle)

/-- LEAVE (R33, R328). -/
def execLeave (q : BitVec 4) (s : State) : Host.Outcome State Fault Refusal :=
  issue s { Desc.split [] with recomp := false } fun cx =>
    .ok (if cx.st.isReplay then cx
      else cx.onState fun s => (s.putBay cx.st.launch cx.st.cl ((s.bay cx.st.launch cx.st.cl).leave q.toNat cx.id)).settle)

/-! Queue ports. -/

/-- The key of a queue's direction in the claims of a DET launch (R41): direction 0 is pop, 1 push. -/
def claimKey (cl q dir : Nat) : Nat := (cl * 32 + q) * 2 + dir

/-- QCFG (R39, R41, R349). A replay maps the port for itself alone: it takes no claim (R301). In a DET launch a second stream that
would map a direction makes the launch faulty: it completes with STATUS 3 whatever a handler does (R41). A vector code in D is illegal
on the MCC (R101) and QUEUE_CONFIG on a wave. -/
def execQcfg (d a : BitVec 7) (s : State) : Host.Outcome State Fault Refusal :=
  issue s { Desc.split [.srcS a] with
      recomp := false, legal := !(isVec d && s.issueHas fun cx => cx.st.isMcc) } fun cx => do
    must (decide (112 ≤ d.toNat ∧ d.toNat ≤ 119)) .queueConfig
    let (x, cx) ← cx.readS (regNo a)
    let n := x.toNat
    let dir := bits n 6 5
    cx.need (bits n 31 9 == 0 && !bit n 7 && dir != 3) .queueConfig
    let port := d.toNat - 112
    let q := bits n 4 0
    if bit n 8 then .ok { cx with st := { cx.st with vis := { cx.st.vis with ports := Tab.del cx.st.vis.ports port } } }
    else do
      let pop := dir != 2
      let push := dir != 1
      let keys := (if pop then [claimKey cx.st.cl q 0] else []) ++ (if push then [claimKey cx.st.cl q 1] else [])
      let claim := cx.la.det && !cx.st.isReplay
      if claim && !(keys.all fun k => (Tab.get? cx.la.claims k).getD cx.id == cx.id) then
        .error (.after { cx with s := cx.s.onLaunch cx.st.launch fun la => { la with bad := true } } (Exn.plain .queueConfig))
      let s := if claim then cx.s.onLaunch cx.st.launch fun la =>
        { la with claims := keys.foldl (fun m k => Tab.put m k cx.id) la.claims } else cx.s
      let ports := Tab.put cx.st.vis.ports port { queue := q, pop := pop, push := push }
      .ok { cx with s := s, st := { cx.st with vis := { cx.st.vis with ports := ports } } }

/-! Job cards. -/

/-- The cluster that a POST names (R69): its own, or a position of its sector; none where the sector has no such place. A
presented position is one also at or above the launch's NCLUS (DESIGN CHOICE, log 68). -/
def State.postTarget (s : State) (cl sub : Nat) : Option Nat :=
  if sub = 0 then some cl
  else
    let d := s.dieOf cl
    let i := 3 * (s.dieIndex cl / 3) + (sub - 1)
    if i < (s.dieRow d).length then some (s.dieBase d + i) else none

/-- Cards of a stage queue of a cluster that wait on it or are held for it in release buffers (R69). -/
def State.cardsOf (s : State) (launch : Nat) (la : Launch) (stage cl : Nat) : Nat :=
  (la.cards.filter fun c => c.stage == stage && c.cl == cl).length +
  ((s.streams.filter fun e => e.2.launch == launch && !e.2.isReplay).map fun e =>
    (e.2.buffer.filter fun b => match b.item with
      | .post c => c.stage == stage && c.cl == cl
      | _ => false).length).sum

/-- Cards that a stage queue holds, on chip and in its ring (R67). -/
def Stage.room (stg : Stage) : Nat := Config.chipCards + stg.ringn

/-- Whether a partition is still in use (R71): cards of it wait to be dealt, or its producer may still post to it. -/
def State.partLive (s : State) (launch : Nat) (la : Launch) (p : QPart) : Bool :=
  (la.cards.any fun c => c.stage == p.stage && c.cl == p.cl && c.prod == p.prod) ||
  s.streams.any fun e => e.2.launch == launch && !e.2.isReplay && !e.2.isMcc && e.2.producer == p.prod && e.2.life != .ended &&
    (decide (Sp.get 0 e.2.posts p.stage < p.size) || !e.2.buffer.isEmpty)

/-- Cards of a stage queue that no live partition holds (R71). -/
def State.freeCards (s : State) (launch : Nat) (la : Launch) (stage cl : Nat) (stg : Stage) : Nat :=
  stg.room - ((la.parts.filter fun p => p.stage == stage && p.cl == cl && s.partLive launch la p).map (·.size)).sum

/-- The digest records of a card (R202): one for each 8 bytes; the spec gives them no address, so it is free (DESIGN CHOICE, log 4). -/
def cardRecs (ws : List Word) : List DigestRec :=
  (List.range 4).map fun i =>
    { a := Config.freeDouble i, data := pair64 (nth 0 ws (2 * i)) (nth 0 ws (2 * i + 1)), mask := 0xFF, kind := 4, sub := 0 }

/-- The ROUTE conditions of R69 that the card itself breaks. -/
def badCard (la : Launch) (own : Option Nat) (ws : List Word) : Bool :=
  let w0 := (nth 0 ws 0).toNat
  let w1 := (nth 0 ws 1).toNat
  let stage := bits w0 15 0
  let obj := bits w0 31 16 + 65536 * bits w1 7 0
  let lanes := bits w1 14 8
  let below := match own with
    | none => false
    | some k => decide (stage ≤ k)
  let open_ := match la.stages[stage]? with
    | some g => la.det && obj != 0xFFFFF && !g.barrier
    | none => true
  below || open_ || decide (lanes > 95) || bit w1 15 || decide (bits w1 31 16 ≠ 0) || decide (obj > 0xFFFFF)

/-- POST (R68-R71, R347): the card is reserved at issue and held until the commit. -/
def execPost (d a : BitVec 7) (c : BitVec 4) (s : State) : Host.Outcome State Fault Refusal :=
  let aOk := decide (64 ≤ a.toNat ∧ a.toNat ≤ 104) && a.toNat % 8 == 0
  issue s { Desc.split [(Opnd.srcS a).many 8, .dstS d] with
      mcc := false, recomp := false, ok := aOk && decide (c.toNat < 4) } fun cx => do
    let ws := (List.range 8).map fun i => cx.scalar (regNo a + i)
    must (cx.la.routed && !badCard cx.la cx.st.stageOf ws) .route
    match cx.s.postTarget cx.st.cl c.toNat with
    | none => stopAt .route
    | some cl =>
      let stage := bits (nth 0 ws 0).toNat 15 0
      match cx.la.stages[stage]? with
      | none => stopAt .route
      | some stg =>
        let own := postCounts cx.st.posts cx.st.buffer
        let prod := cx.st.producer
        let card : Card := { stage := stage, cl := cl, prod := prod, seq := cx.st.postSeq + postsHeld cx.st.buffer,
                             rank := cx.st.rank, words := ws }
        let item : BufItem := { size := 32, item := .post card, recs := cardRecs ws, issue := 0, lane := 0, rel := none,
                                cached := false, own := false }
        let refuse := fun (cx : Cx) =>
          let more := fun (m : List (Nat × Nat)) => Sp.set 0 m stage (Sp.get 0 m stage + 1)
          let cx := if cx.st.isReplay then cx
            else { cx with s := cx.s.onLaunch cx.st.launch fun la => { la with refused := more la.refused },
                           st := { cx.st with refusals := more cx.st.refusals } }
          cx.writeS (regNo d) 0
        if cx.la.det then
          if Sp.get 0 own stage ≥ stg.quota then refuse cx
          else if cx.st.isReplay then do
            let cx ← cx.buffer [item]
            cx.writeS (regNo d) 1
          else do
            let have_ := cx.la.parts.any fun p => p.stage == stage && p.cl == cl && p.prod == prod
            if !have_ ∧ cx.s.freeCards cx.st.launch cx.la stage cl stg < stg.quota then
              .error (.hold (.partition stage cl))
            else do
              let cx ← cx.buffer [item]
              let part : QPart := { stage := stage, cl := cl, prod := prod, size := stg.quota }
              let cx := if have_ then cx
                else { cx with s := cx.s.onLaunch cx.st.launch fun la => { la with parts := la.parts ++ [part] },
                               st := { cx.st with newParts := (stage, cl) :: cx.st.newParts } }
              cx.writeS (regNo d) 1
        else if cx.flush.cardsOf cx.st.launch cx.la stage cl ≥ stg.room then refuse cx
        else do
          let cx ← cx.buffer [item]
          cx.writeS (regNo d) 1

/-- OCCQ (R73, R345): the bit is read at issue, and a selected wave logs it; a replay takes it from its log. -/
def execOccq (d a : BitVec 7) (f : BitVec 1) (c : BitVec 4) (s : State) : Host.Outcome State Fault Refusal :=
  issue s { Desc.split [.srcS a, (Opnd.dstS d).pending] with
      mcc := false, legal := scopeOk c, flag := some (f == 1) } fun cx => do
    let (x, cx) ← cx.readS (regNo a)
    cx.need (decide (x.toNat < 2 ^ 20)) .illegalOperand
    cx.need (cx.la.routed && cx.la.occtab != 0) .route
    let addr := cx.la.occtab + BitVec.ofNat 64 (x.toNat / 8)
    cx.flagRoom (cx.flagOf (f == 1))
    let op := fun (cx : Cx) (v : Nat) => { Op.blank cx .occq with
      pendS := destS d 1, sres := [(regNo d, BitVec.ofNat 32 v)] }
    if cx.st.isReplay then do
      let (v, cx) ← cx.takeLog 2
      cx.launchOp (cx.flagOf (f == 1)) (op cx (v.toNat % 2))
    else do
      cx.staticLanes 1 false [2] [(noLane, addr)]
      let (cx, oks, errs) := cx.reachAll .read true 1 .row [(noLane, addr)]
      let ps := oks.map (·.place)
      if cx.acquireHeld c.toNat ps then .error (.hold .acquire)
      let v := match oks with
        | r :: _ => cx.s.viewN cx.st r.place 1 / 2 ^ (x.toNat % 8) % 2
        | [] => 0
      let cx := if oks.isEmpty then cx
        else { cx with st := cx.st.logInput 2 1 (BitVec.ofNat 64 v) }.acquire ps
      let o := op cx v
      cx.engineAccess (cx.flagOf (f == 1)) (if oks.isEmpty then { o with sres := [] } else o) oks errs

/-! Collectives. -/

/-- The group size of a COLL (R273). -/
def Cx.groupSize (cx : Cx) (pod : Bool) : Nat := if pod then cx.s.podSize else cx.la.ncl

/-- The rank of the issuer in its group (R273). -/
def Cx.groupRank (cx : Cx) (pod : Bool) : Nat := if pod then cx.s.podRank else cx.st.cl

/-- Whether a stream may issue COLL in a DET launch (R273): the MCC, or the wave with w = 0 on core index 0. -/
def Cx.collStream (cx : Cx) : Bool :=
  match cx.st.kind with
  | .mcc => true
  | .wave => cx.st.core == 0 && cx.st.wid % max 1 cx.la.record.w == 0
  | .stage _ _ _ => false

/-- The destination's element count for a source's (R274): operations 0, 1 and 4 keep it, 2 gathers, 3 scatters. -/
def collCount (oper g src dst : Nat) : Bool :=
  match oper with
  | 2 => dst == g * src
  | 3 => src == g * dst
  | _ => dst == src

/-- The chunks of 64 KiB that a collective moves (R275). -/
def chunksOf (n : Nat) : Nat := (n + 65535) / 65536

/-- COLL (R272, R273, R317): the checks and the translations of both extents; the engine matches and moves it later. -/
def execColl (d a : BitVec 7) (o : BitVec 3) (f : BitVec 1) (c : BitVec 4) (s : State) : Host.Outcome State Fault Refusal :=
  issue s { Desc.split [(Opnd.srcS a).pair, .srcS d] with
      legal := decide (o.toNat < 5), ok := c == 8 || c == 10, recomp := false, flag := some (f == 1) }
    fun cx => do
    let pod := c == 10
    let ha := cx.scalar (regNo a)
    let ctl := (cx.scalar (regNo a + 1)).toNat
    let root := bits ctl 15 6
    let (hd, cx) ← cx.readS (regNo d)
    let g := cx.groupSize pod
    cx.need (bits ctl 31 16 == 0 && decide (root < g)) .illegalOperand
    cx.need (!pod || cx.st.cl == 0) .illegalOperand
    cx.need (!cx.la.det || cx.collStream) .detViolation
    let (src, cx) ← cx.handle ha
    let (dst, cx) ← cx.handle hd
    let e := src.width
    let sa := src.elems
    let da := dst.elems
    cx.need (src.etype == dst.etype && collCount o.toNat g sa.length da.length) .illegalOperand
    cx.need (o != 1 || (e == 8 && Ty.ofCode src.etype == some (.int 64 false) && sa.length % 4 == 0)) .illegalOperand
    cx.need (!(src.ndim == 1 && src.layout != 0) && !(dst.ndim == 1 && dst.layout != 0)) .illegalOperand
    cx.checkElems e sa
    cx.checkElems e da
    cx.need (!(da.any fun a => tagOf a == 3)) .wsWrite
    cx.flagRoom (cx.flagOf (f == 1))
    let (m1, cx) ← cx.translatePages .read (pagesOf sa)
    let (m2, cx) ← cx.translatePages .write (pagesOf da)
    match da.find? fun a => tagOf a == 0 && cx.s.isSealed a e with
    | some a => cx.stop (Exn.at .permission a)
    | none =>
      let cx ← cx.mapWs (sa.filter fun a => tagOf a == 3)
      if cx.st.isReplay then .ok cx
      else do
        let key := if pod then 48 else cx.st.cl
        let seq := Sp.get 0 cx.la.colls key
        let trans := m2.foldl (fun m p => Tab.put m p.1 p.2) (m1.foldl (fun m p => Tab.put m p.1 p.2) [])
        let chunks := chunksOf (max sa.length da.length * e)
        let op := { Op.blank cx (.coll o.toNat c.toNat (bits ctl 5 0) root src dst seq chunks false []) with trans := trans }
        let cx ← cx.launchOp (cx.flagOf (f == 1)) op
        .ok { cx with s := cx.s.onLaunch cx.st.launch fun la => { la with colls := Sp.set 0 la.colls key (seq + 1) } }

end Sys2Proof.Machine
end

