-- ==== Sys2Proof/Machine/Matrix.lean ====
section
/-! DEFINITION. The matrix units: leases (R75-R78, R336, R343), accumulators (R154, R306-R308), and the tile products
(R138, R139, R337-R341). All of them issue on the MCC only. -/

namespace Sys2Proof.Machine

/-- An instruction of the MCC alone. -/
def Desc.mccOnly (os : List Opnd) : Desc := { Desc.split os with waves := false, mcc := true }

/-- The live lease of the issuing stream (R76). -/
def Cx.lease (cx : Cx) : Option Lease :=
  match (cx.s.cluster cx.st.cl).lease with
  | some l => if l.stream = cx.id ∧ l.taken then some l else none
  | none => none

/-- Whether a stream has an operation in the MXUs, on accumulator `acc` or on any (R306, R77). -/
def State.mxuBusy (s : State) (sid : Nat) (acc : Option Nat) : Bool :=
  s.ops.any fun o => o.2.stream == sid &&
    match o.2.kind with
    | .mma a _ _ _ _ _ _ _ => acc.isNone || acc == some a
    | _ => false

/-- The hold for earlier MMA and MMAS of an accumulator, or of all (R306, R308, R77). -/
def Cx.waitMxu (cx : Cx) (acc : Option Nat) : Except Stop Unit :=
  if cx.s.mxuBusy cx.id acc then .error (.hold .mxu) else .ok ()

/-- Replaces the lease of the issuer's cluster. -/
def Cx.setLease (cx : Cx) (l : Option Lease) : Cx :=
  { cx with s := cx.s.putCluster cx.st.cl { cx.s.cluster cx.st.cl with lease := l } }

/-- The key of an element of an accumulator: 64 rows of 64 columns. -/
def accKey (acc r c : Nat) : Nat := acc * 4096 + r * 64 + c

/-- ACLR (R306). -/
def execAclr (d : BitVec 4) (s : State) : Host.Outcome State Fault Refusal :=
  issue s (Desc.mccOnly []) fun cx => do
    must cx.lease.isSome .noLease
    cx.waitMxu (some d.toNat)
    let c := cx.s.cluster cx.st.cl
    let accs := c.accs.filter fun e => e.1 / 4096 ≠ d.toNat
    .ok { cx with s := cx.s.putCluster cx.st.cl { c with accs := accs } }

/-- An accumulator element delivered to a tile's type (R131, R308). -/
def drainElem (t : Ty) (r : Rounding) (x : Word) : Flagged := convertElem .f32 t r x.toNat

/-- ADRN (R307, R308): the elements are rounded at issue; the Plaza bytes and the flags appear when the tile is READY. The
sector count that TSTAT then shows is a free value (R151 gives one for a fill by sectors only). The entry returns to its state at the
region's start where the stream is killed for good, as one that TLD or TDSC changed does (R153 names these two; DESIGN CHOICE, log 72). -/
def execAdrn (t : BitVec 5) (a : BitVec 4) (s : State) : Host.Outcome State Fault Refusal :=
  issue s (Desc.mccOnly []) fun cx => do
    must cx.lease.isSome .noLease
    let v := cx.tile t.toNat
    must (v.st == .empty && v.owner == some cx.st.launch) .tileState
    must (v.kind != 1) .illegalOperand
    cx.waitMxu (some a.toNat)
    let accs := (cx.s.cluster cx.st.cl).accs
    let cells := (List.range v.rows).flatMap fun r => (List.range v.cols).map fun c => (r, c)
    let res := cells.map fun e =>
      (v.elem e.1 e.2, drainElem v.ty (cx.rounding e.1 e.2) (Sp.get 0 accs (accKey a.toNat e.1 e.2)))
    let bytes := res.flatMap fun e =>
      (List.range v.width).map fun i => (cx.plazaKey (e.1 + i), (BitVec.ofNat 8 (e.2.1 / 256 ^ i) : Byte))
    let fl := res.foldl (fun f e => f ||| e.2.2) 0
    let n := (Config.freeWord cx.s.fresh).toNat % 16 + 1
    let cx := { cx with s := cx.s.bump }
    let cx := cx.setTile t.toNat true { v with st := .filling, part := false, done := 0, nsec := n }
    cx.launchOp none { Op.blank cx (.tileFill t.toNat bytes fl) with trans := [(2 ^ n - 1, n)] }

/-- Puts a request in the arbiter's list, once (R76). -/
def State.askLease (s : State) (sid n : Nat) : State :=
  match s.stream? sid with
  | none => s
  | some st =>
    let c := s.cluster st.cl
    if c.leaseReqs.any (fun r => r.1 == sid) then s
    else s.putCluster st.cl { c with leaseReqs := c.leaseReqs ++ [(sid, n)] }

/-- MLEASE (R75, R76, R336): a request, held until LEASE_GRANT has given the units to the stream; then the token. -/
def execMlease (d a : BitVec 7) (s : State) : Host.Outcome State Fault Refusal :=
  issue s (Desc.mccOnly [.srcS a, .dstS d]) fun cx => do
    let (n, cx') ← cx.readS (regNo a)
    cx'.need (decide (1 ≤ n.toNat ∧ n.toNat ≤ 4096)) .illegalOperand
    cx'.need cx.lease.isNone .illegalOperand
    let c := cx.s.cluster cx.st.cl
    match c.lease with
    | some l =>
      if l.stream = cx.id then (cx'.setLease (some { l with taken := true })).writeS (regNo d) l.token
      else .error (.wait (cx.onState fun s => s.askLease cx.id n.toNat) .lease)
    | none => .error (.wait (cx.onState fun s => s.askLease cx.id n.toNat) .lease)

/-- MREL (R77, R343): the token is checked once; where operations of the lease are still running it waits for them, and then the lease
ends, if its count has not ended it already (R76). -/
def execMrel (a : BitVec 7) (s : State) : Host.Outcome State Fault Refusal :=
  issue s (Desc.mccOnly [.srcS a]) fun cx => do
    let cx ← if cx.sp.serial.isSome then .ok cx
      else do
        let (x, cx) ← cx.readS (regNo a)
        cx.need (match cx.lease with
          | some l => l.token == x
          | none => false) .illegalOperand
        .ok cx
    if cx.s.mxuBusy cx.id none then .error (.wait { cx with sp := { cx.sp with serial := some cx.st.stamp } } .mxu)
    else .ok (if cx.lease.isSome then cx.setLease none else cx)

/-- LEASE_GRANT's choice (R76): the highest command-queue priority, which is the lowest number, then the oldest request. -/
def State.nextLease (s : State) (c : Cluster) : Option (Nat × Nat) :=
  let pri := fun (r : Nat × Nat) =>
    match s.stream? r.1 with
    | some st => (s.queue (s.launchOf st).queue).pri
    | none => 0
  match c.leaseReqs with
  | [] => none
  | r :: t => some (t.foldl (fun b e => if pri e < pri b then e else b) r)

/-! The products. -/

/-- Whether two operand types go together in MMA (R338). -/
def mmaTypes (a b : Ty) : Bool :=
  match a, b with
  | .f16, .f16 => true
  | .bf16, .bf16 => true
  | .b8 _ _ _, .b8 _ _ _ => true
  | _, _ => false

/-- The chunk of an operand type (R138). -/
def chunkOf (t : Ty) : Nat := if t.isB8 then 32 else 16

/-- Whether an entry is a SCALE tile of type n8 owned by the launch, of that shape (R338). -/
def Tile.isScale (t : Tile) (launch rows cols : Nat) : Bool :=
  t.kind == 1 && t.ty == .int 8 false && t.owner == some launch && t.rows == rows && t.cols == cols

/-- R338 for MMA, and for MMAS. -/
def Cx.mmaOk (cx : Cx) (scaled : Bool) (a b : Tile) : Bool :=
  let base := a.kind == 0 && b.kind == 0 && mmaTypes a.ty b.ty && a.cols == b.rows
  let nb := (a.cols + 31) / 32
  let prov := cx.s.bring == .selftest
  base && !(prov && (scaled || a.ty == .f16)) &&
  (!scaled || (a.ty.isB8 && b.ty.isB8 && a.paired && b.paired &&
    (cx.tile a.pair).isScale cx.st.launch a.rows nb && (cx.tile b.pair).isScale cx.st.launch nb b.cols))

/-- Item 4 and 5 of R339 for one tile. -/
def Cx.mmaTile (cx : Cx) (t : Nat) : Except Stop Unit :=
  let v := cx.tile t
  match v.st with
  | .ready => .ok ()
  | .filling => if v.part then stopAt .tileState else .error (.hold (.tile t))
  | .empty => stopAt .tileState
  | .draining => stopAt .tileState

/-- MMA and MMAS as they issue (R339): the faults and holds in their order, one operation of the lease, and an
operation whose chunks follow. -/
def mmaOp (s : State) (scaled : Bool) (d : BitVec 4) (a b : BitVec 5) : Host.Outcome State Fault Refusal :=
  issue s (Desc.mccOnly []) fun cx => do
    match cx.lease with
    | none => stopAt .noLease
    | some l =>
      must (l.left != 0) .noLease
      let ta := cx.tile a.toNat
      let tb := cx.tile b.toNat
      let foreign := fun (t : Tile) => t.foreign cx.st.launch || (scaled && t.paired && (cx.tile t.pair).foreign cx.st.launch)
      must (!foreign ta && !foreign tb) .tileState
      must (cx.mmaOk scaled ta tb) .illegalOperand
      let stale := fun (t : Tile) => t.st == .empty || t.st == .draining || (t.st == .filling && t.part)
      must (!stale ta && !stale tb) .tileState
      cx.mmaTile a.toNat
      cx.mmaTile b.toNat
      let c := chunkOf ta.ty
      let cx := cx.setLease (some { l with left := l.left - 1 })
      cx.launchOp none (Op.blank cx (.mma d.toNat a.toNat b.toNat scaled 0 ((ta.cols + c - 1) / c) 0 false))

/-- MMA (R337-R341). -/
def execMma (d : BitVec 4) (a b : BitVec 5) (s : State) : Host.Outcome State Fault Refusal := mmaOp s false d a b

/-- MMAS (R139, R337-R341). -/
def execMmas (d : BitVec 4) (a b : BitVec 5) (s : State) : Host.Outcome State Fault Refusal := mmaOp s true d a b

/-- An element of a tile as it lies in the Plaza of a cluster; `pz` reads a byte. -/
def Tile.read (t : Tile) (pz : Nat -> Byte) (cl r c : Nat) : Nat :=
  (List.range t.width).foldr (fun i acc => (pz (2 ^ 22 * cl + t.elem r c + i)).toNat + 256 * acc) 0

/-- The chunk step of R138 for one element: the products of the chunk summed exactly with the accumulator, rounded once. -/
def chunkStep (acc : Nat) (terms : List (Num × Num)) : Flagged :=
  let old := valueOf .f32 acc
  let sig := old.isSig || terms.any fun t => t.1.isSig || t.2.isSig
  deliverSum .f32 Rounding.rne (sumNums false ((old, false) :: terms.map fun t => t.1.mul t.2)) sig

/-- The chunk step of R139: the block sum scaled by both scales, then added and rounded once. -/
def scaledStep (acc : Nat) (terms : List (Num × Num)) (ea eb : Nat) : Flagged :=
  if ea = 255 ∨ eb = 255 then (Ty.f32.nanCode, fIV)
  else
    let old := valueOf .f32 acc
    let block := sumNums false (terms.map fun t => t.1.mul t.2)
    let scaled := if block.1.isNan then block.1 else (block.1.mul (.fin false 1 ((ea : Int) + eb - 254))).1
    deliverSum .f32 Rounding.rne (sumNums false [(old, false), (scaled, block.2)]) old.isSig

/-- One chunk of an MMA or MMAS (R138, R139, R340): the accumulators after it, and the flags it raises. -/
def Cluster.chunk (c : Cluster) (pz : Nat -> Byte) (cl acc : Nat) (a b : Tile) (scaled : Bool) (k : Nat) :
    List (Nat × Word) × BitVec 6 :=
  let w := chunkOf a.ty
  let ks := (List.range w).map (k * w + ·) |>.filter (· < a.cols)
  let cells := (List.range a.rows).flatMap fun i => (List.range b.cols).map fun j => (i, j)
  let one := fun (i j : Nat) =>
    let old := (Sp.get 0 c.accs (accKey acc i j)).toNat
    let terms := ks.map fun q => (valueOf a.ty (a.read pz cl i q), valueOf b.ty (b.read pz cl q j))
    if scaled then scaledStep old terms ((c.tile a.pair).read pz cl i k) ((c.tile b.pair).read pz cl k j)
    else chunkStep old terms
  cells.foldl (fun r e =>
    let v := one e.1 e.2
    (Sp.set 0 r.1 (accKey acc e.1 e.2) (BitVec.ofNat 32 v.1), r.2 ||| v.2)) (c.accs, 0)

/-- The Plaza bytes that a chunk reads (R138, R139). -/
def Cluster.chunkBytes (c : Cluster) (cl : Nat) (a b : Tile) (scaled : Bool) (k : Nat) : List Nat :=
  let w := chunkOf a.ty
  let ks := (List.range w).map (k * w + ·) |>.filter (· < a.cols)
  let at_ := fun (t : Tile) (r q : Nat) => (List.range t.width).map fun i => 2 ^ 22 * cl + t.elem r q + i
  let rows := List.range a.rows
  let cols := List.range b.cols
  (rows.flatMap fun i => ks.flatMap fun q => at_ a i q) ++ (ks.flatMap fun q => cols.flatMap fun j => at_ b q j) ++
  (if scaled then (rows.flatMap fun i => at_ (c.tile a.pair) i k) ++ (cols.flatMap fun j => at_ (c.tile b.pair) k j) else [])

end Sys2Proof.Machine
end

