-- ==== Sys2Proof/Machine/Reduce.lean ====
section
/-! DEFINITION. The cross-lane, predicate and reduction instructions (class 0x4, R107, R108, R188-R199, R346, R366,
R394-R396, R399). -/

namespace Sys2Proof.Machine

/-- PLOG (R346): every input bit is read before any bit is written. -/
def execPlog (d : BitVec 3) (f : BitVec 4) (a b : BitVec 3) (s : State) : Host.Outcome State Fault Refusal :=
  issue s { Desc.lane [] with ok := d != 7, preds := [a.toNat, b.toNat] } fun cx =>
    let pa := cx.st.pred a.toNat
    let pb := cx.st.pred b.toNat
    .ok (cx.writePred d.toNat fun l => bit f.toNat (2 * b2n (inMask pa l) + b2n (inMask pb l)))

/-- A permute of register A over the lanes (R395): `src` gives each lane's source lane. -/
def permute (s : State) (d : Desc) (dn an : Nat) (pop : Cx -> Except Stop (Word × Cx)) (src : Cx -> Word -> Nat -> Nat) :
    Host.Outcome State Fault Refusal :=
  issue s d fun cx => do
    let (x, cx) ← pop cx
    let from_ := maskOf fun l => (lanesOf cx.part).any fun m => src cx x m == l
    cx.need (!cx.pendingV (cx.sp.winbase + an) from_) .unflaggedRead
    cx.sound fun l => cx.badEntry (cx.sp.winbase + an) (src cx x l)
    .ok (cx.writeLanes dn fun l => ([cx.anyLane an (src cx x l)], 0))

/-- VPERM (R395). -/
def execVperm (d a b : BitVec 7) (s : State) : Host.Outcome State Fault Refusal :=
  permute s (Desc.lane [.otherV a, .src b, .dstV d]) d.toNat a.toNat (fun cx => cx.source b)
    fun cx x l => (cx.laneOf b x l).toNat

/-- The partner lane of VSWZ (R108). -/
def swizzle (i l : Nat) : Nat :=
  if i < 64 then l ^^^ i else 32 * (l / 32) + (l % 32 + i % 32) % 32

/-- VSWZ (R395). -/
def execVswz (d a : BitVec 7) (i : BitVec 8) (s : State) : Host.Outcome State Fault Refusal :=
  permute s { Desc.lane [.otherV a, .dstV d] with legal := decide (i.toNat < 96) } d.toNat a.toNat (fun cx => .ok (0, cx))
    fun _ _ l => swizzle i.toNat l

/-- VVOTE (R396): once per split, over the lanes that take part. -/
def execVvote (d : BitVec 7) (v : BitVec 2) (p : BitVec 3) (s : State) : Host.Outcome State Fault Refusal :=
  issue s { Desc.split [.dstS d] with mcc := false, legal := v != 3, preds := [p.toNat] } fun cx =>
    let hits := cx.st.pred p.toNat &&& cx.part
    let r := match v.toNat with
      | 0 => b2n (hits != 0)
      | 1 => b2n (hits == cx.part)
      | _ => (lanesOf hits).length
    cx.writeS (regNo d) (BitVec.ofNat 32 r)

/-! Triples (R190): FP64 with RNE, one rounding per operation; the flags that R192 keeps are overflow and invalid. -/

/-- A statistics value: its state and its three FP64 codes. -/
structure Triple where
  st : KState
  w  : Nat
  mu : Nat
  m2 : Nat
  deriving DecidableEq, Repr

/-- The EMPTY triple. -/
def Triple.empty : Triple := { st := .empty, w := 0, mu := 0, m2 := 0 }

/-- The code and the flags of an operation applied to codes that carry flags. -/
def flagged2 (f : Nat -> Nat -> Flagged) (a b : Flagged) : Flagged :=
  let r := f a.1 b.1
  (r.1, a.2 ||| b.2 ||| r.2)

/-- The flags that a reduction raises: overflow and invalid (R192). -/
def kFlags (f : BitVec 6) : BitVec 6 := f &&& (fOF ||| fIV)

/-- Update (R190). -/
def Triple.update (r : Triple) (x w : Nat) : Triple × BitVec 6 :=
  let v := fun c : Nat => ((c, 0) : Flagged)
  let w' := addD r.w w
  let d := subD x r.mu
  let mu' := flagged2 addD (v r.mu) (flagged2 divD (flagged2 mulD d (v w)) w')
  let m2' := flagged2 addD (v r.m2) (flagged2 mulD (flagged2 mulD (v w) d) (flagged2 subD (v x) mu'))
  ({ st := if r.st = .empty then .one else .many, w := w'.1, mu := mu'.1, m2 := m2'.1 },
   kFlags (w'.2 ||| mu'.2 ||| m2'.2))

/-- Merge (R190). -/
def Triple.merge (a b : Triple) : Triple × BitVec 6 :=
  let v := fun c : Nat => ((c, 0) : Flagged)
  let w := addD a.w b.w
  let d := subD b.mu a.mu
  let mu := flagged2 addD (v a.mu) (flagged2 divD (flagged2 mulD d (v b.w)) w)
  let t := flagged2 divD (flagged2 mulD (flagged2 mulD (flagged2 mulD d d) (v a.w)) (v b.w)) w
  let m2 := flagged2 addD (addD a.m2 b.m2) t
  ({ st := .many, w := w.1, mu := mu.1, m2 := m2.1 }, kFlags (w.2 ||| mu.2 ||| m2.2))

/-- Combine (R190). -/
def Triple.combine (a b : Triple) : Triple × BitVec 6 :=
  if b.st = .empty then (a, 0)
  else if a.st = .empty then (b, 0)
  else if b.st = .one then a.update b.mu b.w
  else a.merge b

/-- One level of the rank tree (R191): neighbours combine, and an odd last one goes up alone. -/
def treeLevel {α : Type} (f : α -> α -> α) : List α -> List α
  | a :: b :: t => f a b :: treeLevel f t
  | [a] => [a]
  | [] => []

/-- The rank tree (R191), with `n` levels at most. -/
def rankTree {α : Type} (f : α -> α -> α) (z : α) : Nat -> List α -> α
  | _, [] => z
  | _, [a] => a
  | 0, a :: _ => a
  | n + 1, l => rankTree f z n (treeLevel f l)

/-- Combine with the flags so far. -/
def combineF (a b : Triple × BitVec 6) : Triple × BitVec 6 :=
  let r := a.1.combine b.1
  (r.1, a.2 ||| b.2 ||| r.2)

/-- The tree of R192 over 96 lanes: the beats, then the three beats. -/
def beatTree {α : Type} (f : α -> α -> α) (z : α) (lane : Nat -> α) : α :=
  let beat := fun b => rankTree f z 5 ((List.range 32).map fun i => lane (32 * b + i))
  rankTree f z 2 [beat 0, beat 1, beat 2]

/-- The types that SRACC and SRACW accept (R192). -/
def Ty.statOk : Ty -> Bool
  | .f64 | .f32 | .f16 | .bf16 => true
  | .int w _ => w == 32
  | .lns | .b8 _ _ _ => false

/-- An element widened to FP64, exactly; a signalling NaN says so. -/
def widen64 (t : Ty) (x : Nat) : Nat × Bool :=
  let v := elemValue t false x
  ((roundTo .f64 .rne v).1, v.isSig)

/-- The value one element gives (R192). -/
def statElem (t : Ty) (x : Nat) (w : Option Nat) : Triple × BitVec 6 :=
  let wv := match w with
    | some c => widen64 t c
    | none => (0x3FF0000000000000, false)
  let n := valueOf .f64 wv.1
  if n.isNan || n.isInf || (n.neg && !n.isZero) then (.empty, fIV)
  else if n.isZero then (.empty, 0)
  else
    let xv := widen64 t x
    if (valueOf .f64 xv.1).isNan then
      ({ st := .one, w := wv.1, mu := Ty.f64.nanCode, m2 := Ty.f64.nanCode }, ivIf xv.2)
    else ({ st := .one, w := wv.1, mu := xv.1, m2 := 0 }, 0)

/-- The triple of a k register. -/
def KReg.triple (k : KReg) : Triple := { st := k.st, w := k.w.toNat, mu := k.mu.toNat, m2 := k.m2.toNat }

/-- A k register with a triple, its SEQ moved on (R188). -/
def KReg.withTriple (k : KReg) (t : Triple) : KReg :=
  { KReg.initial with st := t.st, w := BitVec.ofNat 64 t.w, mu := BitVec.ofNat 64 t.mu, m2 := BitVec.ofNat 64 t.m2,
                      seq := k.seq + 1 }

/-- DET_VIOLATION of a k write inside a divergence (R189). -/
def Cx.kWrite (cx : Cx) : Except Stop Unit := must (!(cx.la.det && cx.divergent)) .detViolation

/-- SRACC and SRACW (R192): `w` is the weight's operand code, if there is one. -/
def accumulate (s : State) (a : BitVec 7) (w : Option (BitVec 7)) (k : BitVec 2) : Host.Outcome State Fault Refusal :=
  let t := s.issueTy
  let wide := t.width == 64
  let os := match w with
    | some c => [(Opnd.src a).under t, (Opnd.src c).under t]
    | none => [(Opnd.src a).under t]
  issue s (Desc.lane os) fun cx => do
    must t.statOk .illegalOperand
    cx.kWrite
    must ((cx.st.kreg k.toNat).st != .ext) .illegalOperand
    let (x, cx) ← cx.source a
    let (y, cx) ← match w with
      | some c => cx.source c
      | none => .ok (0, cx)
    let elem := fun l i =>
      statElem t (subElem t.width i (cx.laneNat wide a x l))
        (w.map fun c => subElem t.width i (cx.laneNat wide c y l))
    let lane := fun l => if inMask cx.part l then
        rankTree combineF (Triple.empty, 0) 2 ((List.range t.count).map (elem l))
      else (Triple.empty, 0)
    let kr := cx.st.kreg k.toNat
    let r := combineF (kr.triple, 0) (beatTree combineF (Triple.empty, 0) lane)
    .ok ({ cx with st := cx.st.setKreg k.toNat (kr.withTriple r.1) }.raiseFlags r.2)

/-- SRACC (R192). -/
def execSracc (a : BitVec 7) (k : BitVec 2) (s : State) : Host.Outcome State Fault Refusal := accumulate s a none k

/-- SRACW (R192): D names the weight. -/
def execSracw (d a : BitVec 7) (k : BitVec 2) (s : State) : Host.Outcome State Fault Refusal := accumulate s a (some d) k

/-- The empty-set code in FP64 (R195). -/
def emptyCode : Nat := 0x7FF8000000000E0E

/-- r of NORM (R195): the log path of v, halved and taken back; its flags. For v = -0, which the rule does not name, the result
is that of a negative v (DESIGN CHOICE, log 59); where L is SPECIAL, as for a v below 2^-128 or an infinite one, -L/2 is SPECIAL too, and LEX
takes it to +infinity, with DZ, or to +0 (DESIGN CHOICE, log 69). -/
def normR (v64 : Flagged) : Flagged :=
  let v := roundTo .f32 .rne (valueOf .f64 v64.1)
  let n := valueOf .f32 v.1
  if n.isNan || (n.neg && !n.isZero) then (Ty.f64.nanCode, fIV)
  else if n.isZero then
    if n.neg then (Ty.f64.nanCode, fIV) else (Ty.f64.infCode false, fDZ)
  else
    match Lns.ofWord (lcv v.1).1 with
    | .fin _ l =>
      let h := roundMag .rne (decide (l > 0)) (l.natAbs, 2)
      let g : Int := if l > 0 then -(h.1 : Int) else h.1
      let x := lex .rne (lnsFin false g)
      ((roundTo .f64 .rne (valueOf .f32 x.1)).1, 0)
    | .inf _ => (0, 0)
    | .zero _ => (Ty.f64.infCode false, fDZ)
    | .nan => (Ty.f64.nanCode, fIV)

/-- The values of a drain (R195) as FP64 codes, the condition word, and the flags: only those
that R195 names. -/
def drain (t : Triple) (opt eps : Nat) : List Nat × Nat × BitVec 6 :=
  if t.st = .empty then (if opt = 4 then [emptyCode, emptyCode] else [emptyCode], 1, 0)
  else
    let canon := fun r : Flagged => (if (valueOf .f64 r.1).isNan then Ty.f64.nanCode else r.1, r.2)
    let one := 0x3FF0000000000000
    match opt with
    | 0 => let r := canon (t.mu, 0); ([r.1], 0, 0)
    | 1 => let r := canon (divD t.m2 t.w); ([r.1], 0, 0)
    | 2 =>
      let w := valueOf .f64 t.w
      if w.isNan || (valueOf .f64 one).lt w then
        let r := canon (flagged2 divD (t.m2, 0) (subD t.w one))
        ([r.1], 0, 0)
      else ([Ty.f64.nanCode], 2, fIV)
    | 3 => let r := canon (mulD t.w t.mu); ([r.1], 0, 0)
    | _ =>
      let m := canon (t.mu, 0)
      let r := normR (flagged2 addD (divD t.m2 t.w) (eps, 0))
      ([m.1, r.1], 0, r.2)

/-- An FP64 value of a drain in fp32 (R195). -/
def drain32 (x : Nat) : Word :=
  if x = emptyCode then 0x7FC00E0E else BitVec.ofNat 32 (roundTo .f32 .rne (valueOf .f64 x)).1

/-- SRDRN (R195): to a scalar pair with a condition word once per split, or to a vector register per lane. -/
def execSrdrn (d a : BitVec 7) (o : BitVec 4) (k : BitVec 2) (s : State) : Host.Outcome State Fault Refusal :=
  let norm := o == 4
  let vec := isVec d
  let nv := if norm then 2 else 1
  let dd : Opnd := if vec then (Opnd.dstV d).many nv else (Opnd.dstS d).evenMany (2 * nv + 1)
  issue s { Desc.lane (dd :: if norm then [(Opnd.srcS a).pair] else []) with
      legal := decide (o.toNat < 5) && (norm || a == 0), perLane := vec,
      ok := vec || decide (regNo d + 2 * nv ≤ 59) } fun cx => do
    must ((cx.st.kreg k.toNat).st != .ext) .illegalOperand
    let eps := if norm then (cx.scalar64 (regNo a)).toNat else 0
    let (vs, c, fl) := drain (cx.st.kreg k.toNat).triple o.toNat eps
    if vec then .ok (cx.writeLanes d.toNat fun _ => (vs.map drain32, fl))
    else do
      let ws := vs.flatMap (wordsOf true) ++ [BitVec.ofNat 32 c]
      let cx ← ws.zipIdx.foldlM (fun cx w => cx.writeS (regNo d + w.2) w.1) cx
      .ok (cx.raiseFlags fl)

/-- The number of a state in the state word (R197). -/
def KState.num : KState -> Nat
  | .empty => 0
  | .one => 1
  | .many => 2
  | .ext => 3

/-- The state word (R197). -/
def KReg.word (k : KReg) : Nat :=
  k.seq.toNat + 2 ^ 16 * k.st.num + (if k.st = .ext then 2 ^ 18 * k.kind.toNat + 2 ^ 20 * k.etype.toNat else 0)

/-- A field that SRGET reads (R196), and whether it is 64 bits wide. -/
def KReg.field (k : KReg) (f : Nat) : Nat × Bool :=
  match k.st, f with
  | .ext, 0 => (k.index.toNat, false)
  | .ext, 1 => (k.bits.toNat, false)
  | .ext, 2 => (k.key.toNat, true)
  | .empty, 0 => (0, true)
  | .empty, 1 => (emptyCode, true)
  | .empty, 2 => (emptyCode, true)
  | _, 0 => (k.w.toNat, true)
  | _, 1 => (k.mu.toNat, true)
  | _, 2 => (k.m2.toNat, true)
  | _, _ => (k.word, false)

/-- SRGET (R196): the SEQ that A expects has to be the register's. Earlier writes to k have taken effect here. -/
def execSrget (d a : BitVec 7) (f : BitVec 4) (k : BitVec 2) (s : State) : Host.Outcome State Fault Refusal :=
  let wide := s.issueHas fun cx => ((cx.st.kreg k.toNat).field f.toNat).2
  let dd := Opnd.dstS d
  issue s { Desc.split [.srcS a, if wide then dd.pair else dd.pending] with mcc := false, legal := decide (f.toNat < 4) }
    fun cx => do
      let (x, cx) ← cx.readS (regNo a)
      cx.need (decide (x.toNat < 65536)) .illegalOperand
      let kr := cx.st.kreg k.toNat
      cx.need (x.toNat == kr.seq.toNat) .illegalOperand
      let v := (kr.field f.toNat).1
      if wide then cx.writeS64 (regNo d) (BitVec.ofNat 64 v) else cx.writeS (regNo d) (BitVec.ofNat 32 v)

/-- SRINI (R194). -/
def execSrini (k : BitVec 2) (s : State) : Host.Outcome State Fault Refusal :=
  issue s { Desc.split [] with mcc := false } fun cx => do
    cx.kWrite
    let kr := cx.st.kreg k.toNat
    .ok { cx with st := cx.st.setKreg k.toNat { KReg.initial with seq := kr.seq + 1 } }

/-- The types that XRACC accepts (R198). -/
def Ty.extOk : Ty -> Bool
  | .f32 | .f16 | .bf16 | .b8 _ _ _ => true
  | .int w _ => decide (w ≤ 32)
  | .f64 | .lns => false

/-- The register that a 32-byte record gives, its SEQ aside (R194, R197); none when the record breaks its form. -/
def kregOfRecord (w : Nat -> Nat) : Option KReg :=
  let sw := w 3 % 2 ^ 32
  let e := bits sw 25 20
  if w 3 / 2 ^ 32 ≠ 0 ∨ bits sw 31 26 ≠ 0 then none
  else match bits sw 17 16 with
    | 3 =>
      match Ty.ofCode (BitVec.ofNat 6 e) with
      | some t =>
        if t.extOk ∧ w 1 < 2 ^ 32 ∧ w 2 < 2 ^ 32 then
          some { KReg.initial with st := .ext, key := BitVec.ofNat 64 (w 0), bits := BitVec.ofNat 32 (w 1),
                                   index := BitVec.ofNat 32 (w 2), kind := BitVec.ofNat 2 (bits sw 19 18),
                                   etype := BitVec.ofNat 6 e }
        else none
      | none => none
    | n =>
      if e ≠ 0 ∨ bits sw 19 18 ≠ 0 then none
      else if n = 0 then
        if w 0 = 0 ∧ w 1 = emptyCode ∧ w 2 = emptyCode then some KReg.initial else none
      else some { KReg.initial with st := if n = 1 then .one else .many, w := BitVec.ofNat 64 (w 0),
                                    mu := BitVec.ofNat 64 (w 1), m2 := BitVec.ofNat 64 (w 2) }

/-- SRINI.LD (R194): four plain reads of 8 bytes at a 32-byte aligned address. -/
def execSriniLd (a : BitVec 7) (k : BitVec 2) (s : State) : Host.Outcome State Fault Refusal :=
  issue s { Desc.split [(Opnd.srcS a).pair] with mcc := false } fun cx => do
    cx.kWrite
    let base := cx.scalar64 (regNo a)
    let as := (List.range 4).map fun i => (noLane, base + BitVec.ofNat 64 (8 * i))
    if apertureBad cx.la base || tagOf base == 2 then .error (.fault (Exn.at .aperture base))
    if base.toNat % 32 ≠ 0 then .error (.fault (Exn.at .alignment base))
    cx.staticLanes 8 false [2] as
    let cx ← cx.mapWs (as.map (·.2))
    let (cx, oks, errs) := cx.reachAll .read true 8 .row as
    match laneFault [] errs with
    | some e => cx.stop e
    | none =>
      let (vs, cx) ← cx.readAll 8 oks
      match kregOfRecord fun i => (nth (0, 0) vs i).2 with
      | none => cx.failAt .illegalOperand
      | some kr => .ok { cx with st := cx.st.setKreg k.toNat { kr with seq := (cx.st.kreg k.toNat).seq + 1 } }

/-- Whether key `b` of XRACC's kind wins over key `a` (R198); a tie keeps `a`. -/
def keyWins (kind : BitVec 2) (a b : BitVec 64) : Bool := if kind.getLsbD 0 then b.ult a else a.ult b

/-- Combine of two k registers (R194, R199); none for a mix. The state and fields alone, with flags. An EMPTY register combines
with an EXT one to the EXT one, in either order (DESIGN CHOICE, log 59). -/
def KReg.combine (a b : KReg) : Option (KReg × BitVec 6) :=
  if a.st = .ext ∧ b.st = .ext then
    if a.kind ≠ b.kind ∨ a.etype ≠ b.etype then none
    else some (if keyWins a.kind a.key b.key then b else a, 0)
  else if a.st = .ext then (if b.st = .empty then some (a, 0) else none)
  else if b.st = .ext then (if a.st = .empty then some (b, 0) else none)
  else
    let r := a.triple.combine b.triple
    some (KReg.initial.withTriple r.1, r.2)

/-- SRMRG (R194, R199): only the destination's SEQ moves. -/
def execSrmrg (j k : BitVec 2) (s : State) : Host.Outcome State Fault Refusal :=
  issue s { Desc.split [] with mcc := false } fun cx => do
    cx.kWrite
    let kr := cx.st.kreg k.toNat
    match kr.combine (cx.st.kreg j.toNat) with
    | none => stopAt .illegalOperand
    | some (r, fl) => .ok ({ cx with st := cx.st.setKreg k.toNat { r with seq := kr.seq + 1 } }.raiseFlags fl)

/-- The four 8-byte words of a register's record (R197). -/
def KReg.record (k : KReg) : List Nat :=
  match k.st with
  | .ext => [k.key.toNat, k.bits.toNat, k.index.toNat, k.word]
  | .empty => [0, emptyCode, emptyCode, k.word]
  | .one => [k.w.toNat, k.mu.toNat, k.m2.toNat, k.word]
  | .many => [k.w.toNat, k.mu.toNat, k.m2.toNat, k.word]

/-- SRST (R197): four 8-byte stores in one item of 32 bytes. -/
def execSrst (a : BitVec 7) (k : BitVec 2) (s : State) : Host.Outcome State Fault Refusal :=
  issue s { Desc.split [(Opnd.srcS a).pair] with mcc := false } fun cx => do
    let base := cx.scalar64 (regNo a)
    let as := (List.range 4).map fun i => (noLane, base + BitVec.ofNat 64 (8 * i))
    if apertureBad cx.la base || tagOf base == 2 then .error (.fault (Exn.at .aperture base))
    if base.toNat % 32 ≠ 0 then .error (.fault (Exn.at .alignment base))
    cx.staticLanes 8 true [2] as
    cx.bufferRoom 32
    let (cx, oks, errs) := cx.reachAll .write false 8 .row as
    match laneFault [] errs with
    | some e => cx.stop e
    | none =>
      let ws := oks.zip (cx.st.kreg k.toNat).record
      cx.buffer [{ size := 32, item := .store (ws.flatMap fun e => placeBytes e.1.place e.2 8),
                   recs := ws.map (fun e => storeRec e.1.addr e.2 8), issue := 0, lane := 0, rel := none,
                   cached := cx.cached .write base, own := false }]

/-- T of R198: a key that orders the values of the type. -/
def keyOf (t : Ty) (x : Nat) : Nat :=
  if t.isInt then
    let v := (intOf t.width t.hasSign x % 2 ^ 32).toNat
    if t.hasSign then v ^^^ 0x80000000 else v
  else
    let b := (roundTo .f32 .rne (valueOf t x)).1
    if bit b 31 then 0xFFFFFFFF - b else b ^^^ 0x80000000

/-- An element of an extremum (R198): its key, its bits and its index. -/
structure Cand where
  key   : BitVec 64
  bits  : Word
  index : Word
  deriving DecidableEq, Repr

/-- The candidate of one element; none for a NaN under `.num`. -/
def candidate (t : Ty) (kind : BitVec 2) (x idx : Nat) : Option Cand :=
  let nan := t.isFloat && (valueOf t x).isNan
  let min := kind.getLsbD 0
  let num := kind.getLsbD 1
  if nan && num then none
  else
    let k := if nan then (if min then 0 else 0xFFFFFFFF) else keyOf t x
    let low := if min then idx % 2 ^ 32 else 0xFFFFFFFF - idx % 2 ^ 32
    some { key := BitVec.ofNat 64 (2 ^ 32 * k + low), bits := BitVec.ofNat 32 x, index := BitVec.ofNat 32 idx }

/-- The winner of two candidates (R198). -/
def pickCand (kind : BitVec 2) (a b : Option Cand) : Option Cand :=
  match a, b with
  | none, b => b
  | a, none => a
  | some x, some y => if keyWins kind x.key y.key then some y else some x

/-- XRACC (R198, R399). -/
def execXracc (d a : BitVec 7) (n m : BitVec 1) (k : BitVec 2) (s : State) : Host.Outcome State Fault Refusal :=
  let t := s.issueTy
  let kind : BitVec 2 := n ++ m
  issue s (Desc.lane [(Opnd.src a).under t, .src d]) fun cx => do
    must t.extOk .illegalOperand
    cx.kWrite
    let kr := cx.st.kreg k.toNat
    must (kr.st == .empty || (kr.st == .ext && kr.kind == kind && kr.etype == cx.sp.mode.etype)) .illegalOperand
    let (x, cx) ← cx.source a
    let (y, cx) ← cx.source d
    let elem := fun l i => candidate t kind (subElem t.width i (cx.laneOf a x l).toNat) ((cx.laneOf d y l).toNat + i)
    let lane := fun l => if inMask cx.part l then
        rankTree (pickCand kind) none 2 ((List.range t.count).map (elem l)) else none
    let old := if kr.st = .ext then some { key := kr.key, bits := kr.bits, index := kr.index } else none
    let best := beatTree (pickCand kind) none lane
    let kr' := match best with
      | none => kr
      | some _ => match pickCand kind old best with
        | none => kr
        | some c => { KReg.initial with st := .ext, key := c.key, bits := c.bits, index := c.index, kind := kind,
                                        etype := cx.sp.mode.etype }
    .ok { cx with st := cx.st.setKreg k.toNat { kr' with seq := kr.seq + 1 } }

end Sys2Proof.Machine
end

