-- ==== Sys2Proof/Machine/Engines.lean ====
section
/-! DEFINITION. The completions of operations in flight: register writes and flags (R88), copies (R318-R320), tiles (R149),
collectives (R273-R275), adjoints (R230), the tape, the matrix units (R138, R341) and raster threads (R212). An event that
is not enabled leaves the state as it is. -/

namespace Sys2Proof.Machine

/-! Holds that an event lifts. -/

/-- Clears the holds that the test names: their splits issue again, and are held again if their condition still holds. -/
def State.wake (s : State) (f : Nat -> Stream -> Hold -> Bool) : State :=
  { s with streams := s.streams.map fun e =>
      (e.1, e.2.mapSplits fun p =>
        match p.hold with
        | some h => if f e.1 e.2 h then { p with hold := none } else p
        | none => p) }

/-- The holds that the completion of any operation of a stream lifts. -/
def State.wakeOwn (s : State) (sid : Nat) : State :=
  s.wake fun k _ h => k == sid &&
    match h with
    | .flagFull _ | .reads | .adjoints | .raster | .mxu => true
    | _ => false

/-- The holds for room in a core's copy engine, or for a copy into one of some weight stores (R320, R146). -/
def State.wakeCopy (s : State) (cl core : Nat) (dies : List Nat) : State :=
  s.wake fun _ st h =>
    match h with
    | .copySlot => st.cl == cl && st.core == core
    | .wsCopy d => dies.contains d
    | _ => false

/-! What every completion does. -/

/-- Changes a split of a stream. -/
def State.onSplit (s : State) (sid k : Nat) (f : Split -> Split) : State :=
  s.onStream sid fun st => st.mapSplits fun p => if p.num = k then f p else p

/-- A scalar result that sets a word of the mask of the split that issued (R23). -/
def Split.maskResult (k : Nat) (r : Nat × Word) (p : Split) : Split :=
  if p.num = k then { p with mask := setMaskWord p.mask (r.1 - 60) r.2 &&& p.members } else p

/-- What an operation writes: its vector registers, its ordinary scalars (s63 discards), and words of the mask. -/
def Op.plain (o : Op) : List (Nat × Word) := o.sres.filter fun r => decide (r.1 < 60)
/-- The mask words among its scalar results (R23). -/
def Op.masks (o : Op) : List (Nat × Word) := o.sres.filter fun r => decide (60 ≤ r.1 ∧ r.1 < 63)
/-- Sets the mask words of the split that holds the operation. -/
def Op.putMask (o : Op) (k : Nat) (p : Split) : Split := o.masks.foldl (fun p r => p.maskResult k r) p
/-- Writes registers into a map of them. -/
def putWords (m : List (Nat × Word)) (rs : List (Nat × Word)) : List (Nat × Word) := rs.foldl (fun m r => Sp.set 0 m r.1 r.2) m

/-- A checkpoint after an operation that was issued before it (R250): a kill keeps what the operation writes, also in lanes that have
exited since, which the kill brings back, and brings its error again (R266). `late` is that error. -/
def Checkpoint.results (c : Checkpoint) (o : Op) (n : Nat) (exited : LaneMask) (late : List (Nat × Addr × Exn)) : Checkpoint :=
  let k := o.homeAt n
  let v := o.vres.filter fun r => !inMask c.exited (r.1 % 96)
  { c with splits := c.splits.map fun p => let q := o.putMask k p; if q.num = k then { q with late := q.late ++ late } else q,
           frames := putWords c.frames v, writes := c.writes ++ v.filter fun r => inMask exited (r.1 % 96) }

/-- The number of the stream's checkpoint; the one that an adjoint's end will install has the next (R230). -/
def Stream.ckptNumber (st : Stream) : Nat := st.ckptNo - b2n st.nextCkpt.isSome

/-- The registers of a stream after an operation (R88): s63 discards, s60 to s62 set the mask of its split (R23), and a lane that has
exited keeps its registers (R264, R324). What was issued before the checkpoint stays after a kill, so the checkpoint takes it too (R250). -/
def Stream.results (st : Stream) (o : Op) (late : List (Nat × Addr × Exn)) : Stream :=
  let v := o.vres.filter fun r => !inMask st.exited (r.1 % 96)
  let st := { st.mapSplits (o.putMask o.owner) with
    ckpt := if o.ckptNo < st.ckptNumber then st.ckpt.map (·.results o st.ckptNumber st.exited late) else st.ckpt,
    nextCkpt := if o.ckptNo < st.ckptNo then st.nextCkpt.map (·.results o st.ckptNo st.exited late) else st.nextCkpt }
  if o.ckptNo < st.ckptNumber then
    { st with vis := { st.vis with vregs := putWords st.vis.vregs v, sregs := putWords st.vis.sregs o.plain } }
  else o.plain.foldl (fun st r => st.setSreg r.1 r.2) (v.foldl (fun st r => st.setVreg (r.1 / 96) (r.1 % 96) r.2) st)

/-- An operation's flag falls by 1 at its end (R88). -/
def Stream.lowerFlag (st : Stream) (f : Option Nat) : Stream :=
  match f with
  | some f => { st with flags := Sp.set 0 st.flags f (st.flag f - 1) }
  | none => st

/-- The key of a fault that no flag brings: its split meets it at END (R266). -/
def noFlag : Nat := 12

/-- The end of an operation (R88, R250, R266): its registers are written, its flag falls by 1, an engine fault waits for
the split's next wait on the flag, or for its END, and the operation is gone. -/
def State.finishOp (s : State) (n : Nat) (o : Op) : State :=
  let late := o.fault.toList.map fun e => (o.flag.getD noFlag, o.pc, e)
  let s := s.onStream o.stream fun st => if st.life = .ended then st else (st.results o late).lowerFlag o.flag
  let s := if late.isEmpty then s else s.onSplit o.stream o.owner fun p => { p with late := p.late ++ late }
  (s.dropOp n).wakeOwn o.stream

/-- Completes operation `n` if it is of the kind, is finished issuing, and the engine's part of it succeeds. -/
def State.complete (s : State) (n : Nat) (f : Op -> Option State) : Host.Outcome State Fault Refusal :=
  match s.op? n with
  | none => .next s
  | some o =>
    if o.waiting then .next s
    else match f o with
      | none => .next s
      | some s' => .next s'

/-- MEMORY_LOAD_COMPLETE (R88). -/
def execMemoryLoadComplete (op : Nat) (s : State) : Host.Outcome State Fault Refusal :=
  s.complete op fun o => if o.kind = .load then some (s.finishOp op o) else none

/-- ATOM_COMPLETE (R183, R284): the next lane's read-modify-write, with those of other waves between them; the last one ends the
operation. -/
def execAtomComplete (op : Nat) (s : State) : Host.Outcome State Fault Refusal :=
  s.complete op fun o =>
    match o.kind with
    | .atom [] => some (s.finishOp op o)
    | .atom (_ :: t) =>
      let s := s.rmwStep op
      if t.isEmpty then (s.op? op).map fun o => s.finishOp op o else some s
    | _ => none

/-- OCCQ_COMPLETE (R73). -/
def execOccqComplete (op : Nat) (s : State) : Host.Outcome State Fault Refusal :=
  s.complete op fun o => if o.kind = .occq then some (s.finishOp op o) else none

/-- TEX_COMPLETE (R214). -/
def execTexComplete (op : Nat) (s : State) : Host.Outcome State Fault Refusal :=
  s.complete op fun o => if o.kind = .tex then some (s.finishOp op o) else none

/-- RTSTEP_COMPLETE (R218). -/
def execRtstepComplete (op : Nat) (s : State) : Host.Outcome State Fault Refusal :=
  s.complete op fun o => if o.kind = .rtstep then some (s.finishOp op o) else none

/-- TPOP_COMPLETE (R372). -/
def execTpopComplete (op : Nat) (s : State) : Host.Outcome State Fault Refusal :=
  s.complete op fun o => if o.kind = .tpop then some (s.finishOp op o) else none

/-! Bulk copies. -/

/-- The places of elements of `e` bytes under an operation's own translations. -/
def elemPlaces (cl e : Nat) (trans : List (Nat × Nat)) (as : List Addr) : List Place :=
  as.flatMap fun a => (enginePlace cl trans a).span e

/-- What a copy does at its end (R319, R320), through row lines (R156, against R319's column lines for a source of layout 10; DESIGN
CHOICE, log 72): its source is read as its issuer's stores before it left it (R179), and its bytes are
written, up to the first access that meets an error (R266, R271); that error. A byte that the destination shares with the source is a
free value. -/
def State.runCopy (s : State) (st : Stream) (o : Op) (src dst : Shape) : Option Exn × State :=
  let e := src.width
  let (n, e1, s) := s.engineTouches o.stream st false .row e o.trans src.elems
  let (m, e2, s) := s.engineTouches o.stream st true .row e o.trans (dst.elems.take n)
  let all := elemPlaces st.cl e o.trans src.elems
  let sp := elemPlaces st.cl e o.trans (src.elems.take m)
  let dp := elemPlaces st.cl e o.trans (dst.elems.take m)
  let bs := ((dp.zip sp).zipIdx).map fun b =>
    (b.1.1, if all.contains b.1.1 then Config.freeByte (2 ^ 40 * s.fresh + b.2) else s.engineByte o.stream o.mark b.1.2)
  (e2.orElse fun _ => e1, (s.engineWrite st.launch o.stream o.mark bs).bump)

/-- COPY_COMPLETE (R79, R80, R320): the copy's bytes are written, unless an error stops it (R266). -/
def execCopyComplete (op : Nat) (s : State) : Host.Outcome State Fault Refusal :=
  s.complete op fun o =>
    match o.kind, s.stream? o.stream with
    | .copy q src dst dies, some st =>
      if mayComplete op st.coreNo q [] s.copyq then
        let (err, s) := s.runCopy st o src dst
        let s := { s with copyq := dropCopy op s.copyq }
        some ((s.finishOp op { o with fault := err }).wakeCopy st.cl st.core dies)
      else none
    | _, _ => none

/-! Tiles. -/

/-- TILE_FILL_COMPLETE (R149, R152, R308): the bytes are in the Plaza and the tile is READY; an error leaves it FILLING and
PARTIAL (R266). An ADRN raises its flags here (R137). -/
def execTileFillComplete (op : Nat) (s : State) : Host.Outcome State Fault Refusal :=
  s.complete op fun o =>
    match o.kind, s.stream? o.stream with
    | .tileFill t bytes fl, some st =>
      let s := s.engineWrite st.launch o.stream o.mark (bytes.map fun b => ({ space := .plaza, key := b.1 }, b.2))
      let v := (s.cluster st.cl).tile t
      let done := match o.trans with
        | e :: _ => BitVec.ofNat 16 e.1
        | [] => v.done
      let v := { v with done := done, st := if o.fault.isSome then .filling else .ready, part := o.fault.isSome }
      let s := s.putTile st.cl t v
      let s := s.onSplit o.stream o.owner fun p => { p with fpstat := p.fpstat ||| fl }
      some ((s.finishOp op o).wakeCopy st.cl st.core [])
    | _, _ => none

/-- The generic address of a byte under an operation's own translations. -/
def Op.addrOf (o : Op) (pa : Nat) : Addr :=
  BitVec.ofNat 64 (((o.trans.find? fun t => decide (t.2 / 4 = pa / 4096)).map fun t => 4096 * t.1 + pa % 4096).getD pa)

/-- The orientation in which a tile's drain uses a sector (R156). -/
def Tile.drainOrient (v : Tile) : Orient := if v.orient then colOrient v.width else .row

/-- TILE_DRAIN_COMPLETE (R149, R152): its sectors turn as its bytes reach them (R157), and the bytes for another package that does not
answer any more are lost, with an engine fault (R271). -/
def execTileDrainComplete (op : Nat) (s : State) : Host.Outcome State Fault Refusal :=
  s.complete op fun o =>
    match o.kind, s.stream? o.stream with
    | .tileDrain t bytes, some st =>
      let v := (s.cluster st.cl).tile t
      let cached := fun (p : Place) => o.trans.any fun t => decide (t.2 / 4 = p.key / 4096 ∧ t.2 % 4 < 2)
      let err := (bytes.find? fun b => b.1.space == .phys && s.linkFault b.1.key).map fun b => s.accessError b.1.key (o.addrOf b.1.key)
      let s := (bytes.filter fun b => b.1.key % 1024 == 0).foldl (fun s b => s.arrive (cached b.1) v.drainOrient b.1) s
      let s := s.engineWrite st.launch o.stream o.mark bytes
      let s := s.putTile st.cl t { v with st := .empty, done := doneBits (List.range v.nsec) }
      some ((s.finishOp op { o with fault := o.fault.orElse fun _ => err }).wakeCopy st.cl st.core [])
    | _, _ => none

/-! Collectives. -/

/-- What a rank brings to a match (R273): its operation, its element count and its source bytes. -/
structure CollRank where
  oper  : Nat
  count : Nat
  data  : List Byte
  deriving DecidableEq, Repr

/-- The elements of `e` bytes of a list of bytes, as numbers. -/
def elementsOf (e : Nat) (bs : List Byte) : List Nat :=
  (List.range (bs.length / e)).map fun i =>
    ((bs.drop (e * i)).take e).foldr (fun b acc => b.toNat + 256 * acc) 0

/-- A number as `e` bytes. -/
def bytesOf (e v : Nat) : List Byte := (List.range e).map fun i => BitVec.ofNat 8 (v / 256 ^ i)

/-- Combine of a reduction for an element type (R274). -/
def collAdd (t : Ty) (a b : Nat) : Nat :=
  if t = .f32 then (floatAdd .f32 .rne a b).1 else (a + b) % 2 ^ 32

/-- The types that a reduction accepts (R274). -/
def collType : Ty -> Bool
  | .f32 => true
  | .int 32 _ => true
  | _ => false

/-- Combine of two R197 records (R274). The SEQ of a combined record, and every byte where a record breaks its form or the
two do not combine, are free values: the spec states none (DESIGN CHOICE, log 4). -/
def statRecord (fresh : Nat) (a b : List Nat) : List Nat :=
  let rd := fun (w : List Nat) => kregOfRecord (nth 0 w)
  let free := (List.range 4).map fun i => (Config.freeDouble (fresh + i)).toNat
  match rd a, rd b with
  | some x, some y =>
    if y.st = .empty then a
    else if x.st = .empty then b
    else match x.combine y with
      | some r => { r.1 with seq := BitVec.ofNat 16 (Config.freeWord fresh).toNat }.record
      | none => free
  | _, _ => free

/-- Element `i` of the all-reduce over the ranks, by the rank tree (R191). -/
def reduceAt (t : Ty) (ts : List (List Nat)) (i : Nat) : Nat := rankTree (collAdd t) 0 10 (ts.map fun v => nth 0 v i)

/-- The bytes of a collective at rank `r` (R274). -/
def collResult (oper root r fresh : Nat) (t : Ty) (ts : List (List Byte)) : List Byte :=
  let e := t.width / 8
  let els := ts.map (elementsOf e)
  let n := (els.head?.map List.length).getD 0
  let block := n / max 1 ts.length
  match oper with
  | 0 => (List.range n).flatMap fun i => bytesOf e (reduceAt t els i)
  | 1 =>
    (List.range (n / 4)).flatMap fun i =>
      let recs := els.map fun v => (v.drop (4 * i)).take 4
      (rankTree (statRecord (fresh + 4 * i)) [] 10 recs).flatMap (bytesOf 8)
  | 2 => ts.flatten
  | 3 => (List.range block).flatMap fun i => bytesOf e (reduceAt t els (r * block + i))
  | _ => nth [] ts root

/-- A collective in flight that is not matched yet. -/
structure CollOp where
  id   : Nat
  op   : Op
  st   : Stream
  oper : Nat
  pod  : Bool
  root : Nat
  src  : Shape
  seq  : Nat
  deriving DecidableEq, Repr

/-- The unmatched collective of an operation number. -/
def State.collOp (s : State) (n : Nat) : Option CollOp :=
  match s.op? n with
  | none => none
  | some o =>
    match o.kind, s.stream? o.stream with
    | .coll oper scope _ root src _ seq _ false _, some st =>
      some { id := n, op := o, st := st, oper := oper, pod := scope == 10, root := root, src := src, seq := seq }
    | _, _ => none

/-- The source bytes of a rank of this package, as its issuer's stores before the COLL left them (R179). -/
def State.collSource (s : State) (c : CollOp) : List Byte :=
  (elemPlaces c.st.cl c.src.width c.op.trans c.src.elems).map (s.engineByte c.op.stream c.op.mark)

/-- The unmatched use of the same instance on each rank of a package group (R273). -/
def State.collGroup (s : State) (c : CollOp) : List (Option CollOp) :=
  (List.range (s.launchOf c.st).ncl).map fun r =>
    (s.ops.findSome? fun o =>
      match s.collOp o.1 with
      | some d => if d.st.launch = c.st.launch ∧ !d.pod ∧ d.seq = c.seq ∧ d.st.cl = r then some d else none
      | none => none)

/-- The engine's next chunk (R275): the lowest PRI, then the lower bucket, then the earlier issue. -/
def State.nextColl (s : State) : Option Nat :=
  let waiting := s.ops.filterMap fun o => match o.2.kind with
    | .coll _ _ b _ _ _ _ chunks true _ => if chunks > 0 then some (o.1, b) else none
    | _ => none
  let pri := fun (b : Nat) => (Sp.get 0xFFFF s.bktpri b).toNat
  let less := fun (a b : Nat × Nat) =>
    decide (pri a.2 < pri b.2 ∨ (pri a.2 = pri b.2 ∧ (a.2 < b.2 ∨ (a.2 = b.2 ∧ a.1 < b.1))))
  match waiting with
  | [] => none
  | w :: t => some (t.foldl (fun b e => if less e b then e else b) w).1

/-- The collective engine reads a rank's source (R266, R271): at an error the launch will complete with STATUS 3, and what it reads from
there on is a free value (DESIGN CHOICE, log 4). -/
def State.collRead (s : State) (c : CollOp) : List Byte × State :=
  let data := s.collSource c
  match s.engineTouches c.op.stream c.st false c.src.orient c.src.width c.op.trans c.src.elems with
  | (_, none, s) => (data, s)
  | (n, some e, s) =>
    (data.take (n * c.src.width) ++ (List.range (data.length - n * c.src.width)).map fun i =>
        Config.freeByte (2 ^ 40 * (s.fresh + 2 ^ 40 * c.id) + i),
     s.unitError c.st c.op.stream c.op.owner c.op.pc e)

/-- The sources of several ranks, in order. -/
def State.collReads (s : State) : List CollOp -> List (List Byte) × State
  | [] => ([], s)
  | c :: t =>
    let (d, s) := s.collRead c
    let (ds, s) := s.collReads t
    (d :: ds, s)

/-- Marks a rank matched: with the bytes it will receive, or with the fault of a failed match (R273). -/
def State.matchRank (s : State) (ok : Bool) (ts : List (List Byte)) (r : Nat) (c : CollOp) : State :=
  match c.op.kind with
  | .coll oper scope b root src dst seq chunks _ _ =>
    let t := (Ty.ofCode src.etype).getD .f32
    let res := if ok then collResult oper root r (2 ^ 32 * s.fresh) t ts else []
    s.putOp c.id { c.op with
      kind := .coll oper scope b root src dst seq (if ok then chunks else 0) true res,
      fault := if ok then none else some (Exn.plain .illegalOperand) }
  | _ => s

/-- Whether the ranks agree and the type is one that the operation takes (R273, R274). -/
def collAgree (c : CollOp) (rs : List CollRank) : Bool :=
  rs.all (fun r => r.oper == c.oper && r.count == c.src.elems.length) &&
  (!(c.oper == 0 || c.oper == 3) || collType ((Ty.ofCode c.src.etype).getD .f64))

/-- COLL_MATCH (R273): every rank of the group has issued its instance; for a pod, `remote` is what the other packages
bring, rank by rank. -/
def execCollMatch (op : Nat) (remote : List RemoteRank) (s : State) : Host.Outcome State Fault Refusal :=
  match s.collOp op with
  | none => .next s
  | some c =>
    if c.op.waiting then .next s
    else
      let local_ := fun (d : CollOp) (bs : List Byte) =>
        ({ oper := d.oper, count := d.src.elems.length, data := bs } : CollRank)
      let start := fun (s : State) => (if s.collNow.isSome then s else { s with collNow := s.nextColl }).bump
      if c.pod then
        let other := fun r => remote.find? fun x => x.rank == r
        let want := (List.range s.podSize).filter fun r => r != s.podRank
        if remote.length = want.length ∧ want.all (fun r => (other r).isSome) then
          let (mine, s) := s.collRead c
          let rs := (List.range s.podSize).map fun r =>
            match other r with
            | some x => if r = s.podRank then local_ c mine else { oper := x.oper, count := x.count, data := x.data }
            | none => local_ c mine
          .next (start (s.matchRank (collAgree c rs) (rs.map (·.data)) s.podRank c))
        else .next s
      else if remote.isEmpty ∧ (s.collGroup c).all Option.isSome then
        let ds := (s.collGroup c).filterMap id
        let (bs, s) := s.collReads ds
        let rs := (ds.zip bs).map fun d => local_ d.1 d.2
        let ok := ds.all fun d => collAgree d rs
        .next (start ((ds.zipIdx).foldl (fun s d => s.matchRank ok bs d.2 d.1) s))
      else .next s

/-- COLL_CHUNK_COMPLETE (R275): the chunk in the engine ends, and the next one starts. -/
def execCollChunkComplete (op : Nat) (s : State) : Host.Outcome State Fault Refusal :=
  s.complete op fun o =>
    match o.kind with
    | .coll oper scope b root src dst seq chunks true res =>
      if s.collNow = some op ∧ chunks > 0 then
        let s := s.putOp op { o with kind := .coll oper scope b root src dst seq (chunks - 1) true res }
        some { s with collNow := s.nextColl }
      else none
    | _ => none

/-- COLL_COMPLETE (R273, R274): the destination of this rank is written, up to an access that another package does not answer (R271). -/
def execCollComplete (op : Nat) (s : State) : Host.Outcome State Fault Refusal :=
  s.complete op fun o =>
    match o.kind, s.stream? o.stream with
    | .coll _ _ _ _ _ dst _ 0 true res, some st =>
      let as := if res.isEmpty then [] else dst.elems
      let (n, err, s) := s.engineTouches o.stream st true dst.orient dst.width o.trans as
      let bs := (elemPlaces st.cl dst.width o.trans (as.take n)).zip res
      let s := match err with
        | some e => s.unitError st o.stream o.owner o.pc e
        | none => s
      some ((s.engineWrite st.launch o.stream o.mark bs).finishOp op o)
    | _, _ => none

/-! Adjoints and splats. -/

/-- Whether a pending kill still waits for a handler (R261). -/
def Stream.killWaits (st : Stream) : Bool :=
  st.pendKill == some .replay && st.vis.splits.any fun p => match p.trap with
    | some t => decide (t.count < 8192)
    | none => false

/-- The split that issued an adjoint is held while its commit finds the scatter log full; the first time, the hold is recorded (R229). -/
def State.holdLog (s : State) (n : Nat) (o : Op) (st : Stream) : State :=
  let w := s.whoOf st
  let s := if o.held then s
    else
      let s := (s.putOp n { o with held := true }).box w.die 11 w.unitw 0 o.pc (s.launchOf st).ident
      s.faultEntry st o.stream o.owner { code := 0, pc := o.pc, mask := o.lanes, addr := 0 } 0 false
  s.onSplit o.stream o.owner fun p => if p.ready then { p with hold := some .scatterLog } else p

/-- The end of an adjoint's own region (R230): its contributions commit, and the checkpoint after it stands. A kill that comes first
discards them; those of an instruction that faulted on other lanes wait in the release buffer for its reissue; and a full scatter
log puts the end off (R229). -/
def State.finishAdjoint (s : State) (n : Nat) (o : Op) : State :=
  match s.stream? o.stream with
  | none => s.finishOp n o
  | some st =>
    if st.pendKill.isSome && !st.killWaits then (s.putStream o.stream { st with nextCkpt := none }).finishOp n o
    else match st.nextCkpt with
      | none =>
        let mine := o.contribs.map fun b => { b with own := true }
        (s.putStream o.stream { st with buffer := mine.foldl (fun l b => insertItem b l) st.buffer }).finishOp n o
      | some ck =>
        if s.logFull { st with buffer := o.contribs } then s.holdLog n o st
        else
          let s := o.contribs.foldl (State.commitItem st.launch o.stream st.wid st.cl st.isReplay) s
          let s := s.onStream o.stream fun st =>
            let st := st.fold (o.contribs.flatMap (·.recs))
            { st with ckpt := some { ck with digest := st.digest }, nextCkpt := none }
          s.finishOp n o

/-- TEXADJ_COMPLETE (R230, R233). -/
def execTexadjComplete (op : Nat) (s : State) : Host.Outcome State Fault Refusal :=
  s.complete op fun o => if o.kind = .texadj then some (s.finishAdjoint op o) else none

/-- EDGS_COMPLETE (R230, R235). -/
def execEdgsComplete (op : Nat) (s : State) : Host.Outcome State Fault Refusal :=
  s.complete op fun o => if o.kind = .edgs then some (s.finishAdjoint op o) else none

/-- SPLAT_OP_COMPLETE (R365): an SPLC writes its sorted list and its stop words; an SPLADJ commits. -/
def execSplatOpComplete (op : Nat) (s : State) : Host.Outcome State Fault Refusal :=
  s.complete op fun o =>
    match o.kind, s.stream? o.stream with
    | .splat true _, _ => some (s.finishAdjoint op o)
    | .splat false bytes, some st =>
      let s := s.engineWrite st.launch o.stream o.mark (bytes.map fun b => ({ space := .plaza, key := b.1 }, b.2))
      some (s.finishOp op o)
    | _, _ => none

/-! The matrix units and raster threads. -/

/-- Whether an earlier operation of the stream on the same accumulator is unfinished (R341). -/
def State.mmaBefore (s : State) (n sid acc : Nat) : Bool :=
  s.ops.any fun o => decide (o.1 < n) && o.2.stream == sid &&
    match o.2.kind with
    | .mma a _ _ _ _ _ _ _ => a == acc
    | _ => false

/-- MMA_CHUNK_COMPLETE (R138, R139, R340): one chunk is summed into the accumulator; only while its stream is resident and
holds the lease (R252). A chunk whose operands hold an error ends the operation (R266). -/
def execMmaChunkComplete (op : Nat) (s : State) : Host.Outcome State Fault Refusal :=
  s.complete op fun o =>
    match o.kind, s.stream? o.stream with
    | .mma acc ta tb scaled chunk chunks flags _, some st =>
      let c := s.cluster st.cl
      let holds := match c.lease with
        | some l => l.stream == o.stream
        | none => false
      if st.life = .resident ∧ holds = true ∧ chunk < chunks ∧ !s.mmaBefore op o.stream acc then
        let place := fun (k : Nat) => ({ space := .plaza, key := k } : Place)
        let bad := (c.chunkBytes st.cl (c.tile ta) (c.tile tb) scaled chunk).find? fun k => s.badFor o.stream st (place k) 1
        match bad with
        | some k =>
          let a := BitVec.ofNat 64 (2 ^ 60 + 2 ^ 52 * (k / 2 ^ 22) + k % 2 ^ 22)
          some (s.putOp op { o with kind := .mma acc ta tb scaled chunks chunks flags true, fault := some (Exn.ecc 3 a) })
        | none =>
          let r := c.chunk (fun k => s.engineByte o.stream o.mark (place k)) st.cl acc (c.tile ta) (c.tile tb) scaled chunk
          let s := s.putCluster st.cl { c with accs := r.1 }
          some (s.putOp op { o with kind := .mma acc ta tb scaled (chunk + 1) chunks (flags ||| r.2) (chunk + 1 == chunks) })
      else none
    | _, _ => none

/-- MMA_COMPLETE (R76, R137, R341): the flags are raised, and a lease whose count is used up expires; only while its stream is resident and
its lease is not saved (R252). -/
def execMmaComplete (op : Nat) (s : State) : Host.Outcome State Fault Refusal :=
  s.complete op fun o =>
    match o.kind, s.stream? o.stream with
    | .mma _ _ _ _ _ _ flags true, some st =>
      if st.life ≠ .resident ∨ st.savedLease.isSome then none else
      let s := s.onSplit o.stream o.owner fun p => { p with fpstat := p.fpstat ||| flags }
      let s := s.finishOp op o
      let c := s.cluster st.cl
      let spent := match c.lease with
        | some l => l.stream == o.stream && l.left == 0 && !s.mxuBusy o.stream none
        | none => false
      some (if spent then s.putCluster st.cl { c with lease := none } else s)
    | _, _ => none

/-- RASTER_THREAD_COMPLETE (R211, R212): every fragment acts, but for accesses that another package does not answer any more (R271). -/
def execRasterThreadComplete (op : Nat) (s : State) : Host.Outcome State Fault Refusal :=
  s.complete op fun o =>
    match o.kind with
    | .raster mode frags => 
      let err := frags.findSome? fun f => (f.entry :: (f.obj.map (·.1)).toList).findSome? s.spotError
      some ((frags.foldl (State.fragment o.stream o.mark mode) s).finishOp op { o with fault := o.fault.orElse fun _ => err })
    | _ => none

end Sys2Proof.Machine
end

