-- ==== Sys2Proof/Machine/Streams.lean ====
section
/-! DEFINITION. How a wave, a stage wave and an MCC stream start (R54, R67, R74), and how the issuing split's word is
fetched (R82). -/

namespace Sys2Proof.Machine

/-- The one split of a starting stream (R54). -/
def Split.initial (entry : Addr) (members : LaneMask) (seed : BitVec 64) (loss : BitVec 16) : Split :=
  { num := 0, born := 0, pc := entry, members := members, mask := members, stack := [], dii := 0, diiHi := 0, cycHi := 0,
    winbase := 0, linkage := [], spilled := 0, mode := Mode.initial, srseed := seed, lossexp := loss, fpstat := 0,
    scatbs := 0, hdr := { fa := none, fb := none }, left := 0, status := .run, hold := none, retry := none, trap := none,
    retryOp := none, kept := none, serial := none, recs := [], late := [] }

/-- The visible state of a starting stream before its launch values (R54). -/
def Visible.initial (p : Split) (allot : Nat) (sregs vregs : List (Nat × Word)) : Visible :=
  { splits := [p], cur := 0, sregs := sregs, vregs := vregs, preds := [], kregs := List.replicate 4 KReg.initial,
    ports := [], allot := allot, pfill := 0, alphastop := 0x38800000, tba := 0, fault := FaultRec.initial }

/-- A scalar file from its first registers. -/
def scalarFile (ws : List Word) : List (Nat × Word) := (ws.zipIdx).foldl (fun m w => Sp.set 0 m w.2 w.1) []

/-- v0 and v1 of a starting wave: the lane index, and `base` + lane (R54). -/
def launchVregs (base : Nat) : List (Nat × Word) :=
  let m := allLanes.foldl (fun m l => Sp.set 0 m l (BitVec.ofNat 32 l)) []
  allLanes.foldl (fun m l => Sp.set 0 m (96 + l) (BitVec.ofNat 32 (base + l))) m

/-- The mask of the first `n` lanes. -/
def firstLanes (n : Nat) : LaneMask := maskOf fun l => decide (l < n)

/-- A stream with nothing done yet. -/
def Stream.make (kind : StreamKind) (role : Role) (launch : Nat) (la : Launch) (rank : Word) (wid cl core part : Nat)
    (launched : LaneMask) (vis : Visible) : Stream :=
  { kind := kind, role := role, launch := launch, rank := rank, wid := wid, cl := cl, core := core, part := part,
    phys := 0, admitted := 0, saveDue := false,
    launched := launched, exited := 0, life := .resident, active := false, order := 0, readyAt := none, yielded := false, turns := 0,
    privileged := la.privileged, vis := vis, flags := [], buffer := [], stamp := 0, acqs := [], after := [], pops := [], redeliver := [], dirtyS := [],
    dirtyV := [], dirtyP := [], tileUndo := [], ckpt := none, nextCkpt := none, ckptNo := 0, region := 0, stack := [],
    tape := { spans := [], opened := 0, first := [], replay := [] }, saved := none, pendKill := none, posts := [],
    postSeq := 0, refusals := [], newParts := [], leases := 0, savedLease := none, savedAccs := [], colls := 0, selected := false,
    unverif := false, log := [], logBytes := 0, digest := digestStart rank.toNat, failed := false }

/-- The low and high words of the launch record's address, and the words that follow s1 (R54). -/
def launchScalars (la : Launch) (s2 s3 s4 s5 : Word) (rest : List Word) : List (Nat × Word) :=
  scalarFile ([lo32 la.record.slot, hi32 la.record.slot, s2, s3, s4, s5,
    BitVec.ofNat 32 (if la.det then la.record.w else 0)] ++ rest)

/-- Wave g of a launch at a place (R54, R64). -/
def Stream.launchWave (launch : Nat) (la : Launch) (g cl core part : Nat) : Stream :=
  let lanes := if la.det then 96 else min 96 (la.record.threads - 96 * g)
  let m := firstLanes lanes
  let p := Split.initial la.record.entry m la.record.srseed la.record.lossexp
  let sregs := launchScalars la (BitVec.ofNat 32 g) (BitVec.ofNat 32 la.total) (BitVec.ofNat 32 (4 * cl + core))
    (BitVec.ofNat 32 cl) []
  Stream.make .wave .normal launch la (BitVec.ofNat 32 g) g cl core part m
    (Visible.initial p la.record.allot sregs (launchVregs (96 * g)))

/-- The stage wave of a card (R67): the card's words in s8-s13, its lanes, the producer's rank and post sequence. -/
def Stream.stageWave (launch : Nat) (la : Launch) (stg : Stage) (card : Card) (n wid cl core part : Nat) : Stream :=
  let lanes := (nth 0 card.words 1).toNat / 256 % 128 + 1
  let m := firstLanes lanes
  let p := Split.initial stg.entry m la.record.srseed la.record.lossexp
  let args := (card.words.drop 2).take 6
  let sregs := launchScalars la card.rank (BitVec.ofNat 32 card.seq) (BitVec.ofNat 32 (4 * cl + core))
    (BitVec.ofNat 32 cl) (0 :: args)
  Stream.make (.stage card.stage n card) .normal launch la card.rank wid cl core part m
    (Visible.initial p stg.allot sregs (launchVregs 0))

/-- The MCC stream of a launch on a cluster (R74): no lane, no window. -/
def Stream.mccStream (launch : Nat) (la : Launch) (cl : Nat) : Stream :=
  let p := Split.initial la.record.entry 0 la.record.srseed la.record.lossexp
  let ones : Word := 0xFFFFFFFF
  let sregs := launchScalars la ones (BitVec.ofNat 32 la.total) ones (BitVec.ofNat 32 cl) []
  Stream.make .mcc .normal launch la ones 0 cl 0 0 0 (Visible.initial p 0 sregs [])

/-- Whether a stream may issue: resident, in the active set (R50) of a core whose clock runs, or on the MCC, its launch not
suspended and its saved lease granted (R253), and no kill pending but one that waits for a handler (R261). -/
def State.mayIssue (s : State) (st : Stream) : Bool :=
  st.life == .resident && (st.active || st.isMcc || st.isReplay) && !(st.isMcc && (s.launchOf st).suspended) && st.savedLease.isNone &&
  (st.isMcc || !Sp.get false s.stopped (4 * st.phys + st.core)) &&
  (match st.pendKill with
   | none => true
   | some .final => false
   | some .replay => st.vis.splits.any fun p =>
       match p.trap with
       | some t => decide (t.count < 8192)
       | none => false)

/-- The split that a stream issues from (R30): its current one, or the next ready one. -/
def Stream.turnOf (st : Stream) : Nat :=
  match st.split? st.vis.cur with
  | some p => if p.ready then st.vis.cur else nextReady st.vis.splits st.vis.cur
  | none => nextReady st.vis.splits st.vis.cur

/-- Whether a stream's current split is inside a clause and can issue. -/
def Stream.inClause (st : Stream) : Bool :=
  match st.split? st.turnOf with
  | some p => p.ready && p.left != 0
  | none => false

/-- The next of some numbers after `k` in round-robin: the least above it, else the least. -/
def nextAfter (ns : List Nat) (k : Nat) : Option Nat := (ns.filter fun n => decide (k < n)).min?.or ns.min?

/-- The MCC stream of a cluster that issues next (R74): the one inside a clause, else the next ready one in round-robin. -/
def State.mccTurn (s : State) (cl : Nat) : Option Nat :=
  let ready := s.streams.filter fun e => e.2.isMcc && e.2.cl == cl && s.mayIssue e.2 && e.2.anyReady
  let last := ((s.cluster cl).mccNow).getD 0
  match ready.find? fun e => e.1 == last && e.2.inClause with
  | some e => some e.1
  | none => nextAfter (ready.map (·.1)) last

/-- Whether the pending set of the wave's partition holds a ready wave (R52). -/
def State.pendingReady (s : State) (st : Stream) : Bool :=
  s.streams.any fun e => e.2.inPartition st.cl st.core st.part && !e.2.active && !e.2.stalled

/-- Whether a wave stands at a clause boundary. -/
def Stream.atBoundary (st : Stream) : Bool :=
  match st.split? st.turnOf with
  | some p => p.left == 0
  | none => true

/-- Whether the wave is exchanged before it issues again (R52): it yielded, or it has held its slot for 4,096 clocks, which are
taken as its issues (DESIGN CHOICE, log 9), it stands at a clause boundary, and a pending wave is ready. -/
def State.exchangeDue (s : State) (st : Stream) : Bool :=
  st.active && !st.isMcc && !st.isReplay && (st.yielded || decide (st.turns ≥ 4096)) && st.atBoundary && s.pendingReady st

/-- Whether a stream is ready to issue now; an MCC stream in its turn (R74). -/
def State.readyStream (s : State) (sid : Nat) (st : Stream) : Bool :=
  s.mayIssue st && st.anyReady && !s.exchangeDue st && (!st.isMcc || s.mccTurn st.cl == some sid)

/-- The stream that issues next of itself: round robin from the last issuer (R50). -/
def State.pickIssuer (s : State) : Option Nat :=
  nextAfter ((s.streams.filter fun e => s.readyStream e.1 e.2).map (·.1)) s.issuer

/-- Makes a stream the issuer, at its current split or the next ready one (R30). A YIELD that found no ready wave at its clause
boundary has had no effect (R52). The read-modify-writes that the split's ATOMs
have still to make come before what it issues now (R171, R183). -/
def State.select (s : State) (sid : Nat) : Option State :=
  match s.stream? sid with
  | none => none
  | some st =>
    if s.readyStream sid st then
      let cur := st.turnOf
      let s := if st.isMcc then s.putCluster st.cl { s.cluster st.cl with mccNow := some sid } else s
      let st' := { st with vis := { st.vis with cur := cur }, turns := st.turns + 1, yielded := st.yielded && !st.atBoundary }
      let s := { s.putStream sid st' with issuer := sid }
      some (s.drainAtoms sid cur)
    else none

/-- The word at the issuing split's PC (R82), or the fault of its fetch, and the state after it: a fetch reads through a row
line (R156). -/
def Cx.fetch (cx : Cx) : Except Exn Word × State :=
  let who := cx.s.whoOf cx.st
  if cx.sp.pc.toNat / 2 ^ 57 ≠ 0 then (.error (Exn.at .aperture cx.sp.pc), cx.s) else
  match cx.s.translate who cx.sp.pc .exec (!cx.st.privileged) with
  | (.error e, s) => (.error e, s)
  | (.ok (pa, policy), s) =>
    if s.linkFault pa || s.bad (s.canon pa) 4 then (.error (s.accessError pa cx.sp.pc), s)
    else
      (.ok (bytesWord (s.readPhys pa) (s.readPhys (pa + 1)) (s.readPhys (pa + 2)) (s.readPhys (pa + 3))),
       (s.turn pa policy .row).busCheck who false pa)

end Sys2Proof.Machine
end

