-- ==== Sys2Proof/Machine/Control.lean ====
section
/-! DEFINITION. The control instructions (class 0x0, R103) and the clause header (R85). -/

namespace Sys2Proof.Machine

/-- A control transfer of both sides, once per split (R86). -/
def Desc.control : Desc := { Desc.split [] with ctrl := true }

/-- Checks a control-transfer target in the order of R82. -/
def checkTarget (a : Addr) : Except Stop Addr :=
  if a.toNat / 2 ^ 57 ≠ 0 then .error (.fault (Exn.at .aperture a))
  else if a.toNat % 4 ≠ 0 then .error (.fault (Exn.at .alignment a))
  else .ok a

/-- The target of a branch word: its address plus 4 times the signed offset (R49, R84). -/
def Cx.relTarget (cx : Cx) (off : Int) : Except Stop Addr := checkTarget (cx.sp.pc + BitVec.ofInt 64 (4 * off))

/-- The split continues at `a`, a clause header; its turn is over (R30). -/
def Cx.goto (cx : Cx) (a : Addr) : Cx := { cx with next := a, left := some 0, endTurn := true }

/-- The address after the word. -/
def Cx.fall (cx : Cx) : Addr := cx.sp.pc + 4

/-- BRA (R312). -/
def execBra (o : BitVec 22) (s : State) : Host.Outcome State Fault Refusal :=
  issue s Desc.control fun cx => do
    let t ← cx.relTarget o.toInt
    .ok (cx.goto t)

/-- BRS (R313). -/
def execBrs (sr : BitVec 6) (i : BitVec 16) (s : State) : Host.Outcome State Fault Refusal :=
  issue s { Desc.control with opnds := [.srcS (scalarCode sr)] } fun cx => do
    let t ← cx.relTarget i.toInt
    let (v, cx) ← cx.readS sr.toNat
    .ok (if v ≠ 0 then cx.goto t else cx)

/-- The lowest split number not in use (R25). -/
def freeSplitNum (ps : List Split) : Nat :=
  ((List.range 4).find? fun k => !(ps.any fun p => p.num == k)).getD 3

/-- The age of a split made now. -/
def nextBorn (ps : List Split) : Nat := (ps.map (·.born)).foldl max 0 + 1

/-- BRV (R25, R314): falls through, branches whole, makes a split, or pushes the mask stack. -/
def execBrv (p : BitVec 3) (n : BitVec 1) (o : BitVec 18) (s : State) : Host.Outcome State Fault Refusal :=
  issue s { Desc.control with mcc := false, perLane := true, preds := [p.toNat] } fun cx => do
    let t ← cx.relTarget o.toInt
    let pm := cx.st.pred p.toNat
    let taken := cx.part &&& (if n = 1 then ~~~pm else pm)
    let m := cx.sp.mask
    if taken = 0 then .ok cx
    else if taken = m then .ok (cx.goto t)
    else if cx.st.vis.splits.length < 4 ∧ cx.sp.stack = [] ∧ !cx.sp.inTrap ∧ !cx.st.recomputing then
      let q := { cx.sp with
        num := freeSplitNum cx.st.vis.splits, born := nextBorn cx.st.vis.splits, pc := t, members := taken, mask := taken,
        stack := [], dii := cx.sp.dii + 1, left := 0, status := .run, hold := none, retry := none, retryOp := none,
        kept := none, serial := none, recs := [], late := [] }
      .ok { cx with st := cx.st.putSplit q,
                    sp := { cx.sp with members := cx.sp.members &&& ~~~taken, mask := m &&& ~~~taken } }
    else if cx.sp.stack.length ≥ 16 then stopAt .divergenceOverflow
    else
      let e := MaskEntry.pending cx.fall (m &&& ~~~taken) m (cx.sp.dii + 1)
      .ok ({ cx with sp := { cx.sp with stack := e :: cx.sp.stack, mask := taken } }.goto t)

/-- CALL (R44, R315): the linkage entry and the window advance; on the MCC the linkage alone, to a depth of 64. -/
def execCall (f : BitVec 3) (o : BitVec 19) (s : State) : Host.Outcome State Fault Refusal :=
  issue s { Desc.control with ok := f != 0 } fun cx => do
    let t ← cx.relTarget o.toInt
    let sz := 8 * f.toNat
    let linkage := Linkage.call cx.fall sz :: cx.sp.linkage
    if cx.st.isMcc then
      if cx.sp.linkage.length ≥ 64 then stopAt .stackOverflow
      else .ok ({ cx with sp := { cx.sp with linkage := linkage } }.goto t)
    else
      match spillCount cx.st.vis.allot cx.la.psize (linkage.reverse.map Linkage.size) cx.sp.spilled with
      | none => stopAt .stackOverflow
      | some k =>
        .ok ({ cx with sp := { cx.sp with linkage := linkage, spilled := k, winbase := cx.sp.winbase + sz } }.goto t)

/-- An engine fault that waits for the split's next wait on its flag (R266); at END it is raised whatever the flag, that of an
operation without one too. It waits while another split is parked or in its handler (R263). -/
def Cx.raiseLate (cx : Cx) (m : Nat -> Bool) : Except Stop Cx :=
  match cx.sp.late.find? fun e => m e.1 with
  | none => .ok cx
  | some e =>
    if cx.st.faulting cx.sp.num && !cx.sp.inTrap then .error (.hold .otherFault)
    else
      .error (.after { cx with sp := { cx.sp with late := cx.sp.late.erase e } } { e.2.2 with pc := some e.2.1, flag := some e.1 })

/-- The member lanes of a wave's split have exited (R22, R323), and the split only waits for its own operations; its mask stack goes
with it. -/
def Cx.leaveLanes (cx : Cx) : Cx :=
  { cx with st := { cx.st with exited := cx.st.exited ||| cx.sp.members }, sp := { cx.sp with status := .ended } }

/-- The split is no more (R323). -/
def Cx.gone (cx : Cx) : Cx := { cx.reload (cx.flush.endSplit cx.id cx.sp.num) with keep := false }

/-- Whether an engine operation in flight has met an error, or would meet one that stands now (R266, R271). -/
def Op.failing (o : Op) (s : State) : Bool :=
  o.fault.isSome ||
  match o.kind with
  | .load => false
  | .raster _ _ => false
  | .atom todo => !s.errors.isEmpty || todo.any fun r => r.place.space == .phys && s.linkFault r.place.key
  | _ => !s.errors.isEmpty || o.trans.any fun t => s.linkFault (t.2 / 4 * 4096)

/-- The end of the issuing split (R323): its late faults first, then the commit, then the exit of its lanes, then the wait for
its own operations. An MCC stream waits before all of it, and so does a wave where one of those operations brings a fault, which END
raises before it has any effect (R266; DEDUCED, log 63). -/
def Cx.endSplit (cx : Cx) : Except Stop Cx := do
  if cx.st.isMcc && cx.s.ownBusy cx.id cx.sp.num then .error (.hold .own)
  if cx.s.ops.any fun o => o.2.stream == cx.id && o.2.owner == cx.sp.num && o.2.failing cx.s then .error (.hold .own)
  let cx ← cx.raiseLate fun _ => true
  let cx ← cx.commit
  if cx.s.ownBusy cx.id cx.sp.num then .error (.wait cx.leaveLanes .own) else .ok cx.gone

/-- END (R323). -/
def execEndSplit (s : State) : Host.Outcome State Fault Refusal := issue s { Desc.control with recomp := false } Cx.endSplit

/-- A mask-stack entry without the lanes that exited (R26). -/
def MaskEntry.without (m : LaneMask) : MaskEntry -> MaskEntry
  | .pending pc k b d => .pending pc (k &&& ~~~m) (b &&& ~~~m) d
  | .rejoin a b d => .rejoin a (b &&& ~~~m) d

/-- EXIT (R324): the lanes that take part exit; the split ends with its last lane. -/
def execExit (s : State) : Host.Outcome State Fault Refusal :=
  issue s { Desc.control with mcc := false, recomp := false, perLane := true } fun cx =>
    if cx.sp.members &&& ~~~cx.part = 0 then cx.endSplit
    else
      .ok { cx with
        st := { cx.st with exited := cx.st.exited ||| cx.part },
        sp := { cx.sp with members := cx.sp.members &&& ~~~cx.part, mask := cx.sp.mask &&& ~~~cx.part,
                           stack := cx.sp.stack.map (MaskEntry.without cx.part) } }

/-- JMPI (R327). -/
def execJmpi (sr : BitVec 6) (i : BitVec 16) (s : State) : Host.Outcome State Fault Refusal :=
  issue s { Desc.control with opnds := [(Opnd.srcS (scalarCode sr)).pair] } fun cx => do
    let t ← checkTarget (cx.scalar64 sr.toNat + BitVec.ofInt 64 (4 * i.toInt))
    .ok (cx.goto t)

/-- MERGE (R27, R335): the mask-stack top, or the split parks. -/
def execMerge (s : State) : Host.Outcome State Fault Refusal :=
  issue s { Desc.control with mcc := false } fun cx =>
    match cx.sp.stack with
    | .pending pc m b d :: t =>
      .ok { cx with
        sp := { cx.sp with stack := .rejoin cx.sp.pc b cx.sp.dii :: t, mask := m, dii := d - 1 }, next := pc,
        left := some 0, endTurn := true }
    | .rejoin a b d :: t =>
      if a = cx.sp.pc then
        .ok { cx with sp := { cx.sp with stack := t, mask := b &&& cx.sp.members,
                                         dii := if cx.sp.dii.toNat ≤ d.toNat then d else cx.sp.dii } }
      else .ok cx
    | [] =>
      if cx.sp.inTrap || cx.st.recomputing then .ok cx
      else
        let s := { cx with sp := { cx.sp with status := .merge cx.sp.pc } }.flush.mergeGroups cx.id
        .ok { cx.reload s with keep := false }

/-- MODE (R95, R342). -/
def execMode (e : BitVec 6) (g : BitVec 3) (v : BitVec 1) (r : BitVec 3) (t : BitVec 2) (z : BitVec 1) (x : BitVec 6)
    (s : State) : Host.Outcome State Fault Refusal :=
  issue s { Desc.split [] with
      badMode := (Ty.ofCode e).isNone || decide (r.toNat > 5) || decide (t.toNat > 1) || x != 0 } fun cx =>
    .ok { cx with sp := { cx.sp with
      mode := { etype := e, guard := g, ginv := v == 1, rnd := r, sat := t, ftz := z == 1 } } }

/-- NOP (R344). -/
def execNop (s : State) : Host.Outcome State Fault Refusal := issue s (Desc.split []) fun cx => .ok cx

/-- REGION (R351). -/
def execRegion (s : State) : Host.Outcome State Fault Refusal :=
  issue s { Desc.split [] with commits := true, recomp := false } Cx.commit

/-- RET (R44, R352). -/
def execRet (s : State) : Host.Outcome State Fault Refusal :=
  issue s Desc.control fun cx =>
    match cx.sp.linkage with
    | .call ret f :: t =>
      .ok ({ cx with sp := { cx.sp with
        linkage := t, winbase := if cx.st.isMcc then cx.sp.winbase else cx.sp.winbase - f,
        spilled := min cx.sp.spilled t.length } }.goto ret)
    | .trap _ :: _ => stopAt .illegalInstruction
    | [] => stopAt .illegalInstruction

/-- Waits on a flag mask (R87, R91): a hold while a flag is raised, then the engine faults of those flags (R266). -/
def Cx.waitFlags (cx : Cx) (m : BitVec 12) : Except Stop Cx :=
  if cx.st.flagsClear m then cx.raiseLate (fun f => bit m.toNat f) else .error (.hold (.flags m))

/-- WAITF (R91, R397). -/
def execWaitf (sr : BitVec 6) (s : State) : Host.Outcome State Fault Refusal :=
  issue s (Desc.split [.srcS (scalarCode sr)]) fun cx => do
    let (v, cx) ← cx.readS sr.toNat
    cx.need (v.toNat < 4096) .illegalOperand
    cx.waitFlags (BitVec.ofNat 12 v.toNat)

/-- YIELD (R52, R404): marks the wave for exchange at its next clause boundary; nothing on the MCC. -/
def execYield (s : State) : Host.Outcome State Fault Refusal :=
  issue s (Desc.split []) fun cx => .ok (if cx.st.isMcc then cx else { cx with st := { cx.st with yielded := true } })

/-- A flag choice of a header (R85). -/
def headerFlag (en : BitVec 1) (f : BitVec 4) : Option Nat := if en = 1 then some f.toNat else none

/-- CLAUSE (R85-R87, R316): the wait, then the flags of the clause and its words. A header is not counted in the DII. -/
def execClause (w : BitVec 12) (a : BitVec 1) (f : BitVec 4) (b : BitVec 1) (g : BitVec 4) (l : BitVec 4) (s : State) :
    Host.Outcome State Fault Refusal :=
  issue s { Desc.split [] with
      header := true,
      legal := (if a = 1 then decide (f.toNat < 12) else f == 0) && (if b = 1 then decide (g.toNat < 12) else g == 0) }
    fun cx => do
      let cx ← cx.waitFlags w
      .ok { cx with sp := { cx.sp with hdr := { fa := headerFlag a f, fb := headerFlag b g } },
                    left := some (l.toNat + 1), count := false }

end Sys2Proof.Machine
end

