-- ==== Sys2Proof/Machine/System.lean ====
section
/-! DEFINITION. The system instructions (class 0xB, R115): the allotment (R45-R48), traps (R257-R263) and the system
registers (R400-R403). -/

namespace Sys2Proof.Machine

/-! GROW and SHRINK. -/

/-- Whether an entry of the register stack lies in the window of some split (R43). -/
def visibleEntry (ps : List Split) (allot e : Nat) : Bool :=
  ps.any fun p => decide (p.winbase ≤ e ∧ e < p.winbase + windowOf allot)

/-- Zeroes, in every lane, the entries that exactly one of two allotments leaves visible to some split (R46). -/
def Stream.zeroEntries (st : Stream) (ps : List Split) (a b : Nat) : Stream :=
  { st with vis := { st.vis with
      vregs := st.vis.vregs.filter fun r => visibleEntry ps a (r.1 / 96) == visibleEntry ps b (r.1 / 96) } }

/-- The entries that some split sees under allotment `a` and none under `b`. -/
def lostEntries (ps : List Split) (a b : Nat) : List Nat :=
  (ps.flatMap fun p => (List.range (windowOf a)).map (p.winbase + ·)).filter fun e => !visibleEntry ps b e

/-- The contents of the entries that SHRINK leaves visible to no split are lost (R46): each holds a free value (DESIGN CHOICE, log 4)
until GROW brings it back or something writes it. -/
def Stream.loseEntries (st : Stream) (ps : List Split) (a b fresh : Nat) : Stream :=
  let lose := fun (m : List (Nat × Word)) (e : Nat) =>
    allLanes.foldl (fun m l => Sp.set 0 m (e * 96 + l) (Config.freeWord (2 ^ 24 * fresh + e * 96 + l))) m
  { st with vis := { st.vis with vregs := (lostEntries ps a b).foldl lose st.vis.vregs } }

/-- The waves of `w` persistent waves that partition `p` of a core holds (R64). -/
def wavesOn (w p : Nat) : Nat := (w + 3 - p) / 4

/-- Stage waves of a stage resident in a partition. -/
def State.stageIn (s : State) (l stage cl core part : Nat) : Nat :=
  (s.streams.filter fun e => e.2.launch == l && e.2.inPartition cl core part && e.2.stageOf == some stage).length

/-- The slots of a partition that the stages of DET launches hold (R71) and no wave fills now: for each, its launch and allotment. -/
def State.reserved (s : State) (cl core part : Nat) : List (Nat × Nat) :=
  s.launches.flatMap fun l =>
    if l.2.det && decide (cl < l.2.ncl) then
      (l.2.stages.zipIdx).flatMap fun g =>
        List.replicate (wavesOn g.1.maxw part - s.stageIn l.1 g.2 cl core part) (l.1, g.1.allot)
    else []

/-- The allotments of the partition's resident waves but one, and of the slots reserved there (R45, R71). -/
def State.allotBeside (s : State) (sid : Nat) (cl core part : Nat) : Nat :=
  ((s.streams.filter fun e => e.1 != sid && e.2.inPartition cl core part).map fun e => e.2.vis.allot).sum +
  ((s.reserved cl core part).map (·.2)).sum

/-- Whether an allotment is legal (R46). -/
def allotOk (n : BitVec 8) (a : Nat) : Bool := decide (1 ≤ n.toNat ∧ n.toNat ≤ 30 ∧ 16 ≤ a ∧ a ≤ 256)

/-- GROW (R46, R326): held until the partition has room; entries that become visible read zero. -/
def execGrow (n : BitVec 8) (s : State) : Host.Outcome State Fault Refusal :=
  issue s { Desc.split [] with mcc := false, recomp := false } fun cx => do
    let a := cx.st.vis.allot
    let b := a + 8 * n.toNat
    must (allotOk n b) .illegalOperand
    if cx.s.allotBeside cx.id cx.st.cl cx.st.core cx.st.part + b > Config.allotUnits then .error (.hold (.grow b))
    else
      let st := cx.st.zeroEntries (putSplit cx.st.vis.splits cx.sp) a b
      .ok { cx with st := { st with vis := { st.vis with allot := b } } }

/-- The spilled frames of every split under a smaller allotment; none where a spill area cannot take them (R47). -/
def spillAll (allot psize : Nat) : List Split -> Option (List Split)
  | [] => some []
  | p :: t =>
    match spillCount allot psize p.frames p.spilled, spillAll allot psize t with
    | some k, some ps => some ({ p with spilled := k } :: ps)
    | _, _ => none

/-- SHRINK (R46, R361): older frames are spilled first, and the entries no split sees any more lose their contents. -/
def execShrink (n : BitVec 8) (s : State) : Host.Outcome State Fault Refusal :=
  issue s { Desc.split [] with mcc := false, recomp := false } fun cx => do
    let a := cx.st.vis.allot
    must (decide (8 * n.toNat ≤ a) && allotOk n (a - 8 * n.toNat)) .illegalOperand
    let b := a - 8 * n.toNat
    match spillAll b cx.la.psize (putSplit cx.st.vis.splits cx.sp) with
    | none => stopAt .stackOverflow
    | some ps =>
      let st := cx.st.loseEntries ps a b cx.s.fresh
      let st := { st with vis := { st.vis with allot := b, splits := ps } }
      .ok { cx with s := cx.s.bump, st := st, sp := (st.split? cx.sp.num).getD cx.sp }

/-! Traps. -/

/-- TRAP (R259): SOFTWARE with a code, and an empty retry set. -/
def execTrap (c : BitVec 8) (s : State) : Host.Outcome State Fault Refusal :=
  issue s { Desc.control with recomp := false } fun _ =>
    .error (.fault { Exn.plain .software with sw := c.toNat, empty := true })

/-- TRET (R259): the return from a handler, with the splits that waited for it released (R263). An ATOM that it does not issue again
leaves the records of its finished lanes (R202), and an adjoint its contributions (R230). -/
def execTret (n : BitVec 1) (s : State) : Host.Outcome State Fault Refusal :=
  issue s { Desc.control with legal := s.inHandler } fun cx =>
    match cx.leaveHandler (n == 1) with
    | none => stopAt .illegalInstruction
    | some p =>
      let st := if n == 1 then (cx.st.fold (cx.sp.recs.map (·.2))).disown cx.sp.serial else cx.st
      .ok { cx with st := (st.putSplit { p with dii := cx.sp.dii + 1 }).releaseFaults, keep := false }

/-! The system registers (R401). -/

/-- The SUSPECT window (R205). -/
def State.suspect (s : State) (i : Nat) : Word :=
  if i < 0xAA then
    let j := 2 * (i - 0x90)
    BitVec.ofNat 32 ((s.physAt j).score % 65536 + 65536 * ((s.physAt (j + 1)).score % 65536))
  else
    let d := i - 0xAA
    let cord := (List.range 13).foldl (fun m p =>
      let st := (s.physAt (13 * d + p)).st
      if st == .pending || st == .cordoned then m + 2 ^ p else m) 0
    let forIdx := ((s.dieRow d).findIdx? fun p => p == 12).getD 0x1F
    BitVec.ofNat 32 (forIdx * 65536 + cord)

/-- The core whose cycle counter a stream reads (R55): of the physical cluster; core 0 for the MCC. -/
def Stream.coreAt (st : Stream) : Nat := 4 * st.phys + st.core

/-- The cycle counter at a read: it has moved on by a number of clocks that the model leaves open, or stands still while
its clock is stopped (R55; DESIGN CHOICE, log 9). -/
def State.readCycle (s : State) (core : Nat) : BitVec 64 × State :=
  let old := Sp.get 0 s.cycles core
  let new := if Sp.get false s.stopped core then old else old + BitVec.ofNat 64 (Config.freeClocks s.fresh)
  (new, { s with cycles := Sp.set 0 s.cycles core new }.bump)

/-- Whether an index names a register (R401). -/
def sysReg (i : Nat) : Bool :=
  decide (i ≤ 0x17) || (decide (0x80 ≤ i ∧ i ≤ 0x82)) || decide (0x90 ≤ i ∧ i ≤ 0xAD) || decide (0xC0 ≤ i ∧ i ≤ 0xC3) ||
  decide (0xD0 ≤ i ∧ i ≤ 0xD2)

/-- Whether a register is read-only (R401). -/
def sysReadOnly (i : Nat) : Bool :=
  i == 3 || i == 4 || decide (8 ≤ i ∧ i ≤ 0x14) || i == 0x17 || decide (0x90 ≤ i ∧ i ≤ 0xAD)

/-- SPLITINFO (R32, R401). -/
def Cx.splitInfo (cx : Cx) : Word :=
  if cx.st.isMcc then 4
  else BitVec.ofNat 32 (cx.sp.num + 4 * cx.st.vis.splits.length + 32 * cx.sp.stack.length + 1024 * b2n cx.sp.inTrap)

/-- RANKINFO (R402). -/
def Cx.rankInfo (cx : Cx) : Word :=
  BitVec.ofNat 32 (cx.st.core + 4 * cx.st.part + 65536 * cx.la.ncl + 16777216 * cx.s.presented)

/-- A package register that does not depend on the issuing stream (R401). -/
def State.packageReg (s : State) (i : Nat) : Word :=
  let r := s.region s.rafsel.toNat
  match i with
  | 0x80 => s.vfrac
  | 0x81 => s.bktsel.setWidth 32
  | 0x82 => (Sp.get 0xFFFF s.bktpri s.bktsel.toNat).setWidth 32
  | 0xC0 => s.rafsel.setWidth 32
  | 0xC1 => BitVec.ofNat 32 (r.root.toNat * 4096)
  | 0xC2 => BitVec.ofNat 32 (r.root.toNat / 2 ^ 20)
  | 0xC3 => r.attr.setWidth 32
  | 0xD0 => lo32 s.shapeBase
  | 0xD1 => hi32 s.shapeBase
  | 0xD2 => s.shapeCnt
  | i => s.suspect i

/-- A register's value and the context after the read (R401): the read of DII_LO or CYCLE_LO latches the high half, which reads give until
the next latch; before the first it is 0 (R55; DESIGN CHOICE, log 67). -/
def Cx.sysRead (cx : Cx) (i : Nat) : Word × Cx :=
  let vis := cx.st.vis
  match i with
  | 0x00 => (lo32 vis.tba, cx)
  | 0x01 => (hi32 vis.tba, cx)
  | 0x02 => (cx.sp.fpstat.setWidth 32, cx)
  | 0x03 => (lo32 cx.sp.dii, { cx with sp := { cx.sp with diiHi := hi32 cx.sp.dii } })
  | 0x04 => (cx.sp.diiHi, cx)
  | 0x05 => (lo32 cx.sp.srseed, cx)
  | 0x06 => (hi32 cx.sp.srseed, cx)
  | 0x07 => (cx.sp.lossexp.signExtend 32, cx)
  | 0x08 => (if cx.st.isMcc then 0 else BitVec.ofNat 32 vis.allot, cx)
  | 0x09 => (if cx.st.isMcc then 0 else BitVec.ofNat 32 cx.sp.winbase, cx)
  | 0x0A =>
    let r := cx.s.readCycle (cx.st.coreAt)
    (lo32 r.1, { cx with s := r.2, sp := { cx.sp with cycHi := hi32 r.1 } })
  | 0x0B => (cx.sp.cycHi, cx)
  | 0x0C => (vis.fault.code, cx)
  | 0x0D => (lo32 vis.fault.pc, cx)
  | 0x0E => (hi32 vis.fault.pc, cx)
  | 0x0F => (maskWord vis.fault.mask 0, cx)
  | 0x10 => (maskWord vis.fault.mask 1, cx)
  | 0x11 => (maskWord vis.fault.mask 2, cx)
  | 0x12 => (lo32 vis.fault.addr, cx)
  | 0x13 => (hi32 vis.fault.addr, cx)
  | 0x14 => (cx.splitInfo, cx)
  | 0x15 => (vis.pfill, cx)
  | 0x16 => (vis.alphastop, cx)
  | 0x17 => (cx.rankInfo, cx)
  | i => (cx.s.packageReg i, cx)

/-- Whether a read of the register depends on timing or placement, which a DET launch may not see (R403). -/
def sysTimed (i : Nat) : Bool := i == 0x0A || i == 0x0B || i == 0x14 || decide (0x90 ≤ i ∧ i ≤ 0xAD)

/-- XRD (R400, R403). -/
def execXrd (d : BitVec 7) (i : BitVec 8) (s : State) : Host.Outcome State Fault Refusal :=
  issue s { Desc.split [.dstS d] with priv := decide (i.toNat ≥ 0x80) } fun cx => do
    must (sysReg i.toNat) .illegalOperand
    must (!(cx.la.det && sysTimed i.toNat)) .detViolation
    let (v, cx) := cx.sysRead i.toNat
    cx.writeS (regNo d) v

/-- Whether a register takes a value (R401): no non-zero bit in a read-only field, and no reserved value. -/
def sysTakes (i v : Nat) : Bool :=
  match i with
  | 0x00 => v % 4 == 0
  | 0x02 => decide (v < 64)
  | 0x07 => decide (v < 0x8000) || decide (v ≥ 0xFFFF8000)
  | 0x16 => v == 0x80000000 || decide (v ≤ 0x3F800000)
  | 0x80 => decide (v ≤ 256)
  | 0x81 => decide (v < 64)
  | 0x82 => decide (v < 65536)
  | 0xC0 => decide (v < 32)
  | 0xC1 => v % 4096 == 0
  | 0xC2 => decide (v < 2 ^ 20)
  | 0xC3 => decide (v < 1024) && bits v 9 8 != 3 && bits v 2 1 != 3
  | 0xD0 => v % 64 == 0
  | _ => true

/-- A 64-bit register with its low word replaced. -/
def withLo (x : BitVec 64) (v : Word) : BitVec 64 := pair64 v (hi32 x)
/-- A 64-bit register with its high word replaced. -/
def withHi (x : BitVec 64) (v : Word) : BitVec 64 := pair64 (lo32 x) v

/-- Changes the region that RAFSEL selects (R160). -/
def State.onRegion (s : State) (f : Region -> Region) : State :=
  let k := s.rafsel.toNat
  { s with raf := Sp.set { root := 0, attr := 0 } s.raf k (f (s.region k)) }

/-- A write of a package register (R160, R163, R166, R200, R275). -/
def State.packageWrite (s : State) (i : Nat) (v : Word) : State :=
  match i with
  | 0x80 => { s with vfrac := v }
  | 0x81 => { s with bktsel := BitVec.ofNat 6 v.toNat }
  | 0x82 => { s with bktpri := Sp.set 0xFFFF s.bktpri s.bktsel.toNat (BitVec.ofNat 16 v.toNat) }
  | 0xC0 =>
    let s := { s with rafsel := BitVec.ofNat 4 v.toNat }
    if v.getLsbD 4 then s.invalidate (v.toNat % 16) else s
  | 0xC1 => s.onRegion fun r => { r with root := BitVec.ofNat 40 (v.toNat / 4096 + 2 ^ 20 * (r.root.toNat / 2 ^ 20)) }
  | 0xC2 => s.onRegion fun r => { r with root := BitVec.ofNat 40 (r.root.toNat % 2 ^ 20 + 2 ^ 20 * v.toNat) }
  | 0xC3 => s.onRegion fun r => { r with attr := BitVec.ofNat 10 v.toNat }
  | 0xD0 => { s with shapeBase := withLo s.shapeBase v }
  | 0xD1 => { s with shapeBase := withHi s.shapeBase v }
  | 0xD2 => { s with shapeCnt := v }
  | _ => s

/-- A write of a register; a replay's writes of package registers are discarded (R203). -/
def Cx.sysWrite (cx : Cx) (i : Nat) (v : Word) : Cx :=
  let vis := cx.st.vis
  let put := fun (v : Visible) => { cx with st := { cx.st with vis := v } }
  match i with
  | 0x00 => put { vis with tba := withLo vis.tba v }
  | 0x01 => put { vis with tba := withHi vis.tba v }
  | 0x02 => { cx with sp := { cx.sp with fpstat := BitVec.ofNat 6 v.toNat } }
  | 0x05 => { cx with sp := { cx.sp with srseed := withLo cx.sp.srseed v } }
  | 0x06 => { cx with sp := { cx.sp with srseed := withHi cx.sp.srseed v } }
  | 0x07 => { cx with sp := { cx.sp with lossexp := BitVec.ofNat 16 v.toNat } }
  | 0x15 => put { vis with pfill := v }
  | 0x16 => put { vis with alphastop := v }
  | i => if cx.st.isReplay then cx else cx.onState (State.packageWrite · i v)

/-- XWR (R400, R401). -/
def execXwr (a : BitVec 7) (i : BitVec 8) (s : State) : Host.Outcome State Fault Refusal :=
  issue s { Desc.split [.srcS a] with priv := decide (i.toNat ≥ 0x80), recomp := decide (i.toNat < 0x80) } fun cx => do
    must (sysReg i.toNat && !sysReadOnly i.toNat) .illegalOperand
    let (v, cx) ← cx.readS (regNo a)
    cx.need (sysTakes i.toNat v.toNat) .illegalOperand
    .ok (cx.sysWrite i.toNat v)

end Sys2Proof.Machine
end

