-- ==== Sys2Proof/Machine/Launch.lean ====
section
/-! DEFINITION. Launch records, their refusal and their start (R56-R61, R66, R406), queue barriers (R59), and the
completion of a launch with its record, counters and epochs (R58, R60, R206, R227, R228). An event that is not enabled
leaves the state as it is. -/

namespace Sys2Proof.Machine

/-- Whether launches run at all (R276, R278). -/
def State.compute (s : State) : Bool := s.bring == .selftest || s.bring == .service

/-- Whether the device starts a record of the queue: one is in the ring, and no barrier of the queue waits. -/
def State.headReady (s : State) (q : Nat) : Bool :=
  s.compute && (s.queue q).cfg && (s.queue q).head != (s.queue q).tail && (s.queue q).barrier.isNone

/-- The address of the record at the head of a queue's ring. -/
def State.headSlot (s : State) (q : Nat) : Nat := (s.queue q).base.toNat + 128 * (s.queue q).head

/-- A byte that the device reads at a physical address (R406); a free value where another package does not answer (R271). -/
def State.ownByte (s : State) (a : Nat) : Byte := if s.linkFault a then Config.freeByte (2 ^ 80 + a) else s.readPhys a

/-- A byte of a record at a physical address. -/
def State.recByte (s : State) (a i : Nat) : Nat := (s.ownByte (a + i)).toNat

/-- The records of the device's own accesses to `n` bytes at a physical address (R267, R271): one for each page of 4 KiB (DESIGN CHOICE, log
62). -/
def State.noteRange (s : State) (who : Who) (write : Bool) (a n : Nat) : State :=
  if n = 0 then s
  else (List.range ((a + n - 1) / 4096 - a / 4096 + 1)).foldl
    (fun s i => s.note who write (if i = 0 then a else (a / 4096 + i) * 4096)) s

/-! The launch record (R57). -/

/-- The KIND of a record. -/
def recKind (b : Nat -> Nat) : Nat := fieldAt b 0x0C 4 / 64 % 4

/-- The fields of a record at `slot`. -/
def LaunchRec.parse (slot : Nat) (b : Nat -> Nat) : LaunchRec :=
  { slot := BitVec.ofNat 64 slot, entry := BitVec.ofNat 64 (fieldAt b 0 8), threads := fieldAt b 8 4,
    attr := BitVec.ofNat 32 (fieldAt b 0x0C 4), tiles := fieldAt b 0x10 4, allot := fieldAt b 0x14 2, w := b 0x16,
    nclus := b 0x17, plaza := fieldAt b 0x18 4, tape := fieldAt b 0x1C 2, lossexp := BitVec.ofNat 16 (fieldAt b 0x1E 2),
    srseed := BitVec.ofNat 64 (fieldAt b 0x20 8), route := BitVec.ofNat 64 (fieldAt b 0x28 8),
    sealedAt := BitVec.ofNat 64 (fieldAt b 0x30 8), done := BitVec.ofNat 64 (fieldAt b 0x38 8),
    tapeBase := BitVec.ofNat 64 (fieldAt b 0x40 8), tapeSize := fieldAt b 0x48 8 }

/-- REASON 1 of the record itself (R58). -/
def recReserved (b : Nat -> Nat) : Bool :=
  let attr := fieldAt b 0x0C 4
  bits attr 31 8 != 0 || decide (bits attr 7 6 ≥ 2) || bits attr 5 4 != 0 || fieldAt b 0x50 16 != 0

/-- Whether an allotment field is legal (R57, R66). -/
def allotField (a : Nat) : Bool := a % 8 == 0 && decide (16 ≤ a ∧ a ≤ 256)

/-- Whether an address is a global one (R57). -/
def isGlobal (a : Addr) : Bool := a.toNat / 2 ^ 57 == 0

/-- REASON 2 of the record itself (R58). -/
def LaunchRec.badRange (r : LaunchRec) : Bool :=
  let det := r.attr.getLsbD 0
  let routed := r.attr.getLsbD 2
  (if det then r.threads != 0 || r.w == 0 || decide (r.w > 128) || r.nclus == 0
   else r.threads == 0 || r.tiles != 0 || r.w != 0) ||
  decide (r.nclus > 48) || !allotField r.allot || r.plaza % 1024 != 0 || decide (r.plaza > Config.plazaBytes) ||
  !(r.tape == 0 || (r.tape % 32 == 0 && decide (64 ≤ r.tape ∧ r.tape ≤ 1024))) || (!routed && r.route != 0) ||
  r.entry.toNat % 4 != 0 || r.done.toNat % 32 != 0 ||
  !([r.entry, r.route, r.sealedAt, r.done, r.tapeBase].all isGlobal)

/-! Translation of what a record names (R406). -/

/-- A translation of the launch engine's own: the physical address, or none at any fault, with the LINK record of a walk that another
package did not answer (R271). -/
def State.ownTranslate (s : State) (user : Bool) (a : Addr) (acc : Acc) : Option Nat × State :=
  match s.translate Who.host a acc user with
  | (.ok (pa, _), s) => (some pa, s)
  | (.error e, s) =>
    match e.link with
    | some (pa, c) => (none, s.linkBox Who.host pa c)
    | none => (none, s)

/-- Translates one page for each access named: its physical address, or none at any fault. -/
def State.pageFor (s : State) (user : Bool) (a : Addr) : List Acc -> Option Nat × State
  | [] => (some 0, s)
  | acc :: t =>
    match s.ownTranslate user a acc with
    | (none, s) => (none, s)
    | (some pa, s) =>
      match s.pageFor user a t with
      | (none, s) => (none, s)
      | (some _, s) => (some pa, s)

/-- Translates `n` pages from page `p` for the accesses named; none at any fault. -/
def State.pagesFrom (s : State) (user : Bool) (accs : List Acc) (p : Nat) : Nat -> Option (List (Nat × Nat)) × State
  | 0 => (some [], s)
  | n + 1 =>
    match s.pageFor user (BitVec.ofNat 64 (p * 4096)) accs with
    | (none, s) => (none, s)
    | (some pa, s) =>
      match s.pagesFrom user accs (p + 1) n with
      | (none, s) => (none, s)
      | (some m, s) => (some ((p, pa / 4096) :: m), s)

/-- Translates an extent (R406). -/
def State.extentPages (s : State) (user : Bool) (accs : List Acc) (a : Addr) (size : Nat) :
    Option (List (Nat × Nat)) × State :=
  if size = 0 then (some [], s)
  else if a.toNat + size > 2 ^ 57 then (none, s)
  else s.pagesFrom user accs (a.toNat / 4096) ((a.toNat + size - 1) / 4096 - a.toNat / 4096 + 1)

/-- The physical address of a virtual one under pages translated before. -/
def underPages (m : List (Nat × Nat)) (a : Nat) : Nat := (Tab.get? m (a / 4096)).getD 0 * 4096 + a % 4096

/-- The records of a read of an extent under pages translated before (R267, R271): one for each page of it (DESIGN CHOICE, log 62). -/
def State.notePages (s : State) (write : Bool) (m : List (Nat × Nat)) : State :=
  m.foldl (fun s e => s.note Who.host write (e.2 * 4096)) s

/-- Translates an extent that the launch engine reads at once, and reads it. -/
def State.readExtent (s : State) (user : Bool) (a : Addr) (size : Nat) : Option (List (Nat × Nat)) × State :=
  match s.extentPages user [.read] a size with
  | (none, s) => (none, s)
  | (some m, s) => (some m, s.notePages false m)

/-- The byte at a virtual address under pages translated before. -/
def State.pageByte (s : State) (m : List (Nat × Nat)) (a : Addr) (i : Nat) : Nat :=
  (s.ownByte (underPages m (a.toNat + i))).toNat

/-! The route declaration (R66) and the sealed list (R201). -/

/-- A stage's entry. -/
def Stage.parse (b : Nat -> Nat) : Stage :=
  { entry := BitVec.ofNat 64 (fieldAt b 0 8), ring := BitVec.ofNat 64 (fieldAt b 8 8), ringn := fieldAt b 0x10 4,
    allot := fieldAt b 0x14 2, maxw := b 0x16, barrier := b 0x17 % 2 == 1, quota := fieldAt b 0x18 4 }

/-- Whether a number is 0 or a power of two up to 2^24. -/
def ringOk (n : Nat) : Bool := n == 0 || (List.range 25).any fun k => n == 2 ^ k

/-- REASON 2 of a stage (R58, R66). -/
def Stage.badRange (g : Stage) (det : Bool) : Bool :=
  !isGlobal g.entry || g.entry.toNat % 4 != 0 || !isGlobal g.ring || g.ring.toNat % 32 != 0 || !ringOk g.ringn ||
  !allotField g.allot || g.maxw == 0 || decide (g.maxw > 32) || (!det && g.quota != 0)

/-- A route declaration: OCCTAB, STATS, the stages, and whether it breaks REASON 1 or 2. -/
structure Route where
  occtab : Addr
  stats  : Addr
  stages : List Stage
  r1     : Bool
  r2     : Bool
  deriving DecidableEq, Repr

/-- The declaration in bytes `b` (R66). -/
def Route.parse (det : Bool) (b : Nat -> Nat) : Route :=
  let n := b 0
  let stage := fun k => fun i => b (32 * (k + 1) + i)
  let ks := List.range (if n ≤ 8 then n else 0)
  let stages := ks.map fun k => Stage.parse (stage k)
  let occ := BitVec.ofNat 64 (fieldAt b 8 8)
  let stats := BitVec.ofNat 64 (fieldAt b 0x10 8)
  { occtab := occ, stats := stats, stages := stages,
    r1 := fieldAt b 1 7 != 0 || fieldAt b 0x18 8 != 0 ||
      ks.any fun k => stage k 0x17 / 2 != 0 || fieldAt (stage k) 0x1C 4 != 0,
    r2 := n == 0 || decide (n > 8) || !isGlobal occ || occ.toNat % 4096 != 0 || !isGlobal stats ||
      stages.any (Stage.badRange · det) }

/-- The sealed list in bytes `b`, of `n` entries (R201). -/
def sealedList (n : Nat) (b : Nat -> Nat) : List (Addr × BitVec 64) :=
  (List.range n).map fun i => (BitVec.ofNat 64 (fieldAt b (8 + 16 * i) 8), BitVec.ofNat 64 (fieldAt b (16 + 16 * i) 8))

/-! Whether a DET launch fits (R45, R58, R237). -/

/-- REASON 5. -/
def LaunchRec.fits (r : LaunchRec) (stages : List Stage) : Bool :=
  let part := fun p =>
    decide (wavesOn r.w p + (stages.map fun g => wavesOn g.maxw p).sum ≤ Config.waveSlots) &&
    decide (wavesOn r.w p * r.allot + (stages.map fun g => wavesOn g.maxw p * g.allot).sum ≤ Config.allotUnits)
  (List.range 4).all part &&
  decide (r.plaza + 96 * r.tape * (4 * (r.w + (stages.map (·.maxw)).sum)) ≤ Config.plazaBytes)

/-! Refusal. -/

/-- What the checks of a record find: the REASON of a refusal, or 0, and what a launch of it needs. -/
structure Checked where
  reason : Nat
  s      : State
  route  : Route
  ranges : List (Addr × BitVec 64)
  trans  : List (Nat × Nat)
  deriving DecidableEq, Repr

/-- The extents of R406 beside the route declaration and the sealed list: address, size, accesses. A RING of 0 beside a RINGN that is not
0 is a ring at address 0 (DESIGN CHOICE, log 60). -/
def launchExtents (r : LaunchRec) (rt : Route) : List (Addr × Nat × List Acc) :=
  let rw := [Acc.read, Acc.write]
  [(r.done, 32, [Acc.write])] ++ (if rt.occtab = 0 then [] else [(rt.occtab, 131072, rw)]) ++
  (if rt.stats = 0 then [] else [(rt.stats, 16 * rt.stages.length, [Acc.write])]) ++
  rt.stages.map (fun g => (g.ring, 32 * g.ringn, rw)) ++
  (if r.tapeBase = 0 then [] else [(r.tapeBase, r.tapeSize, rw)])

/-- Translates every extent of a list. -/
def State.allExtents (s : State) (user : Bool) : List (Addr × Nat × List Acc) -> Option (List (Nat × Nat)) × State
  | [] => (some [], s)
  | e :: t =>
    match s.extentPages user e.2.2 e.1 e.2.1 with
    | (none, s) => (none, s)
    | (some m, s) =>
      match s.allExtents user t with
      | (none, s) => (none, s)
      | (some m', s) => (some (m ++ m'), s)

/-- The lowest REASON that applies (R58). -/
def lowestReason (cs : List (Bool × Nat)) : Nat := ((cs.find? fun c => c.1).map (·.2)).getD 0

/-- The empty route of a launch that is not ROUTED. -/
def Route.none : Route := { occtab := 0, stats := 0, stages := [], r1 := false, r2 := false }

/-- Reads the route declaration of a ROUTED launch (R66). -/
def State.readRoute (s : State) (user : Bool) (r : LaunchRec) : Option Route × State :=
  if !r.attr.getLsbD 2 then (some Route.none, s)
  else
    match s.readExtent user r.route 32 with
    | (none, s) => (none, s)
    | (some m, s) =>
      let n := s.pageByte m r.route 0
      match s.readExtent user r.route (32 * ((if n ≤ 8 then n else 0) + 1)) with
      | (none, s) => (none, s)
      | (some m, s) => (some (Route.parse (r.attr.getLsbD 0) (s.pageByte m r.route)), s)

/-- Reads the sealed list (R201): its count, which may be out of range, and its entries. -/
def State.readSealed (s : State) (user : Bool) (r : LaunchRec) : Option Nat × Option (List (Addr × BitVec 64)) × State :=
  if r.sealedAt = 0 then (some 1, some [], s)
  else
    match s.readExtent user r.sealedAt 8 with
    | (none, s) => (none, none, s)
    | (some m, s) =>
      let k := fieldAt (s.pageByte m r.sealedAt) 0 8
      if k > 64 then (some k, some [], s)
      else
        match s.readExtent user r.sealedAt (8 + 16 * k) with
        | (none, s) => (some k, none, s)
        | (some m, s) => (some k, some (sealedList k (s.pageByte m r.sealedAt)), s)

/-- The checks of a launch record in the order of their REASONs (R58). -/
def State.checkRecord (s : State) (r : LaunchRec) (b : Nat -> Nat) (priv : Bool) : Checked :=
  let det := r.attr.getLsbD 0
  let user := !priv
  let (decl, s) := s.readRoute user r
  let rt := decl.getD Route.none
  let (cnt, list, s) := s.readSealed user r
  let badCount := cnt.any fun k => k == 0 || decide (k > 64)
  let ranges := list.getD []
  let (rest, s) := s.allExtents user (launchExtents r rt)
  let reason := lowestReason
    [(recReserved b || rt.r1, 1),
     (r.badRange || rt.r2 || badCount || ranges.any (fun e => !isGlobal e.1), 2),
     (decide (r.nclus > s.presented), 3),
     (det && s.bring != .service, 4),
     (det && !r.fits rt.stages, 5),
     (decl.isNone || cnt.isNone || list.isNone || rest.isNone, 6)]
  { reason := reason, s := s, route := rt, ranges := ranges, trans := rest.getD [] }

/-- The completion record (R58) at a physical address. -/
def State.writeDone (s : State) (a status reason verify faults refused : Nat) : State :=
  let s := s.note Who.host true a
  let s := s.writePhysN a status 4
  let s := s.writePhysN (a + 4) reason 4
  let s := s.writePhysN (a + 8) verify 4
  let s := s.writePhysN (a + 12) faults 4
  let s := s.writePhysN (a + 16) refused 8
  s.writePhysN (a + 24) 0 8

/-- The kind 1 event of a record (R279). -/
def State.launchEvent (s : State) (die status reason : Nat) (done : Addr) (ident : BitVec 64) : State :=
  s.box die 1 (clusterUnit (s.physOf 0)) (BitVec.ofNat 32 (status + 256 * reason)) done ident

/-- The launch identity of the record at the head of a queue (R200). -/
def State.identOf (s : State) (q : Nat) : BitVec 64 := BitVec.ofNat 64 (2 ^ 32 * q + (s.queue q).count.toNat)

/-- The record at the head of a queue is the next one's record before (R60): a launch, or none for one that has completed. -/
def State.setLast (s : State) (q : Nat) (l : Option Nat) : State := s.putQueue q { s.queue q with last := l }

/-- A record of the queue has completed (R56). -/
def State.countRecord (s : State) (q : Nat) : State :=
  s.putQueue q { s.queue q with count := (s.queue q).count + 1 }

/-- The record at the head leaves the ring. -/
def State.takeHead (s : State) (q : Nat) : State :=
  let c := s.queue q
  s.putQueue q { c with head := (c.head + 1) % 2 ^ c.log2 }

/-- A refused record completes at once (R58): its completion record where DONE can be written, its event, its count. -/
def State.refuse (s : State) (q : Nat) (done : Option Addr) (reason : Nat) (priv : Bool) : State :=
  let id := s.identOf q
  let s := match done with
    | some a =>
      if a.toNat % 32 = 0 ∧ isGlobal a then
        match s.ownTranslate (!priv) a .write with
        | (some pa, s) => s.writeDone pa 2 reason 0 0 0
        | (none, s) => s
      else s
    | none => s
  (((s.launchEvent 0 2 reason (done.getD 0) id).countRecord q).takeHead q).setLast q none

/-! The start of a launch. -/

/-- Waves of the launch that were killed and wait for re-admission (R62). -/
def State.killedOf (s : State) (l : Nat) : List (Nat × Stream) :=
  s.streams.filter fun e => e.2.launch == l && e.2.life == .killed && !e.2.isReplay

/-- Whether the launch has a wave left awaiting admission (R61, R62). -/
def State.awaits (s : State) (l : Nat) (la : Launch) : Bool :=
  decide (la.next < la.total) || !(s.killedOf l).isEmpty

/-- Whether the record at the head may begin (R60, R61): the record before it in the queue has completed, or is a launch that it may
overlap. -/
def State.mayBegin (s : State) (q : Nat) (overlap : Bool) : Bool :=
  match (s.queue q).last with
  | none => true
  | some l =>
    match s.launch? l with
    | none => true
    | some la => overlap && !la.routed && !s.awaits l la

/-- Every slot of a cluster that the stages of DET launches hold and no wave fills now (R71). -/
def State.reservedAll (s : State) (cl : Nat) : List (Nat × Nat) :=
  (List.range 16).flatMap fun p => s.reserved cl (p / 4) (p % 4)

/-- Plaza bytes of a cluster that running launches hold: their own, and the tape shares of their resident waves and reserved slots. -/
def State.plazaUsed (s : State) (cl : Nat) : Nat :=
  ((s.launches.filter fun l => decide (cl < l.2.ncl)).map fun l => l.2.record.plaza).sum +
  ((s.streams.filter fun e => e.2.life == .resident && !e.2.isMcc && !e.2.isReplay && e.2.cl == cl).map
    fun e => 96 * (s.launchOf e.2).record.tape).sum +
  ((s.reservedAll cl).map fun e => 96 * ((s.launch? e.1).map (·.record.tape)).getD 0).sum

/-- LAUNCH_START (R60, R61, R406): the record at the head of a queue is refused, or its launch begins. One whose PLAZA bytes do not fit
beside the running launches stays at the head, and waits on no cluster, until they do (DESIGN CHOICE, log 68). -/
def execLaunchStart (q : BitVec 6) (s : State) : Host.Outcome State Fault Refusal :=
  let q := q.toNat
  if !s.headReady q then .next s
  else
    let slot := s.headSlot q
    let b := s.recByte slot
    if recKind b = 1 then .next s
    else
      let r := LaunchRec.parse slot b
      if !s.mayBegin q (r.attr.getLsbD 1) then .next s
      else
        let c := s.queue q
        let s := s.note Who.host false slot
        let k := s.checkRecord r b c.priv
        if k.reason ≠ 0 then .next (k.s.refuse q (some r.done) k.reason c.priv)
        else
          let ncl := if r.nclus = 0 then s.presented else r.nclus
          if (List.range ncl).any fun i => decide (s.plazaUsed i + r.plaza > Config.plazaBytes) then .next s
          else
            let det := r.attr.getLsbD 0
            let total := if det then 4 * ncl * r.w else (r.threads + 95) / 96
            let la : Launch :=
              { Launch.blank with
                queue := q, ident := s.identOf q, record := r, privileged := c.priv, psize := c.psize, ncl := ncl,
                total := total, started := true, occtab := k.route.occtab, stats := k.route.stats,
                stages := k.route.stages, ranges := k.ranges, vfrac := s.vfrac.toNat,
                trans := k.trans.foldl (fun m e => Tab.put m e.1 e.2) [] }
            let l := k.s.nextId
            let s := k.s.putLaunch l la
            .next (({ s with nextId := l + 1 }.takeHead q).setLast q (some l))

/-! Queue barriers (R59). -/

/-- QUEUE_BARRIER (R59): a barrier record reaches the head of its queue when it may begin, the record before it having completed (R60),
and it takes its target's count then (DESIGN CHOICE, log 60). A breach of what every record reserves is REASON
1, and every other breach REASON 2 (R58). -/
def execQueueBarrier (q : BitVec 6) (s : State) : Host.Outcome State Fault Refusal :=
  let q := q.toNat
  if !s.headReady q then .next s
  else
    let slot := s.headSlot q
    let b := s.recByte slot
    if recKind b ≠ 1 ∨ !s.mayBegin q false then .next s
    else
      let s := s.note Who.host false slot
      let target := b 0 % 64
      let bad := b 0 / 64 != 0 || fieldAt b 1 7 != 0 || fieldAt b 0x0C 4 != 64 || fieldAt b 0x10 112 != 0
      if bad then .next (s.refuse q none (if recReserved b then 1 else 2) (s.queue q).priv)
      else if target = q then .next (((s.countRecord q).takeHead q).setLast q none)
      else
        let s := (s.takeHead q).setLast q none
        .next (s.putQueue q { s.queue q with
          barrier := some (target, BitVec.ofNat 32 (fieldAt b 8 4), (s.queue target).count) })

/-- QUEUE_BARRIER_COMPLETE (R59). -/
def execQueueBarrierComplete (q : BitVec 6) (s : State) : Host.Outcome State Fault Refusal :=
  let c := s.queue q.toNat
  match c.barrier with
  | none => .next s
  | some (t, n, c0) =>
    if (s.queue t).count - c0 ≥ n then
      .next ((s.putQueue q.toNat { c with barrier := none }).countRecord q.toNat)
    else .next s

/-! Epochs and the Arcade (R227, R228). -/

/-- Whether a contribution comes before another in key order (R224). -/
def Held.before (a b : Held) : Bool :=
  let k := fun (h : Held) => [h.wid, h.c.dii.toNat, h.c.lane, h.c.j]
  decide (k a < k b)

/-- Puts a contribution in its place. -/
def insertHeld (a : Held) : List Held -> List Held
  | [] => [a]
  | b :: t => if a.before b then a :: b :: t else b :: insertHeld a t

/-- An error that the Arcade meets with a contribution (R266, R271): the launch completes with STATUS 3. -/
def State.arcadeError (s : State) (h : Held) (e : Exn) : State :=
  match s.streams.find? fun x => x.2.launch == h.launch && x.2.wid == h.wid && !x.2.isMcc with
  | some x => s.unitError x.2 x.1 0 0 e
  | none => s.onLaunch h.launch fun la => { la with bad := true }

/-- Adds one contribution to its address (R228), through a row line (R157); an error there makes the launch faulty (R266, R271). One that
the scatter log holds is read from there first: it is lost where no memory stands, and an error where another package does not answer. -/
def State.arcadeAdd (s : State) (h : Held) : State :=
  let a := h.c.place.key
  let at_ := h.slot.getD 0
  if h.slot.isSome && s.linkFault at_ then s.arcadeError h (s.accessError at_ h.c.addr)
  else
    let s := if h.slot.isSome then s.note Who.host false at_ else s
    if h.slot.isSome && !(List.range logBytes).all (fun i => backed (s.canon (at_ + i))) then s
    else if s.linkFault a || s.bad a 4 then s.arcadeError h (s.accessError a h.c.addr)
    else
      let s := s.arrive h.c.cached .row h.c.place
      s.writePhysN a (floatAdd .f32 .rne (s.readPhysN a 4) h.c.value.toNat).1 4

/-- Sums the contributions of an epoch, in ascending key (R228), and lets the commits that a full scatter log held try
again (R229). -/
def State.sumEpoch (s : State) (l n : Nat) : State :=
  let mine := fun (h : Held) => h.launch == l && h.c.epoch == n
  let hs := (s.arcade.filter mine).foldl (fun t h => insertHeld h t) []
  let s := { s with arcade := s.arcade.filter fun h => !mine h }
  let s := hs.foldl State.arcadeAdd s
  { s with streams := s.streams.map fun e =>
      (e.1, e.2.mapSplits fun p => if p.hold = some .scatterLog then { p with hold := none } else p) }

/-- The splits of a stream, those of before a recomputation included. -/
def Stream.allSplits (st : Stream) : List Split :=
  match st.saved with
  | some v => v.splits
  | none => st.vis.splits

/-- Whether an item is a contribution of epoch `n` or an earlier one. -/
def BufItem.upTo (n : Nat) (b : BufItem) : Bool :=
  match b.item with
  | .scat c => decide (c.epoch ≤ n)
  | .store _ | .push _ _ _ | .post _ | .spls _ _ | .tape => false

/-- Whether every wave of the launch has passed its SCATB number `n` + 1 or ended, none awaits admission, and no contribution of the epoch
is still on its way to the Arcade (R227). -/
def State.epochOver (s : State) (l : Nat) (la : Launch) (n : Nat) : Bool :=
  !s.awaits l la &&
  s.streams.all (fun e => e.2.launch != l || e.2.isReplay || !e.2.buffer.any (BufItem.upTo n)) &&
  s.ops.all (fun o => !o.2.contribs.any (BufItem.upTo n) || match s.stream? o.2.stream with
    | some st => st.launch != l || st.isReplay
    | none => true) &&
  s.streams.all fun e => e.2.launch != l || e.2.isMcc || e.2.isReplay || e.2.life == .ended ||
    e.2.allSplits.all fun p => decide (p.scatbs > n)

/-- EPOCH_CLOSE (R227, R228): the next epoch of the launch closes once some wave has passed it or contributed to it. -/
def execEpochClose (l : Nat) (s : State) : Host.Outcome State Fault Refusal :=
  match s.launch? l with
  | none => .next s
  | some la =>
    let n := la.closed
    let used := s.arcade.any (fun h => h.launch == l && h.c.epoch == n) ||
      s.streams.any fun e => e.2.launch == l && e.2.allSplits.any fun p => decide (p.scatbs > n)
    if la.routed ∨ !used ∨ !s.epochOver l la n then .next s
    else .next (((s.sumEpoch l n).onLaunch l fun la => { la with closed := n + 1 }).settle)

/-- The epochs of the launch that still hold contributions, ascending. -/
def State.openEpochs (s : State) (l : Nat) : List Nat :=
  ((s.arcade.filter fun h => h.launch == l).map fun h => h.c.epoch).foldl
    (fun m n => Tab.put m n ()) ([] : List (Nat × Unit)) |>.map (·.1)

/-! The completion of a launch. -/

/-- Whether the launch is eligible for verification (R200). -/
def Launch.eligible (la : Launch) : Bool := la.det && la.record.sealedAt != 0

/-- Whether a selected wave of the launch cannot be verified (R201, R407). -/
def Stream.skips (st : Stream) : Bool := st.unverif || st.failed

/-- The VERIFY word (R206). -/
def State.verifyWord (s : State) (l : Nat) (la : Launch) : Nat :=
  if !la.eligible || la.vfrac == 0 then 0
  else
    let skip := s.streams.any fun e => e.2.launch == l && e.2.selected && !e.2.isReplay && e.2.skips
    let codes := la.verdicts.map (·.2)
    let top := codes.foldl max (if skip then 2 else 1)
    min la.clean 0xFFFF * 65536 + min la.mismatch 0xFF * 256 + top

/-- Whether every wave of a stage's queue on every cluster is dealt. -/
def State.quiet (s : State) (l : Nat) (la : Launch) : Bool :=
  la.cards.isEmpty && !s.awaits l la && (!la.hasMcc || la.mccStart.length == la.ncl) &&
  (s.streams.all fun e => e.2.launch != l || e.2.life == .ended) &&
  (s.ops.all fun o => match s.stream? o.2.stream with
    | some st => st.launch != l
    | none => true) &&
  (s.streams.all fun e => e.2.launch != l || !e.2.selected || e.2.isReplay || e.2.skips ||
    la.verdicts.any fun v => v.1 == e.1)

/-- The places of a word of `n` bytes at a virtual address under pages translated before, which it may cross. -/
def pagePlaces (m : List (Nat × Nat)) (a n : Nat) : List Nat := (List.range n).map fun i => underPages m (a + i)

/-- Adds to a counter of 8 bytes at a virtual address under pages translated before. -/
def State.addWord (s : State) (m : List (Nat × Nat)) (a n : Nat) : State :=
  let ps := pagePlaces m a 8
  let old := ps.foldr (fun p acc => (s.readPhys p).toNat + 256 * acc) 0
  (ps.zipIdx).foldl (fun s p => s.writePhys p.1 (BitVec.ofNat 8 ((old + n) / 256 ^ p.2))) s

/-- Adds to the counter block of each stage (R66). -/
def State.writeStats (s : State) (la : Launch) : State :=
  if la.stats = 0 then s
  else
    let pages := (pagePlaces la.trans la.stats.toNat (16 * la.stages.length)).foldl
      (fun m p => Tab.put m (p / 4096) (p / 4096)) ([] : List (Nat × Nat))
    (List.range la.stages.length).foldl (fun s k =>
      let at_ := la.stats.toNat + 16 * k
      (s.addWord la.trans at_ (Sp.get 0 la.refused k)).addWord la.trans (at_ + 8) (Sp.get 0 la.dropped k))
      (s.notePages true pages)

/-- A tile entry whose owner has completed (R149): EMPTY and unowned. It keeps its last DONE and NSEC (R377), and its descriptor (DESIGN
CHOICE, log 62). -/
def Tile.freed (t : Tile) : Tile := { t with st := .empty, owner := none, part := false }

/-- The entries of the tile table that a launch owned are EMPTY again (R149). -/
def State.freeTiles (s : State) (l : Nat) : State :=
  let free := fun (ts : List (Nat × Tile)) =>
    (ts.filter fun t => t.2.owner == some l).foldl (fun m t => Sp.set Tile.initial m t.1 t.2.freed) ts
  { s with clusters := s.clusters.map fun c => (c.1, { c.2 with tiles := free c.2.tiles }) }

/-- The die rows without their cordoned clusters (R13). -/
def State.newRows (s : State) : List (Nat × List Nat) :=
  (List.range 4).map fun d => (d, (s.dieRow d).filter fun p => (s.physAt (13 * d + p)).st != .cordoned)

/-- The ranks that a renumbering gives to another cluster, or to none (R13): what the launches hold on a rank stays with it (R251). -/
def State.movedRanks (s : State) : List Nat :=
  let t := { s with dieMap := s.newRows }
  (List.range s.presented).filter fun c => decide (c ≥ t.presented) || t.physOf c != s.physOf c

/-- Whether a renumbering is due (R13, R302): a rank moves, and no wave is resident on one that does. -/
def State.renumberDue (s : State) : Bool :=
  let ranks := s.movedRanks
  !ranks.isEmpty && !s.streams.any fun e => e.2.life == .resident && !e.2.isReplay && !e.2.isMcc && ranks.contains e.2.cl

/-- The renumbering of R13 at a kernel boundary (R302): once no wave is resident on a rank that moves. MCC streams there are saved first
(R252), and come back after it; killed waves and saved streams keep their rank (R251; DEDUCED, log 27). -/
def State.renumber (s : State) : State :=
  let ranks := s.movedRanks
  let here := fun (e : Nat × Stream) => e.2.life == .resident && !e.2.isReplay && ranks.contains e.2.cl
  if !s.renumberDue then s
  else if s.streams.any here then
    { s with streams := s.streams.map fun e => if here e then (e.1, { e.2 with saveDue := true }) else e }
  else { s with dieMap := s.newRows }

/-- LAUNCH_COMPLETE (R60): the open epochs close, the counters and the completion record are written, and what the launch
held is released. -/
def execLaunchComplete (l : Nat) (s : State) : Host.Outcome State Fault Refusal :=
  match s.launch? l with
  | none => .next s
  | some la =>
    if !s.quiet l la then .next s
    else
      let s := (s.openEpochs l).foldl (fun s n => s.sumEpoch l n) s
      let la := (s.launch? l).getD la
      let s := s.writeStats la
      let status := if la.faults > 0 ∨ la.bad then 3 else 1
      let refused := (la.refused.map (·.2)).sum
      let s := s.writeDone (underPages la.trans la.record.done.toNat) status 0 (s.verifyWord l la) la.faults refused
      let s := s.launchEvent (s.dieOf 0) status 0 la.record.done la.ident
      let s := s.freeTiles l
      let s := { s with launches := Tab.del s.launches l, streams := s.streams.filter fun e => e.2.launch != l }
      .next (s.renumber.countRecord la.queue)

end Sys2Proof.Machine
end

