-- ==== Sys2Proof/Machine/Waves.lean ====
section
/-! DEFINITION. The scheduler: admission, pre-emption and re-admission of waves (R45, R62-R64, R237, R248), stage waves
(R67, R71, R72), the exchange of active slots (R50-R52), the releases of splits held at issue, leases (R76), kills (R248,
R261) and the save and restore of MCC streams (R252, R253). An event that is not enabled leaves the state as it is. -/

namespace Sys2Proof.Machine

/-! Where a wave may be admitted. -/

/-- The command-queue priority of a launch; 0 is the highest (R56). -/
def State.priOf (s : State) (la : Launch) : Nat := (s.queue la.queue).pri

/-- Whether a physical cluster runs new work (R204, R276): in service, and passed while the self-test runs. -/
def State.serving (s : State) (phys : Nat) : Bool :=
  (s.physAt phys).st == .inService && (s.bring != .selftest || (s.physAt phys).test == some true)

/-- Whether a launch has a resident wave on a logical cluster (R302). -/
def State.hasWave (s : State) (l cl : Nat) : Bool :=
  s.streams.any fun e => e.2.launch == l && e.2.cl == cl && e.2.life == .resident && !e.2.isMcc && !e.2.isReplay

/-- Whether the cluster admits a wave of the launch (R204): a rank that the package presents (R13), and a PENDING cluster only where the
launch has a wave already. -/
def State.clusterTakes (s : State) (l cl : Nat) : Bool :=
  decide (cl < s.presented) && (s.serving (s.physOf cl) || ((s.physAt (s.physOf cl)).st == .pending && s.hasWave l cl))

/-- Whether a partition has a slot and allotment for one more wave (R8, R45), beside the slots that DET stages hold there (R71). `own` is
the allotment of such a slot that the wave itself fills. -/
def State.slotRoom (s : State) (allot : Nat) (own : Option Nat) (cl core part : Nat) : Bool :=
  let used := (s.streams.filter fun e => e.2.inPartition cl core part).length + (s.reserved cl core part).length
  decide (used + 1 ≤ Config.waveSlots + b2n own.isSome) &&
  decide (s.allotBeside 0 cl core part + allot ≤ Config.allotUnits + own.getD 0)

/-- Whether the Plaza of a cluster has room for the tape shares of one more wave (R237); those of a slot that a DET stage holds are counted
already. -/
def State.shareRoom (s : State) (la : Launch) (own : Option Nat) (cl : Nat) : Bool :=
  decide (s.plazaUsed cl + 96 * la.record.tape ≤ Config.plazaBytes + b2n own.isSome * (96 * la.record.tape))

/-- A place: its cluster, core and partition. -/
structure Seat where
  cl   : Nat
  core : Nat
  part : Nat
  deriving DecidableEq, Repr

/-- Place number 16 * cluster + 4 * core + partition. -/
def Seat.ofNat (n : Nat) : Seat := { cl := n / 16, core := n / 4 % 4, part := n % 4 }

/-- The place of wave g of a DET launch (R64). -/
def Launch.seatOf (la : Launch) (g : Nat) : Seat :=
  let r := g / max 1 la.record.w
  { cl := r / 4, core := r % 4, part := g % max 1 la.record.w % 4 }

/-- Whether the cluster that carries a rank now is of the die on which a stream ran there (R11, R253). -/
def State.sameDie (s : State) (st : Stream) : Bool := s.physOf st.cl / 13 == st.phys / 13

/-- The places that a killed wave may take (R11, R62). -/
def State.mayReturn (s : State) (la : Launch) (st : Stream) (p : Seat) : Bool :=
  st.cl == p.cl && st.core == p.core && (!la.det || st.part == p.part) && s.sameDie st

/-- The places that the next new wave of a launch may take (R62, R64). -/
def Launch.mayPlace (la : Launch) (p : Seat) : Bool :=
  if la.det then la.seatOf la.next == p else decide (p.cl < la.ncl)

/-! The cards of stage queues. -/

/-- Stage waves of a stage resident on a core. -/
def State.stageOn (s : State) (l stage cl core : Nat) : Nat :=
  (s.streams.filter fun e => e.2.launch == l && e.2.life == .resident && !e.2.isReplay && e.2.cl == cl && e.2.core == core &&
    e.2.stageOf == some stage).length

/-- The allotment of the slot that a stage of a DET launch holds for its waves on a cluster of the launch (R71). -/
def Launch.ownSlot (la : Launch) (cl : Nat) (stage : Option Nat) : Option Nat :=
  if la.det && decide (cl < la.ncl) then (stage.bind fun k => la.stages[k]?).map (·.allot) else none

/-- The cards that wait on a stage queue of a cluster. -/
def Launch.queueOf (la : Launch) (stage cl : Nat) : List Card := la.cards.filter fun c => c.stage == stage && c.cl == cl

/-- The card that is dealt next: in DET the least by (producer, post sequence) (R71), in FREE the oldest (R67). -/
def Launch.headCard (la : Launch) (stage cl : Nat) : Option Card :=
  match la.queueOf stage cl with
  | [] => none
  | c :: t =>
    if la.det then
      some (t.foldl (fun b e => if e.prod < b.prod ∨ (e.prod = b.prod ∧ e.seq < b.seq) then e else b) c)
    else some c

/-- Whether every wave of the launch and of the stages below `stage` has ended (R72), and none is to come. -/
def State.belowDone (s : State) (l : Nat) (la : Launch) (stage : Nat) : Bool :=
  decide (la.next ≥ la.total) && la.cards.all (fun c => decide (c.stage ≥ stage)) &&
  s.streams.all fun e => e.2.launch != l || e.2.isMcc || e.2.isReplay || e.2.life == .ended ||
    match e.2.stageOf with
    | some k => decide (k ≥ stage)
    | none => false

/-- Whether every producer below `prod` that could post to the stage has ended (R71). -/
def State.lowerEnded (s : State) (l : Nat) (la : Launch) (stage prod : Nat) : Bool :=
  decide (la.next ≥ min la.total prod) &&
  la.cards.all (fun c => decide (c.stage ≥ stage) || decide (((c.stage + 1) * 64 + c.cl) ≥ prod / 2 ^ 40)) &&
  s.streams.all fun e => e.2.launch != l || e.2.isMcc || e.2.isReplay || e.2.life == .ended ||
    decide (e.2.producer ≥ prod) ||
    match e.2.stageOf with
    | some k => decide (k ≥ stage)
    | none => false

/-- The key of a stage queue of a cluster. -/
def stageKey (stage cl : Nat) : Nat := stage * 64 + cl

/-- Whether a queue that the stage has posted to is at least three-quarters full (R67). -/
def Launch.withheld (la : Launch) (stage : Nat) : Bool :=
  la.posted.any fun p => p.1 == stage &&
    match la.stages[p.2 / 64]? with
    | some g => decide (4 * (la.queueOf (p.2 / 64) (p.2 % 64)).length ≥ 3 * g.room)
    | none => false

/-- Whether a stage wave finds a slot and allotment at a place: in DET it fills a slot that its stage holds (R71). -/
def State.stageSlot (s : State) (la : Launch) (stage : Nat) (p : Seat) : Bool :=
  match la.stages[stage]? with
  | none => false
  | some g => s.slotRoom g.allot (la.ownSlot p.cl (some stage)) p.cl p.core p.part

/-- The same with the tape shares of the wave (R237). -/
def State.stageRoom (s : State) (la : Launch) (stage : Nat) (p : Seat) : Bool :=
  s.stageSlot la stage p && s.shareRoom la (la.ownSlot p.cl (some stage)) p.cl

/-- Whether a FREE stage may be dispatched at a place, room aside (R67, R72). -/
def State.stageFits (s : State) (l : Nat) (la : Launch) (p : Seat) (stage : Nat) : Bool :=
  match la.stages[stage]? with
  | none => false
  | some g =>
    !(la.queueOf stage p.cl).isEmpty && !la.withheld stage && (!g.barrier || s.belowDone l la stage) &&
    decide (s.stageOn l stage p.cl p.core < g.maxw)

/-- The fullest of some stages in proportion to its capacity, the lower number on a tie (R67). -/
def Launch.fullest (la : Launch) (cl : Nat) (ks : List Nat) : Option Nat :=
  let len := fun k => (la.queueOf k cl).length
  let room := fun k => match la.stages[k]? with
    | some g => g.room
    | none => 1
  match ks with
  | [] => none
  | k :: t => some (t.foldl (fun b e => if len e * room b > len b * room e then e else b) k)

/-- The stage that a freed slot takes (R67). -/
def State.nextStage (s : State) (l : Nat) (la : Launch) (p : Seat) : Option Nat :=
  la.fullest p.cl ((List.range la.stages.length).filter fun k => s.stageFits l la p k && s.stageRoom la k p)

/-- Whether the next card of a DET stage queue is dealt to the place now, room aside (R71, R72). -/
def State.dealsTo (s : State) (l : Nat) (la : Launch) (stage : Nat) (p : Seat) (card : Card) : Bool :=
  match la.stages[stage]? with
  | none => false
  | some g =>
    let j := Sp.get 0 la.dealt (stageKey stage p.cl)
    let slot := j % (4 * g.maxw)
    p.core == slot % 4 && p.part == slot / 4 % 4 && s.lowerEnded l la stage card.prod &&
    (!g.barrier || s.belowDone l la stage) &&
    s.streams.all fun e => e.2.launch != l || e.2.isReplay || e.2.cl != p.cl || e.2.life == .ended ||
      match e.2.kind with
      | .stage k n _ => k != stage || n % (4 * g.maxw) != slot
      | .wave => true
      | .mcc => true

/-- Whether the head card of a stage queue is dispatched at the place now, were there room: in DET the place that R71 fixes, in FREE any
(R67). -/
def State.wants (s : State) (l : Nat) (la : Launch) (stage : Nat) (p : Seat) (card : Card) : Bool :=
  if la.det then s.dealsTo l la stage p card else s.stageFits l la p stage

/-- Whether it finds room there, and in FREE comes before the other stages (R67). -/
def State.seats (s : State) (l : Nat) (la : Launch) (stage : Nat) (p : Seat) : Bool :=
  if la.det then s.stageRoom la stage p else s.nextStage l la p == some stage

/-! Which launch comes first. -/

/-- Whether the launch awaits a wave that may be placed on the cluster (R62): one that returns, a new one, or one of a card (R67). -/
def State.waitsOn (s : State) (l : Nat) (la : Launch) (cl : Nat) : Bool :=
  (s.killedOf l).any (fun e => e.2.cl == cl && s.sameDie e.2) ||
  (decide (la.next < la.total) && (if la.det then (la.seatOf la.next).cl == cl else decide (cl < la.ncl))) ||
  (List.range la.stages.length).any fun k => match la.headCard k cl with
    | some card => (List.range 16).any fun i => s.wants l la k (Seat.ofNat (16 * cl + i)) card
    | none => false

/-- Whether a launch of higher priority waits on the cluster (R62). -/
def State.outranked (s : State) (la : Launch) (cl : Nat) : Bool :=
  s.launches.any fun o => decide (s.priOf o.2 < s.priOf la) && s.waitsOn o.1 o.2 cl

/-! Entering a slot. -/

/-- Gives a stream a slot of its partition: an active one if there is one, else a pending one (R50). -/
def State.seat (s : State) (sid : Nat) (st : Stream) : State :=
  let here := s.streams.filter fun e => e.2.inPartition st.cl st.core st.part && e.2.active
  let n := s.nextId
  let st := { st with life := .resident, active := decide (here.length < Config.activeSlots), order := n, admitted := n,
                      phys := s.physOf st.cl, yielded := false, turns := 0 }
  ({ s with nextId := n + 1 }.putStream sid st).settleStream sid

/-- Whether wave g of the launch is selected for verification (R200). -/
def Launch.selects (la : Launch) (g : Nat) : Bool :=
  la.eligible && decide (hBits la.ident.toNat g 0 0 % 256 < la.vfrac)

/-- A wave killed before its first commit point, as if it had never started (R248): what its cluster and its launch hold of
it stays, and so do its port mappings (R349). -/
def Stream.afresh (st : Stream) (la : Launch) : Stream :=
  let base := match st.kind with
    | .wave => some (Stream.launchWave st.launch la st.rank.toNat st.cl st.core st.part)
    | .stage k n card =>
      match la.stages[k]? with
      | some g => some (Stream.stageWave st.launch la g card n st.wid st.cl st.core st.part)
      | none => none
    | .mcc => none
  match base with
  | some b => { b with redeliver := st.redeliver, posts := st.posts, postSeq := st.postSeq, selected := st.selected,
                       unverif := st.unverif, failed := st.failed, stack := st.stack, stamp := st.stamp, after := st.after,
                       region := st.region, ckptNo := st.ckptNo, vis := { b.vis with ports := st.vis.ports } }
  | none => st

/-- A killed wave back in a slot, where its checkpoint stands (R248, R249). -/
def State.readmit (s : State) (sid : Nat) (st : Stream) (la : Launch) (p : Seat) : State :=
  let st := if st.ckpt.isNone then st.afresh la else st
  s.seat sid { st with part := p.part }

/-- Pre-emption (R63): the most recently admitted wave of the lowest resident priority on the cluster is killed, if that
priority is below the launch's and no kill is in progress there. -/
def State.preempt (s : State) (la : Launch) (cl : Nat) : State :=
  let here := s.streams.filter fun e => e.2.life == .resident && e.2.cl == cl && !e.2.isMcc && !e.2.isReplay
  let key := fun (e : Nat × Stream) => (s.priOf (s.launchOf e.2), e.2.admitted)
  if here.any fun e => e.2.pendKill.isSome then s
  else match here with
    | [] => s
    | h :: t =>
      let v := t.foldl (fun b e =>
        if (key e).1 > (key b).1 ∨ ((key e).1 = (key b).1 ∧ (key e).2 > (key b).2) then e else b) h
      if (key v).1 > s.priOf la then s.requestKill v.1 .replay else s

/-- Every place where a wave of the launch may be: on its clusters, and for stage waves on every presented one (R69; DESIGN CHOICE, log 68). -/
def State.seatsOf (s : State) (la : Launch) : List Seat :=
  (List.range (16 * (if la.stages.isEmpty then la.ncl else max la.ncl s.presented))).map Seat.ofNat

/-- Whether the wave's stage has room on its core (R67): a FREE stage at most MAXW waves, killed ones that return among them. -/
def State.underCap (s : State) (la : Launch) (st : Stream) : Bool :=
  match st.stageOf with
  | none => true
  | some k =>
    la.det || match la.stages[k]? with
      | some g => decide (s.stageOn st.launch k st.cl st.core < g.maxw)
      | none => true

/-- The allotment with which a killed wave returns (R248). -/
def Stream.backAllot (st : Stream) (la : Launch) : Nat :=
  match st.ckpt with
  | some c => c.allot
  | none => (st.afresh la).vis.allot

/-- Whether a killed wave finds a slot and allotment at a place to which it may return. -/
def State.slotReturns (s : State) (la : Launch) (st : Stream) (p : Seat) : Bool :=
  s.mayReturn la st p && s.slotRoom (st.backAllot la) (la.ownSlot p.cl st.stageOf) p.cl p.core p.part

/-- Whether a killed wave may return to a place now. -/
def State.returnsTo (s : State) (la : Launch) (st : Stream) (p : Seat) : Bool :=
  s.slotReturns la st p && s.shareRoom la (la.ownSlot p.cl st.stageOf) p.cl

/-- Whether the next new wave of a launch finds a slot and allotment at a place. -/
def State.slotPlaces (s : State) (l : Nat) (la : Launch) (p : Seat) : Bool :=
  la.mayPlace p && s.clusterTakes l p.cl && s.slotRoom la.record.allot none p.cl p.core p.part

/-- Whether the next new wave of a launch may take a place now. -/
def State.placesAt (s : State) (l : Nat) (la : Launch) (p : Seat) : Bool := s.slotPlaces l la p && s.shareRoom la none p.cl

/-- Whether a launch's waves are admitted at all (R74). -/
def State.admitting (s : State) (la : Launch) : Bool :=
  s.compute && la.started && (!la.hasMcc || la.mccStart.length == la.ncl)

/-- The killed wave of a launch that returns to a place first. -/
def State.returning (s : State) (l : Nat) (la : Launch) (p : Seat) : Option (Nat × Stream) :=
  (s.killedOf l).find? fun e => s.mayReturn la e.2 p && s.underCap la e.2

/-- Whether a launch can admit a wave now (R62): a launch wave, or the wave of a card. -/
def State.admits (s : State) (l : Nat) (la : Launch) : Bool :=
  (s.seatsOf la).any fun p => s.clusterTakes l p.cl && !s.outranked la p.cl &&
    ((s.admitting la && match s.returning l la p with
      | some e => s.returnsTo la e.2 p
      | none => decide (la.next < la.total) && s.placesAt l la p) ||
     (s.compute && (List.range la.stages.length).any fun k => match la.headCard k p.cl with
      | some card => s.wants l la k p card && s.seats l la k p
      | none => false))

/-- A queue's distance in the rotation from the queue that admitted last (R62). -/
def State.rotation (s : State) (q : Nat) : Nat := (q + 63 - s.admitted) % 64

/-- Whether another launch of the same priority comes before this one in the rotation of admissions (R62). -/
def State.notItsTurn (s : State) (l : Nat) (la : Launch) : Bool :=
  s.launches.any fun o => o.1 != l && s.priOf o.2 == s.priOf la && decide (s.rotation o.2.queue < s.rotation la.queue) &&
    s.admits o.1 o.2

/-- WAVE_ADMISSION (R62-R64, R248): the killed wave of the launch that may return to the place, or else its next wave, in the rotation of
R62; where no place of it has slots and allotment, a wave of lower priority on the cluster is killed (R63). It waits where only the Plaza
has no room (R237). -/
def execWaveAdmission (l place : Nat) (s : State) : Host.Outcome State Fault Refusal :=
  let p := Seat.ofNat place
  match s.launch? l with
  | none => .next s
  | some la =>
    if !s.admitting la ∨ !s.clusterTakes l p.cl ∨ s.outranked la p.cl then .next s
    else
      match s.returning l la p with
      | some (sid, st) =>
        if s.returnsTo la st p then
          .next (if s.notItsTurn l la then s else { s.readmit sid st la p with admitted := la.queue })
        else if (s.seatsOf la).any (s.slotReturns la st) then .next s
        else .next (s.preempt la p.cl)
      | none =>
        if la.next < la.total ∧ la.mayPlace p then
          if s.placesAt l la p then
            if s.notItsTurn l la then .next s
            else
              let st := Stream.launchWave l la la.next p.cl p.core p.part
              let st := { st with selected := la.selects la.next }
              let sid := s.nextId
              let s := { s with nextId := sid + 1 }.putLaunch l { la with next := la.next + 1 }
              .next { s.seat sid st with admitted := la.queue }
          else if (s.seatsOf la).any (s.slotPlaces l la) then .next s
          else .next (s.preempt la p.cl)
        else .next s

/-! MCC streams. -/

/-- Whether the MCC of a cluster has room for one more stream (R74). -/
def State.mccRoom (s : State) (cl : Nat) : Bool :=
  decide ((s.streams.filter fun e => e.2.isMcc && e.2.cl == cl && e.2.life == .resident).length < 8)

/-- MCC_STREAM_START (R74). -/
def execMccStreamStart (l cl : Nat) (s : State) : Host.Outcome State Fault Refusal :=
  match s.launch? l with
  | none => .next s
  | some la =>
    if s.compute && la.started && la.hasMcc && decide (cl < la.ncl) && !la.mccStart.contains cl &&
        decide (cl < s.presented) && s.serving (s.physOf cl) && s.mccRoom cl then
      let sid := s.nextId
      let st := { Stream.mccStream l la cl with phys := s.physOf cl, admitted := sid }
      let s := { s with nextId := sid + 1 }.putLaunch l { la with mccStart := la.mccStart ++ [cl] }
      .next (s.putStream sid st)
    else .next s

/-- A save fills the context area that system software gave the cluster (R252, R405, R406). Its layout is the implementation's, so its bytes
are free values; what the machine restores is what it saved (DESIGN CHOICE, log 32), but for what memory does not hold (readContext). -/
def State.writeContext (s : State) (st : Stream) : State :=
  let n := s.physOf st.cl
  match Tab.get? s.ctxAreas n with
  | none => s
  | some (base, _) =>
    let s := s.noteRange { die := n / 13, unitw := clusterUnit n } true base.toNat (Config.saveBytes n)
    ((List.range (Config.saveBytes n)).foldl
      (fun t i => t.writePhys (base.toNat + i) (Config.freeByte (2 ^ 40 * s.fresh + i))) s).bump

/-- A saved stream all of whose items read as 0 (R267). -/
def Stream.blankSaved (st : Stream) : Stream :=
  let m : Mode := { etype := 0, guard := 0, ginv := false, rnd := 0, sat := 0, ftz := false }
  let zero := fun (p : Split) =>
    { p with pc := 0, dii := 0, diiHi := 0, mode := m, srseed := 0, fpstat := 0, linkage := [], spilled := 0, hdr := { fa := none, fb := none },
             left := 0 }
  { st.mapSplits zero with vis := { (st.mapSplits zero).vis with sregs := [] }, flags := [], buffer := [], savedLease := none, savedAccs := [] }

/-- A saved stream some of whose bytes are lost (DESIGN CHOICE, log 32): its registers and accumulators hold free values. -/
def Stream.lostSaved (st : Stream) (fresh : Nat) : Stream :=
  let free := fun (m : List (Nat × Word)) (n k : Nat) =>
    (List.range n).foldl (fun m i => Sp.set 0 m i (Config.freeWord (2 ^ 24 * fresh + 2 ^ 20 * k + i))) m
  { st with vis := { st.vis with sregs := free st.vis.sregs 60 0 },
            savedAccs := if st.savedLease.isSome then st.savedAccs.map fun e => (e.1, Config.freeWord (2 ^ 24 * fresh + 2 ^ 20 + e.1)) else [] }

/-- A restore reads the context area of the cluster that saved the stream (R253, R406): a byte with no memory behind it reads as 0 (R267),
and one that another package does not answer is free (R271). -/
def State.readContext (s : State) (st : Stream) : Stream × State :=
  match Tab.get? s.ctxAreas st.phys with
  | none => (st, s)
  | some (base, _) =>
    let n := Config.saveBytes st.phys
    let t := s.noteRange { die := st.phys / 13, unitw := clusterUnit st.phys } false base.toNat n
    let held := fun (i : Nat) => backed (s.canon (base.toNat + i)) && !s.linkFault (base.toNat + i)
    let gone := fun (i : Nat) => !backed (s.canon (base.toNat + i)) && !s.linkFault (base.toNat + i)
    if (List.range n).all held then (st, t)
    else if (List.range n).all gone then (st.blankSaved, t)
    else (st.lostSaved s.fresh, t.bump)

/-- MCC_SAVE (R252): the last wave of its launch on the cluster was killed, the cluster is at its kernel boundary, or the
launch is suspended; tile fills and drains of the stream have ended. A lease it has taken is kept with its accumulators. -/
def execMccSave (sid : Nat) (s : State) : Host.Outcome State Fault Refusal :=
  match s.stream? sid with
  | none => .next s
  | some st =>
    let pending := (s.physAt (s.physOf st.cl)).st == .pending &&
      !(s.streams.any fun e => e.2.cl == st.cl && e.2.life == .resident && !e.2.isMcc && !e.2.isReplay)
    let busy := s.ops.any fun o => o.2.stream == sid && !o.2.waiting &&
      match o.2.kind with
      | .tileFill _ _ _ => true
      | _ => false
    if st.isMcc && st.life == .resident && (st.saveDue || pending || (s.launchOf st).suspended) && !busy then
      let c := s.cluster st.cl
      let s := s.writeContext st
      let st := { st with life := .saved, saveDue := false }
      let st := st.mapSplits fun p => if p.hold = some .lease then { p with hold := none } else p
      let c := { c with leaseReqs := c.leaseReqs.filter fun r => r.1 != sid }
      match c.lease with
      | some le =>
        if le.stream ≠ sid then .next ((s.putCluster st.cl c).putStream sid st)
        else
          let s := s.putCluster st.cl { c with lease := none }
          .next (s.putStream sid (if le.taken then { st with savedLease := some (le.left, le.token), savedAccs := c.accs }
            else { st with leases := st.leases - 1 }))
      | none => .next ((s.putCluster st.cl c).putStream sid st)
    else .next s

/-- MCC_RESTORE (R11, R13, R253, R154): once a cluster in service of the same die carries the rank and has room, the launch is not suspended,
and the rank does not move in a renumbering that is due. A saved lease is asked for again, and the stream issues once LEASE_GRANT has
given it. -/
def execMccRestore (sid : Nat) (s : State) : Host.Outcome State Fault Refusal :=
  match s.stream? sid with
  | none => .next s
  | some st =>
    if st.isMcc && st.life == .saved && s.compute && decide (st.cl < s.presented) && s.serving (s.physOf st.cl) &&
        s.mccRoom st.cl && !(s.launchOf st).suspended && s.sameDie st && !(s.renumberDue && s.movedRanks.contains st.cl) then
      let (st, s) := s.readContext st
      let s := s.putStream sid { st with life := .resident, phys := s.physOf st.cl }
      .next (match st.savedLease with
        | some (left, _) => s.askLease sid left
        | none => s)
    else .next s

/-- LAUNCH_SUSPEND (R252): the streams of the launch on the MCC are saved by MCC_SAVE. -/
def execLaunchSuspend (l : Nat) (s : State) : Host.Outcome State Fault Refusal :=
  .next (s.onLaunch l fun la => { la with suspended := true })

/-- LAUNCH_SUSPEND_END (R253). -/
def execLaunchSuspendEnd (l : Nat) (s : State) : Host.Outcome State Fault Refusal :=
  .next (s.onLaunch l fun la => { la with suspended := false })

/-! Stage waves. -/

/-- The occlusion object of a card (R68). -/
def Card.obj (c : Card) : Nat := bits (nth 0 c.words 0).toNat 31 16 + 65536 * bits (nth 0 c.words 1).toNat 7 0

/-- Whether occlusion drops a card (R72). -/
def State.occluded (s : State) (la : Launch) (c : Card) : Bool :=
  la.occtab != 0 && c.obj != 0xFFFFF &&
    !(s.readPhys (underPages la.trans (la.occtab.toNat + c.obj / 8))).getLsbD (c.obj % 8)

/-- The start of the stage wave of a card, or its drop by occlusion (R72). A dropped card takes its dealing index too (DESIGN CHOICE,
log 60). -/
def State.dealCard (s : State) (l : Nat) (la : Launch) (g : Stage) (card : Card) (p : Seat) : State :=
  let key := stageKey card.stage card.cl
  let j := Sp.get 0 la.dealt key
  let drop := s.occluded la card
  let s := if la.occtab != 0 && card.obj != 0xFFFFF then
      s.note Who.host false (underPages la.trans (la.occtab.toNat + card.obj / 8)) else s
  let la := { la with
    cards := la.cards.erase card, dealt := Sp.set 0 la.dealt key (j + 1),
    dropped := if drop then Sp.set 0 la.dropped card.stage (Sp.get 0 la.dropped card.stage + 1) else la.dropped }
  let s := s.putLaunch l la
  if drop then s
  else
    let sid := s.nextId
    let wid := 2 ^ 40 * ((card.stage + 1) * 64 + card.cl) + j
    { s with nextId := sid + 1 }.seat sid (Stream.stageWave l la g card j wid card.cl p.core p.part)

/-- STAGE_WAVE_DISPATCH (R62, R67, R71, R72): the head card of a stage queue starts its wave at a place, in the rotation of R62, or is
dropped; where no place has slots and allotment for it, a wave of lower priority on the cluster is killed (R63). -/
def execStageWaveDispatch (l stage cl place : Nat) (s : State) : Host.Outcome State Fault Refusal :=
  let p := Seat.ofNat place
  match s.launch? l with
  | none => .next s
  | some la =>
    match la.headCard stage cl, la.stages[stage]? with
    | some card, some g =>
      if !(s.compute && p.cl == cl && s.clusterTakes l cl && !s.outranked la cl && s.wants l la stage p card) then .next s
      else if s.seats l la stage p then
        let t := s.dealCard l la g card p
        .next (if s.notItsTurn l la then s else if s.occluded la card then t else { t with admitted := la.queue })
      else
        let places := (List.range 16).map fun i => Seat.ofNat (16 * cl + i)
        if places.any fun q => s.wants l la stage q card && s.stageSlot la stage q then .next s
        else .next (s.preempt la cl)
    | _, _ => .next s

/-! The exchange of active slots. -/

/-- The pending wave of the partition that has been ready longest (R51). -/
def State.oldestReady (s : State) (st : Stream) : Option (Nat × Stream) :=
  let cand := s.streams.filter fun e => e.2.inPartition st.cl st.core st.part && !e.2.active && !e.2.stalled
  match cand with
  | [] => none
  | c :: t => some (t.foldl (fun b e => if e.2.since < b.2.since then e else b) c)

/-- The exchange of an active wave with that pending wave; the active one joins the pending set last, and if it can issue it counts as
ready from now on, so that each ready wave has its turn (R51, R53; DEDUCED, log 53). -/
def State.exchange (s : State) (sid : Nat) (st : Stream) : State :=
  match s.oldestReady st with
  | none => s
  | some (k, o) =>
    let n := s.nextId
    let s := { s with nextId := n + 1 }.putStream k { o with active := true, turns := 0 }
    s.putStream sid { st with active := false, order := n, yielded := false, turns := 0,
                              readyAt := if st.stalled then none else some n }

/-- WAVE_EXCHANGE (R51): a stalled active wave goes for the pending wave that has been ready longest; a wave that becomes
ready while a slot is free takes it. -/
def execWaveExchange (sid : Nat) (s : State) : Host.Outcome State Fault Refusal :=
  match s.stream? sid with
  | none => .next s
  | some st =>
    if st.life ≠ .resident ∨ st.isMcc = true ∨ st.isReplay = true then .next s
    else if !st.active then .next (s.promote st.cl st.core st.part)
    else if st.stalled then .next (s.exchange sid st)
    else .next s

/-- TIMESLICE_EXCHANGE (R52): at a clause boundary, a wave that yielded or whose time slice is up goes for a ready pending wave. -/
def execTimesliceExchange (sid : Nat) (s : State) : Host.Outcome State Fault Refusal :=
  match s.stream? sid with
  | none => .next s
  | some st => if st.life == .resident && s.exchangeDue st then .next (s.exchange sid st) else .next s

/-! Splits held at issue. -/

/-- Clears the hold of a split if the test on it holds: the instruction issues again. -/
def State.release (s : State) (sid k : Nat) (f : Stream -> Hold -> Bool) : Host.Outcome State Fault Refusal :=
  match s.stream? sid with
  | none => .next s
  | some st =>
    match st.split? k with
    | none => .next s
    | some p =>
      match p.hold with
      | none => .next s
      | some h => if st.life == .resident && f st h then .next (s.putStream sid (st.putSplit { p with hold := none })) else .next s

/-- The end of a wait for a split's own operations at END (R323): the split is no more; but a late fault makes its END issue again, which
raises it (R266). -/
def State.endWait (s : State) (sid : Nat) (st : Stream) (p : Split) : State :=
  if p.late.isEmpty then s.endSplit sid p.num
  else s.putStream sid ({ st with exited := st.exited &&& ~~~p.members }.putSplit { p with status := .run, hold := none })

/-- FLAG_WAIT_RELEASE (R87, R88, R91, R323). -/
def execFlagWaitRelease (sid k : Nat) (s : State) : Host.Outcome State Fault Refusal :=
  match (s.stream? sid).bind fun st => (st.split? k).map fun p => (st, p) with
  | some (st, p) =>
    if p.status = .ended ∧ st.life = .resident ∧ s.ownBusy sid k = false then .next (s.endWait sid st p)
    else
      s.release sid k fun st h =>
        match h with
        | .flags m => st.flagsClear m
        | .own => p.status != .ended && !s.ownBusy sid k
        | _ => false
  | none => .next s

/-- QUEUE_STALL_RELEASE (R40). -/
def execQueueStallRelease (sid k : Nat) (s : State) : Host.Outcome State Fault Refusal :=
  s.release sid k fun st h =>
    let entries := Sp.get [] (s.bay st.launch st.cl).hwq
    match h with
    | .queueEmpty q => !(entries q).isEmpty || st.redeliver.any fun e => e.1 == q
    | .queueFull q => decide ((entries q).length + s.heldPushes st.launch st.cl q < Config.queueEntries)
    | _ => false

/-- GROW_GRANT (R46). -/
def execGrowGrant (sid k : Nat) (s : State) : Host.Outcome State Fault Refusal :=
  s.release sid k fun st h =>
    match h with
    | .grow a => decide (s.allotBeside sid st.cl st.core st.part + a ≤ Config.allotUnits)
    | _ => false

/-- TILE_READY_RELEASE (R149, R377). -/
def execTileReadyRelease (sid k : Nat) (s : State) : Host.Outcome State Fault Refusal :=
  s.release sid k fun st h =>
    match h with
    | .tile t =>
      let v := (s.cluster st.cl).tile t
      !(v.st == .draining || (v.st == .filling && !v.part) || s.tileInUse st.cl t)
    | _ => false

/-- POST_PARTITION_GRANT (R71). -/
def execPostPartitionGrant (sid k : Nat) (s : State) : Host.Outcome State Fault Refusal :=
  s.release sid k fun st h =>
    match h with
    | .partition stage cl =>
      let la := s.launchOf st
      match la.stages[stage]? with
      | some g => decide (s.freeCards st.launch la stage cl g ≥ g.quota)
      | none => false
    | _ => false

/-- LEASE_GRANT (R75, R76, R154); to a restored stream, its saved lease with its token and its accumulators (R253). -/
def execLeaseGrant (cl : Nat) (s : State) : Host.Outcome State Fault Refusal :=
  let c := s.cluster cl
  match c.lease, s.nextLease c with
  | none, some (sid, n) =>
    match s.stream? sid with
    | none => .next s
    | some st =>
      let serial := st.leases + 1
      let reqs := c.leaseReqs.filter fun r => r.1 != sid
      match st.savedLease with
      | some (left, token) =>
        let le : Lease := { stream := sid, token := token, left := left, taken := true }
        let c := { c with lease := some le, accs := st.savedAccs, lastHolder := some sid, leaseReqs := reqs }
        .next ((s.putCluster cl c).putStream sid { st with savedLease := none, savedAccs := [] })
      | none =>
        let le : Lease := { stream := sid, token := BitVec.ofNat 32 (serial * 8192 + n), left := n, taken := false }
        let c := { c with
          lease := some le, accs := if c.lastHolder = some sid then c.accs else [], lastHolder := some sid, leaseReqs := reqs }
        let st := st.mapSplits fun p => if p.hold = some .lease then { p with hold := none } else p
        .next ((s.putCluster cl c).putStream sid { st with leases := serial })
  | _, _ => .next s

/-! Kills. -/

/-- Whether a pending kill can be carried out (R250, R261): no handler holds it off, and every operation of the stream has
ended but parked ones and raster threads. -/
def State.killReady (s : State) (sid : Nat) (st : Stream) : Bool :=
  st.life == .resident && st.pendKill.isSome && !st.killWaits &&
  s.ops.all fun o => o.2.stream != sid || o.2.waiting ||
    match o.2.kind with
    | .raster _ _ => true
    | _ => false

/-- Whether a handler of the stream has reached the limit of R261. -/
def Stream.overran (st : Stream) : Bool :=
  st.vis.splits.any fun p => match p.trap with
    | some t => decide (t.count ≥ 8192)
    | none => false

/-- WAVE_KILL (R248-R250, R256). -/
def execWaveKill (sid : Nat) (s : State) : Host.Outcome State Fault Refusal :=
  match s.stream? sid with
  | none => .next s
  | some st => if s.killReady sid st && !st.overran then .next (s.killNow sid) else .next s

/-- HANDLER_LIMIT (R261): a kill that waited for a handler is carried out after its 8,192nd instruction. -/
def execHandlerLimit (sid : Nat) (s : State) : Host.Outcome State Fault Refusal :=
  match s.stream? sid with
  | none => .next s
  | some st => if s.killReady sid st && st.overran then .next (s.killNow sid) else .next s

end Sys2Proof.Machine
end

