-- ==== Sys2Proof/Machine/Verify.lean ====
section
/-! DEFINITION. Replay verification: replays, arbitrations, suspicion scores and cordoning (R203-R206, R302, R407, R11,
R13). An event that is not enabled leaves the state as it is. -/

namespace Sys2Proof.Machine

/-! The states of physical clusters (R204). -/

/-- The kind 6 record of a cluster (R279). -/
def State.cordonEvent (s : State) (phys code : Nat) : State :=
  s.box (phys / 13) 6 (clusterUnit phys) (BitVec.ofNat 32 code) 0 (BitVec.ofNat 64 (s.physAt phys).score)

/-- Replays and arbitrations on a cluster end there; they start again elsewhere (R407). -/
def State.dropReplays (s : State) (phys : Nat) : State :=
  let gone := (s.streams.filter fun e => e.2.isReplay && e.2.life == .resident && e.2.phys == phys).map (·.1)
  { s with streams := s.streams.filter fun e => !gone.contains e.1, ops := s.ops.filter fun o => !gone.contains o.2.stream }

/-- What a score of 256 or more does (R204). -/
def State.suspectPhys (s : State) (phys : Nat) : State :=
  let p := s.physAt phys
  if p.score < 256 then s
  else match p.st with
    | .inService => (s.putPhys phys { p with st := .pending }).cordonEvent phys 1
    | .spare => ((s.putPhys phys { p with st := .cordoned }).cordonEvent phys 2).dropReplays phys
    | .pending => s
    | .cordoned => s

/-- Moves a score by a net amount, between 0 and 0xFFFF (R203). -/
def State.addScore (s : State) (phys : Nat) (n : Int) : State :=
  let p := s.physAt phys
  let v := ((p.score : Int) + n).toNat
  (s.putPhys phys { p with score := min v 0xFFFF }).suspectPhys phys

/-- One more clean wave in which the cluster ran the original or the replay (R203). -/
def State.countClean (s : State) (phys : Nat) : State :=
  let p := s.physAt phys
  s.putPhys phys { p with clean := p.clean + 1 }

/-! Replays and arbitrations. -/

/-- Wave g of the launch, ended, selected and not yet judged (R200, R203). -/
def State.toVerify (s : State) (l g : Nat) (la : Launch) : Option (Nat × Stream) :=
  s.streams.find? fun e => e.2.launch == l && e.2.kind == .wave && !e.2.isReplay && e.2.wid == g && e.2.life == .ended &&
    e.2.selected && !e.2.skips && !(la.verdicts.any fun v => v.1 == e.1)

/-- The replay of a stream. -/
def State.replayOf (s : State) (sid : Nat) : Option (Nat × Stream) :=
  s.streams.find? fun e => match e.2.role with
    | .replay o _ => o == sid
    | .arbiter _ _ => false
    | .normal => false

/-- The arbitration of a stream. -/
def State.arbiterOf (s : State) (sid : Nat) : Option (Nat × Stream) :=
  s.streams.find? fun e => match e.2.role with
    | .arbiter o _ => o == sid
    | .replay _ _ => false
    | .normal => false

/-- Whether a physical cluster may replay or arbitrate (R203). -/
def State.mayReplay (s : State) (phys : Nat) : Bool :=
  decide (phys < 52) && ((s.physAt phys).st == .inService || (s.physAt phys).st == .spare)

/-- A replay of wave g with the input log of its original, on a physical cluster (R203). -/
def State.startReplay (s : State) (l g phys : Nat) (la : Launch) (st : Stream) (role : Role) : State :=
  let sid := s.nextId
  let r := Stream.launchWave l la g st.cl st.core st.part
  let r := { r with role := role, log := st.log, active := true, phys := phys, admitted := sid }
  { s with nextId := sid + 1 }.putStream sid r

/-- Records the verdict of a wave as the VERIFY code it implies (R206). -/
def State.judge (s : State) (l sid code : Nat) : State :=
  s.onLaunch l fun la => { la with verdicts := Tab.put la.verdicts sid code }

/-- Whether an ended replay's digest equals a digest; one that ended early has none (R407). -/
def Stream.matches (r : Stream) (d : BitVec 64 × BitVec 64 × Nat) : Bool := !r.failed && digestEnd r.digest == digestEnd d

/-- VERIFY_REPLAY (R203, R407): the replay of wave g starts on cluster `cl`, any that may replay but the original's (the
preference for the spare shows in the device's own order of trying, which the traced run of R303 does not follow); once it has ended, equal digests make the wave
clean, and a replay without a digest makes it unverifiable. -/
def execVerifyReplay (l g cl : Nat) (s : State) : Host.Outcome State Fault Refusal :=
  match s.launch? l with
  | none => .next s
  | some la =>
    match s.toVerify l g la with
    | none => .next s
    | some (sid, st) =>
      match s.replayOf sid with
      | none =>
        if s.compute && s.mayReplay cl && cl != st.phys then
          .next (s.startReplay l g cl la st (.replay sid cl))
        else .next s
      | some (_, r) =>
        if r.life ≠ .ended then .next s
        else if r.unverif then .next (s.judge l sid 2)
        else if r.matches st.digest then
          let s := (s.judge l sid 1).onLaunch l fun la => { la with clean := la.clean + 1 }
          .next ((s.countClean st.phys).countClean r.phys)
        else .next s

/-- The mismatch of a wave, counted once and recorded as kind 4 (R203, R279). -/
def State.mismatch (s : State) (l g sid : Nat) (la : Launch) (st r : Stream) : State :=
  if la.found.contains sid then s
  else
    let s := s.onLaunch l fun la => { la with mismatch := la.mismatch + 1, found := la.found ++ [sid] }
    s.box (st.phys / 13) 4 (clusterUnit st.phys) (BitVec.ofNat 32 (r.phys % 13 + 256 * (r.phys / 13)))
      (BitVec.ofNat 64 g) la.ident

/-- The outcome of an arbitration as its VERIFY code (R203, R206): 3 the original, 4 the replay, 5 neither. -/
def arbitrate (st r a : Stream) : Nat :=
  if a.matches st.digest then 3 else if !r.failed && a.matches r.digest then 4 else 5

/-- The scores of an arbitration (R203): original, replay, arbiter. -/
def scoreTable : Nat -> Int × Int × Int
  | 3 => (32, 192, -32)
  | 4 => (192, 32, -32)
  | _ => (64, 64, 64)

/-- ARBITRATION (R203, R204, R407): a replay that differs is counted and replayed by a third cluster `cl`, or left
unverifiable where there is none; once the arbiter has ended, the scores move. -/
def execArbitration (l g cl : Nat) (s : State) : Host.Outcome State Fault Refusal :=
  match s.launch? l with
  | none => .next s
  | some la =>
    match s.toVerify l g la with
    | none => .next s
    | some (sid, st) =>
      match s.replayOf sid with
      | none => .next s
      | some (_, r) =>
        if r.life ≠ .ended ∨ r.unverif = true ∨ r.matches st.digest = true then .next s
        else match s.arbiterOf sid with
          | none =>
            let third := fun (p : Nat) => s.mayReplay p && p != st.phys && p != r.phys
            if !s.compute then .next s
            else if third cl then
              .next ((s.mismatch l g sid la st r).startReplay l g cl la st (.arbiter sid cl))
            else if (List.range 52).any third then .next s
            else .next ((s.mismatch l g sid la st r).judge l sid 2)
          | some (_, a) =>
            if a.life ≠ .ended then .next s
            else if a.unverif then .next (s.judge l sid 2)
            else
              let code := arbitrate st r a
              let d := scoreTable code
              let s := s.judge l sid code
              let s := s.box (a.phys / 13) 5 (clusterUnit a.phys) (BitVec.ofNat 32 code) (BitVec.ofNat 64 g) la.ident
              .next (((s.addScore st.phys d.1).addScore r.phys d.2.1).addScore a.phys d.2.2)

/-- SCORE_DECAY (R203). -/
def execScoreDecay (phys : Nat) (s : State) : Host.Outcome State Fault Refusal :=
  let p := s.physAt phys
  if p.clean ≥ 2 ^ 20 then .next (s.putPhys phys { p with clean := p.clean - 2 ^ 20, score := p.score - 1 })
  else .next s

/-! Cordoning. -/

/-- The logical cluster that a physical cluster carries. -/
def State.logicalOf (s : State) (phys : Nat) : Option Nat :=
  match (s.dieRow (phys / 13)).findIdx? fun p => p == phys % 13 with
  | some i => some (s.dieBase (phys / 13) + i)
  | none => none

/-- A cluster leaves service: its index moves to the die's spare, or its die presents one cluster fewer (R204, R11, R13).
What the rank holds is kept under the rank, so it moves with it (R251). -/
def State.cordon (s : State) (phys : Nat) : State :=
  let d := phys / 13
  let spare := 13 * d + 12
  let s := (s.putPhys phys { s.physAt phys with st := .cordoned }).cordonEvent phys 2
  let s := s.dropReplays phys
  if (s.physAt spare).st == .spare && (s.dieRow d).contains (phys % 13) then
    let row := (s.dieRow d).map fun p => if p = phys % 13 then 12 else p
    { s.putPhys spare { s.physAt spare with st := .inService } with dieMap := Tab.put s.dieMap d row }
  else s.renumber

/-- CLUSTER_CORDON (R204, R302): a PENDING cluster on which no launch holds a resident wave, its MCC streams saved. For a cluster that is
cordoned but still carries an index, the renumbering of R13, once its own boundary is reached. -/
def execClusterCordon (phys : Nat) (s : State) : Host.Outcome State Fault Refusal :=
  let held := match s.logicalOf phys with
    | some cl => s.streams.any fun e => e.2.cl == cl && e.2.life == .resident && !e.2.isReplay
    | none => false
  if phys < 52 ∧ (s.physAt phys).st = .pending ∧ !held then .next (s.cordon phys)
  else if phys < 52 ∧ (s.physAt phys).st = .cordoned ∧ (s.dieRow (phys / 13)).contains (phys % 13) then .next s.renumber
  else .next s

end Sys2Proof.Machine
end

