-- ==== Sys2Proof/Machine/Bringup.lean ====
section
/-! DEFINITION. Reset, bring-up and self-test (R276, R277), the refresh of the weight stores (R147), the clocks (R55, R277,
R281). An event that is not enabled leaves the state as it is. -/

namespace Sys2Proof.Machine

/-! Reset. -/

/-- The kind 10 record of every die (R279). -/
def State.resetEvents (s : State) (code : Nat) : State :=
  (List.range 4).foldl (fun s d => s.box d 10 noUnit (BitVec.ofNat 32 code) 0 0) s

/-- Whether an error lies in storage that keeps its bytes through a reset. -/
def ErrSite.stays : ErrSite -> Bool
  | .word _ p => p.space == .phys || p.space == .ws
  | .vreg _ _ _ | .sreg _ _ | .pred _ _ | .tape _ _ | .buffer _ _ => false

/-- What a reset leaves of the model's own fields and of storage: memory and the weight stores keep their bytes and their errors
(DESIGN CHOICE, log 2), and so does the stored firmware image; other packages stay as they are. -/
def State.afterReset (s : State) : State :=
  { State.reset with mem := s.mem, ws := s.ws, errors := s.errors.filter ErrSite.stays, linkDown := s.linkDown,
                     firmware := s.firmware, agenda := s.agenda, fresh := s.fresh, nextId := s.nextId, outside := s.outside }

/-- COLD_RESET (R276, R204, R279). -/
def execColdReset (s : State) : Host.Outcome State Fault Refusal := .next (s.afterReset.resetEvents 1)

/-- WARM_RESET (R276, R204, R279): cluster states, scores and the black-box record are kept, and the counts of corrected errors with it. -/
def execWarmReset (s : State) : Host.Outcome State Fault Refusal :=
  let phys := s.phys.map fun e => (e.1, { e.2 with test := none, mhz := Config.testMhz })
  let r := s.afterReset
  .next ({ r with fq := { r.fq with dropped := s.fq.dropped }, phys := phys, dieMap := s.dieMap, bbox := s.bbox, bboxSeq := s.bboxSeq,
                  corrected := s.corrected }.resetEvents 2)

/-- RESET_RELEASE (R276): the cores' cycle counters are clear (R55), and the refresh starts at its first phase (R147). -/
def execResetRelease (s : State) : Host.Outcome State Fault Refusal :=
  if s.bring = .reset then .next { s with bring := .boot, cycles := [], wsPhase := [] } else .next s

/-- BOOT_CHECK_COMPLETE (R276): `ok` is whether the image's signature is valid; the image then runs. The spec gives the event of a failed check
no kind of its own: its kind and code are free (DESIGN CHOICE, log 18). -/
def execBootCheckComplete (ok : Bool) (s : State) : Host.Outcome State Fault Refusal :=
  if s.bring ≠ .boot then .next s
  else if ok then .next { s with bring := .selftest, running := s.firmware }
  else
    let kind := (Config.freeByte s.fresh).toNat
    .next ({ s with bring := .safe }.box 0 kind noUnit (Config.freeWord s.fresh) 0 0).bump

/-! Self-test. -/

/-- Ends everything without replay (R276): every stream is killed, and nothing of a launch is still to come. -/
def State.killAll (s : State) : State :=
  let stop := fun (la : Launch) => { la with next := la.total, cards := [], mccStart := List.range la.ncl, bad := true }
  let s : State := { s with launches := s.launches.map fun e => (e.1, stop e.2) }
  (s.streams.map (·.1)).foldl (fun (s : State) sid =>
    match s.stream? sid with
    | none => s
    | some st =>
      match st.life with
      | .resident => s.putStream sid { st with pendKill := some .final }
      | .killed => (s.putStream sid { st with pendKill := some .final }).killNow sid
      | .saved => (s.putStream sid { st with pendKill := some .final }).killNow sid
      | .ended => s.putStream sid { st with unverif := true }) s

/-- The result of a test of a die (R276, R405): 0 the LLC, 1 the weight store, 2 both HBM4 stacks, 3 the Plazas. -/
def State.testPart (s : State) (d k : Nat) : Option Bool := Tab.get? s.testParts (4 * d + k)

/-- Whether every test of a die has finished: a cluster that was cordoned before has none. -/
def State.dieTested (s : State) (d : Nat) : Bool :=
  ((List.range 13).all fun p => (s.physAt (13 * d + p)).st == .cordoned || (s.physAt (13 * d + p)).test.isSome) &&
  (List.range 4).all fun k => (s.testPart d k).isSome

/-- Whether a die's tests have failed already (R276): a part of it failed, or no cluster of it can pass any more. -/
def State.dieFailed (s : State) (d : Nat) : Bool :=
  ((List.range 4).any fun k => s.testPart d k == some false) ||
  (List.range 13).all fun p => (s.physAt (13 * d + p)).st == .cordoned || (s.physAt (13 * d + p)).test == some false

/-- What a test's result does to the package (R276): a failure ends in SAFE at once, and the last result of all in SERVICE. -/
def State.judgeTests (s : State) : State :=
  if (List.range 4).any s.dieFailed then { s with bring := .safe }.killAll
  else if (List.range 4).all s.dieTested then { s with bring := .service }.renumber
  else s

/-- CLUSTER_SELFTEST_RESULT (R276, R204): a cluster passes, or is CORDONED before any wave runs on it. -/
def execClusterSelftestResult (phys : Nat) (ok : Bool) (s : State) : Host.Outcome State Fault Refusal :=
  let p := s.physAt phys
  if s.bring = .selftest ∧ phys < 52 ∧ p.test = none ∧ p.st ≠ .cordoned then
    let s := s.putPhys phys { p with test := some ok }
    .next (if ok then s else s.cordon phys).judgeTests
  else .next s

/-- SELFTEST_FINISH (R276): the test of one part of a die ends, part 4 * die + k, with its result. -/
def execSelftestFinish (part : Nat × Bool) (s : State) : Host.Outcome State Fault Refusal :=
  if s.bring = .selftest ∧ part.1 < 16 ∧ Tab.get? s.testParts part.1 = none then
    .next ({ s with testParts := Tab.put s.testParts part.1 part.2 }).judgeTests
  else .next s

/-! Clocks. -/

/-- CLUSTER_CLOCK_RISE (R277): a passed cluster rises in service when no launch has waves on it. -/
def execClusterClockRise (phys : Nat) (s : State) : Host.Outcome State Fault Refusal :=
  let p := s.physAt phys
  let held := match s.logicalOf phys with
    | some cl => s.streams.any fun e => e.2.cl == cl && e.2.life == .resident && !e.2.isReplay && !e.2.isMcc
    | none => false
  if s.bring = .service ∧ phys < 52 ∧ p.test = some true ∧ !held then
    .next (s.putPhys phys { p with mhz := Config.serviceMhz })
  else .next s

/-- The clock of a die: below its service rate while it is in thermal response (R281). -/
def State.dieMhz (s : State) (d : Nat) : Nat := Sp.get Config.serviceMhz s.dieClock d

/-- THERMAL_RESPONSE (R281): the clock of a hot die falls, with a kind 9 record. -/
def execThermalResponse (die mhz : Nat) (s : State) : Host.Outcome State Fault Refusal :=
  if die < 4 ∧ mhz < s.dieMhz die then
    .next ({ s with dieClock := Sp.set Config.serviceMhz s.dieClock die mhz }.box die 9 noUnit (BitVec.ofNat 32 mhz) 0 0)
  else .next s

/-- THERMAL_RESPONSE_END (R281): the clock returns to its service rate, with a kind 9 record. -/
def execThermalResponseEnd (die : Nat) (s : State) : Host.Outcome State Fault Refusal :=
  if die < 4 ∧ s.dieMhz die ≠ Config.serviceMhz then
    .next ({ s with dieClock := Sp.set Config.serviceMhz s.dieClock die Config.serviceMhz }.box die 9 noUnit
      (BitVec.ofNat 32 Config.serviceMhz) 0 0)
  else .next s

/-- WS_REFRESH_PHASE (R147): the refresh of a die's weight store moves to the next of its 32 banks. -/
def execWsRefreshPhase (die : Nat) (s : State) : Host.Outcome State Fault Refusal :=
  if die < 4 then .next { s with wsPhase := Sp.set 0 s.wsPhase die ((Sp.get 0 s.wsPhase die + 1) % 32) } else .next s

/-- CORE_CLOCK_STOP (R55): core number 4 * physical cluster + core of the cluster. -/
def execCoreClockStop (core : Nat) (s : State) : Host.Outcome State Fault Refusal :=
  if core < 208 then .next { s with stopped := Sp.set false s.stopped core true } else .next s

/-- CORE_CLOCK_START (R55). -/
def execCoreClockStart (core : Nat) (s : State) : Host.Outcome State Fault Refusal :=
  .next { s with stopped := Sp.set false s.stopped core false }

end Sys2Proof.Machine
end

