-- ==== Sys2Proof/Machine/Sha.lean ====
section
/-! DEFINITION. SHA-256, which R280 and R276 name without its text: FIPS 180-4 (PRESUMED, log 65). -/

namespace Sys2Proof.Machine

/-- The 64 round constants. -/
def shaK : List Word :=
  [0x428a2f98, 0x71374491, 0xb5c0fbcf, 0xe9b5dba5, 0x3956c25b, 0x59f111f1, 0x923f82a4, 0xab1c5ed5] ++
  [0xd807aa98, 0x12835b01, 0x243185be, 0x550c7dc3, 0x72be5d74, 0x80deb1fe, 0x9bdc06a7, 0xc19bf174] ++
  [0xe49b69c1, 0xefbe4786, 0x0fc19dc6, 0x240ca1cc, 0x2de92c6f, 0x4a7484aa, 0x5cb0a9dc, 0x76f988da] ++
  [0x983e5152, 0xa831c66d, 0xb00327c8, 0xbf597fc7, 0xc6e00bf3, 0xd5a79147, 0x06ca6351, 0x14292967] ++
  [0x27b70a85, 0x2e1b2138, 0x4d2c6dfc, 0x53380d13, 0x650a7354, 0x766a0abb, 0x81c2c92e, 0x92722c85] ++
  [0xa2bfe8a1, 0xa81a664b, 0xc24b8b70, 0xc76c51a3, 0xd192e819, 0xd6990624, 0xf40e3585, 0x106aa070] ++
  [0x19a4c116, 0x1e376c08, 0x2748774c, 0x34b0bcb5, 0x391c0cb3, 0x4ed8aa4a, 0x5b9cca4f, 0x682e6ff3] ++
  [0x748f82ee, 0x78a5636f, 0x84c87814, 0x8cc70208, 0x90befffa, 0xa4506ceb, 0xbef9a3f7, 0xc67178f2]

/-- The initial hash value. -/
def shaH : List Word :=
  [0x6a09e667, 0xbb67ae85, 0x3c6ef372, 0xa54ff53a, 0x510e527f, 0x9b05688c, 0x1f83d9ab, 0x5be0cd19]

/-- Item `i` of a list of words. -/
def shaAt (ws : List Word) (i : Nat) : Word := (ws[i]?).getD 0

/-- The two small sigma functions of the message schedule. -/
def shaSmall (a b c : Nat) (x : Word) : Word := x.rotateRight a ^^^ x.rotateRight b ^^^ (x >>> c)

/-- The two large sigma functions of a round. -/
def shaLarge (a b c : Nat) (x : Word) : Word := x.rotateRight a ^^^ x.rotateRight b ^^^ x.rotateRight c

/-- The message schedule of a block, newest word first: `n` more words. -/
def shaSchedule : Nat -> List Word -> List Word
  | 0, ws => ws
  | n + 1, ws =>
    let w := shaSmall 17 19 10 (shaAt ws 1) + shaAt ws 6 + shaSmall 7 18 3 (shaAt ws 14) + shaAt ws 15
    shaSchedule n (w :: ws)

/-- One round: the eight working variables a to h, a round constant and a word of the schedule. -/
def shaRound (v : List Word) (k w : Word) : List Word :=
  let a := shaAt v 0
  let b := shaAt v 1
  let c := shaAt v 2
  let e := shaAt v 4
  let ch := (e &&& shaAt v 5) ^^^ (~~~e &&& shaAt v 6)
  let maj := (a &&& b) ^^^ (a &&& c) ^^^ (b &&& c)
  let t1 := shaAt v 7 + shaLarge 6 11 25 e + ch + k + w
  let t2 := shaLarge 2 13 22 a + maj
  [t1 + t2, a, b, c, shaAt v 3 + t1, e, shaAt v 5, shaAt v 6]

/-- One block of 16 words. -/
def shaBlock (h block : List Word) : List Word :=
  let ws := (shaSchedule 48 block.reverse).reverse
  let v := (shaK.zip ws).foldl (fun v kw => shaRound v kw.1 kw.2) h
  (h.zip v).map fun p => p.1 + p.2

/-- The padded message of `bs`. -/
def shaPad (bs : List Byte) : List Byte :=
  let n := bs.length
  let zeros := (119 - n % 64) % 64
  bs ++ [0x80] ++ List.replicate zeros 0 ++ (List.range 8).map fun i => BitVec.ofNat 8 (8 * n / 256 ^ (7 - i))

/-- The words of a list of bytes, first byte highest; `n` of them. -/
def shaWords : Nat -> List Byte -> List Word
  | 0, _ => []
  | n + 1, bs => ((bs.take 4).foldl (fun w b => (w <<< 8) ||| b.setWidth 32) 0) :: shaWords n (bs.drop 4)

/-- Every block of a padded message; `n` of them. -/
def shaBlocks : Nat -> List Word -> List Byte -> List Word
  | 0, h, _ => h
  | n + 1, h, bs => shaBlocks n (shaBlock h (shaWords 16 bs)) (bs.drop 64)

/-- The SHA-256 of a list of bytes, 32 bytes. -/
def sha256 (bs : List Byte) : List Byte :=
  let p := shaPad bs
  (shaBlocks (p.length / 64) shaH p).flatMap fun w => (List.range 4).map fun i => BitVec.ofNat 8 (w.toNat / 256 ^ (3 - i))

end Sys2Proof.Machine
end

