-- ==== Sys2Proof/Machine/Attach.lean ====
section
/-! DEFINITION. What the host and other packages do: the register window and the management mailbox (R269, R270, R405,
R278), accesses to memory from outside (R268, R271), attestation (R280), and the word that decodes to nothing (R116). An
event that is not enabled leaves the state as it is. -/

namespace Sys2Proof.Machine

/-! The register window (R269). -/

/-- DOORBELL (R269, R278, R279). -/
def execDoorbell (q : BitVec 6) (tail : BitVec 64) (s : State) : Host.Outcome State Fault Refusal :=
  let c := s.queue q.toNat
  let size := 2 ^ c.log2
  let new := tail.toNat % size
  let bus := fun (code : Nat) => s.box 0 12 noUnit (BitVec.ofNat 32 code) (BitVec.ofNat 64 q.toNat) 0
  if s.bring = .safe then .next s
  else if !c.cfg then .next (bus 4)
  else
    let unread := (c.tail + size - c.head) % size
    if (new + size - c.tail) % size + unread ≤ size - 1 then .next (s.putQueue q.toNat { c with tail := new })
    else .next (bus 3)

/-- FQHEAD (R269). -/
def execFqhead (v : BitVec 64) (s : State) : Host.Outcome State Fault Refusal := .next { s with fq := { s.fq with head := v } }

/-- REGISTER_WRITE (R269): an argument word takes the value; every other offset ignores it. -/
def execRegisterWrite (off : Nat) (v : Word) (s : State) : Host.Outcome State Fault Refusal :=
  if 8 ≤ off ∧ off ≤ 0x3C ∧ off % 4 = 0 then
    .next { s with mbox := { s.mbox with args := setNth s.mbox.args ((off - 8) / 4) v } }
  else .next s

/-- RAF_INVALIDATE (R163): the region's translations are discarded in the whole package. -/
def execRafInvalidate (r : BitVec 4) (s : State) : Host.Outcome State Fault Refusal := .next (s.invalidate r.toNat)

/-! The mailbox (R270). -/

/-- What a command leaves: its final status, its result words, and the state after it. -/
structure Reply where
  status : Nat
  words  : List Word
  s      : State
  deriving DecidableEq, Repr

/-- An argument word. -/
def Mailbox.arg (m : Mailbox) (i : Nat) : Nat := (nth 0 m.args i).toNat
/-- A 64-bit argument, low word first (R405). -/
def Mailbox.arg64 (m : Mailbox) (i : Nat) : Nat := m.arg i + 2 ^ 32 * m.arg (i + 1)
/-- Whether every argument word from `n` on is 0 (R405). -/
def Mailbox.rest (m : Mailbox) (n : Nat) : Bool := (m.args.drop n).all fun w => w == 0

/-- A command word (R270): ignored while BUSY; else the status is BUSY at once, and COMMAND_COMPLETION brings the final
status and the results. A command that the bring-up state does not allow gets status 4, and one with an argument out of
range status 3, in that order (DEDUCED, log 28). -/
def State.command (s : State) (code : Nat) (always : Bool) (ok : Bool) (f : State -> Reply) :
    Host.Outcome State Fault Refusal :=
  if s.mbox.status = 1 then .next s
  else
    let s := { s with mbox := { s.mbox with cmd := BitVec.ofNat 32 code, status := 1 } }
    let r : Reply :=
      if !(always || s.compute) then { status := 4, words := [], s := s }
      else if !ok then { status := 3, words := [], s := s }
      else f s
    .next { r.s with mbox := { r.s.mbox with pending := some (BitVec.ofNat 32 r.status, r.words) } }

/-- A command that ends with status 0 and no results. -/
def Reply.done (s : State) : Reply := { status := 0, words := [], s := s }

/-- Whether a number is a physical address outside the reserved window (R267). -/
def physAddr (a : Nat) : Bool := decide (a < 3 * 2 ^ 50)

/-- UNKNOWN_COMMAND (R270). -/
def execUnknownCommand (w : Word) (s : State) : Host.Outcome State Fault Refusal :=
  if 1 ≤ w.toNat ∧ w.toNat ≤ 12 then .next s
  else s.command w.toNat true true fun s => { status := 2, words := [], s := s }

/-- COMMAND_COMPLETION (R270). -/
def execCommandCompletion (s : State) : Host.Outcome State Fault Refusal :=
  match s.mbox.pending with
  | none => .next s
  | some (st, ws) =>
    .next { s with mbox := { s.mbox with status := st, args := ws ++ s.mbox.args.drop ws.length, pending := none } }

/-- Whether a queue has a record not yet completed (R405). -/
def State.queueBusy (s : State) (q : Nat) : Bool :=
  (s.queue q).head != (s.queue q).tail || (s.queue q).barrier.isSome || s.launches.any fun l => l.2.queue == q

/-- QUEUE_CONFIG (R56, R145, R270, R403, R405). -/
def execQueueConfig (s : State) : Host.Outcome State Fault Refusal :=
  let m := s.mbox
  let q := m.arg 0
  let base := m.arg64 1
  let psize := m.arg 5
  let ok := decide (q < 64) && base % 128 == 0 && physAddr base && decide (4 ≤ m.arg 3 ∧ m.arg 3 ≤ 16) &&
    bits (m.arg 4) 30 3 == 0 && (List.range 13).any (fun k => psize == 2 ^ (12 + k)) && m.rest 6
  s.command 1 false ok fun s =>
    if s.queueBusy q then { status := 5, words := [], s := s }
    else .done (s.putQueue q
      { cfg := true, base := BitVec.ofNat 64 base, log2 := m.arg 3, pri := m.arg 4 % 8, priv := bit (m.arg 4) 31,
        psize := psize, head := 0, tail := 0, count := 0, barrier := none, last := none })

/-- CONTEXT_AREA (R252, R270, R405): the bytes that a save needs are the implementation's (DESIGN CHOICE, log 18). -/
def execContextArea (s : State) : Host.Outcome State Fault Refusal :=
  let m := s.mbox
  let a := m.arg 0
  let base := m.arg64 1
  let ok := decide (a % 256 < 13) && decide (a < 1024) && base % 4096 == 0 && physAddr base && m.rest 5
  let n := 13 * (a / 256) + a % 256
  let need := Config.saveBytes n
  s.command 2 false ok fun s =>
    let ws := [BitVec.ofNat 32 need]
    if m.arg64 3 < need then { status := 3, words := ws, s := s }
    else { status := 0, words := ws, s := { s with ctxAreas := Tab.put s.ctxAreas n (BitVec.ofNat 64 base, m.arg64 3) } }

/-- SCATTER_LOG (R229, R270, R405): the commits that a full log held try again. -/
def execScatterLog (s : State) : Host.Outcome State Fault Refusal :=
  let m := s.mbox
  let ok := m.arg64 0 % 4096 == 0 && physAddr (m.arg64 0) && m.arg64 2 % 4096 == 0 && m.rest 4
  s.command 3 false ok fun s =>
    let s : State := { s with slog := (BitVec.ofNat 64 (m.arg64 0), m.arg64 2) }
    .done (s.wake fun _ _ h => h == Hold.scatterLog)

/-- FAULT_QUEUE (R270, R405). -/
def execFaultQueue (s : State) : Host.Outcome State Fault Refusal :=
  let m := s.mbox
  let ok := m.arg64 0 % 64 == 0 && physAddr (m.arg64 0) && decide (4 ≤ m.arg 2 ∧ m.arg 2 ≤ 16) && m.rest 3
  s.command 4 true ok fun s =>
    .done { s with fq := { cfg := true, base := BitVec.ofNat 64 (m.arg64 0), log2 := m.arg 2, head := 0, tail := 0,
                           dropped := s.fq.dropped, parked := [] } }

/-- A parked split issues its instruction again for its unfinished lanes, and the splits that waited for it theirs (R164). -/
def Stream.resume (st : Stream) (k : Nat) : Stream :=
  (st.mapSplits fun p => if p.num = k ∧ p.status = .parked then { p with status := .run } else p).releaseFaults

/-- RESUME (R164, R250, R270, R405). -/
def execResume (s : State) : Host.Outcome State Fault Refusal :=
  let m := s.mbox
  let found := s.fq.parked.find? fun e => e.1 == m.arg 0
  s.command 5 false (m.rest 1 && found.isSome) fun s =>
    match found with
    | none => .done s
    | some (i, sid, k) =>
      let s := { s with fq := { s.fq with parked := s.fq.parked.filter fun e => e.1 != i } }
      .done (s.onStream sid (Stream.resume · k))

/-- KILL (R248, R270, R302): every running wave of the queue; MCC streams are saved, never killed (R252). -/
def execKill (s : State) : Host.Outcome State Fault Refusal :=
  let m := s.mbox
  let q := m.arg 0
  s.command 6 false (decide (q < 64) && m.rest 1) fun s =>
    let mine := s.streams.filter fun e =>
      e.2.life == .resident && !e.2.isMcc && !e.2.isReplay && (s.launchOf e.2).queue == q
    .done ((mine.map (·.1)).foldl (State.requestKill · · .replay) s)

/-- POD_CONFIG (R270, R271, R405). -/
def execPodConfig (s : State) : Host.Outcome State Fault Refusal :=
  let m := s.mbox
  let ok := decide (m.arg 0 < 1024) && decide (1 ≤ m.arg 1 ∧ m.arg 1 ≤ 1024) && decide (m.arg 0 < m.arg 1) && m.rest 2
  s.command 7 false ok fun s => .done { s with podRank := m.arg 0, podSize := m.arg 1 }

/-- The byte of a logical rank in CLUSTER_MAP's results (R405). -/
def State.mapByte (s : State) (r : Nat) : Nat :=
  if r < s.presented then s.dieOf r * 16 + s.physOf r % 13 else 0xFF

/-- CLUSTER_MAP (R13, R270, R405). -/
def execClusterMap (s : State) : Host.Outcome State Fault Refusal :=
  s.command 8 true (s.mbox.rest 0) fun s =>
    let word := fun i => BitVec.ofNat 32 ((List.range 4).foldr (fun b acc => s.mapByte (4 * i + b) + 256 * acc) 0)
    { status := 0, words := BitVec.ofNat 32 s.presented :: (List.range 12).map word, s := s }

/-- A black-box record as eight words (R279). -/
def BoxRec.words (r : BoxRec) : List Word :=
  [lo32 r.seq, hi32 r.seq, BitVec.ofNat 32 (r.kind.toNat + 256 * r.die.toNat + 65536 * r.unitw.toNat), r.code,
   lo32 r.addr, hi32 r.addr, lo32 r.detail, hi32 r.detail]

/-- BLACKBOX_READ (R270, R279, R405): the record with that SEQ, or the oldest held of a later SEQ. -/
def execBlackboxRead (s : State) : Host.Outcome State Fault Refusal :=
  let m := s.mbox
  let seq := m.arg64 1
  s.command 9 true (decide (m.arg 0 < 4) && m.rest 3) fun s =>
    match (Sp.get [] s.bbox (m.arg 0)).find? fun r => decide (r.seq.toNat ≥ seq) with
    | some r => { status := 0, words := r.words ++ [1], s := s }
    | none => { status := 0, words := List.replicate 9 0, s := s }

/-- A die's word of SELFTEST_RESULT (R405). -/
def State.testWord (s : State) (d : Nat) : Word :=
  let phys := (List.range 13).foldl (fun m p => if (s.physAt (13 * d + p)).test = some true then m + 2 ^ p else m) 0
  let part := fun k => b2n (s.testPart d k == some true)
  BitVec.ofNat 32 (phys + 2 ^ 16 * part 0 + 2 ^ 17 * part 1 + 2 ^ 18 * part 2 + 2 ^ 31 * b2n (s.dieTested d))

/-- A die's failure code (R405): 0 when nothing failed, and else not 0, its meaning not architectural (DESIGN CHOICE, log 18). -/
def State.failWord (s : State) (d : Nat) : Word :=
  let failed := (List.range 13).any (fun p => (s.physAt (13 * d + p)).test == some false) ||
    (List.range 4).any fun k => s.testPart d k == some false
  if failed then BitVec.ofNat 32 ((Config.failureCode d).toNat % (2 ^ 32 - 1) + 1) else 0

/-- SELFTEST_RESULT (R270, R405). -/
def execSelftestResult (s : State) : Host.Outcome State Fault Refusal :=
  s.command 10 true (s.mbox.rest 0) fun s =>
    { status := 0, words := (List.range 4).map s.testWord ++ (List.range 4).map s.failWord, s := s }

/-- Bytes at physical addresses that the device itself reads (R406), and the state with their records (R267, R271). -/
def State.ownBytes (s : State) (a n : Nat) : List Byte × State :=
  ((List.range n).map fun i => s.ownByte (a + i), s.noteRange Who.host false a n)

/-- FIRMWARE_UPDATE (R270, R276, R405): `ok` is whether the image passes the check of its signature. The image is stored; what runs stays
until the next boot. -/
def execFirmwareUpdate (ok : Bool) (s : State) : Host.Outcome State Fault Refusal :=
  let m := s.mbox
  s.command 11 true (physAddr (m.arg64 0) && m.rest 3 && ok) fun s =>
    let (bs, s) := s.ownBytes (m.arg64 0) (m.arg 2)
    .done { s with firmware := bs }

/-- The number of a bring-up state in a report (DESIGN CHOICE, log 18). -/
def BringUp.num : BringUp -> Nat
  | .reset => 0
  | .boot => 1
  | .selftest => 2
  | .service => 3
  | .safe => 4

/-- The bytes of an attestation report (R280) on a nonce, in the order the rule names its parts; sizes and places are not given (DESIGN
CHOICE, log 18). The identity and the signature are free; the digest is that of the firmware that runs. -/
def State.report (s : State) (nonce : List Byte) : List Byte :=
  let word := fun (w : Nat) => (List.range 4).map fun i => BitVec.ofNat 8 (w / 256 ^ i)
  nonce ++ (List.range 32).map Config.deviceIdentity ++ sha256 s.running ++ word s.bring.num ++
  (List.range 4).flatMap (fun d => word (s.suspect (0xAA + d)).toNat) ++
  (List.range 384).map fun i => Config.freeByte (s.fresh * 2 ^ 16 + i)

/-- ATTEST (R270, R280, R405): the report goes to an address of the host window that the device chooses. -/
def execAttest (report : Addr) (s : State) : Host.Outcome State Fault Refusal :=
  let m := s.mbox
  if report.toNat / 2 ^ 50 ≠ 2 then .next s
  else s.command 12 true (physAddr (m.arg64 0) && m.rest 2) fun s =>
    let (nonce, s) := s.ownBytes (m.arg64 0) 32
    let s' := ((s.report nonce).zipIdx).foldl (fun t b => t.writePhys (report.toNat + b.2) b.1) s
    { status := 0, words := [lo32 report, hi32 report], s := s'.bump }

/-! Accesses from outside. -/

/-- The low `n` bytes of a value. -/
def lowBytes (n v : Nat) : Nat := v % 256 ^ n

/-- A word of the register window (R269, R270): the mailbox, the completion counts, and the two indices of the host fault queue; 0 at every
other offset. -/
def State.windowWord (s : State) (off : Nat) : Word :=
  let q := (off - 0x1400) / 8
  if off = 0 then s.mbox.cmd
  else if off = 4 then s.mbox.status
  else if off < 0x40 then nth 0 s.mbox.args ((off - 8) / 4)
  else if 0x1400 ≤ off ∧ off < 0x1600 then (if off % 8 = 0 then (s.queue q).count else 0)
  else if off = 0x2000 then lo32 s.fq.head
  else if off = 0x2004 then hi32 s.fq.head
  else if off = 0x2008 then lo32 s.fq.tail
  else if off = 0x200C then hi32 s.fq.tail
  else 0

/-- A read of `n` bytes of the register window. -/
def State.windowRead (s : State) (off n : Nat) : Nat :=
  (List.range n).foldr (fun i acc =>
    (s.windowWord ((off + i) / 4 * 4)).toNat / 256 ^ ((off + i) % 4) % 256 + 256 * acc) 0

/-- An access to memory from outside: a read returns its bytes, a write stores them, an atomic does one of R183. One that another package
does not answer stores nothing and returns a free value (R271). -/
def State.outsideAccess (s : State) (who : Who) (acc : OutsideAccess) : State :=
  let a := acc.addr.toNat
  let s' := s.note who (acc.kind != .read) a
  if s.linkFault a then { s' with outside := Config.freeDouble s.fresh }.bump
  else
    match acc.kind with
    | .read => { s' with outside := BitVec.ofNat 64 (s.readPhysN a acc.size) }
    | .write => s'.writePhysN a acc.data.toNat acc.size
    | .atomic =>
      match (Ty.ofCode (BitVec.ofNat 6 acc.ty)).bind (atomTy acc.sub) with
      | none => s
      | some t =>
        let n := t.width / 8
        let old := s.readPhysN a n
        let opd := lowBytes n (if acc.sub = 4 then acc.cmp.toNat else acc.data.toNat)
        let new := atomNew acc.sub t old opd (lowBytes n acc.data.toNat)
        { s'.writePhysN a new n with outside := BitVec.ofNat 64 old }

/-- Whether an outside access is one that a bus makes: a naturally aligned power of two up to 8 bytes. -/
def outsideOk (acc : OutsideAccess) : Bool :=
  (acc.size == 1 || acc.size == 2 || acc.size == 4 || acc.size == 8) && acc.addr.toNat % acc.size == 0

/-- HOST_MEMORY_ACCESS (R267-R269): the host reads or writes the device's HBM4, its own memory, or another package through the pod window,
or reads the register window, whose writes have rows of their own; it brings no atomic. -/
def execHostMemoryAccess (acc : OutsideAccess) (s : State) : Host.Outcome State Fault Refusal :=
  if !outsideOk acc then .next s
  else
    match acc.kind with
    | .atomic => .next s
    | .read =>
      if acc.window then .next { s with outside := BitVec.ofNat 64 (s.windowRead acc.addr.toNat acc.size) }
      else if physAddr acc.addr.toNat then .next (s.outsideAccess Who.host acc) else .next s
    | .write => if !acc.window && physAddr acc.addr.toNat then .next (s.outsideAccess Who.host acc) else .next s

/-- POD_REMOTE_ACCESS (R267, R271): another package's load, store or atomic is performed here, in the local window. -/
def execPodRemoteAccess (acc : OutsideAccess) (s : State) : Host.Outcome State Fault Refusal :=
  let fits : Bool := match acc.kind with
    | .atomic => ((Ty.ofCode (BitVec.ofNat 6 acc.ty)).bind (atomTy acc.sub)).any fun t => acc.addr.toNat % (t.width / 8) == 0
    | .read => outsideOk acc
    | .write => outsideOk acc
  if fits ∧ !acc.window ∧ acc.addr.toNat / 2 ^ 40 = 0 then .next (s.outsideAccess Who.host acc) else .next s

/-- UALINK_FLIT_RETRY (R17, R271): the link layer retries the flit, so nothing of the access changes. -/
def execUalinkFlitRetry (s : State) : Host.Outcome State Fault Refusal := .next s

/-! Soft errors, and links that fail (R265, R266, R271). The agenda says when they come (DESIGN CHOICE, log 17). -/

/-- A corrected soft error (R265): it is counted and recorded, and changes no value. -/
def State.correct (s : State) (die unitw place : Nat) (addr detail : BitVec 64) : State :=
  { s with corrected := Sp.set 0 s.corrected die (Sp.get 0 s.corrected die + 1) }.box die 7 unitw (BitVec.ofNat 32 place)
    addr detail

/-- An uncorrectable error strikes a place (R266): every later read meets it, until the place is struck again. -/
def State.strike (s : State) (e : ErrSite) : State :=
  { s with errors := if s.errors.contains e then s.errors.erase e else e :: s.errors }

/-- Another package stops answering past every retry, or answers again (R271). -/
def State.setLink (s : State) (rank : Nat) (down : Bool) : State :=
  { s with linkDown := if down then (if s.linkDown.contains rank then s.linkDown else rank :: s.linkDown)
      else s.linkDown.filter fun r => r != rank }

/-- UNASSIGNED_OP (R116, R100): the word matches no defined form. -/
def execUnassignedOp (_w : Word) (s : State) : Host.Outcome State Fault Refusal :=
  issue s { Desc.split [] with legal := false } fun cx => .ok cx

end Sys2Proof.Machine
end

