-- ==== Sys2Proof/Machine/Tape.lean ====
section
/-! DEFINITION. The tape (class 0xA, R237-R245, R370-R372): spans, records, shares, the backing, and recomputation. -/

namespace Sys2Proof.Machine

/-! Bytes of a tape. -/

/-- The code of a value (R238): the first that fits. -/
def tapeCode (x prev : Word) : TapeCode :=
  let d := (x - prev).toInt
  if x = 0 then .zero else if x = prev then .same else if -128 ≤ d ∧ d ≤ 127 then .delta else .raw

/-- A code's number (R238). -/
def TapeCode.num : TapeCode -> Nat
  | .zero => 0
  | .same => 1
  | .delta => 2
  | .raw => 3

/-- The bytes that a record of a code takes, its head among them (R238). -/
def TapeCode.size : TapeCode -> Nat
  | .zero => 2
  | .same => 2
  | .delta => 3
  | .raw => 6

/-- A record as it lies in the share (R238): its head, then its payload, little-endian. -/
def TapeRec.bytes (r : TapeRec) (prev : Word) : List Byte :=
  let head := 2 ^ 14 * r.code.num + r.tag.toNat
  [BitVec.ofNat 8 head, BitVec.ofNat 8 (head / 256)] ++
    match r.code with
    | .zero => []
    | .same => []
    | .delta => [(r.value - prev).setWidth 8]
    | .raw => (List.range 4).map fun i => BitVec.ofNat 8 (r.value.toNat / 256 ^ i)

/-- The records of a list as they lie in the share: each after the value before it, the first after 0 (R238). -/
def tapeBytes (prev : Word) : List TapeRec -> List Byte
  | [] => []
  | r :: t => r.bytes prev ++ tapeBytes r.value t

/-- The records of a lane in a span, oldest first. -/
def Span.lane (p : Span) (l : Nat) : List TapeRec := p.recs.filter fun r => r.lane == l

/-- The record bytes of a lane in a span (R238, R295). -/
def Span.laneBytes (p : Span) (l : Nat) : List Byte := tapeBytes 0 (p.lane l)

/-- The bytes that a span takes of a lane's share, or of the backing for that lane (R238, R241). -/
def Span.bytes (p : Span) (l : Nat) (out : Bool) : Nat :=
  (if inMask p.lanes l && p.headOut == out then p.head else 0) +
  (((p.lane l).filter fun r => r.spilled == out).map (·.size)).sum

/-- The bytes of a lane's share in use. -/
def Tape.share (t : Tape) (l : Nat) : Nat := (t.spans.map (·.bytes l false)).sum

/-- The bytes that a span holds in the backing. -/
def Span.backing (p : Span) : Nat := (allLanes.map (p.bytes · true)).sum

/-- The bytes of a tape in the backing. -/
def Tape.backing (t : Tape) : Nat := (t.spans.map Span.backing).sum

/-- A span with its data in the backing. -/
def Span.spill (p : Span) : Span :=
  { p with st := .spilled, headOut := true, recs := p.recs.map fun r => { r with spilled := true } }

/-- A span with its data in the share again (R244). -/
def Span.fill (p : Span) : Span :=
  { p with st := if p.st = .spilled then .closed else p.st, headOut := false,
           recs := p.recs.map fun r => { r with spilled := false } }

/-- Whether appending the bytes named for each lane would take a share past its size. -/
def Tape.past (t : Tape) (share : Nat) (adds : List (Nat × Nat)) : Bool :=
  adds.any fun a => decide (t.share a.1 + a.2 > share)

/-- Changes span `i`. -/
def Tape.onSpan (t : Tape) (i : Nat) (f : Span -> Span) : Tape :=
  { t with spans := (t.spans.zipIdx).map fun p => if p.2 = i then f p.1 else p.1 }

/-- Spills closed spans, oldest first, and then a segment of span `target`, until the bytes fit (R241). -/
def Tape.spillFor (t : Tape) (share : Nat) (adds : List (Nat × Nat)) (keep target : Option Nat) : Tape :=
  let one := fun (t : Tape) (i : Nat) =>
    if t.past share adds && some i != keep then t.onSpan i fun p => if p.st = .closed then p.spill else p else t
  let t := (List.range t.spans.length).foldl one t
  match target with
  | some i =>
    if t.past share adds then
      t.onSpan i fun p => { p with recs := p.recs.map fun r => { r with spilled := true } }
    else t
  | none => t

/-- Bytes of the backing that the launch's other streams hold. -/
def State.tapeElsewhere (s : State) (sid : Nat) (st : Stream) : Nat :=
  ((s.streams.filter fun e => e.1 != sid && e.2.launch == st.launch && e.2.life != .ended &&
      e.2.isReplay == st.isReplay).map fun e => e.2.tape.backing).sum

/-- A wave's part of TAPESIZE in a DET launch: one for each place where a wave of the launch may be (R19, R64; DESIGN CHOICE, log 71). -/
def Launch.tapePart (la : Launch) : Nat :=
  la.record.tapeSize / max 1 (min la.total (4 * la.ncl * la.record.w) + 4 * la.ncl * (la.stages.map (·.maxw)).sum)

/-- Whether the backing takes `n` bytes of the wave's tape (R241): within its own part of TAPESIZE in a DET launch, else beside what the
launch's other waves hold there. -/
def Cx.backingRoom (cx : Cx) (n : Nat) : Bool :=
  cx.la.record.tapeBase != 0 &&
    (if cx.la.det then decide (n ≤ cx.la.tapePart) else decide (cx.s.tapeElsewhere cx.id cx.st + n ≤ cx.la.record.tapeSize))

/-- Room in the shares for more bytes, by spilling (R241). -/
def Cx.tapeRoom (cx : Cx) (adds : List (Nat × Nat)) (keep target : Option Nat) : Except Stop Cx := do
  let t := cx.st.tape
  let share := cx.la.record.tape
  if !t.past share adds then .ok cx
  else do
    let t := t.spillFor share adds keep target
    cx.need (!t.past share adds && cx.backingRoom t.backing) .tapeExhausted
    .ok { cx with st := { cx.st with tape := t } }

/-- The place of the span that records are appended to: the open one, or the one that is recomputed (R240, R242). -/
def Tape.open? (t : Tape) : Option Nat := t.spans.findIdx? fun p => p.st == .opened || p.st == .recomputing

/-- A tape instruction that acts once per split. -/
def Desc.tape (s : State) (recomp : Bool) (os : List Opnd) : Desc :=
  { Desc.split os with mcc := false, recomp := recomp, legal := !s.inHandler }

/-- The first check of every tape instruction (R371). -/
def Cx.taped (cx : Cx) : Except Stop Unit := must (cx.la.record.tape != 0) .tapeExhausted

/-- TSPAN (R240, R370): the header and the inputs of every live lane. -/
def execTspan (d : BitVec 7) (n : BitVec 4) (r : BitVec 1) (s : State) : Host.Outcome State Fault Refusal :=
  let k := n.toNat + 1
  let free := !(s.issueHas fun cx => (List.range k).any fun i => cx.pendingV (cx.sp.winbase + d.toNat + i) cx.sp.members)
  issue s { Desc.tape s false [(Opnd.srcV d).many k] with free := free } fun cx => do
    cx.taped
    must (!cx.divergent) .illegalOperand
    must (cx.st.tape.open?.isNone && decide (cx.st.tape.opened < 4096)) .illegalOperand
    let bad := maskOf fun l => inMask cx.sp.members l && (List.range k).any fun i => cx.badEntry (cx.sp.winbase + d.toNat + i) l
    if bad ≠ 0 then cx.stop { Exn.ecc 6 0 with mask := some bad }
    let lanes := lanesOf cx.sp.members
    let head := 4 + 4 * k
    let cx ← cx.tapeRoom (lanes.map fun l => (l, head)) none none
    let p : Span :=
      { st := .opened, recomputed := false, rc := r == 1, pc := cx.sp.pc + 4, dii := cx.sp.dii + 1, mode := cx.sp.mode,
        srseed := cx.sp.srseed, lossexp := cx.sp.lossexp, winbase := cx.sp.winbase, mask := cx.sp.mask,
        lanes := cx.sp.members, hdr := cx.sp.hdr, left := cx.sp.left - 1, first := cx.sp.winbase + d.toNat,
        inputs := lanes.map fun l => (l, (List.range k).map fun i => cx.vec (d.toNat + i) l), head := head,
        headOut := false, recs := [], counts := [], popped := [] }
    let t := cx.st.tape
    .ok { cx with st := { cx.st with tape := { t with spans := t.spans ++ [p], opened := t.opened + 1 } } }

/-- The tag operand of TPOP and TREC (R370). -/
def Cx.tapeTag (cx : Cx) (a : BitVec 7) : Except Stop (BitVec 12 × Cx) := do
  let (x, cx) ← cx.readS (regNo a)
  cx.need (decide (x.toNat < 4096)) .illegalOperand
  .ok (BitVec.ofNat 12 x.toNat, cx)

/-- TREC (R240, R371): each lane that takes part appends its value. -/
def execTrec (d a : BitVec 7) (s : State) : Host.Outcome State Fault Refusal :=
  issue s { Desc.lane [.src d, .srcS a] with legal := !s.inHandler } fun cx => do
    cx.taped
    let (tag, cx) ← cx.tapeTag a
    let (x, cx) ← cx.source d
    match cx.st.tape.open? with
    | none => cx.failAt .illegalOperand
    | some i =>
      let p := cx.st.tape.spans[i]?
      let prev := fun l => match p with
        | some p => ((p.lane l).getLast?.map (·.value)).getD 0
        | none => 0
      let recs := (lanesOf cx.part).map fun l =>
        let v := cx.laneOf d x l
        let c := tapeCode v (prev l)
        ({ lane := l, code := c, tag := tag, value := v, size := c.size, spilled := false } : TapeRec)
      let cx ← cx.tapeRoom (recs.map fun r => (r.lane, r.size)) none (some i)
      let cx ← cx.buffer [{ size := (recs.map (·.size)).sum, item := .tape, recs := [], issue := 0, lane := 0, rel := none,
                               cached := false, own := false }]
      .ok { cx with st := { cx.st with tape := cx.st.tape.onSpan i fun p => { p with recs := p.recs ++ recs } } }

/-- The split number after which the turn passes to split `k`, if it can issue (R30). -/
def turnBefore (k : Nat) : Nat := if k = 0 then 3 else k - 1

/-- TCLS (R240, R242): closes the open span; the end of a recomputation restores the wave's state of before, and the TPOP
that asked for it issues again. -/
def execTcls (s : State) : Host.Outcome State Fault Refusal :=
  issue s (Desc.tape s true []) fun cx => do
    cx.taped
    match cx.st.saved with
    | none =>
      must (!cx.divergent) .illegalOperand
      match cx.st.tape.open? with
      | none => stopAt .illegalOperand
      | some i => .ok { cx with st := { cx.st with tape := cx.st.tape.onSpan i fun p => { p with st := .closed } } }
    | some v =>
      must cx.sp.stack.isEmpty .illegalOperand
      if cx.s.ownBusy cx.id cx.sp.num then .error (.hold .own)
      else
        let t := match cx.st.tape.open? with
          | none => cx.st.tape
          | some i => cx.st.tape.onSpan i fun p => { p with st := .closed, recomputed := true }
        let st := { cx.st with tape := t, saved := none, vis := { v with cur := turnBefore v.cur } }
        let cx := { cx with st := st, keep := false }
        .ok (cx.reload (cx.flush.settleStream cx.id))

/-- TMARK (R241): drops the data of the newest closed span and keeps its header where it is. -/
def execTmark (s : State) : Host.Outcome State Fault Refusal :=
  issue s (Desc.tape s false []) fun cx => do
    cx.taped
    must (!cx.divergent) .illegalOperand
    let idx := (cx.st.tape.spans.zipIdx).filter fun p => p.1.st != .opened
    match idx.getLast? with
    | none => stopAt .illegalOperand
    | some (p, i) =>
      if p.st = .dropped then .ok cx
      else do
        must p.rc .illegalOperand
        let counts := allLanes.map fun l => (l, (p.lane l).length)
        .ok { cx with st := { cx.st with tape := cx.st.tape.onSpan i fun p =>
          { p with st := .dropped, counts := counts, recs := [] } } }

/-! TPOP. -/

/-- Records of a lane in a span, those of a dropped span as they were. -/
def Span.length (p : Span) (l : Nat) : Nat := if p.st = .dropped then Sp.get 0 p.counts l else (p.lane l).length

/-- The span of the lane's newest record not yet popped (R242). -/
def Tape.newest (t : Tape) (l : Nat) : Option (Span × Nat) :=
  (((t.spans.zipIdx).filter fun p => decide (Sp.get 0 p.1.popped l < p.1.length l))).getLast?

/-- Whether some data of the span is in the backing. -/
def Span.away (p : Span) : Bool := p.headOut || p.recs.any (·.spilled)

/-- The start of a recomputation (R242): the visible state is saved, and one split runs from the span's header. -/
def Cx.recompute (cx : Cx) (p : Span) (i : Nat) : Cx :=
  let q := { cx.sp with
    num := 0, pc := p.pc, members := p.lanes, mask := p.mask, stack := [], dii := p.dii, mode := p.mode, srseed := p.srseed,
    lossexp := p.lossexp, winbase := p.winbase, hdr := p.hdr, left := p.left, status := .run, hold := none,
    retry := none, trap := none, retryOp := none, kept := none, serial := none, recs := [], late := [] }
  let st := cx.st.putSplit { cx.sp with hold := none }
  let saved := { st.vis with cur := cx.sp.num }
  let st := { st with saved := some saved, vis := { st.vis with splits := [q], cur := 0 },
                      tape := st.tape.onSpan i fun p => { p with st := .recomputing, recs := [] } }
  let put := fun (st : Stream) (e : Nat × List Word) =>
    (e.2.zipIdx).foldl (fun st w => st.setVreg (p.first + w.2) e.1 w.1) st
  { cx with st := p.inputs.foldl put st, keep := false }

/-- Fills a span back from the backing (R244), other closed spans making room. TPOP never raises TAPE_EXHAUSTED for it (R242, R372): of
a span that the shares cannot take, the data stays in the backing and is popped from there (DEDUCED, log 43). -/
def Cx.fillBack (cx : Cx) (i : Nat) : Cx :=
  let share := cx.la.record.tape
  let all := allLanes.map fun l => (l, 0)
  let t := cx.st.tape.onSpan i Span.fill
  let u := if t.past share all then t.spillFor share all (some i) none else t
  let fits := !u.past share all && (!t.past share all || cx.backingRoom u.backing)
  let stay := cx.st.tape.onSpan i fun p => { p with st := if p.st = .spilled then .closed else p.st }
  { cx with st := { cx.st with tape := if fits then u else stay } }

/-- What the pop of one lane needs first (R372): its span filled back, or recomputed once nothing of the wave is
outstanding. -/
def Cx.bringLane (cx : Cx) (l : Nat) : Except Stop Cx :=
  match cx.st.tape.newest l with
  | none => .ok cx
  | some (p, i) => do
    if p.st = .dropped then
      if cx.s.ops.any fun o => o.2.stream == cx.id && (match o.2.kind with
          | .raster _ _ => false
          | _ => true) then .error (.wait cx .reads)
      else do
        let cx := if p.headOut then cx.fillBack i else cx
        let cx := cx.recompute p i
        .error (.wait cx .own)
    else .ok (if p.away then cx.fillBack i else cx)

/-- The same for every lane, in order. -/
def Cx.bringLanes (cx : Cx) : List Nat -> Except Stop Cx
  | [] => .ok cx
  | l :: t => do
    let cx ← cx.bringLane l
    cx.bringLanes t

/-- A lane's pop (R372): its fault, or its span, its value and whether the span was recomputed. -/
def Tape.popLane (t : Tape) (tag : BitVec 12) (first replay : Bool) (l : Nat) : Except FaultCode (Nat × Word × Bool) :=
  match t.newest l with
  | none => .error .illegalOperand
  | some (p, i) =>
    let rs := p.lane l
    match rs[rs.length - 1 - Sp.get 0 p.popped l]? with
    | none => .error .illegalOperand
    | some r =>
      if r.tag ≠ tag then .error .illegalOperand
      else if (if p.recomputed then first else replay) then .error .tapeMix
      else .ok (i, r.value, p.recomputed)

/-- Every lane's pop, each under the bits that the lanes before it set (R243). -/
def Tape.popLanes (t : Tape) (tag : BitVec 12) (first replay : Bool) : List Nat ->
    List (Nat × Nat × Word × Bool) × List (Nat × FaultCode)
  | [] => ([], [])
  | l :: ls =>
    match t.popLane tag first replay l with
    | .error c => let r := t.popLanes tag first replay ls; (r.1, (l, c) :: r.2)
    | .ok (i, v, rc) =>
      let r := t.popLanes tag (first || !rc) (replay || rc) ls
      ((l, i, v, rc) :: r.1, r.2)

/-- Marks a lane's newest record popped, and its bit of R243. -/
def Tape.markPop (t : Tape) (tag : BitVec 12) (l i : Nat) (rc : Bool) : Tape :=
  let t := t.onSpan i fun p => { p with popped := Sp.set 0 p.popped l (Sp.get 0 p.popped l + 1) }
  if rc then { t with replay := Sp.set false t.replay tag.toNat true }
  else { t with first := Sp.set false t.first tag.toNat true }

/-- Frees the closed spans whose every record is popped (R244); a span without records has no last one to pop. -/
def Tape.free (t : Tape) : Tape :=
  { t with spans := t.spans.filter fun p => !(p.st == .closed && !p.recs.isEmpty &&
      allLanes.all fun l => decide ((p.lane l).length ≤ Sp.get 0 p.popped l)) }

/-- TPOP (R242, R243, R372). A record with an uncorrectable error gives a free value, and its fault waits for the flag (R266). -/
def execTpop (d a : BitVec 7) (f : BitVec 1) (s : State) : Host.Outcome State Fault Refusal :=
  issue s { Desc.lane [(Opnd.dstV d).pending, .srcS a] with
      recomp := false, legal := !s.inHandler, flag := some (f == 1) } fun cx => do
    cx.taped
    must cx.st.tape.open?.isNone .illegalOperand
    let (tag, cx') ← cx.tapeTag a
    cx.flagRoom (cx.flagOf (f == 1))
    let lanes := lanesOf cx.part
    let _ ← cx.bringLanes lanes
    let cx ← cx'.bringLanes lanes
    let t := cx.st.tape
    let (got, fails) := t.popLanes tag (Sp.get false t.first tag.toNat) (Sp.get false t.replay tag.toNat) lanes
    match fails with
    | (_, c) :: _ =>
      let m := maskOf fun l => fails.any fun e => e.1 == l && e.2 == c
      .error (.after cx { Exn.plain c with mask := some m })
    | [] =>
      let t := (got.foldl (fun t g => t.markPop tag g.1 g.2.1 g.2.2.2) t).free
      let bad := lanes.filter fun l => cx.s.errors.contains (.tape cx.id l)
      let value := fun (g : Nat × Nat × Word × Bool) =>
        if bad.contains g.1 then Config.freeWord (2 ^ 24 * cx.s.fresh + g.1) else g.2.2.1
      let op := { Op.blank cx .tpop with
        pendV := cx.destV d 1, lanes := cx.part, vres := got.map (fun g => ((cx.sp.winbase + d.toNat) * 96 + g.1, value g)),
        fault := if bad.isEmpty then none else some { Exn.ecc 7 0 with mask := some (lanesIn bad) } }
      let s := if bad.isEmpty then cx.s else cx.s.bump
      { cx with s := s, st := { cx.st with tape := t } }.launchOp (cx.flagOf (f == 1)) op

end Sys2Proof.Machine
end

