-- ==== Sys2Proof/Machine/Dispatch.lean ====
section
/-! DEFINITION. One arm per constructor of Instr: each is one call of the instruction's meaning. -/

namespace Sys2Proof.Machine

def exec (i : Instr) (s : State) : Host.Outcome State Fault Refusal :=
  match i with
  | .bra o => Sys2Proof.Machine.execBra o s
  | .brs sr ofs => Sys2Proof.Machine.execBrs sr ofs s
  | .brv p n o => Sys2Proof.Machine.execBrv p n o s
  | .call f o => Sys2Proof.Machine.execCall f o s
  | .endSplit => Sys2Proof.Machine.execEndSplit s
  | .exit => Sys2Proof.Machine.execExit s
  | .jmpi sr ofs => Sys2Proof.Machine.execJmpi sr ofs s
  | .merge => Sys2Proof.Machine.execMerge s
  | .mode e g v r t z x => Sys2Proof.Machine.execMode e g v r t z x s
  | .nop => Sys2Proof.Machine.execNop s
  | .region => Sys2Proof.Machine.execRegion s
  | .ret => Sys2Proof.Machine.execRet s
  | .waitf sr => Sys2Proof.Machine.execWaitf sr s
  | .yield => Sys2Proof.Machine.execYield s
  | .clause w a f b g l => Sys2Proof.Machine.execClause w a f b g l s
  | .sadd d a b => Sys2Proof.Machine.execSadd d a b s
  | .saddi sr ofs => Sys2Proof.Machine.execSaddi sr ofs s
  | .saddx d a b => Sys2Proof.Machine.execSaddx d a b s
  | .sand d a b => Sys2Proof.Machine.execSand d a b s
  | .sbfx d a b x => Sys2Proof.Machine.execSbfx d a b x s
  | .sclz d a => Sys2Proof.Machine.execSclz d a s
  | .scmp d a b x => Sys2Proof.Machine.execScmp d a b x s
  | .slih sr ofs => Sys2Proof.Machine.execSlih sr ofs s
  | .slil sr ofs => Sys2Proof.Machine.execSlil sr ofs s
  | .smax d a b x => Sys2Proof.Machine.execSmax d a b x s
  | .smin d a b x => Sys2Proof.Machine.execSmin d a b x s
  | .smov d a => Sys2Proof.Machine.execSmov d a s
  | .smul d a b => Sys2Proof.Machine.execSmul d a b s
  | .smulh d a b x => Sys2Proof.Machine.execSmulh d a b x s
  | .sor d a b => Sys2Proof.Machine.execSor d a b s
  | .spopc d a => Sys2Proof.Machine.execSpopc d a s
  | .ssel d a b => Sys2Proof.Machine.execSsel d a b s
  | .sshl d a b => Sys2Proof.Machine.execSshl d a b s
  | .sshr d a b => Sys2Proof.Machine.execSshr d a b s
  | .ssra d a b => Sys2Proof.Machine.execSsra d a b s
  | .ssub d a b => Sys2Proof.Machine.execSsub d a b s
  | .sxor d a b => Sys2Proof.Machine.execSxor d a b s
  | .vabs d a => Sys2Proof.Machine.execVabs d a s
  | .vadd d a b => Sys2Proof.Machine.execVadd d a b s
  | .vaddi d a ofs => Sys2Proof.Machine.execVaddi d a ofs s
  | .vand d a b => Sys2Proof.Machine.execVand d a b s
  | .vbfx d a b x => Sys2Proof.Machine.execVbfx d a b x s
  | .vclz d a => Sys2Proof.Machine.execVclz d a s
  | .vcmp p c a b => Sys2Proof.Machine.execVcmp p c a b s
  | .vcvt d a e x => Sys2Proof.Machine.execVcvt d a e x s
  | .vlane d a ofs => Sys2Proof.Machine.execVlane d a ofs s
  | .vmad d a b => Sys2Proof.Machine.execVmad d a b s
  | .vmax d a b => Sys2Proof.Machine.execVmax d a b s
  | .vmin d a b => Sys2Proof.Machine.execVmin d a b s
  | .vmov d a => Sys2Proof.Machine.execVmov d a s
  | .vmovFrm d a => Sys2Proof.Machine.execVmovFrm d a s
  | .vmovTo d a => Sys2Proof.Machine.execVmovTo d a s
  | .vmul d a b => Sys2Proof.Machine.execVmul d a b s
  | .vmulh d a b => Sys2Proof.Machine.execVmulh d a b s
  | .vor d a b => Sys2Proof.Machine.execVor d a b s
  | .vpopc d a => Sys2Proof.Machine.execVpopc d a s
  | .vsel d a b => Sys2Proof.Machine.execVsel d a b s
  | .vshl d a b => Sys2Proof.Machine.execVshl d a b s
  | .vshr d a b => Sys2Proof.Machine.execVshr d a b s
  | .vsra d a b => Sys2Proof.Machine.execVsra d a b s
  | .vsub d a b => Sys2Proof.Machine.execVsub d a b s
  | .vxor d a b => Sys2Proof.Machine.execVxor d a b s
  | .lcv d a => Sys2Proof.Machine.execLcv d a s
  | .ldiv d a b => Sys2Proof.Machine.execLdiv d a b s
  | .lex d a => Sys2Proof.Machine.execLex d a s
  | .lmul d a b => Sys2Proof.Machine.execLmul d a b s
  | .lpow d a b => Sys2Proof.Machine.execLpow d a b s
  | .vdotb d a b x => Sys2Proof.Machine.execVdotb d a b x s
  | .vdqnt d a b => Sys2Proof.Machine.execVdqnt d a b s
  | .vfabs d a => Sys2Proof.Machine.execVfabs d a s
  | .vfadd d a b => Sys2Proof.Machine.execVfadd d a b s
  | .vfcls d a => Sys2Proof.Machine.execVfcls d a s
  | .vfcmp p c a b => Sys2Proof.Machine.execVfcmp p c a b s
  | .vfdot2 d a b => Sys2Proof.Machine.execVfdot2 d a b s
  | .vfma d a b => Sys2Proof.Machine.execVfma d a b s
  | .vfmax d a b => Sys2Proof.Machine.execVfmax d a b s
  | .vfmin d a b => Sys2Proof.Machine.execVfmin d a b s
  | .vfmul d a b => Sys2Proof.Machine.execVfmul d a b s
  | .vfrnd d a => Sys2Proof.Machine.execVfrnd d a s
  | .vfsub d a b => Sys2Proof.Machine.execVfsub d a b s
  | .vqnt d a b => Sys2Proof.Machine.execVqnt d a b s
  | .vxf64 d a b => Sys2Proof.Machine.execVxf64 d a b s
  | .plog d f a b => Sys2Proof.Machine.execPlog d f a b s
  | .sracc a k => Sys2Proof.Machine.execSracc a k s
  | .sracw d a k => Sys2Proof.Machine.execSracw d a k s
  | .srdrn d a sr k => Sys2Proof.Machine.execSrdrn d a sr k s
  | .srget d a sr k => Sys2Proof.Machine.execSrget d a sr k s
  | .srini k => Sys2Proof.Machine.execSrini k s
  | .sriniLd a k => Sys2Proof.Machine.execSriniLd a k s
  | .srmrg j k => Sys2Proof.Machine.execSrmrg j k s
  | .srst a k => Sys2Proof.Machine.execSrst a k s
  | .vperm d a b => Sys2Proof.Machine.execVperm d a b s
  | .vswz d a ofs => Sys2Proof.Machine.execVswz d a ofs s
  | .vvote d v p => Sys2Proof.Machine.execVvote d v p s
  | .xracc d a n m k => Sys2Proof.Machine.execXracc d a n m k s
  | .atom d a sr c => Sys2Proof.Machine.execAtom d a sr c s
  | .fence sr c => Sys2Proof.Machine.execFence sr c s
  | .ld d a o z f => Sys2Proof.Machine.execLd d a o z f s
  | .lda d a z r f c => Sys2Proof.Machine.execLda d a z r f c s
  | .ldc d a o z f => Sys2Proof.Machine.execLdc d a o z f s
  | .scat d a o z => Sys2Proof.Machine.execScat d a o z s
  | .scatb => Sys2Proof.Machine.execScatb s
  | .sld d a o z f => Sys2Proof.Machine.execSld d a o z f s
  | .sst d a o z => Sys2Proof.Machine.execSst d a o z s
  | .st d a o z => Sys2Proof.Machine.execSt d a o z s
  | .stl d a z c => Sys2Proof.Machine.execStl d a z c s
  | .cpy d a q f => Sys2Proof.Machine.execCpy d a q f s
  | .cqbar a => Sys2Proof.Machine.execCqbar a s
  | .tdsc t a => Sys2Proof.Machine.execTdsc t a s
  | .tfree t => Sys2Proof.Machine.execTfree t s
  | .tld t a r f => Sys2Proof.Machine.execTld t a r f s
  | .tst t a f => Sys2Proof.Machine.execTst t a f s
  | .tstat d t => Sys2Proof.Machine.execTstat d t s
  | .twait t => Sys2Proof.Machine.execTwait t s
  | .wsref d a => Sys2Proof.Machine.execWsref d a s
  | .aclr d => Sys2Proof.Machine.execAclr d s
  | .adrn t a => Sys2Proof.Machine.execAdrn t a s
  | .mlease d a => Sys2Proof.Machine.execMlease d a s
  | .mma d a b => Sys2Proof.Machine.execMma d a b s
  | .mmas d a b => Sys2Proof.Machine.execMmas d a b s
  | .mrel a => Sys2Proof.Machine.execMrel a s
  | .bara a b => Sys2Proof.Machine.execBara a b s
  | .bars a b => Sys2Proof.Machine.execBars a b s
  | .barw a b => Sys2Proof.Machine.execBarw a b s
  | .coll d a o f c => Sys2Proof.Machine.execColl d a o f c s
  | .join q => Sys2Proof.Machine.execJoin q s
  | .leave q => Sys2Proof.Machine.execLeave q s
  | .occq d a f c => Sys2Proof.Machine.execOccq d a f c s
  | .post d a sr => Sys2Proof.Machine.execPost d a sr s
  | .qcfg d a => Sys2Proof.Machine.execQcfg d a s
  | .edgs d a f => Sys2Proof.Machine.execEdgs d a f s
  | .prim d a m => Sys2Proof.Machine.execPrim d a m s
  | .rasadj d a => Sys2Proof.Machine.execRasadj d a s
  | .rtadj d a => Sys2Proof.Machine.execRtadj d a s
  | .rtini d a => Sys2Proof.Machine.execRtini d a s
  | .rtstep d a f => Sys2Proof.Machine.execRtstep d a f s
  | .spladj d a f => Sys2Proof.Machine.execSpladj d a f s
  | .splc d a f => Sys2Proof.Machine.execSplc d a f s
  | .spls d a f => Sys2Proof.Machine.execSpls d a f s
  | .tex d a t f m => Sys2Proof.Machine.execTex d a t f m s
  | .texadj d a t f m => Sys2Proof.Machine.execTexadj d a t f m s
  | .tcls => Sys2Proof.Machine.execTcls s
  | .tmark => Sys2Proof.Machine.execTmark s
  | .tpop d a f => Sys2Proof.Machine.execTpop d a f s
  | .trec d a => Sys2Proof.Machine.execTrec d a s
  | .tspan d n r => Sys2Proof.Machine.execTspan d n r s
  | .grow n => Sys2Proof.Machine.execGrow n s
  | .shrink n => Sys2Proof.Machine.execShrink n s
  | .trap c => Sys2Proof.Machine.execTrap c s
  | .tret n => Sys2Proof.Machine.execTret n s
  | .xrd d ofs => Sys2Proof.Machine.execXrd d ofs s
  | .xwr a ofs => Sys2Proof.Machine.execXwr a ofs s
  | .rafInvalidate r => Sys2Proof.Machine.execRafInvalidate r s
  | .doorbell q tail => Sys2Proof.Machine.execDoorbell q tail s
  | .fqhead v => Sys2Proof.Machine.execFqhead v s
  | .registerWrite off v => Sys2Proof.Machine.execRegisterWrite off v s
  | .queueConfig => Sys2Proof.Machine.execQueueConfig s
  | .contextArea => Sys2Proof.Machine.execContextArea s
  | .scatterLog => Sys2Proof.Machine.execScatterLog s
  | .faultQueue => Sys2Proof.Machine.execFaultQueue s
  | .resume => Sys2Proof.Machine.execResume s
  | .kill => Sys2Proof.Machine.execKill s
  | .podConfig => Sys2Proof.Machine.execPodConfig s
  | .clusterMap => Sys2Proof.Machine.execClusterMap s
  | .blackboxRead => Sys2Proof.Machine.execBlackboxRead s
  | .selftestResult => Sys2Proof.Machine.execSelftestResult s
  | .firmwareUpdate ok => Sys2Proof.Machine.execFirmwareUpdate ok s
  | .attest report => Sys2Proof.Machine.execAttest report s
  | .launchStart q => Sys2Proof.Machine.execLaunchStart q s
  | .queueBarrier q => Sys2Proof.Machine.execQueueBarrier q s
  | .queueBarrierComplete q => Sys2Proof.Machine.execQueueBarrierComplete q s
  | .waveAdmission l place => Sys2Proof.Machine.execWaveAdmission l place s
  | .mccStreamStart l cl => Sys2Proof.Machine.execMccStreamStart l cl s
  | .stageWaveDispatch l stage cl place => Sys2Proof.Machine.execStageWaveDispatch l stage cl place s
  | .launchComplete l => Sys2Proof.Machine.execLaunchComplete l s
  | .waveExchange sid => Sys2Proof.Machine.execWaveExchange sid s
  | .timesliceExchange sid => Sys2Proof.Machine.execTimesliceExchange sid s
  | .flagWaitRelease sid k => Sys2Proof.Machine.execFlagWaitRelease sid k s
  | .queueStallRelease sid k => Sys2Proof.Machine.execQueueStallRelease sid k s
  | .growGrant sid k => Sys2Proof.Machine.execGrowGrant sid k s
  | .tileReadyRelease sid k => Sys2Proof.Machine.execTileReadyRelease sid k s
  | .leaseGrant cl => Sys2Proof.Machine.execLeaseGrant cl s
  | .postPartitionGrant sid k => Sys2Proof.Machine.execPostPartitionGrant sid k s
  | .memoryLoadComplete op => Sys2Proof.Machine.execMemoryLoadComplete op s
  | .atomComplete op => Sys2Proof.Machine.execAtomComplete op s
  | .copyComplete op => Sys2Proof.Machine.execCopyComplete op s
  | .tileFillComplete op => Sys2Proof.Machine.execTileFillComplete op s
  | .tileDrainComplete op => Sys2Proof.Machine.execTileDrainComplete op s
  | .collMatch op remote => Sys2Proof.Machine.execCollMatch op remote s
  | .collChunkComplete op => Sys2Proof.Machine.execCollChunkComplete op s
  | .collComplete op => Sys2Proof.Machine.execCollComplete op s
  | .occqComplete op => Sys2Proof.Machine.execOccqComplete op s
  | .texComplete op => Sys2Proof.Machine.execTexComplete op s
  | .texadjComplete op => Sys2Proof.Machine.execTexadjComplete op s
  | .rtstepComplete op => Sys2Proof.Machine.execRtstepComplete op s
  | .splatOpComplete op => Sys2Proof.Machine.execSplatOpComplete op s
  | .edgsComplete op => Sys2Proof.Machine.execEdgsComplete op s
  | .tpopComplete op => Sys2Proof.Machine.execTpopComplete op s
  | .mmaChunkComplete op => Sys2Proof.Machine.execMmaChunkComplete op s
  | .mmaComplete op => Sys2Proof.Machine.execMmaComplete op s
  | .rasterThreadComplete op => Sys2Proof.Machine.execRasterThreadComplete op s
  | .handlerLimit sid => Sys2Proof.Machine.execHandlerLimit sid s
  | .waveKill sid => Sys2Proof.Machine.execWaveKill sid s
  | .epochClose l => Sys2Proof.Machine.execEpochClose l s
  | .verifyReplay l g cl => Sys2Proof.Machine.execVerifyReplay l g cl s
  | .arbitration l g cl => Sys2Proof.Machine.execArbitration l g cl s
  | .clusterCordon phys => Sys2Proof.Machine.execClusterCordon phys s
  | .scoreDecay phys => Sys2Proof.Machine.execScoreDecay phys s
  | .mccSave sid => Sys2Proof.Machine.execMccSave sid s
  | .mccRestore sid => Sys2Proof.Machine.execMccRestore sid s
  | .wsRefreshPhase die => Sys2Proof.Machine.execWsRefreshPhase die s
  | .coldReset => Sys2Proof.Machine.execColdReset s
  | .warmReset => Sys2Proof.Machine.execWarmReset s
  | .resetRelease => Sys2Proof.Machine.execResetRelease s
  | .bootCheckComplete ok => Sys2Proof.Machine.execBootCheckComplete ok s
  | .clusterSelftestResult phys ok => Sys2Proof.Machine.execClusterSelftestResult phys ok s
  | .selftestFinish part => Sys2Proof.Machine.execSelftestFinish part s
  | .clusterClockRise phys => Sys2Proof.Machine.execClusterClockRise phys s
  | .thermalResponse die mhz => Sys2Proof.Machine.execThermalResponse die mhz s
  | .hostMemoryAccess acc => Sys2Proof.Machine.execHostMemoryAccess acc s
  | .podRemoteAccess acc => Sys2Proof.Machine.execPodRemoteAccess acc s
  | .ualinkFlitRetry => Sys2Proof.Machine.execUalinkFlitRetry s
  | .unassignedOp w => Sys2Proof.Machine.execUnassignedOp w s
  | .unknownCommand w => Sys2Proof.Machine.execUnknownCommand w s
  | .commandCompletion => Sys2Proof.Machine.execCommandCompletion s
  | .launchSuspend l => Sys2Proof.Machine.execLaunchSuspend l s
  | .launchSuspendEnd l => Sys2Proof.Machine.execLaunchSuspendEnd l s
  | .thermalResponseEnd die => Sys2Proof.Machine.execThermalResponseEnd die s
  | .coreClockStop core => Sys2Proof.Machine.execCoreClockStop core s
  | .coreClockStart core => Sys2Proof.Machine.execCoreClockStart core s

end Sys2Proof.Machine
end

