-- ==== Sys2Proof/Machine/Schedule.lean ====
section
/-! DEFINITION. What the device does of itself when the agenda is empty (DESIGN CHOICE, log 8): the first of its own steps that is
enabled. Steps that come from outside, and those whose moment is timing alone, come from the agenda only. -/

namespace Sys2Proof.Machine

/-- The step that ends an operation, or a part of it. -/
def Op.events (n : Nat) (o : Op) : List Instr :=
  match o.kind with
  | .load => [.memoryLoadComplete n]
  | .atom _ => [.atomComplete n]
  | .copy _ _ _ _ => [.copyComplete n]
  | .tileFill _ _ _ => [.tileFillComplete n]
  | .tileDrain _ _ => [.tileDrainComplete n]
  | .coll _ _ _ _ _ _ _ _ _ _ => [.collMatch n [], .collChunkComplete n, .collComplete n]
  | .occq => [.occqComplete n]
  | .tex => [.texComplete n]
  | .texadj => [.texadjComplete n]
  | .rtstep => [.rtstepComplete n]
  | .splat _ _ => [.splatOpComplete n]
  | .edgs => [.edgsComplete n]
  | .tpop => [.tpopComplete n]
  | .mma _ _ _ _ _ _ _ _ => [.mmaChunkComplete n, .mmaComplete n]
  | .raster _ _ => [.rasterThreadComplete n]

/-- The release that may let a held split go. -/
def Hold.events (sid k : Nat) : Hold -> List Instr
  | .flags _ => [.flagWaitRelease sid k]
  | .own => [.flagWaitRelease sid k]
  | .queueEmpty _ => [.queueStallRelease sid k]
  | .queueFull _ => [.queueStallRelease sid k]
  | .grow _ => [.growGrant sid k]
  | .tile _ => [.tileReadyRelease sid k]
  | .partition _ _ => [.postPartitionGrant sid k]
  | .flagFull _ => []
  | .barrierWait _ _ => []
  | .barrierArrive _ _ => []
  | .lease => []
  | .mxu => []
  | .copySlot => []
  | .epoch _ => []
  | .adjoints => []
  | .reads => []
  | .raster => []
  | .scatterLog => []
  | .otherFault => []
  | .acquire => []
  | .wsCopy _ => []

/-- The steps of the scheduler that concern one stream. -/
def Stream.events (sid : Nat) (st : Stream) : List Instr :=
  let held := st.vis.splits.flatMap fun p => match p.hold with
    | some h => h.events sid p.num
    | none => []
  let kill := if st.pendKill.isSome then [.waveKill sid, .handlerLimit sid] else []
  let mcc := if st.isMcc then [.mccSave sid, .mccRestore sid] else []
  let late := st.yielded || decide (st.turns ≥ 4096)
  let slot := if st.isReplay then [] else
    Instr.waveExchange sid :: (if st.active && late then [.timesliceExchange sid] else [])
  held ++ kill ++ mcc ++ slot

/-- The steps that concern one launch. -/
def Launch.events (s : State) (l : Nat) (la : Launch) : List Instr :=
  let cls := List.range la.ncl
  let places := List.range (s.seatsOf la).length
  let judged := if la.eligible then (s.streams.filter fun e => e.2.launch == l && e.2.selected).flatMap fun e =>
    ((13 * (e.2.phys / 13) + 12) :: List.range 52 : List Nat).map (Instr.verifyReplay l e.2.wid) ++ (List.range 52).map (Instr.arbitration l e.2.wid) else []
  cls.map (Instr.mccStreamStart l) ++ places.map (Instr.waveAdmission l) ++
  (List.range la.stages.length).flatMap (fun k => places.map fun p => Instr.stageWaveDispatch l k (p / 16) p) ++
  [.epochClose l] ++ judged ++ [.launchComplete l]

/-- The steps that the device may take of itself, in the order it tries them. -/
def State.ownEvents (s : State) : List Instr :=
  (s.ops.flatMap fun o => if o.2.waiting then [] else Op.events o.1 o.2) ++
  (s.streams.flatMap fun e => Stream.events e.1 e.2) ++
  (s.clusters.map fun c => Instr.leaseGrant c.1) ++
  ((List.range 52).map Instr.clusterCordon) ++ ((List.range 52).map Instr.scoreDecay) ++
  (s.launches.flatMap fun l => Launch.events s l.1 l.2) ++
  (s.queues.flatMap fun q => [.queueBarrierComplete (BitVec.ofNat 6 q.1), .queueBarrier (BitVec.ofNat 6 q.1),
    .launchStart (BitVec.ofNat 6 q.1)]) ++
  ((List.range 52).map Instr.clusterClockRise) ++ [.commandCompletion]

/-- Whether a step changes the state. -/
def changes (s : State) (i : Instr) : Bool :=
  match exec i s with
  | .next s' => decide (s' ≠ s)
  | .fault _ => false
  | .refused _ => false

/-- The device's own next step, if one is enabled. -/
def State.pickEvent (s : State) : Option Instr := s.ownEvents.find? (changes s)

end Sys2Proof.Machine
end

