-- ==== Sys2Proof/Machine/Step.lean ====
section
/-! DEFINITION. One step of the machine: the turn that the agenda names, or else the scheduler's own choice. -/

namespace Sys2Proof.Machine

/-- A stream issues: its split's word is fetched, decoded and run (R82, R116). A stream that is not ready does nothing. -/
def issueTurn (sid : Nat) (s : State) : Host.Outcome State Fault Refusal :=
  match s.select sid with
  | none => .next s
  | some s =>
    match Cx.load s with
    | none => .fault .noIssuer
    | some cx =>
      match cx.fetch with
      | (.error e, s) => .next (Cx.takeFault { cx with s := s } e)
      | (.ok w, s) =>
        match decodeWord w with
        | some i => exec i s
        | none => exec (.unassignedOp w) s

/-- Whether a step of the table is the issue of a word by a split, which no event can be. -/
def issuesWord (i : Instr) : Bool :=
  i.isWord ||
    match i with
    | .unassignedOp _ => true
    | _ => false

/-- What a turn of the agenda does. -/
def runTurn (t : Turn) (s : State) : Host.Outcome State Fault Refusal :=
  match t with
  | .issue sid => issueTurn sid s
  | .event i => if issuesWord i then .refused .notAnEvent else exec i s
  | .corrected die unitw place addr detail => .next (s.correct die unitw place addr detail)
  | .strike e => .next (s.strike e)
  | .link rank down => .next (s.setLink rank down)

/-- What the machine does when the agenda is empty: the device's own next step; else the next stream issues. -/
def ownTurn (s : State) : Host.Outcome State Fault Refusal :=
  match s.pickEvent with
  | some i => exec i s
  | none =>
    match s.pickIssuer with
    | some sid => issueTurn sid s
    | none => .next s

/-- One step: the waves that have become ready are stamped (R51), then the agenda's turn runs, or else the machine's own. -/
def step (s : State) : Host.Outcome State Fault Refusal :=
  match s.stampReady.agenda with
  | t :: rest => runTurn t { s.stampReady with agenda := rest }
  | [] => ownTurn s.stampReady

/-- Where `withFetchWord` puts the word. -/
def fetchAddr : Nat := 0x10000

/-- The launch of `withFetchWord`. -/
def fetchLaunch : Launch :=
  { Launch.blank with
    record := { LaunchRec.blank with entry := BitVec.ofNat 64 fetchAddr, attr := 8, threads := 96, allot := 64, nclus := 1,
                                     plaza := 65536 }
    total := 1, next := 1, started := true }

/-- The state with the word stored where `step` fetches its next instruction: the package in service, region 0 of the RAF
mapping the first GiB onto itself, a fresh wave (an MCC stream for a word of the matrix class), whose one split stands at
the word, at a header's place for a header word and else as the last word of a clause that enables both flags (DESIGN CHOICE, log 5). -/
def State.withFetchWord (s : State) (_nbits w : Nat) : State :=
  let lid := s.nextId
  let sid := s.nextId + 1
  let header := decide (w / 67108864 % 64 = 63)
  let st := if w / 268435456 % 16 = 7 then Stream.mccStream lid fetchLaunch 0
    else Stream.launchWave lid fetchLaunch 0 0 0 0
  let st := st.mapSplits fun p =>
    { p with left := if header then 0 else 1,
             hdr := if header then { fa := none, fb := none } else { fa := some 0, fb := some 1 } }
  let s := s.writePhysN 0x1000 0x2001 8
  let s := s.writePhysN 0x2000 0x2F 8
  let s := s.writePhysN fetchAddr w 4
  let s := s.putLaunch lid fetchLaunch
  let s := s.putStream sid { st with active := true }
  { s with raf := Sp.set { root := 0, attr := 0 } s.raf 0 { root := 1, attr := 0xFD }, tlb := [], walks := [], errors := [],
           stopped := Sp.set false s.stopped 0 false, bring := .service, nextId := s.nextId + 2, agenda := [.issue sid] }

end Sys2Proof.Machine
end

