-- ==== Sys2Proof/Safety.lean ====
section
/-! DEFINITION. The terms the statements use: a step that goes on, an instruction that passes every check of R100, the
frame of an instruction, and the canonical form of memory as an invariant. -/

namespace Sys2Proof.Safety

open Sys2Proof.Machine

/-- A step of the machine that stops neither with a fault nor with a refusal. -/
def StepsOn (s : State) : Prop := ∃ t, step s = .next t

/-- The instruction described by `d` passes every check at issue (R100): it is legal for this side, this place in its
clause, this mode and this flag choice; MODE is legal; it has the privilege; its operand fields are of the right kind, in
the window, not pending, and no port stands where none may or runs the other way. -/
def Clear (cx : Cx) (d : Desc) : Prop :=
  cx.illegal d = false ∧ d.badMode = false ∧ (d.priv = true → cx.st.privileged = true) ∧
  (d.ok = true ∧ ∀ o ∈ d.opnds, Opnd.bad cx.st o = false) ∧
  (d.regOk = true ∧ ∀ o ∈ d.opnds, Opnd.inWindow cx.st o = true) ∧
  (d.free = true ∧ ∀ o ∈ d.opnds, Opnd.isPending cx o = false) ∧
  ∀ o ∈ d.opnds, Opnd.badPort cx.st o = false

/-- The issuing split of the state is at an instruction that `d` describes and that passes every check, with no uncorrectable
error in a register it reads (R266); `cx` is its context, as the instruction's effect finds it. -/
def Issues (s : State) (d : Desc) (cx : Cx) : Prop :=
  ∃ c, Cx.load s = some c ∧ Clear c d ∧ cx = { c with perLane := d.perLane } ∧ cx.struck d = none

/-- The canonical form of memory, as an invariant of the machine. -/
def MemOk (s : State) : Prop := Memory.wf s.mem

end Sys2Proof.Safety
end

