-- ==== Sys2Proof/Certificates/Slice0/Obligations.lean ====
section
/-! DEFINITION. The statements for the provers: what the spec's rules say of the machine, family by family. Each says
which rules it formalises; one that rests on a choice of the model names its log entry. -/

open Sys2Proof Sys2Proof.Machine Sys2Proof.Safety

/-- A fault that an instruction meets on values it has read, in the context `c` after its reads (R201, R259). -/
def faultsOn (cx c : Cx) (e : Exn) : Host.Outcome State Fault Refusal := .next (cx.onStop (.faultOn c e))
/-! ## The machine as a whole -/

/-- Reset (R11, R160, R166, R200, R204, R275, R276): what the spec states of the machine right after reset. Bring-up
stands in RESET; nothing runs; VFRAC, RAFSEL, BKTSEL, SHAPEBASE, SHAPECNT and every RAF entry are 0 and every bucket
priority is 0xFFFF; physical cluster i of a die carries its index i, cluster 12 is the spare, no cluster has a score. -/
def Obligations.ResetState : Prop :=
  State.reset.bring = .reset ∧ State.reset.launches = [] ∧ State.reset.streams = [] ∧ State.reset.ops = [] ∧
  State.reset.vfrac = 0 ∧ State.reset.rafsel = 0 ∧ State.reset.bktsel = 0 ∧ State.reset.shapeBase = 0 ∧
  State.reset.shapeCnt = 0 ∧ (∀ k, State.reset.region k = { root := 0, attr := 0 }) ∧
  (∀ b, Sp.get 0xFFFF State.reset.bktpri b = 0xFFFF) ∧
  (∀ d, State.reset.dieRow d = List.range 12) ∧
  ∀ d n, n < 13 → (State.reset.physAt (13 * d + n)).st = (if n = 12 then .spare else .inService) ∧
    (State.reset.physAt (13 * d + n)).score = 0

/-- A step runs the decoded instruction: where the agenda names a stream that is ready and the word at its split's PC is
fetched, the step is the meaning of the instruction that the word decodes to, in the state after the fetch; a word that
decodes to none runs as UNASSIGNED_OP. Before its turn a step only stamps the waves that have become ready (R51). -/
def Obligations.StepRunsTheDecodedInstruction : Prop :=
  ∀ (s s1 s2 : State) (cx : Cx) (sid : Nat) (rest : List Turn) (w : Word),
    s.agenda = .issue sid :: rest → State.select { s.stampReady with agenda := rest } sid = some s1 →
    Cx.load s1 = some cx → cx.fetch = (.ok w, s2) →
    (∀ i, decodeWord w = some i → step s = exec i s2) ∧ (decodeWord w = none → step s = exec (.unassignedOp w) s2)

/-- What a step takes (R50, R51): an event of the agenda takes place as the table's step of that name; with an empty agenda and
nothing that the device would do of itself, the next ready stream issues in round robin: the one with the least number above
the last issuer's, and where none is above it the one with the least number of all; with none ready the state stays but for
the stamps that say when a wave became ready. The agenda and the device's own order are the model's choice (DESIGN CHOICE, log 3,
log 8), and so is that a wave's turns in its slot count from 0 again once it is unready (DESIGN CHOICE, log 9); that the waves which
become ready in one step share one stamp is an inference (DEDUCED, log 53). -/
def Obligations.StepTakesTurns : Prop :=
  (∀ (s : State) (i : Instr) (rest : List Turn), s.agenda = .event i :: rest →
    (issuesWord i = false → step s = exec i { s.stampReady with agenda := rest }) ∧
    (issuesWord i = true → step s = .refused .notAnEvent)) ∧
  (∀ s : State, s.agenda = [] →
    (∀ i, s.stampReady.pickEvent = some i → step s = exec i s.stampReady) ∧
    (s.stampReady.pickEvent = none →
      (∀ sid, s.stampReady.pickIssuer = some sid → step s = issueTurn sid s.stampReady) ∧
      (s.stampReady.pickIssuer = none → step s = .next s.stampReady))) ∧
  (∀ s : State, ∃ n, s.stampReady = { s with streams := s.stampReady.streams, nextId := n } ∧
    ∀ k st, s.stream? k = some st → ∃ r u, s.stampReady.stream? k = some { st with readyAt := r, turns := u } ∧
      (st.life = .resident → (∃ p ∈ st.vis.splits, p.stalled = false) → u = st.turns ∧ (∀ a, st.readyAt = some a → r = some a) ∧
        (st.readyAt = none → r = some s.nextId ∧ n = s.nextId + 1)) ∧
      (st.life ≠ .resident ∨ (∀ p ∈ st.vis.splits, p.stalled = true) → u = 0 ∧ r = none)) ∧
  (∀ (s : State) (sid : Nat), s.pickIssuer = some sid →
    (∃ st, (sid, st) ∈ s.streams ∧ s.readyStream sid st = true) ∧
    (s.issuer < sid → ∀ e ∈ s.streams, s.readyStream e.1 e.2 = true → s.issuer < e.1 → sid ≤ e.1) ∧
    (sid ≤ s.issuer → ∀ e ∈ s.streams, s.readyStream e.1 e.2 = true → e.1 ≤ s.issuer ∧ sid ≤ e.1)) ∧
  ∀ s : State, s.pickIssuer = none → ∀ e ∈ s.streams, s.readyStream e.1 e.2 = false

/-- Words of the worked programs and of the reference, as the spec prints them, decode to what they stand for. -/
def Obligations.DecodesPrintedWords : Prop :=
  decodeWord 0x02400000 = some .nop ∧ decodeWord 0x03400000 = some .yield ∧ decodeWord 0x51800000 = some .scatb ∧
  decodeWord 0xB0800007 = some (.trap 7) ∧ decodeWord 0xB0C00000 = some (.tret 0) ∧
  decodeWord 0xB0C00001 = some (.tret 1) ∧ decodeWord 0x122A0200 = some (.slil 42 0x200) ∧
  decodeWord 0x82385400 = some (.qcfg 112 84) ∧ decodeWord 0x60805800 = some (.tdsc 0 88) ∧
  decodeWord 0x70C00008 = some (.mma 0 0 1) ∧ decodeWord 0x70410000 = some (.adrn 2 0)

/-- Decoding undoes encoding: for every row of the table that has a word, and every value of every operand field, the
encoder's word decodes to the instruction, and so does the table's numbering of its bits. -/
def Obligations.DecodeUndoesEncode : Prop :=
  ∀ i : Instr, i.isWord = true →
    decodeWord (encode i) = some i ∧ decodeTableWord 32 (encode i).toNat = some i

/-- Every OP value outside the class tables, and every word at a header's OP but a header, decodes to nothing (R102, R116);
such a word raises ILLEGAL_INSTRUCTION in whatever state a split issues it. -/
def Obligations.UnassignedWordsAreIllegal : Prop :=
  (∀ w : Word, let op := w.toNat / 4194304
    (0x00E ≤ op ∧ op ≤ 0x03F) ∨ (0x056 ≤ op ∧ op ≤ 0x07F) ∨ (0x097 ≤ op ∧ op ≤ 0x0BF) ∨ (0x0D4 ≤ op ∧ op ≤ 0x0FF) ∨
    (0x10C ≤ op ∧ op ≤ 0x13F) ∨ (0x14B ≤ op ∧ op ≤ 0x17F) ∨ (0x189 ≤ op ∧ op ≤ 0x1BF) ∨ (0x1C6 ≤ op ∧ op ≤ 0x1FF) ∨
    (0x209 ≤ op ∧ op ≤ 0x23F) ∨ (0x24B ≤ op ∧ op ≤ 0x27F) ∨ (0x285 ≤ op ∧ op ≤ 0x2BF) ∨ (0x2C6 ≤ op ∧ op ≤ 0x2FF) ∨
    (0x300 ≤ op ∧ op ≤ 0x3EF) → decodeWord w = none) ∧
  (∀ (w : Word) (s : State) (cx : Cx), Cx.load s = some cx →
    exec (.unassignedOp w) s = .next (cx.takeFault (Exn.plain .illegalInstruction))) ∧
  ∀ (s : State) (cx : Cx) (v : BitVec 12) (a : BitVec 1) (f : BitVec 4) (b : BitVec 1) (g l : BitVec 4),
    Cx.load s = some cx → cx.sp.left ≠ 0 →
    exec (.clause v a f b g l) s = .next (cx.takeFault (Exn.plain .illegalInstruction))

/-- No instruction stops the machine: whatever row of the table, whatever its operands and whatever the state, `exec` takes
a next state as long as a split issues; and a step takes a next state unless the agenda asks for an instruction word as an
event. -/
def Obligations.MachineGoesOn : Prop :=
  (∀ (i : Instr) (s : State) (cx : Cx), Cx.load s = some cx → ∃ t, exec i s = .next t) ∧
  ∀ s : State, (∀ i rest, s.agenda = .event i :: rest → issuesWord i = false) → StepsOn s

/-! ## Memory -/

/-- Memory is in canonical form after reset. -/
def Obligations.ResetMemoryIsCanonical : Prop := MemOk State.reset

/-- The invariant of memory: from every state whose memory is in canonical form (addresses strictly rising, nothing listed
that reads as an unlisted byte does), every step leaves memory in canonical form. -/
def Obligations.StepsKeepMemoryCanonical : Prop :=
  ∀ s t : State, MemOk s → step s = .next t → MemOk t

/-- Physical memory (R267, R271): a byte written with memory behind it, on a package that answers, reads back; every byte at
another place stays; without memory behind it a write changes nothing and a read gives 0, and a write that another package does
not answer changes nothing; and an access of n bytes is little-endian, whatever n: a read
gives the sum of its bytes, each times 256 to its place, and a write of v leaves v's low n bytes there, which a read of the
same n bytes gives back, and no other byte. -/
def Obligations.PhysicalMemory : Prop :=
  (∀ (s : State) (pa : Nat) (b : Byte), backed (s.canon pa) = true → s.linkFault pa = false → (s.writePhys pa b).readPhys pa = b) ∧
  (∀ (s : State) (pa q : Nat) (b : Byte), s.canon q ≠ s.canon pa → (s.writePhys pa b).readPhys q = s.readPhys q) ∧
  (∀ (s : State) (pa : Nat) (b : Byte), backed (s.canon pa) = false → s.writePhys pa b = s ∧ s.readPhys pa = 0) ∧
  (∀ (s : State) (pa : Nat) (b : Byte), s.linkFault pa = true → s.writePhys pa b = s) ∧
  (∀ (s : State) (pa n : Nat),
    s.readPhysN pa n = ((List.range n).map fun i => (s.readPhys (pa + i)).toNat * 256 ^ i).sum ∧
    s.readPhysN pa n < 256 ^ n) ∧
  (∀ (s : State) (pa v n q : Nat), (∀ i, i < n → s.canon q ≠ s.canon (pa + i)) →
    (s.writePhysN pa v n).readPhys q = s.readPhys q) ∧
  ∀ (s : State) (pa v n : Nat), (∀ i j, i < j → j < n → s.canon (pa + i) ≠ s.canon (pa + j)) →
    (∀ i, i < n → backed (s.canon (pa + i)) = true ∧ s.linkFault (pa + i) = false) →
    (∀ i, i < n → (s.writePhysN pa v n).readPhys (pa + i) = BitVec.ofNat 8 (v / 256 ^ i)) ∧
    (s.writePhysN pa v n).readPhysN pa n = v % 256 ^ n

/-! ## Registers -/

/-- Writing and reading s60-s62 (R23): a write sets the issuing split's mask word, ANDed with its membership, and leaves
the other two words as they were within the membership; a read returns the mask. -/
def Obligations.MaskRegisters : Prop :=
  ∀ (cx : Cx) (i : Nat) (v : Word), i < 3 → cx.st.port (60 + i) = none →
    cx.readS (60 + i) = .ok (maskWord cx.sp.mask i, cx) ∧
    ∃ c', cx.writeS (60 + i) v = .ok c' ∧ c'.st = cx.st ∧ c'.s = cx.s ∧
      c'.sp = { cx.sp with mask := c'.sp.mask } ∧
      ∀ l, l < 96 → inMask c'.sp.mask l =
        (inMask cx.sp.members l && (if l / 32 = i then v.getLsbD (l % 32) else inMask cx.sp.mask l))

/-- The scalar file (R92): s63 reads 0 and discards writes; s0-s59 hold what was written last and a write leaves every
other; nothing else of the context changes. An instruction that parked reads the file as it stood at its first issue (R164). -/
def Obligations.ScalarRegisters : Prop :=
  ∀ (cx : Cx) (n : Nat) (v : Word), cx.st.port n = none →
    (n = 63 → cx.readS n = .ok (0, cx) ∧ cx.writeS n v = .ok cx) ∧
    (n < 60 → (cx.sp.kept = none → cx.readS n = .ok (cx.st.sreg n, cx)) ∧
      (∀ k, cx.sp.kept = some k → cx.readS n = .ok (Sp.get 0 k.sregs n, cx)) ∧
      cx.writeS n v = .ok { cx with st := cx.st.setSreg n v } ∧ (cx.st.setSreg n v).sreg n = v ∧
      ∀ m, m ≠ n → (cx.st.setSreg n v).sreg m = cx.st.sreg m)

/-- The register window (R43): register vi of a lane is entry WINBASE + i of the lane's register stack, so a write to it
leaves every other entry and every other lane. -/
def Obligations.VectorRegisters : Prop :=
  ∀ (cx : Cx) (i l : Nat) (v : Word), l < 96 →
    (cx.setVec i l v).vec i l = v ∧
    (∀ e k, k < 96 → (e ≠ cx.sp.winbase + i ∨ k ≠ l) → (cx.setVec i l v).st.vreg e k = cx.st.vreg e k) ∧
    (cx.setVec i l v).s = cx.s ∧ (cx.setVec i l v).sp = cx.sp

/-- Which lanes take part (R24): those of the issuing split's mask whose guard predicate holds, inverted under GINV; a
reissue after a fault acts only on the lanes it has left (R259). A lane that does not take part keeps every register. -/
def Obligations.LanesThatTakePart : Prop :=
  (∀ (cx : Cx) (d : Nat) (f : Nat → List Word × BitVec 6) (e l : Nat), l < 96 → inMask cx.part l = false →
    (cx.writeLanes d f).st.vreg e l = cx.st.vreg e l) ∧
  ∀ (st : Stream) (p : Split) (l : Nat), l < 96 →
    inMask (takesPart st p) l =
      (inMask p.mask l && (inMask (st.pred p.mode.guard.toNat) l != p.mode.ginv) &&
        match p.retry with
        | some r => inMask r l
        | none => true)

/-- The pushes and pops of a queue port (R40, R42, R164): a push is held in the release buffer; a pop takes the oldest entry of
the launch's queue on the cluster and keeps a copy, an empty queue holds the split and a full one holds a push. A replayed pop
delivers the entries again first, in their order, and one of an instruction that parked the entry it took then. No other launch
shares the queue (DESIGN CHOICE, log 57). -/
def Obligations.QueuePorts : Prop :=
  (∀ (cx : Cx) (n : Nat) (p : Port) (v : Word), cx.st.port n = some p → cx.st.isReplay = false → cx.sp.kept = none →
    let bay := cx.s.bay cx.st.launch cx.st.cl
    (∀ x t, takeKept p.queue cx.st.redeliver = some (x, t) → ∃ c', cx.readS n = .ok (x, c') ∧ c'.s = cx.s ∧ c'.sp = cx.sp ∧
      c'.st.redeliver = t ∧ c'.st.pops = cx.st.pops ++ [(p.queue, x)]) ∧
    (takeKept p.queue cx.st.redeliver = none →
      (Sp.get [] bay.hwq p.queue = [] → cx.readS n = .error (.hold (.queueEmpty p.queue))) ∧
      ∀ x t la, Sp.get [] bay.hwq p.queue = x :: t → cx.s.launch? cx.st.launch = some la →
        ∃ c', cx.readS n = .ok (x, c') ∧
          c'.s = cx.s.putBay cx.st.launch cx.st.cl { bay with hwq := Sp.set [] bay.hwq p.queue t } ∧
          Sp.get [] (c'.s.bay cx.st.launch cx.st.cl).hwq p.queue = t ∧
          (∀ q, q ≠ p.queue → Sp.get [] (c'.s.bay cx.st.launch cx.st.cl).hwq q = Sp.get [] bay.hwq q) ∧
          (∀ l c, l ≠ cx.st.launch ∨ c ≠ cx.st.cl → c'.s.bay l c = cx.s.bay l c) ∧
          c'.st.pops = cx.st.pops ++ [(p.queue, x)] ∧ c'.sp = cx.sp) ∧
    (cx.queueFull p.queue = true → cx.writeS n v = .error (.hold (.queueFull p.queue))) ∧
    (cx.queueFull p.queue = false → cx.st.recomputing = false → cx.sp.retry = none →
      (cx.st.buffer.map (·.size)).sum + 8 ≤ Config.releaseBytes →
      ∃ b c', cx.writeS n v = .ok c' ∧ c'.s = cx.s ∧ c'.sp = { cx.sp with serial := c'.sp.serial } ∧
        c'.st = { cx.st with buffer := cx.st.buffer ++ [b], stamp := cx.st.stamp + 1 } ∧
        b.item = .push cx.st.cl p.queue v ∧ b.size = 8 ∧ b.issue = cx.st.stamp)) ∧
  ∀ (cx : Cx) (n : Nat) (p : Port) (k : Kept) (x : Word) (t : List (Nat × Word)), cx.st.port n = some p →
    cx.sp.kept = some k → takeKept p.queue k.pops = some (x, t) →
    cx.readS n = .ok (x, { cx with sp := { cx.sp with kept := some { k with pops := t } } })

/-! ## The end of an instruction, and faults -/

/-- An instruction that completes within its clause (R29, R86): the split goes on at the next word, its DII one higher,
one word fewer left, with no hold and no retry, and with nothing kept of the instruction (R164) unless it is one of a handler;
no byte of memory, no other stream and nothing else of the package changes. -/
def Obligations.CompletionMovesOn : Prop :=
  ∀ (cx : Cx), cx.endTurn = false → cx.count = true → cx.left = none → cx.keep = true → cx.ckpt = false →
    cx.later = false → 1 < cx.sp.left →
    cx.finish = cx.s.putStream cx.id (cx.st.putSplit { cx.sp with
      pc := cx.next, dii := cx.sp.dii + 1, left := cx.sp.left - 1, hold := none, retry := none, retryOp := none,
      trap := cx.sp.trap.map fun t => { t with count := t.count + 1 },
      kept := if cx.sp.inTrap then cx.sp.kept else none, serial := if cx.sp.inTrap then cx.sp.serial else none,
      recs := if cx.sp.inTrap then cx.sp.recs else [] })

/-- What the end of an instruction leaves as it was, from `s` to `t` (R28, R30, R36): every byte of memory and of a weight
store, the clusters, the command queues and the contributions held; of a launch all but its bays, where the merge of two splits
may end a barrier's phase; of another stream all but its splits, which such an end lets go on. -/
def TurnFrame (s t : State) (id : Nat) : Prop :=
  (∀ pa, t.readPhys pa = s.readPhys pa) ∧ t.ws = s.ws ∧ t.clusters = s.clusters ∧ t.queues = s.queues ∧
  t.arcade = s.arcade ∧
  (∀ l la, s.launch? l = some la → ∃ bays, t.launch? l = some { la with bays := bays }) ∧
  ∀ k st, k ≠ id → s.stream? k = some st →
    ∃ ps, t.stream? k = some { st with vis := { st.vis with splits := ps } }

/-- The frame of a completion: whatever the instruction did to its context, what follows (the PC, the DII, a checkpoint,
the turn's end with its merges, and the barriers that those complete) changes no byte of memory or of a weight store, no
cluster, of a launch only its bays, of another stream only its splits, and of the issuing stream no register, predicate, flag,
k register, stack byte or release buffer; and while the turn goes on nothing but the issuing stream. -/
def Obligations.CompletionFrame : Prop :=
  ∀ (cx : Cx), TurnFrame cx.s cx.finish cx.id ∧
    (cx.endTurn = false → cx.count = true → cx.left = none → cx.keep = true → 1 < cx.sp.left →
      cx.finish.launches = cx.s.launches ∧ ∀ k, k ≠ cx.id → cx.finish.stream? k = cx.s.stream? k) ∧
    ∃ st, cx.finish.stream? cx.id = some st ∧ st.vis.sregs = cx.st.vis.sregs ∧ st.vis.vregs = cx.st.vis.vregs ∧
      st.vis.preds = cx.st.vis.preds ∧ st.vis.kregs = cx.st.vis.kregs ∧ st.vis.ports = cx.st.vis.ports ∧
      st.vis.allot = cx.st.vis.allot ∧ st.vis.tba = cx.st.vis.tba ∧ st.vis.fault = cx.st.vis.fault ∧
      st.flags = cx.st.flags ∧ st.stack = cx.st.stack ∧ st.buffer = cx.st.buffer ∧ st.tape = cx.st.tape ∧
      st.exited = cx.st.exited

/-- The checks at issue in their order (R100): an instruction that is illegal raises ILLEGAL_INSTRUCTION whatever else is
wrong; then ILLEGAL_MODE, PRIVILEGE, ILLEGAL_OPERAND of kind and pairing, ILLEGAL_REG, UNFLAGGED_READ, and the direction of
a port; one that passes them all has its effect. -/
def Obligations.FaultsComeInOrder : Prop :=
  ∀ (cx : Cx) (d : Desc),
    let bad := d.ok = false ∨ ∃ o ∈ d.opnds, Opnd.bad cx.st o = true
    let out := d.regOk = false ∨ ∃ o ∈ d.opnds, Opnd.inWindow cx.st o = false
    let pend := d.free = false ∨ ∃ o ∈ d.opnds, Opnd.isPending cx o = true
    let dir := ∃ o ∈ d.opnds, Opnd.badPort cx.st o = true
    let priv := d.priv = true ∧ cx.st.privileged = false
    (cx.illegal d = true → cx.check d = stopAt .illegalInstruction) ∧
    (cx.illegal d = false → d.badMode = true → cx.check d = stopAt .illegalMode) ∧
    (cx.illegal d = false → d.badMode = false → priv → cx.check d = stopAt .privilege) ∧
    (cx.illegal d = false → d.badMode = false → ¬priv → bad → cx.check d = stopAt .illegalOperand) ∧
    (cx.illegal d = false → d.badMode = false → ¬priv → ¬bad → out → cx.check d = stopAt .illegalReg) ∧
    (cx.illegal d = false → d.badMode = false → ¬priv → ¬bad → ¬out → pend → cx.check d = stopAt .unflaggedRead) ∧
    (cx.illegal d = false → d.badMode = false → ¬priv → ¬bad → ¬out → ¬pend → dir → cx.check d = stopAt .queueConfig) ∧
    (Clear cx d → cx.check d = .ok { cx with perLane := d.perLane })

/-- Handler entry (R254, R255, R258): a fault that traps, met outside trap mode with TBA set while no other split is
parked or in a handler, writes the fault record; the split saves its MODE, mask, header and retry set, its window moves
past min(64, A) entries, MODE and the mask become the handler's, and it goes on at the clause header at TBA. Scalars,
vector registers, predicates, k registers, flags, FPSTAT, SRSEED, LOSSEXP and the DII are kept. An uncorrectable error and an
access that another package does not answer leave their event in the black box first, which is all that `errorEvent` does
(R266, R271, R279). A fault that an instruction meets on values it has read keeps what the reads left (R201): in the translations
held, the orientation of sectors, the black box and the input log; that it keeps these, and that the event's record is written
when the fault is taken, is an inference (DEDUCED, log 34). A late engine fault adds to the handler's frame what a replay needs to
raise it again (R249), and nothing to the fields named. -/
def Obligations.HandlerEntry : Prop :=
  (∀ (cx : Cx) (e : Exn), let w := cx.s.whoOf cx.st
    (e.link = none → e.place = 0 → cx.errorEvent e = cx) ∧
    (e.link = none → e.place ≠ 0 → cx.errorEvent e =
      { cx with s := cx.s.box w.die 8 w.unitw (BitVec.ofNat 32 e.place) e.addr 0 }) ∧
    ∀ pa c, e.link = some (pa, c) → cx.errorEvent e =
      { cx with s := cx.s.box w.die 13 w.unitw (BitVec.ofNat 32 c) (BitVec.ofNat 64 pa) (BitVec.ofNat 64 (rankOf pa)) }) ∧
  (∀ (cx c : Cx) (e : Exn), e.parks = false → cx.sp.kept = none →
    (cx.st.faulting cx.sp.num = true → cx.sp.inTrap = false → faultsOn cx c e =
      .next (({ cx with sp := { cx.sp with hold := some .otherFault } }.flush).endTurn cx.id)) ∧
    (cx.st.faulting cx.sp.num = false ∨ cx.sp.inTrap = true → faultsOn cx c e = .next (Cx.takeFault { cx with
      s := { cx.s with tlb := c.s.tlb, walks := c.s.walks, orient := c.s.orient, bbox := c.s.bbox, bboxSeq := c.s.bboxSeq },
      st := { cx.st with log := c.st.log, logBytes := c.st.logBytes, unverif := c.st.unverif } } e))) ∧
  ∀ (cx : Cx) (e : Exn), cx.st.isMcc = false → cx.st.isReplay = false → e.parks = false →
    cx.sp.trap = none → cx.st.faulting cx.sp.num = false → cx.st.vis.tba ≠ 0 →
    (∃ n, spillCount cx.st.vis.allot cx.la.psize
      ((Linkage.trap (windowOf cx.st.vis.allot) :: cx.sp.linkage).reverse.map Linkage.size) cx.sp.spilled = some n) →
    ∃ (p : Split) (t : TrapFrame), cx.takeFault e = ({ cx.errorEvent e with
        st := { cx.st with vis := { cx.st.vis with fault := cx.record e } }, sp := p }.flush).endTurn cx.id ∧
      p.pc = cx.st.vis.tba ∧ p.left = 0 ∧ p.mode = Mode.initial ∧ p.mask = (cx.record e).mask &&& cx.sp.members ∧
      p.winbase = cx.sp.winbase + min 64 cx.st.vis.allot ∧
      p.linkage = .trap (min 64 cx.st.vis.allot) :: cx.sp.linkage ∧ p.trap = some t ∧ t.mode = cx.sp.mode ∧
      t.mask = cx.sp.mask ∧ t.hdr = cx.sp.hdr ∧ t.pc = cx.sp.pc ∧ t.retry = cx.retrySet e ∧
      p.fpstat = cx.sp.fpstat ∧ p.srseed = cx.sp.srseed ∧ p.lossexp = cx.sp.lossexp ∧ p.dii = cx.sp.dii ∧
      p.members = cx.sp.members

/-- A fault with TBA = 0 (R256), outside a replay: the wave is killed without replay, its release buffer is discarded, and
its record goes to the black box as kind 2 and to the host fault queue. A replay that meets it ends without a digest, and is
unverifiable, with no such record (R407). The order of the records, the error's event first and the black box before the host
fault queue, is an inference (DEDUCED, log 34). -/
def Obligations.FaultWithoutHandlerKills : Prop :=
  ∀ (cx : Cx) (e : Exn), e.parks = false → cx.sp.trap = none → cx.st.vis.tba = 0 → cx.keep = true →
    let fr := cx.record e
    let st := { cx.st with vis := { cx.st.vis with fault := fr }, pendKill := some .final, buffer := [] }
    let s := (cx.errorEvent e).s.putStream cx.id (st.putSplit cx.sp)
    let w := cx.s.whoOf st
    (cx.st.isReplay = false → cx.st.faulting cx.sp.num = false →
      cx.takeFault e = (s.box w.die 2 w.unitw fr.code fr.pc cx.la.ident).faultEntry st cx.id cx.sp.num fr 0 false) ∧
    (cx.st.isReplay = true → cx.takeFault e = (cx.errorEvent e).s.putStream cx.id
      ({ cx.st with failed := true, unverif := true, pendKill := some .final }.putSplit cx.sp))

/-- DOUBLE_FAULT (R262): any fault in trap mode, one that would park included, kills the wave without replay; FAULTCODE
becomes 0x17 and the rest of the record stays; the black box gets kind 3 with the second fault's PC, and the host fault queue
its entry. While another split of the wave is parked or in trap mode, a fault only holds the split at its instruction, without
a record (R263). The order of the records, and that a fault held so still writes its error's event, are an inference
(DEDUCED, log 34). -/
def Obligations.SecondFaults : Prop :=
  ∀ (cx : Cx) (e : Exn), cx.st.isReplay = false →
    (cx.sp.trap.isSome = true → cx.keep = true →
      let fr := { cx.st.vis.fault with code := cx.st.vis.fault.code &&& 0xFFFFFF00 ||| 0x17 }
      let st := { cx.st with vis := { cx.st.vis with fault := fr }, pendKill := some .final, buffer := [] }
      let s := (cx.errorEvent e).s.putStream cx.id (st.putSplit cx.sp)
      let w := cx.s.whoOf st
      cx.takeFault e = (s.box w.die 3 w.unitw fr.code cx.sp.pc cx.la.ident).faultEntry st cx.id cx.sp.num fr cx.sp.pc false) ∧
    (cx.sp.trap = none → cx.st.faulting cx.sp.num = true →
      cx.takeFault e = ({ cx.errorEvent e with sp := { cx.sp with hold := some .otherFault } }.flush).endTurn cx.id)

/-- NOT_PRESENT parks (R164, R254): the split is parked for system software with its record and its retry set, and an
entry of the host fault queue names it; no handler runs. -/
def Obligations.NotPresentParks : Prop :=
  ∀ (cx : Cx) (e : Exn), cx.st.isReplay = false → e.code = .translation → e.sub = 1 →
    cx.sp.trap = none → cx.st.faulting cx.sp.num = false →
    let fr := cx.record e
    let cx' := { cx.errorEvent e with st := { cx.st with vis := { cx.st.vis with fault := fr } }, sp := { cx.sp with
      status := .parked, retry := some (cx.retrySet e) } }
    cx.takeFault e = (cx'.flush.faultEntry cx'.st cx.id cx.sp.num fr 0 true).endTurn cx.id

/-! ## Control (R103, R312-R316, R323-R328, R335, R342-R344, R351-R352, R397, R404) -/

/-- The target of a branch word is legal (R82): no tag, and a multiple of 4. -/
abbrev legalTarget (a : Addr) : Prop := a.toNat < 2 ^ 57 ∧ a.toNat % 4 = 0

/-- BRA, BRS and JMPI (R312, R313, R327): with a legal target, BRA and JMPI continue at it, and BRS does when its scalar is
not 0 and falls through when it is; the target of a word is its address plus 4 times the signed offset, that of JMPI the
scalar pair plus 4 times the immediate. A target with a tag raises APERTURE, a misaligned one ALIGNMENT, at that address,
and for BRS even when it is not taken, which is the model's choice (DEDUCED, log 30; R82 and R313 do not say). -/
def Obligations.Branches : Prop :=
  (∀ s cx o, Issues s Desc.control cx →
    let t := cx.sp.pc + BitVec.ofInt 64 (4 * o.toInt)
    (legalTarget t → exec (.bra o) s = .next (cx.goto t).finish) ∧
    (2 ^ 57 ≤ t.toNat → exec (.bra o) s = .next (cx.takeFault (Exn.at .aperture t))) ∧
    (t.toNat < 2 ^ 57 → t.toNat % 4 ≠ 0 → exec (.bra o) s = .next (cx.takeFault (Exn.at .alignment t)))) ∧
  (∀ s cx c i v cx', Issues s { Desc.control with opnds := [.srcS (scalarCode c)] } cx →
    let t := cx.sp.pc + BitVec.ofInt 64 (4 * i.toInt)
    (legalTarget t → cx.readS c.toNat = .ok (v, cx') →
      exec (.brs c i) s = .next (if v = 0 then cx'.finish else (cx'.goto t).finish)) ∧
    (2 ^ 57 ≤ t.toNat → exec (.brs c i) s = .next (cx.takeFault (Exn.at .aperture t))) ∧
    (t.toNat < 2 ^ 57 → t.toNat % 4 ≠ 0 → exec (.brs c i) s = .next (cx.takeFault (Exn.at .alignment t)))) ∧
  ∀ s cx c i, Issues s { Desc.control with opnds := [(Opnd.srcS (scalarCode c)).pair] } cx →
    let t := cx.scalar64 c.toNat + BitVec.ofInt 64 (4 * i.toInt)
    (legalTarget t → exec (.jmpi c i) s = .next (cx.goto t).finish) ∧
    (2 ^ 57 ≤ t.toNat → exec (.jmpi c i) s = .next (cx.takeFault (Exn.at .aperture t))) ∧
    (t.toNat < 2 ^ 57 → t.toNat % 4 ≠ 0 → exec (.jmpi c i) s = .next (cx.takeFault (Exn.at .alignment t)))

/-- BRV (R25, R26, R314): with a legal target, the lanes that take part and whose predicate holds (fails, under N) are
taken. With none taken the split falls through; with all of its mask taken it branches; a split with an empty mask stack,
outside trap mode, in a wave of fewer than four, gives the taken lanes to a new split at the target, which takes the lowest
number that no split of the wave has, its state the same otherwise, with an empty mask stack and nothing held; otherwise an
entry is pushed and the taken lanes go on at the target, unless the mask stack holds 16, which raises DIVERGENCE_OVERFLOW. A
target with a tag raises APERTURE and a misaligned one ALIGNMENT, also where no lane is taken, which is an inference (DEDUCED, log 30;
R25 and R314 do not say). -/
def Obligations.DivergentBranch : Prop :=
  ∀ s cx p n o, Issues s { Desc.control with mcc := false, perLane := true, preds := [p.toNat] } cx →
    let t := cx.sp.pc + BitVec.ofInt 64 (4 * o.toInt)
    let taken := cx.part &&& (if n = 1 then ~~~cx.st.pred p.toNat else cx.st.pred p.toNat)
    let splits := cx.st.vis.splits.length < 4 ∧ cx.sp.stack = [] ∧ cx.sp.inTrap = false ∧ cx.st.recomputing = false
    (2 ^ 57 ≤ t.toNat → exec (.brv p n o) s = .next (cx.takeFault (Exn.at .aperture t))) ∧
    (t.toNat < 2 ^ 57 → t.toNat % 4 ≠ 0 → exec (.brv p n o) s = .next (cx.takeFault (Exn.at .alignment t))) ∧
    (legalTarget t →
    (taken = 0 → exec (.brv p n o) s = .next cx.finish) ∧
    (taken ≠ 0 → taken = cx.sp.mask → exec (.brv p n o) s = .next (cx.goto t).finish) ∧
    (taken ≠ 0 → taken ≠ cx.sp.mask → splits → ∃ k born : Nat,
      let q : Split := { cx.sp with
        num := k, born := born, pc := t, members := taken, mask := taken, stack := [], dii := cx.sp.dii + 1, left := 0,
        status := .run, hold := none, retry := none, retryOp := none, kept := none, serial := none, recs := [], late := [] }
      exec (.brv p n o) s = .next (Cx.finish { cx with
        st := cx.st.putSplit q,
        sp := { cx.sp with members := cx.sp.members &&& ~~~taken, mask := cx.sp.mask &&& ~~~taken } }) ∧
      k < 4 ∧ (∀ r ∈ cx.st.vis.splits, r.num ≠ k ∧ r.born < born) ∧
      (∀ j, j < k → ∃ r ∈ cx.st.vis.splits, r.num = j) ∧
      ∀ j, (cx.st.putSplit q).split? j = if j = k then some q else cx.st.split? j) ∧
    (taken ≠ 0 → taken ≠ cx.sp.mask → ¬splits → cx.sp.stack.length < 16 →
      exec (.brv p n o) s = .next (({ cx with sp := { cx.sp with
        stack := .pending (cx.sp.pc + 4) (cx.sp.mask &&& ~~~taken) cx.sp.mask (cx.sp.dii + 1) :: cx.sp.stack,
        mask := taken } } : Cx).goto t).finish) ∧
    (taken ≠ 0 → taken ≠ cx.sp.mask → 16 ≤ cx.sp.stack.length →
      exec (.brv p n o) s = .next (cx.takeFault (Exn.plain .divergenceOverflow))))

/-- MERGE (R27, R335): at a pending entry the other lanes run, from the entry's address; at the rejoin entry of this MERGE
the lanes join again and the DII is the larger; at another's it does nothing; with an empty mask stack the split parks, or
in trap mode goes on. When every split of the wave is parked at one MERGE they become one, of the older one's other state, its
latched high halves among it (R55; DESIGN CHOICE, log 58). -/
def Obligations.Merge : Prop :=
  (∀ (s : State) (sid : Nat) (st : Stream), s.stream? sid = some st → (∃ p ∈ st.vis.splits, p.status = .run) →
    s.mergeGroups sid = s) ∧
  (∀ (s : State) (sid : Nat) (st : Stream) (p q : Split) (a : Addr), s.stream? sid = some st → st.vis.splits = [p, q] →
    p.num < q.num → p.status = .merge a → q.status = .merge a → p.winbase = q.winbase →
    ∃ t g, s.mergeGroups sid = t ∧ (t.stream? sid).map (fun x => x.vis.splits) = some [g] ∧ g.pc = a + 4 ∧
      g.num = p.num ∧ g.members = (p.members ||| q.members) ∧ g.mask = (p.mask ||| q.mask) ∧
      g.fpstat = (p.fpstat ||| q.fpstat) ∧ g.status = .run ∧
      g.cycHi = (if p.born ≤ q.born then p else q).cycHi ∧ g.diiHi = (if p.born ≤ q.born then p else q).diiHi ∧
      g.dii = (if p.dii.toNat ≤ q.dii.toNat then q.dii else p.dii) + 1) ∧
  ∀ s cx, Issues s { Desc.control with mcc := false } cx →
    (∀ pc m b d t, cx.sp.stack = .pending pc m b d :: t →
      exec .merge s = .next (Cx.finish { cx with
        sp := { cx.sp with stack := .rejoin cx.sp.pc b cx.sp.dii :: t, mask := m, dii := d - 1 }, next := pc,
        left := some 0, endTurn := true })) ∧
    (∀ b d t, cx.sp.stack = .rejoin cx.sp.pc b d :: t →
      exec .merge s = .next (Cx.finish { cx with sp := { cx.sp with
        stack := t, mask := b &&& cx.sp.members, dii := if cx.sp.dii.toNat ≤ d.toNat then d else cx.sp.dii } })) ∧
    (∀ a b d t, cx.sp.stack = .rejoin a b d :: t → a ≠ cx.sp.pc → exec .merge s = .next cx.finish) ∧
    (cx.sp.stack = [] → cx.sp.inTrap = true → exec .merge s = .next cx.finish) ∧
    (cx.sp.stack = [] → cx.sp.inTrap = false → cx.st.recomputing = false →
      exec .merge s = .next (Cx.finish
        { cx.reload (({ cx with sp := { cx.sp with status := .merge cx.sp.pc } }.flush).mergeGroups cx.id) with
            keep := false }))

/-- CALL and RET (R44, R315, R352): CALL with a frame of f entries (a multiple of 8 from 8 to 56) and a legal target pushes
the linkage entry of the next word, moves WINBASE on by f and continues at the target; RET takes the newest entry, moves
WINBASE back and continues after the call. On an MCC stream the window stays, and the depth is at most 64. RET without a
linkage entry raises ILLEGAL_INSTRUCTION. -/
def Obligations.CallAndReturn : Prop :=
  (∀ s cx (f : BitVec 3) (o : BitVec 19) n, Issues s { Desc.control with ok := f != 0 } cx →
    let t := cx.sp.pc + BitVec.ofInt 64 (4 * o.toInt)
    let entry := Linkage.call (cx.sp.pc + 4) (8 * f.toNat)
    legalTarget t →
    (cx.st.isMcc = false → spillCount cx.st.vis.allot cx.la.psize ((entry :: cx.sp.linkage).reverse.map Linkage.size)
        cx.sp.spilled = some n →
      exec (.call f o) s = .next (({ cx with sp := { cx.sp with
        linkage := entry :: cx.sp.linkage, spilled := n, winbase := cx.sp.winbase + 8 * f.toNat } } : Cx).goto t).finish) ∧
    (cx.st.isMcc = false → spillCount cx.st.vis.allot cx.la.psize ((entry :: cx.sp.linkage).reverse.map Linkage.size)
        cx.sp.spilled = none →
      exec (.call f o) s = .next (cx.takeFault (Exn.plain .stackOverflow))) ∧
    (cx.st.isMcc = true → cx.sp.linkage.length < 64 →
      exec (.call f o) s = .next (({ cx with sp := { cx.sp with linkage := entry :: cx.sp.linkage } } : Cx).goto t).finish) ∧
    (cx.st.isMcc = true → 64 ≤ cx.sp.linkage.length →
      exec (.call f o) s = .next (cx.takeFault (Exn.plain .stackOverflow)))) ∧
  ∀ s cx, Issues s Desc.control cx →
    (∀ ret f t, cx.sp.linkage = .call ret f :: t →
      exec .ret s = .next (({ cx with sp := { cx.sp with
        linkage := t, winbase := if cx.st.isMcc then cx.sp.winbase else cx.sp.winbase - f,
        spilled := min cx.sp.spilled t.length } } : Cx).goto ret).finish) ∧
    (cx.sp.linkage = [] → exec .ret s = .next (cx.takeFault (Exn.plain .illegalInstruction)))

/-- END and EXIT (R22, R33, R323, R324): EXIT of some of a split's lanes takes them out of its membership, its mask and its
mask stack, and they are exited. END, and EXIT of a split's last lanes, wait while an operation that the split issued brings an error,
which they raise before any effect (R266; DEDUCED, log 63), and otherwise commit the region; then the split's lanes have exited
and, while an operation it issued is outstanding, it only waits for it; then the split is no more. What its end does: its lanes
are exited and it is gone from the wave; with another split left the wave goes on, with its registers, its ports and its place;
with none left the wave ends: it has no split, no port and no slot, it is a member of no quarter of its cluster, no lease and
no request for one is its own, and its allotment counts for nothing in its partition. -/
def Obligations.EndAndExit : Prop :=
  let sound := fun (cx : Cx) => ∀ o ∈ cx.s.ops, o.2.stream = cx.id → o.2.owner = cx.sp.num → o.2.failing cx.s = false
  (∀ s cx, Issues s { Desc.control with mcc := false, recomp := false, perLane := true } cx →
    (cx.sp.members &&& ~~~cx.part ≠ 0 →
      exec .exit s = .next (Cx.finish { cx with
        st := { cx.st with exited := cx.st.exited ||| cx.part },
        sp := { cx.sp with members := cx.sp.members &&& ~~~cx.part, mask := cx.sp.mask &&& ~~~cx.part,
                           stack := cx.sp.stack.map (MaskEntry.without cx.part) } })) ∧
    (cx.sp.members &&& ~~~cx.part = 0 → (∃ o ∈ cx.s.ops, o.2.stream = cx.id ∧ o.2.owner = cx.sp.num ∧ o.2.failing cx.s = true) →
      exec .exit s = .next (cx.holdAt .own)) ∧
    (∀ c1, cx.sp.members &&& ~~~cx.part = 0 → sound cx → cx.sp.late = [] → cx.commit = .ok c1 →
      (c1.s.ownBusy c1.id c1.sp.num = false →
        exec .exit s = .next (Cx.finish { c1.reload (c1.flush.endSplit c1.id c1.sp.num) with keep := false })) ∧
      (c1.s.ownBusy c1.id c1.sp.num = true →
        exec .exit s = .next (cx.onStop (.wait c1.leaveLanes .own))))) ∧
  (∀ s cx, Issues s { Desc.control with recomp := false } cx →
    (cx.st.isMcc = true → cx.s.ownBusy cx.id cx.sp.num = true →
      exec .endSplit s = .next (cx.holdAt .own)) ∧
    ((∃ o ∈ cx.s.ops, o.2.stream = cx.id ∧ o.2.owner = cx.sp.num ∧ o.2.failing cx.s = true) →
      exec .endSplit s = .next (cx.holdAt .own)) ∧
    (∀ c1, (cx.st.isMcc = true → cx.s.ownBusy cx.id cx.sp.num = false) → sound cx → cx.sp.late = [] → cx.commit = .ok c1 →
      (c1.s.ownBusy c1.id c1.sp.num = false →
        exec .endSplit s = .next (Cx.finish { c1.reload (c1.flush.endSplit c1.id c1.sp.num) with keep := false })) ∧
      (c1.s.ownBusy c1.id c1.sp.num = true →
        exec .endSplit s = .next (cx.onStop (.wait c1.leaveLanes .own))))) ∧
  (∀ c : Cx, c.leaveLanes = { c with st := { c.st with exited := c.st.exited ||| c.sp.members }, sp := { c.sp with status := .ended } }) ∧
  ∀ (s : State) (sid k : Nat) (st : Stream) (p : Split), s.stream? sid = some st → st.split? k = some p →
    let t := s.endSplit sid k
    t.mem = s.mem ∧ t.ws = s.ws ∧ t.ops.length = s.ops.length ∧
    ∃ st', t.stream? sid = some st' ∧ st'.exited = (st.exited ||| p.members) ∧ st'.vis.sregs = st.vis.sregs ∧
      st'.vis.vregs = st.vis.vregs ∧ st'.vis.preds = st.vis.preds ∧ st'.buffer = st.buffer ∧
      ((∃ q ∈ st.vis.splits, q.num ≠ k) → st'.life = st.life ∧ st'.vis.ports = st.vis.ports ∧ st'.vis.allot = st.vis.allot ∧
        st'.vis.splits ≠ [] ∧
        ((∃ q ∈ st.vis.splits, q.num ≠ k ∧ q.status = .run) → st'.vis.splits.map (·.num) = (st.vis.splits.filter fun q => q.num ≠ k).map (·.num))) ∧
      ((∀ q ∈ st.vis.splits, q.num = k) → st'.life = .ended ∧ st'.active = false ∧ st'.vis.splits = [] ∧
        st'.vis.ports = [] ∧ (∀ cl core part, st'.inPartition cl core part = false) ∧
        (st.isReplay = false → ∀ q, q < 16 → sid ∉ (t.bay st.launch st.cl).members q) ∧
        (∀ l, (t.cluster st.cl).lease = some l → l.stream ≠ sid) ∧ ∀ e ∈ (t.cluster st.cl).leaseReqs, e.1 ≠ sid)

/-- A commit point (R178, R248) whose region has no raster thread and no open adjoint, with room in the scatter log and no STL that
another stream's comes before (R175; DEDUCED, log 6), where no error is met: the release buffer's items take place one after the other, oldest first,
in memory, the weight stores, the Plazas, the queues and the Arcade; what stays in the buffer is the contributions of an adjoint that
is not over (R230), a new region opens, and a checkpoint is taken. While an STL of it has to wait for another's, a commit point waits.
REGION is a commit point and nothing else (R351). What one item does, outside a replay: the bytes of a store go to their places
(R144-R146), those of a cached address through a row line (R157), a byte of the Plaza or of the lane's stack reads as it was written
and every other as before; a pushed entry stands last in its queue (R40); a contribution is the newest of the Arcade's (R224), past
the Arcade's buffers with its record in the scatter log, which no other byte of memory notices (R229; log 25); a card stands last
among those of its launch (R69); a tape record leaves nothing to do, and no item touches memory but a store and such a
contribution. In a replay nothing is written but the stacks (R203). -/
def Obligations.CommitPoint : Prop :=
  (∀ (cx : Cx), cx.s.rasterBusy cx.id cx.st = false → cx.s.adjointOpen cx.id = false → cx.s.logFull cx.st = false →
    cx.stlHeld = false → cx.s.errors = [] → (∀ b ∈ cx.st.buffer, cx.flush.storeError b = none) →
    let t := (cx.st.buffer.filter fun b => !b.own).foldl (State.commitItem cx.st.launch cx.id cx.st.wid cx.st.cl cx.st.isReplay) cx.flush
    ∃ c', cx.commit = .ok c' ∧ c'.ckpt = true ∧ c'.s.mem = t.mem ∧ c'.s.ws = t.ws ∧ c'.s.arcade = t.arcade ∧
      c'.s.launches = t.launches ∧ c'.s.clusters = t.clusters ∧
      (∀ st, c'.s.stream? cx.id = some st → st.buffer = cx.st.buffer.filter (·.own) ∧ st.pops = [] ∧ st.region = cx.st.region + 1) ∧
      ∀ s, Issues s { Desc.split [] with commits := true, recomp := false } cx → exec .region s = .next c'.finish) ∧
  (∀ s cx, Issues s { Desc.split [] with commits := true, recomp := false } cx → cx.s.rasterBusy cx.id cx.st = false →
    cx.s.adjointOpen cx.id = false → cx.s.logFull cx.st = false → cx.stlHeld = true → exec .region s = .next (cx.holdAt .acquire)) ∧
  (∀ (s : State) (launch sid wid cl : Nat) (b : BufItem) (la : Launch) (st : Stream), s.launch? launch = some la →
    s.stream? sid = some st →
    let t := s.commitItem launch sid wid cl false b
    (∀ p v, b.item = .store [(p, v)] →
      (p.space = .plaza → ∃ z, t = s.putLaunch launch { la with plaza := z } ∧ Sp.get 0 z p.key = v ∧
        ∀ k, k ≠ p.key → Sp.get 0 z k = Sp.get 0 la.plaza k) ∧
      (p.space = .stack → ∃ z, t = s.putStream sid { st with stack := z } ∧ Sp.get 0 z p.key = v ∧
        ∀ k, k ≠ p.key → Sp.get 0 z k = Sp.get 0 st.stack k) ∧
      (p.space = .phys → b.cached = false → t = s.writePhys p.key v) ∧
      (p.space = .phys → b.cached = true → t = (s.turn p.key 0 .row).writePhys p.key v ∧ t.mem = (s.writePhys p.key v).mem ∧
        (s.canon p.key / 2 ^ 50 % 4 = 0 → Sp.get .row t.orient (s.canon p.key / 1024) = .row))) ∧
    (∀ p q, b.item = .store (p ++ q) →
      t = (s.commitItem launch sid wid cl false { b with item := .store p }).commitItem launch sid wid cl false
        { b with item := .store q }) ∧
    (∀ c q v, b.item = .push c q v → t.mem = s.mem ∧ (t.bay launch cl) = { s.bay launch cl with
        hwq := Sp.set [] (s.bay launch cl).hwq q (Sp.get [] (s.bay launch cl).hwq q ++ [v]) } ∧
      ∀ c', c' ≠ cl → t.bay launch c' = s.bay launch c') ∧
    (∀ c, b.item = .scat c →
      let out := s.arcade.filterMap (·.slot)
      (s.arcade.length - out.length < arcadeSlots →
        t = { s with arcade := s.arcade ++ [{ launch := launch, wid := wid, c := c, slot := none }] }) ∧
      (arcadeSlots ≤ s.arcade.length - out.length → ∃ k, k ≤ out.length ∧
        t.arcade = s.arcade ++ [{ launch := launch, wid := wid, c := c, slot := some (s.slog.1.toNat + logBytes * k) }] ∧
        t.ws = s.ws ∧ t.streams = s.streams ∧ t.launches = s.launches ∧
        ∀ pa, (∀ i, i < logBytes → s.canon pa ≠ s.canon (s.slog.1.toNat + logBytes * k + i)) → t.readPhys pa = s.readPhys pa)) ∧
    (∀ c, b.item = .post c → ∃ l', t = s.putLaunch launch l' ∧ l'.cards = la.cards ++ [c] ∧ l'.plaza = la.plaza ∧
      l'.bays = la.bays ∧ l'.dealt = la.dealt) ∧
    (b.item = .tape → t = s) ∧
    ∀ l rs, b.item = .spls l rs → t.mem = s.mem ∧ t.ws = s.ws ∧ t.streams = s.streams ∧ t.arcade = s.arcade) ∧
  ∀ (s : State) (launch sid wid cl : Nat) (b : BufItem),
    let t := s.commitItem launch sid wid cl true b
    t.mem = s.mem ∧ t.ws = s.ws ∧ t.launches = s.launches ∧ t.arcade = s.arcade

/-- MODE (R95, R342): with fields that name a type, a rounding and a saturation it replaces MODE; otherwise it raises
ILLEGAL_MODE. -/
def Obligations.SetsMode : Prop :=
  ∀ s cx (e : BitVec 6) (g : BitVec 3) (v : BitVec 1) (r : BitVec 3) (t : BitVec 2) (z : BitVec 1) (x : BitVec 6),
    let d := { Desc.split [] with
      badMode := (Ty.ofCode e).isNone || decide (r.toNat > 5) || decide (t.toNat > 1) || x != 0 }
    (Issues s d cx →
      exec (.mode e g v r t z x) s = .next (Cx.finish { cx with sp := { cx.sp with
        mode := { etype := e, guard := g, ginv := v == 1, rnd := r, sat := t, ftz := z == 1 } } })) ∧
    (Cx.load s = some cx → cx.illegal d = false →
      (Ty.ofCode e = none ∨ 5 < r.toNat ∨ 1 < t.toNat ∨ x ≠ 0) →
      exec (.mode e g v r t z x) s = .next (cx.takeFault (Exn.plain .illegalMode)))

/-- NOP (R344): the word 0x0240_0000 executes once per split, whatever the stream (the MCC's included) and in trap mode, and
changes no state other than the DII: the split goes on at the next word of its clause, one fewer left; and where it is the
clause's last word, memory, the weight stores, the clusters, every other stream's registers and the stream's own, its
predicates, flags, allotment, stack and release buffer stay as well. -/
def Obligations.NopOnlyCounts : Prop :=
  encode .nop = 0x02400000 ∧ decodeWord 0x02400000 = some .nop ∧
  (∀ s cx, Issues s (Desc.split []) cx → exec .nop s = .next cx.finish ∧
    (1 < cx.sp.left → exec .nop s = .next (s.putStream cx.id (cx.st.putSplit { cx.sp with
      pc := cx.sp.pc + 4, dii := cx.sp.dii + 1, left := cx.sp.left - 1, hold := none, retry := none, retryOp := none,
      trap := cx.sp.trap.map fun t => { t with count := t.count + 1 },
      kept := if cx.sp.inTrap then cx.sp.kept else none, serial := if cx.sp.inTrap then cx.sp.serial else none,
      recs := if cx.sp.inTrap then cx.sp.recs else [] }))) ∧
    ∀ t, exec .nop s = .next t → TurnFrame s t cx.id ∧
      ∃ st, t.stream? cx.id = some st ∧ st.vis.sregs = cx.st.vis.sregs ∧ st.vis.vregs = cx.st.vis.vregs ∧
        st.vis.preds = cx.st.vis.preds ∧ st.vis.kregs = cx.st.vis.kregs ∧ st.vis.allot = cx.st.vis.allot ∧
        st.flags = cx.st.flags ∧ st.stack = cx.st.stack ∧ st.buffer = cx.st.buffer) ∧
  ∀ cx : Cx, Clear cx (Desc.split []) ↔ cx.sp.left ≠ 0

/-- WAITF and the clause header (R85, R87, R91, R266, R316, R397): with every named flag clear and no engine fault of them
to raise, WAITF goes on; a header enables its flags and its words, and is not counted in the DII. With a named flag
raised the split is held without effect. WAITF of a value above 0xFFF raises ILLEGAL_OPERAND. YIELD (R52, R404) marks the
wave for exchange at its next clause boundary; on an MCC stream it has no effect. What the mark does there: with a ready wave in
the pending set of its partition the wave does not issue until it is exchanged (DEDUCED, log 53), and without one it issues on and the mark is
gone (DESIGN CHOICE, log 9). -/
def Obligations.WaitsOnFlags : Prop :=
  (∀ s cx, Issues s (Desc.split []) cx →
    (cx.st.isMcc = false → exec .yield s = .next (Cx.finish { cx with st := { cx.st with yielded := true } })) ∧
    (cx.st.isMcc = true → exec .yield s = .next cx.finish)) ∧
  (∀ (s : State) (sid : Nat) (st : Stream) (p : Split), s.stream? sid = some st → st.active = true → st.isMcc = false →
    st.isReplay = false → st.yielded = true → st.split? st.turnOf = some p → p.left = 0 →
    (s.pendingReady st = true → s.select sid = none) ∧
    ∀ t, s.pendingReady st = false → s.select sid = some t →
      (t.stream? sid).map (·.yielded) = some false) ∧
  (∀ s cx c v cx', Issues s (Desc.split [.srcS (scalarCode c)]) cx → cx.readS c.toNat = .ok (v, cx') →
    (v.toNat < 4096 → cx'.st.flagsClear (BitVec.ofNat 12 v.toNat) = true →
      (∀ e ∈ cx'.sp.late, (BitVec.ofNat 12 v.toNat).getLsbD e.1 = false) →
      exec (.waitf c) s = .next cx'.finish) ∧
    (v.toNat < 4096 → cx'.st.flagsClear (BitVec.ofNat 12 v.toNat) = false →
      exec (.waitf c) s = .next (({ cx with sp := { cx.sp with hold := some (.flags (BitVec.ofNat 12 v.toNat)) } }.flush).endTurn cx.id)) ∧
    (4096 ≤ v.toNat → exec (.waitf c) s = faultsOn cx cx' (Exn.plain .illegalOperand))) ∧
  ∀ s cx (w : BitVec 12) (a : BitVec 1) (f : BitVec 4) (b : BitVec 1) (g l : BitVec 4),
    Issues s { Desc.split [] with
      header := true,
      legal := (if a = 1 then decide (f.toNat < 12) else f == 0) && (if b = 1 then decide (g.toNat < 12) else g == 0) } cx →
    (cx.st.flagsClear w = true → (∀ e ∈ cx.sp.late, w.getLsbD e.1 = false) →
      exec (.clause w a f b g l) s = .next (Cx.finish { cx with
        sp := { cx.sp with hdr := { fa := if a = 1 then some f.toNat else none,
                                    fb := if b = 1 then some g.toNat else none } },
        left := some (l.toNat + 1), count := false })) ∧
    (cx.st.flagsClear w = false →
      exec (.clause w a f b g l) s = .next (({ cx with sp := { cx.sp with hold := some (.flags w) } }.flush).endTurn cx.id))


/-! ## Scalar instructions (R104, R356-R358) -/

/-- The two-source scalar instructions and their results (R357), over the exact integers: sums, differences and products
modulo 2^32, the high half of the exact product, bitwise operations, shifts by B mod 32, SCMP's -1, 0 or 1, the larger and
the smaller. The options .u (X = 1) and signed differ in SMULH, SCMP, SMAX and SMIN. -/
def scalarResults : List ((BitVec 7 → BitVec 7 → BitVec 7 → Instr) × (Word → Word → Word)) :=
  [(.sadd, fun x y => BitVec.ofNat 32 (x.toNat + y.toNat)), (.ssub, fun x y => BitVec.ofInt 32 (x.toNat - y.toNat)),
   (.smul, fun x y => BitVec.ofNat 32 (x.toNat * y.toNat)),
   (fun d a b => .smulh d a b 0, fun x y => BitVec.ofInt 32 (x.toInt * y.toInt / 2 ^ 32)),
   (fun d a b => .smulh d a b 1, fun x y => BitVec.ofNat 32 (x.toNat * y.toNat / 2 ^ 32)),
   (.sand, fun x y => x &&& y), (.sor, fun x y => x ||| y), (.sxor, fun x y => x ^^^ y),
   (.sshl, fun x y => BitVec.ofNat 32 (x.toNat * 2 ^ (y.toNat % 32))),
   (.sshr, fun x y => BitVec.ofNat 32 (x.toNat / 2 ^ (y.toNat % 32))),
   (.ssra, fun x y => BitVec.ofInt 32 (x.toInt / 2 ^ (y.toNat % 32))),
   (fun d a b => .scmp d a b 0, fun x y => if x.toInt < y.toInt then 0xFFFFFFFF else if x = y then 0 else 1),
   (fun d a b => .scmp d a b 1, fun x y => if x.toNat < y.toNat then 0xFFFFFFFF else if x = y then 0 else 1),
   (fun d a b => .smax d a b 0, fun x y => if x.toInt < y.toInt then y else x),
   (fun d a b => .smax d a b 1, fun x y => if x.toNat < y.toNat then y else x),
   (fun d a b => .smin d a b 0, fun x y => if y.toInt < x.toInt then y else x),
   (fun d a b => .smin d a b 1, fun x y => if y.toNat < x.toNat then y else x)]

/-- Every two-source scalar instruction reads A, then B, and writes its result to D; D may be s63, a mask word or a port,
and A and B may be any of these, as the register operations say. -/
def Obligations.ScalarArithmetic : Prop :=
  ∀ e ∈ scalarResults, ∀ s cx d a b x c1 y c2 c3, Issues s (Desc.split [.srcS a, .srcS b, .dstS d]) cx →
    cx.readS (regNo a) = .ok (x, c1) → c1.readS (regNo b) = .ok (y, c2) → c2.writeS (regNo d) (e.2 x y) = .ok c3 →
    exec (e.1 d a b) s = .next c3.finish

/-- The other scalar instructions (R357, R358): SMOV, SPOPC, SCLZ, the immediates, the 64-bit sum of pairs, the select,
and the field extraction, whose malformed field word raises ILLEGAL_OPERAND. -/
def Obligations.ScalarMoves : Prop :=
  (∀ s cx d a x c1 c2, Issues s (Desc.split [.srcS a, .dstS d]) cx → cx.readS (regNo a) = .ok (x, c1) →
    (c1.writeS (regNo d) x = .ok c2 → exec (.smov d a) s = .next c2.finish) ∧
    (c1.writeS (regNo d) (BitVec.ofNat 32 ((List.range 32).filter fun i => x.getLsbD i).length) = .ok c2 →
      exec (.spopc d a) s = .next c2.finish) ∧
    (∀ n, n ≤ 32 → (∀ i, 32 - n ≤ i → i < 32 → x.getLsbD i = false) → (n < 32 → x.getLsbD (31 - n) = true) →
      c1.writeS (regNo d) (BitVec.ofNat 32 n) = .ok c2 → exec (.sclz d a) s = .next c2.finish)) ∧
  (∀ s cx (r : BitVec 6) i x c1 c2, Issues s (Desc.split [(Opnd.srcS (scalarCode r)).both]) cx →
    cx.readS r.toNat = .ok (x, c1) →
    (c1.writeS r.toNat (x + i.signExtend 32) = .ok c2 → exec (.saddi r i) s = .next c2.finish) ∧
    (c1.writeS r.toNat (BitVec.ofNat 32 (i.toNat * 65536 + x.toNat % 65536)) = .ok c2 →
      exec (.slih r i) s = .next c2.finish)) ∧
  (∀ s cx (r : BitVec 6) (i : BitVec 16) c2, Issues s (Desc.split [.dstS (scalarCode r)]) cx →
    cx.writeS r.toNat (BitVec.ofNat 32 i.toNat) = .ok c2 → exec (.slil r i) s = .next c2.finish) ∧
  (∀ s cx d a b c2, Issues s (Desc.split [(Opnd.srcS a).pair, (Opnd.srcS b).pair, (Opnd.dstS d).pair]) cx →
    cx.writeS64 (regNo d) (cx.scalar64 (regNo a) + cx.scalar64 (regNo b)) = .ok c2 →
    exec (.saddx d a b) s = .next c2.finish) ∧
  (∀ s cx d a b x c1 y c2 z c3 c4, Issues s (Desc.split [.srcS a, .srcS b, (Opnd.dstS d).both.pending]) cx →
    cx.readS (regNo a) = .ok (x, c1) → c1.readS (regNo b) = .ok (y, c2) → c2.readS (regNo d) = .ok (z, c3) →
    c3.writeS (regNo d) (if z = 0 then y else x) = .ok c4 → exec (.ssel d a b) s = .next c4.finish) ∧
  ∀ s cx d a b o x c1 y c2 c3, Issues s (Desc.split [.srcS a, .srcS b, .dstS d]) cx →
    cx.readS (regNo a) = .ok (x, c1) → c1.readS (regNo b) = .ok (y, c2) →
    (∀ r, fieldOf (o == 1) x y = some r → c2.writeS (regNo d) r = .ok c3 → exec (.sbfx d a b o) s = .next c3.finish) ∧
    (fieldOf (o == 1) x y = none → exec (.sbfx d a b o) s = faultsOn cx c2 (Exn.plain .illegalOperand))

/-- The field word of SBFX and VBFX (R358): position [4:0], width [12:8] with 0 for 32; every other bit 0, and the field
within the word: a word with a bit of [7:5] or [31:13] set, or whose position and width add to more than 32, is malformed, and
no other is. The field is zero-extended, or sign-extended under .s. And what an integer element's exact result becomes
(R382): modulo 2^w, or the nearest value of the type under saturation, which raises SATD where it changes the value. -/
def Obligations.IntegerValues : Prop :=
  (∀ (w : Nat) (sg sat : Bool) (x : Int), 0 < w →
    let lo : Int := if sg then -(2 ^ (w - 1)) else 0
    let hi : Int := if sg then 2 ^ (w - 1) - 1 else 2 ^ w - 1
    ((sat = false ∨ (lo ≤ x ∧ x ≤ hi)) → clampInt w sg sat x = ((x % 2 ^ w).toNat, 0)) ∧
    (sat = true → hi < x → clampInt w sg sat x = ((hi % 2 ^ w).toNat, fSATD)) ∧
    (sat = true → x < lo → clampInt w sg sat x = ((lo % 2 ^ w).toNat, fSATD))) ∧
  (∀ (sx : Bool) (x b : Word), let w := if b.toNat / 2 ^ 8 % 32 = 0 then 32 else b.toNat / 2 ^ 8 % 32
    fieldOf sx x b = none ↔ b.toNat / 2 ^ 5 % 8 ≠ 0 ∨ b.toNat / 2 ^ 13 ≠ 0 ∨ 32 < b.toNat % 32 + w) ∧
  ∀ (x : Word) (p w : Nat), p < 32 → 1 ≤ w → p + w ≤ 32 →
    let b : Word := BitVec.ofNat 32 (p + (if w = 32 then 0 else w) * 256)
    fieldOf false x b = some (BitVec.ofNat 32 (x.toNat / 2 ^ p % 2 ^ w)) ∧
    ∃ r, fieldOf true x b = some r ∧ r.toInt % 2 ^ w = (x.toNat / 2 ^ p : Nat) % 2 ^ w ∧
      -(2 ^ (w - 1) : Int) ≤ r.toInt ∧ r.toInt < 2 ^ (w - 1)

/-- The frame of a scalar instruction whose destination is an ordinary register: the context that its result leaves
differs from the one before in that scalar register and in nothing else, whatever sources it read but ports. -/
def Obligations.ScalarFrame : Prop :=
  ∀ (cx : Cx) (a b d : Nat) (v : Word), cx.st.port a = none → cx.st.port b = none → cx.st.port d = none → d < 60 →
    ∃ x y c1 c2 c3, cx.readS a = .ok (x, c1) ∧ c1.readS b = .ok (y, c2) ∧ c2.writeS d v = .ok c3 ∧ c3.s = cx.s ∧
      c3.sp = cx.sp ∧ c3.st.sreg d = v ∧ (∀ m, m ≠ d → c3.st.sreg m = cx.st.sreg m) ∧
      (∀ e l, c3.st.vreg e l = cx.st.vreg e l) ∧ (∀ k, c3.st.pred k = cx.st.pred k) ∧
      c3.st.vis.kregs = cx.st.vis.kregs ∧ c3.st.flags = cx.st.flags ∧ c3.st.buffer = cx.st.buffer ∧
      c3.st.stack = cx.st.stack ∧ c3.st.vis.tba = cx.st.vis.tba ∧ c3.st.vis.fault = cx.st.vis.fault

/-! ## Vector instructions (R105, R106, R380-R393) -/

/-- Writing a result over the lanes that take part: each such lane's register holds the lane's result, lanes that do not
take part and other registers stay, and the flags of every such lane are raised. A predicate is written in the same lanes
(R108); p7 keeps its ones. -/
def Obligations.LaneResults : Prop :=
  (∀ (cx : Cx) (p : Nat) (f : Nat → Bool) (l : Nat), l < 96 →
    inMask ((cx.writePred p f).st.pred p) l =
      (if p = 7 then true else if inMask cx.part l then f l else inMask (cx.st.pred p) l) ∧
    ∀ q, q ≠ p → (cx.writePred p f).st.pred q = cx.st.pred q) ∧
  ∀ (cx : Cx) (d : Nat) (f : Nat → List Word × BitVec 6) (g : Nat → Word), (∀ l, (f l).1 = [g l]) →
    (∀ l, l < 96 → (cx.writeLanes d f).vec d l = if inMask cx.part l then g l else cx.vec d l) ∧
    (∀ e l, l < 96 → e ≠ cx.sp.winbase + d → (cx.writeLanes d f).st.vreg e l = cx.st.vreg e l) ∧
    (∀ k, (cx.writeLanes d f).sp.fpstat.getLsbD k =
      (cx.sp.fpstat.getLsbD k || (lanesOf cx.part).any fun l => (f l).2.getLsbD k)) ∧
    (cx.writeLanes d f).s = cx.s ∧ ∀ n, (cx.writeLanes d f).st.sreg n = cx.st.sreg n

/-- The value of a finite exact number; 0 for a NaN or an infinity. -/
def numQ : Machine.Num → ℚ
  | .fin neg m e => (if neg then -1 else 1) * m * (2 : ℚ) ^ e
  | .inf _ => 0
  | .nan _ => 0

/-- A float type of the ETYPE table (R96). -/
def FloatTy (t : Ty) : Prop := t.isFloat = true ∧ ∃ c, Ty.ofCode c = some t

/-- The value of a float code (R120, R122, R123): from its sign, exponent and trailing significand up to the largest finite
code, then the infinity where the type has one, then NaNs; with FTZ a subnormal reads as a zero of its sign (R128). -/
def CodesHaveValues : Prop :=
  ∀ (t : Ty) (x : Nat), FloatTy t → x < 2 ^ t.width →
    let neg := t.hasSign && decide (2 ^ (t.width - 1) ≤ x)
    let mag := if t.hasSign then x % 2 ^ (t.width - 1) else x
    let e := mag / 2 ^ (t.prec - 1)
    let f := mag % 2 ^ (t.prec - 1)
    (mag ≤ t.maxCode → x ≠ t.nanCode →
      (valueOf t x).isNan = false ∧ (valueOf t x).isInf = false ∧
      numQ (valueOf t x) = (if neg then -1 else 1) *
        (if e = 0 then f * (2 : ℚ) ^ (2 - (t.bias : Int) - t.prec)
          else (2 ^ (t.prec - 1) + f) * (2 : ℚ) ^ (e + 1 - (t.bias : Int) - t.prec)) ∧
      inputOf t false x = valueOf t x ∧
      inputOf t true x = if e = 0 then .fin neg 0 0 else valueOf t x) ∧
    (mag = t.maxCode + 1 → t.hasInf = true → valueOf t x = .inf neg) ∧
    (t.maxCode + 1 < mag ∨ x = t.nanCode → (valueOf t x).isNan = true)

/-- The integer to which a mode rounds the magnitude n / d (R126, R130): to the nearest, an even one on a tie, or away from 0 on
a tie; towards 0, up or down; or, under SR, up where the first discarded bits, 32 at most and no more than there are, exceed as
many bits of H. -/
def RoundsMagnitude : Prop :=
  (∀ (n d : Nat) (k : Int), 0 < d → 0 < (scaled n d k).2 ∧ ((scaled n d k).1 : ℚ) / (scaled n d k).2 = n / d * (2 : ℚ) ^ k) ∧
  ∀ (r : Rounding) (neg : Bool) (n d : Nat), 0 < d →
    let x := roundMag r neg (n, d)
    let q := n / d
    let rem := n % d
    (rem = 0 → x = (q, false)) ∧
    (rem ≠ 0 → x.2 = true ∧ (x.1 = q ∨ x.1 = q + 1) ∧
      (r.rnd = 0 → (2 * rem < d → x.1 = q) ∧ (d < 2 * rem → x.1 = q + 1) ∧ (2 * rem = d → x.1 % 2 = 0)) ∧
      (r.rnd = 1 → x.1 = q) ∧ (r.rnd = 2 → x.1 = if neg then q else q + 1) ∧ (r.rnd = 3 → x.1 = if neg then q + 1 else q) ∧
      (r.rnd = 4 → x.1 = if 2 * rem < d then q else q + 1) ∧
      (r.rnd = 5 → ∀ b, b ≤ 32 → (b = 32 ∨ n * 2 ^ b % d = 0) → (∀ j, j < b → n * 2 ^ j % d ≠ 0) →
        x.1 = if r.h % 2 ^ b < rem * 2 ^ b / d then q + 1 else q))

/-- RoundTo of a finite value of magnitude v = m / d * 2^e, with 2^k ≤ v < 2^(k+1) (R126-R130): rounded in the precision with no limit on
the exponent it overflows above the largest finite value, to infinity or to the largest value as the mode and the saturation
say; it is tiny below the smallest normal value, and with FTZ then a zero of its sign; otherwise the code has the value
rounded at the last place of its exponent, or of the subnormals, and says whether that was inexact. -/
def RoundsFinite : Prop :=
  (∀ (t : Ty) (r : Rounding) (neg : Bool) (m : Nat) (e : Int), roundTo t r (.fin neg m e) = roundRat t r neg m 1 e) ∧
  ∀ (t : Ty) (r : Rounding) (neg : Bool) (m d : Nat) (e k : Int), FloatTy t → 0 < d → (neg = true → t.hasSign = true) →
    (2 : ℚ) ^ k ≤ m / d * (2 : ℚ) ^ e → m / d * (2 : ℚ) ^ e < (2 : ℚ) ^ (k + 1) →
    let near := fun (q : Int) => roundMag r neg (scaled m d (e - q))
    let emin : Int := 1 - t.bias
    let wide : ℚ := (near (k - (t.prec - 1))).1 * (2 : ℚ) ^ (k - ((t.prec : Int) - 1))
    let big := numQ (valueOf t t.maxCode)
    let q : Int := max k emin - (t.prec - 1)
    let toInf := r.rnd ≠ 1 ∧ (r.rnd = 2 → neg = false) ∧ (r.rnd = 3 → neg = true)
    let tiny := wide < (2 : ℚ) ^ emin
    let c := roundRat t r neg m d e
    (big < wide → (¬toInf → c = (t.maxCode + t.signBits neg, fOF ||| fNX)) ∧
      (toInf → r.sat = true → c = (t.maxCode + t.signBits neg, fOF ||| fNX ||| fSATD)) ∧
      (toInf → r.sat = false → c = (t.infCode neg, fOF ||| fNX))) ∧
    (wide ≤ big → tiny → r.ftz = true → c = (t.zeroCode neg, fUF ||| fNX)) ∧
    (wide ≤ big → ¬(tiny ∧ r.ftz = true) →
      numQ (valueOf t c.1) = (if neg then -1 else 1) * (near q).1 * (2 : ℚ) ^ q ∧ ((near q).1 = 0 → c.1 = t.zeroCode neg) ∧
      ((near q).2 = false → c.2 = 0) ∧ ((near q).2 = true → tiny → c.2 = fUF ||| fNX) ∧
      ((near q).2 = true → ¬tiny → c.2 = fNX))

/-- RoundTo of a zero, of an infinity and of a NaN, and of a negative value to an unsigned type (R121, R127, R131). -/
def RoundsSpecials : Prop :=
  ∀ (t : Ty) (r : Rounding), FloatTy t →
    (∀ neg e, roundTo t r (.fin neg 0 e) = (t.zeroCode neg, 0)) ∧ (∀ sg, roundTo t r (.nan sg) = (t.nanCode, 0)) ∧
    (∀ neg, (neg = true → t.hasSign = true) →
      (r.sat = true → roundTo t r (.inf neg) = (t.maxCode + t.signBits neg, fSATD)) ∧
      (r.sat = false → t.hasInf = true → roundTo t r (.inf neg) = (t.infCode neg, 0)) ∧
      (r.sat = false → t.hasInf = false → roundTo t r (.inf neg) = (t.nanCode, fIV))) ∧
    (t.hasSign = false → ∀ v : Machine.Num, v.neg = true → v.isZero = false →
      roundTo t r v = if r.sat then (0, fSATD) else (t.nanCode, fIV))

/-- The exact sums and products, and what an operation makes of them (R121, R390): NaN for a NaN input, invalid for a
signalling one; NaN and invalid for infinities of both signs in a sum and for 0 times infinity; the sign of an exact zero. -/
def FloatOperations : Prop :=
  (∀ (t : Ty) (r : Rounding) (ins : List Machine.Num) (v : Machine.Num) (bad : Bool),
    ((∃ u ∈ ins, u.isNan = true) → finishFloat t r ins (v, bad) = (t.nanCode, if ∃ u ∈ ins, u.isSig = true then fIV else 0)) ∧
    ((∀ u ∈ ins, u.isNan = false) →
      finishFloat t r ins (v, bad) = if bad then (t.nanCode, fIV) else roundTo t r v)) ∧
  (∀ (rdn n1 n2 : Bool) (m1 m2 : Nat) (e1 e2 : Int),
    let u := Machine.Num.fin n1 m1 e1
    let v := Machine.Num.fin n2 m2 e2
    (∃ n m e, u.add rdn v = (.fin n m e, false) ∧ numQ (.fin n m e) = numQ u + numQ v ∧
      (m = 0 → n = if m1 = 0 ∧ m2 = 0 ∧ n1 = n2 then n1 else rdn)) ∧
    (∃ m e, u.mul v = (.fin (n1 != n2) m e, false) ∧ numQ (.fin (n1 != n2) m e) = numQ u * numQ v) ∧
    Machine.Num.add rdn (.inf n1) v = (.inf n1, false) ∧ Machine.Num.add rdn u (.inf n2) = (.inf n2, false) ∧
    (n1 = n2 → Machine.Num.add rdn (.inf n1) (.inf n2) = (.inf n1, false)) ∧
    (n1 ≠ n2 → (Machine.Num.add rdn (.inf n1) (.inf n2)).2 = true) ∧ Machine.Num.mul (.inf n1) (.inf n2) = (.inf (n1 != n2), false) ∧
    (m2 = 0 → (Machine.Num.mul (.inf n1) v).2 = true ∧ (v.mul (.inf n1)).2 = true) ∧
    (m2 ≠ 0 → Machine.Num.mul (.inf n1) v = (.inf (n1 != n2), false) ∧ v.mul (.inf n1) = (.inf (n2 != n1), false))) ∧
  ∀ (t : Ty) (r : Rounding) (a b d : Nat),
    let x := inputOf t r.ftz a
    let y := inputOf t r.ftz b
    let z := inputOf t r.ftz d
    let rdn := decide (r.rnd = 3)
    floatAdd t r a b = finishFloat t r [x, y] (x.add rdn y) ∧ floatSub t r a b = finishFloat t r [x, y] (x.add rdn y.negate) ∧
    floatMul t r a b = finishFloat t r [x, y] (x.mul y) ∧
    floatFma t r a b d = finishFloat t r [x, y, z] (((x.mul y).1.add rdn z).1, (x.mul y).2 || ((x.mul y).1.add rdn z).2)

/-- Whether a ≤ b, for numbers that are not NaN. -/
def NumLe (a b : Machine.Num) : Prop :=
  a = .inf true ∨ b = .inf false ∨ a.isInf = false ∧ b.isInf = false ∧ numQ a ≤ numQ b

/-- VFMAX, VFMIN and VFRND of an element (R391): one of the operands, no less (no more) than either, with -0 below +0, a NaN
losing to a number; the value rounded to an integer in the mode, the code itself where it is integral already. -/
def FloatPicks : Prop :=
  (∀ (g : Bool) (t : Ty) (r : Rounding) (a b : Nat), FloatTy t → a < 2 ^ t.width → b < 2 ^ t.width →
    let x := valueOf t a
    let y := valueOf t b
    let c := floatPick g t r a b
    c.2 = (if x.isSig || y.isSig then fIV else 0) ∧
    (x.isNan = true → y.isNan = true → c.1 = t.nanCode) ∧
    (r.ftz = false →
      (x.isNan = true → y.isNan = false → c.1 = b) ∧ (x.isNan = false → y.isNan = true → c.1 = a) ∧
      (x.isNan = false → y.isNan = false → (c.1 = a ∨ c.1 = b) ∧
        (g = true → NumLe x (valueOf t c.1) ∧ NumLe y (valueOf t c.1)) ∧
        (g = false → NumLe (valueOf t c.1) x ∧ NumLe (valueOf t c.1) y) ∧
        (x.isZero = true → y.isZero = true → (valueOf t c.1).neg = if g then x.neg && y.neg else x.neg || y.neg))) ∧
    (r.ftz = true → let k := (floatPick g t { r with ftz := false } a b).1
      c.1 = if (unpack t k).1 = .subnormal then t.zeroCode (unpack t k).2.1 else k)) ∧
  ∀ (t : Ty) (r : Rounding) (a : Nat),
    (∀ sg, inputOf t r.ftz a = .nan sg → floatRint t r a = (t.nanCode, if sg then fIV else 0)) ∧
    (∀ n, inputOf t r.ftz a = .inf n → floatRint t r a = (a, 0)) ∧
    (∀ n e, inputOf t r.ftz a = .fin n 0 e → floatRint t r a = (t.zeroCode n, 0)) ∧
    ∀ n m e, m ≠ 0 → inputOf t r.ftz a = .fin n m e →
      let k := roundMag r n (scaled m 1 e)
      (k.2 = false → floatRint t r a = (a, 0)) ∧
      (k.2 = true → floatRint t r a = ((roundTo t r (.fin n k.1 0)).1, (roundTo t r (.fin n k.1 0)).2 ||| fNX))

/-- The per-element instructions of two sources, whether they read D, the types they take, and what they make of an
element of A, of B and of D (R382, R390, R391). -/
def elementResults : List ((BitVec 7 → BitVec 7 → BitVec 7 → Instr) × Bool × (Ty → Bool) ×
    (Ty → Rounding → Nat → Nat → Nat → Flagged)) :=
  [(.vadd, false, Ty.isInt, fun t r x y _ => clampInt t.width t.signed r.sat (t.toInt x + t.toInt y)),
   (.vsub, false, Ty.isInt, fun t r x y _ => clampInt t.width t.signed r.sat (t.toInt x - t.toInt y)),
   (.vmul, false, Ty.isInt, fun t r x y _ => clampInt t.width t.signed r.sat (t.toInt x * t.toInt y)),
   (.vmad, true, Ty.isInt, fun t r x y z => clampInt t.width t.signed r.sat (t.toInt x * t.toInt y + t.toInt z)),
   (.vmax, false, Ty.isInt, fun t r x y _ => clampInt t.width t.signed r.sat (max (t.toInt x) (t.toInt y))),
   (.vmin, false, Ty.isInt, fun t r x y _ => clampInt t.width t.signed r.sat (min (t.toInt x) (t.toInt y))),
   (.vmulh, false, Ty.isInt, fun t _ x y _ => ((t.toInt x * t.toInt y / 2 ^ t.width % 2 ^ t.width).toNat, 0)),
   (.vshl, false, Ty.isInt, fun t _ x y _ => (x * 2 ^ (y % t.width) % 2 ^ t.width, 0)),
   (.vshr, false, Ty.isInt, fun t _ x y _ => (x / 2 ^ (y % t.width) % 2 ^ t.width, 0)),
   (.vsra, false, Ty.isInt, fun t _ x y _ =>
      ((intOf t.width true x / 2 ^ (y % t.width) % 2 ^ t.width).toNat % 2 ^ t.width, 0)),
   (.vfadd, false, Ty.isFloat, fun t r x y _ => floatAdd t r x y), (.vfsub, false, Ty.isFloat, fun t r x y _ => floatSub t r x y),
   (.vfmul, false, Ty.isFloat, fun t r x y _ => floatMul t r x y), (.vfma, true, Ty.isFloat, fun t r x y z => floatFma t r x y z),
   (.vfmax, false, Ty.isFloat, fun t r x y _ => floatPick true t r x y),
   (.vfmin, false, Ty.isFloat, fun t r x y _ => floatPick false t r x y)]

/-- The per-element instructions of one source (R382, R391), in the same way. -/
def elementResults1 : List ((BitVec 7 → BitVec 7 → Instr) × (Ty → Bool) × (Ty → Rounding → Nat → Flagged)) :=
  [(.vabs, Ty.isInt, fun t r x => clampInt t.width t.signed r.sat (t.toInt x).natAbs),
   (.vclz, Ty.isInt, fun t _ x => (leadZeros t.width x, 0)), (.vpopc, Ty.isInt, fun t _ x => (setBits t.width x, 0)),
   (.vfabs, Ty.isFloat, fun t _ x => (absCode t x, 0)), (.vfrnd, Ty.isFloat, floatRint)] ++
  (List.range 256).map fun i => (fun d a => .vaddi d a (BitVec.ofNat 8 i), Ty.isInt,
    fun t r x => clampInt t.width t.signed r.sat (t.toInt x + (BitVec.ofNat 8 i).toInt))

/-- Every instruction of `elementResults` and `elementResults1`, under an ETYPE it takes, writes in each lane that takes part
the elements' results; under another ETYPE it raises ILLEGAL_OPERAND and writes nothing. The float results: the values of the
codes, the exact sum or product, its one rounding in the mode with its flags (R120-R131, R390), the larger, the smaller and
the integral value (R391). Three corners rest on the model's reading: saturation where the mode itself delivers the largest value
raises no SATD, and a tie of a binary8 type with P = 1 goes to the next power of two (DESIGN CHOICE, log 61); VFRND past the format
overflows as any rounding does (DEDUCED, log 45). -/
def Obligations.VectorElements : Prop :=
  (∀ e ∈ elementResults, ∀ s cx d a b x c1 y c2,
    let t := cx.ty
    let w := t.width == 64
    let dd := (Opnd.dstV d).under t
    Issues s (Desc.lane [(Opnd.src a).under t, (Opnd.src b).under t, if e.2.1 then dd.both else dd]) cx →
    (e.2.2.1 t = true → cx.source a = .ok (x, c1) → c1.source b = .ok (y, c2) →
      exec (e.1 d a b) s = .next (Cx.finish (c2.writeLanes d.toNat fun l =>
        let r := packElems t.width t.count fun i => e.2.2.2 t (c2.rounding l i) (subElem t.width i (c2.laneNat w a x l))
          (subElem t.width i (c2.laneNat w b y l)) (subElem t.width i (c2.laneNat w d 0 l))
        (wordsOf w r.1, r.2)))) ∧
    (e.2.2.1 t = false → exec (e.1 d a b) s = .next (cx.takeFault (Exn.plain .illegalOperand)))) ∧
  (∀ e ∈ elementResults1, ∀ s cx d a x c1,
    let t := cx.ty
    let w := t.width == 64
    Issues s (Desc.lane [(Opnd.src a).under t, (Opnd.dstV d).under t]) cx →
    (e.2.1 t = true → cx.source a = .ok (x, c1) →
      exec (e.1 d a) s = .next (Cx.finish (c1.writeLanes d.toNat fun l =>
        let r := packElems t.width t.count fun i => e.2.2 t (c1.rounding l i) (subElem t.width i (c1.laneNat w a x l))
        (wordsOf w r.1, r.2)))) ∧
    (e.2.1 t = false → exec (e.1 d a) s = .next (cx.takeFault (Exn.plain .illegalOperand)))) ∧
  CodesHaveValues ∧ RoundsMagnitude ∧ RoundsFinite ∧ RoundsSpecials ∧ FloatOperations ∧ FloatPicks

/-- The instructions that act on whole registers whatever ETYPE is (R97, R133-R135, R382). -/
def registerResults : List ((BitVec 7 → BitVec 7 → BitVec 7 → Instr) × Bool × (Word → Word → Word → Flagged)) :=
  [(.vand, false, fun x y _ => ((x &&& y).toNat, 0)), (.vor, false, fun x y _ => ((x ||| y).toNat, 0)),
   (.vxor, false, fun x y _ => ((x ^^^ y).toNat, 0)), (.vsel, true, fun x y z => ((if z = 0 then y else x).toNat, 0)),
   (.lmul, false, fun x y _ => lmul x.toNat y.toNat), (.ldiv, false, fun x y _ => ldiv x.toNat y.toNat),
   (.lpow, false, fun x y _ => lpow x.toNat y.toNat)]

/-- What an lns32 word holds (R125): a sign in bit 31 and a signed log of 30 bits in units of 2^-22, or with bit 30 set a zero, an
infinity or a NaN. -/
def LogWords : Prop :=
  ∀ (neg : Bool),
    (∀ l : Int, -2 ^ 29 ≤ l → l < 2 ^ 29 → Lns.ofWord (lnsFin neg l) = .fin neg l ∧ lnsFin neg l < 2 ^ 32) ∧
    Lns.ofWord (lnsZero neg) = .zero neg ∧ Lns.ofWord (lnsInf neg) = .inf neg ∧
    lnsZero neg = (if neg then 0xC0000000 else 0x40000000) ∧ lnsInf neg = (if neg then 0xFFFFFFFF else 0x7FFFFFFF) ∧
    ∀ x, x < 2 ^ 32 → (Lns.ofWord x = .nan ↔ x / 2 ^ 30 % 2 = 1 ∧ x % 2 ^ 30 ≠ 0 ∧ x % 2 ^ 30 ≠ 0x3FFFFFFF)

/-- The code and flags of the sign and an exact log within the range of lns32, or past it (R134). -/
def logResult (neg : Bool) (l : Int) : Flagged :=
  if 2 ^ 29 ≤ l then (lnsInf neg, fOF ||| fNX) else if l < -2 ^ 29 then (lnsZero neg, fUF ||| fNX) else (lnsFin neg l, 0)

/-- LMUL and LDIV (R134): of finite words the sign and the sum or difference of the logs; the table of specials, in which no row
names the product of two infinities (DESIGN CHOICE, log 69). -/
def LogProducts : Prop :=
  ∀ (a b : Nat), let nan := (0x40000001, 0)
    (Lns.ofWord a = .nan ∨ Lns.ofWord b = .nan → lmul a b = nan ∧ ldiv a b = nan) ∧
    ∀ (s t : Bool) (l k : Int), let n := s != t
      (Lns.ofWord a = .fin s l → Lns.ofWord b = .fin t k →
        lmul a b = logResult n (l + k) ∧ ldiv a b = logResult n (l - k)) ∧
      (Lns.ofWord a = .zero s → Lns.ofWord b = .zero t → lmul a b = (lnsZero n, 0) ∧ ldiv a b = (0x40000001, fIV)) ∧
      (Lns.ofWord a = .zero s → Lns.ofWord b = .inf t → lmul a b = (0x40000001, fIV) ∧ ldiv a b = (lnsZero n, 0)) ∧
      (Lns.ofWord a = .inf s → Lns.ofWord b = .zero t → lmul a b = (0x40000001, fIV) ∧ ldiv a b = (lnsInf n, 0)) ∧
      (Lns.ofWord a = .inf s → Lns.ofWord b = .inf t → lmul a b = (lnsInf n, 0) ∧ ldiv a b = (0x40000001, fIV)) ∧
      (Lns.ofWord a = .zero s → Lns.ofWord b = .fin t k → lmul a b = (lnsZero n, 0) ∧ ldiv a b = (lnsZero n, 0)) ∧
      (Lns.ofWord a = .fin s l → Lns.ofWord b = .zero t → lmul a b = (lnsZero n, 0) ∧ ldiv a b = (lnsInf n, fDZ)) ∧
      (Lns.ofWord a = .inf s → Lns.ofWord b = .fin t k → lmul a b = (lnsInf n, 0) ∧ ldiv a b = (lnsInf n, 0)) ∧
      (Lns.ofWord a = .fin s l → Lns.ofWord b = .inf t → lmul a b = (lnsInf n, 0) ∧ ldiv a b = (lnsZero n, 0))

/-- LPOW (R135): of a finite word the exact product of the log and the exponent e = b / 2^23, rounded to nearest, ties to even, on
the grid; the sign where e is an odd integer; the table of specials. -/
def LogPowers : Prop :=
  ∀ (a : Nat) (b : Word), let e := b.toInt
    let odd := decide (e % 2 ^ 23 = 0 ∧ e / 2 ^ 23 % 2 = 1)
    (Lns.ofWord a = .nan → lpow a b.toNat = (0x40000001, 0)) ∧
    ∀ s, (Lns.ofWord a = .zero s → lpow a b.toNat =
        if 0 < e then (lnsZero (s && odd), 0) else if e = 0 then (0, 0) else (lnsInf (s && odd), fDZ)) ∧
      (Lns.ofWord a = .inf s → lpow a b.toNat =
        if 0 < e then (lnsInf (s && odd), 0) else if e = 0 then (0, 0) else (lnsZero (s && odd), 0)) ∧
      ∀ l, Lns.ofWord a = .fin s l →
        (s = true → e % 2 ^ 23 ≠ 0 → lpow a b.toNat = (0x40000001, fIV)) ∧
        (s = false ∨ e % 2 ^ 23 = 0 → ∃ g : Int, |l * e - g * 2 ^ 23| ≤ 2 ^ 22 ∧ (|l * e - g * 2 ^ 23| = 2 ^ 22 → g % 2 = 0) ∧
          lpow a b.toNat = ((logResult (s && odd) g).1,
            (logResult (s && odd) g).2 ||| if l * e = g * 2 ^ 23 then 0 else fNX))

/-- LCV and LEX (R133): the specials; the powers of two, which are exact; the spec's worked examples (R135). A log or a power
that is not exact is taken to 192 bits before it is rounded (DEDUCED, log 23), of which only the examples speak. -/
def LogConversions : Prop :=
  (∀ x, (∀ sg, valueOf .f32 x = .nan sg → lcv x = (0x40000001, if sg then fIV else 0)) ∧
    ∀ neg, (valueOf .f32 x = .inf neg → lcv x = (lnsInf neg, 0)) ∧
      (∀ e, valueOf .f32 x = .fin neg 0 e → lcv x = (lnsZero neg, 0)) ∧
      ∀ (j : Nat) (e : Int), valueOf .f32 x = .fin neg (2 ^ j) e →
        lcv x = if e + j < -128 then (lnsZero neg, fUF ||| fNX) else (lnsFin neg ((e + j) * 2 ^ 22), 0)) ∧
  (∀ (r : Rounding) (x : Nat), (Lns.ofWord x = .nan → lex r x = (0x7FC00000, 0)) ∧
    ∀ neg, (Lns.ofWord x = .zero neg → lex r x = (if neg then 0x80000000 else 0, 0)) ∧
      (Lns.ofWord x = .inf neg → lex r x = if r.sat then ((if neg then 0xFF7FFFFF else 0x7F7FFFFF), fSATD)
        else ((if neg then 0xFF800000 else 0x7F800000), 0)) ∧
      ∀ k, Lns.ofWord x = .fin neg (k * 2 ^ 22) → lex r x = roundTo .f32 r (.fin neg 1 k)) ∧
  lcv 0x41200000 = (0x00D49A78, fNX) ∧ lmul 0x00D49A78 0x00D49A78 = (0x01A934F0, 0) ∧
  lpow 0x00D49A78 0x00400000 = (0x006A4D3C, 0) ∧ lmul 0x10000000 0x10000000 = (0x7FFFFFFF, fOF ||| fNX)

/-- Every instruction of `registerResults`, and VMOV, LCV and LEX of one source; and what the log-number path computes (R125,
R133-R135), where a log or power that is not exact rests on log 23 (DEDUCED) in the examples alone, and the product of two infinities
on log 69 (DESIGN CHOICE). -/
def Obligations.VectorRegistersWhole : Prop :=
  (∀ e ∈ registerResults, ∀ s cx d a b x c1 y c2,
    Issues s (Desc.lane [.src a, .src b, if e.2.1 then (Opnd.dstV d).both else .dstV d]) cx →
    cx.source a = .ok (x, c1) → c1.source b = .ok (y, c2) → exec (e.1 d a b) s = .next (Cx.finish (c2.writeLanes d.toNat
      fun l => let r := e.2.2 (c2.laneOf a x l) (c2.laneOf b y l) (c2.vec d.toNat l)
        ([BitVec.ofNat 32 r.1], r.2)))) ∧
  (∀ s cx d a x c1, Issues s (Desc.lane [.src a, .dstV d]) cx → cx.source a = .ok (x, c1) →
    exec (.vmov d a) s = .next (Cx.finish (c1.writeLanes d.toNat fun l => ([c1.laneOf a x l], 0))) ∧
    exec (.lcv d a) s = .next (Cx.finish (c1.writeLanes d.toNat fun l =>
      let r := lcv (c1.laneOf a x l).toNat
      ([BitVec.ofNat 32 r.1], r.2))) ∧
    exec (.lex d a) s = .next (Cx.finish (c1.writeLanes d.toNat fun l =>
      let r := lex (c1.rounding l 0) (c1.laneOf a x l).toNat
      ([BitVec.ofNat 32 r.1], r.2)))) ∧
  LogWords ∧ LogProducts ∧ LogPowers ∧ LogConversions

/-- The conditions of R108: on integers, in the order of their type; on floats, of two elements that are ordered, and of a pair in
which a NaN stands, where NE and UN alone are true; and what each raises (R393). -/
def ConditionTable : Prop :=
  (∀ x y : Int, (intCond 0 x y = true ↔ x = y) ∧ (intCond 1 x y = true ↔ x ≠ y) ∧ (intCond 2 x y = true ↔ x < y) ∧
    (intCond 3 x y = true ↔ x ≤ y) ∧ (intCond 4 x y = true ↔ y < x) ∧ (intCond 5 x y = true ↔ y ≤ x)) ∧
  ∀ (t : Ty) (ftz : Bool) (x y : Nat),
    let u := inputOf t ftz x
    let v := inputOf t ftz y
    let r := fun (c : Nat) => (floatCond c t ftz x y).1
    let un := u.isNan = true ∨ v.isNan = true
    (un → (∀ c ∈ [0, 2, 3, 4, 5, 7], r c = false) ∧ r 1 = true ∧ r 6 = true) ∧
    (¬un → (r 0 = true ↔ NumLe u v ∧ NumLe v u) ∧ (r 1 = true ↔ ¬(NumLe u v ∧ NumLe v u)) ∧ (r 2 = true ↔ ¬NumLe v u) ∧
      (r 3 = true ↔ NumLe u v) ∧ (r 4 = true ↔ ¬NumLe u v) ∧ (r 5 = true ↔ NumLe v u) ∧ r 6 = false ∧ r 7 = true) ∧
    ∀ c, c < 8 → (floatCond c t ftz x y).2 =
      if (2 ≤ c ∧ c ≤ 5 ∧ un) ∨ u.isSig = true ∨ v.isSig = true then fIV else 0

/-- The compares (R108, R383, R393): in each lane that takes part the predicate's bit is the AND of the elements'
conditions, other lanes keep theirs, and the flags are those of the elements compared; p7 as destination, and an ETYPE
that the compare does not take, raise ILLEGAL_OPERAND. What each condition code says of two elements: equal, unequal, less, less or
equal, greater, greater or equal, in the order of the integers that the ETYPE reads, or of the float values, where -0 equals +0 and
FTZ reads a subnormal as 0; unordered and ordered; a pair with a NaN meets NE and UN alone; the four orders raise invalid for any
NaN, the others for a signalling one. -/
def Obligations.Compares : Prop :=
  ConditionTable ∧
  ∀ s cx p (c : BitVec 4) a b x c1 y c2,
    let t := cx.ty
    let w := t.width == 64
    let d := fun (legal : Bool) => { Desc.lane [(Opnd.src a).under t, (Opnd.src b).under t] with legal := legal, ok := p != 7 }
    let after := fun (f : Nat → Nat → Bool × BitVec 6) =>
      let res := fun l => (List.range t.count).map fun i =>
        f (subElem t.width i (c2.laneNat w a x l)) (subElem t.width i (c2.laneNat w b y l))
      Cx.writePred ((lanesOf c2.part).foldl (fun k l => (res l).foldl (fun k r => k.raiseFlags r.2) k) c2) p.toNat
        fun l => (res l).all (·.1)
    cx.source a = .ok (x, c1) → c1.source b = .ok (y, c2) →
    (Issues s (d (decide (c.toNat < 6))) cx → t.isInt = true →
      exec (.vcmp p c a b) s = .next (Cx.finish (after fun u v => (intCond c.toNat (t.toInt u) (t.toInt v), 0)))) ∧
    (Issues s (d (decide (c.toNat < 8))) cx → t.isFloat = true →
      exec (.vfcmp p c a b) s = .next (Cx.finish (after (floatCond c.toNat t c2.sp.mode.ftz)))) ∧
    (Issues s (d (decide (c.toNat < 6))) cx → t.isInt = false →
      exec (.vcmp p c a b) s = .next (cx.takeFault (Exn.plain .illegalOperand))) ∧
    (Issues s (d (decide (c.toNat < 8))) cx → t.isFloat = false →
      exec (.vfcmp p c a b) s = .next (cx.takeFault (Exn.plain .illegalOperand))) ∧
    (Cx.load s = some cx → p = 7 →
      (cx.illegal (d (decide (c.toNat < 6))) = false →
        exec (.vcmp p c a b) s = .next (({ cx with perLane := true } : Cx).takeFault (Exn.plain .illegalOperand))) ∧
      (cx.illegal (d (decide (c.toNat < 8))) = false →
        exec (.vfcmp p c a b) s = .next (({ cx with perLane := true } : Cx).takeFault (Exn.plain .illegalOperand))))

/-- The moves over lanes and predicates (R107, R108, R260, R346, R385, R395, R396): VLANE reads one lane of a register
whatever the lane's state; VMOV.FRM and VMOV.TO move between the handler's window and the interrupted frame; VPERM and
VSWZ take each lane's value from its source lane, which is PFILL where that lane was not launched; VVOTE counts or tests a predicate over the
lanes that take part; PLOG writes a predicate from the table of four bits; VBFX extracts each lane's field, from one 32-bit
register under a 64-bit integer ETYPE too (DEDUCED, log 56: the model's reading of R382). A malformed field word raises
ILLEGAL_OPERAND. A register that one of them reads in another lane, or in the interrupted frame, raises UNCORRECTABLE where it
holds an uncorrectable error (R266): what that does is stated for VLANE, and the test once for all of them. -/
def Obligations.LaneMoves : Prop :=
  (∀ (cx : Cx) (bad : Nat → Bool), let hit := fun l => inMask cx.part l && bad l
    ((∀ l, l < 96 → hit l = false) → cx.sound bad = .ok ()) ∧
    ∀ l, l < 96 → hit l = true → cx.sound bad = cx.stop { Exn.ecc 6 0 with mask := some (maskOf hit) }) ∧
  (∀ (cx : Cx) i l, cx.anyLane i l = if inMask cx.st.launched l = true then cx.vec i l else cx.st.vis.pfill) ∧
  (∀ s cx d a (i : BitVec 8),
    Issues s { Desc.split [.dstS d] with
      mcc := false, legal := decide (i.toNat < 96), ok := isVec a, regOk := s.inWindow a,
      free := s.issueHas fun cx => !cx.pendingV (cx.sp.winbase + a.toNat) (maskOf fun l => l == i.toNat) } cx →
    cx.badEntry (cx.sp.winbase + a.toNat) i.toNat = true → exec (.vlane d a i) s = faultsOn cx cx (Exn.ecc 6 0)) ∧
  (∀ s cx d a (i : BitVec 8) c1,
    Issues s { Desc.split [.dstS d] with
      mcc := false, legal := decide (i.toNat < 96), ok := isVec a, regOk := s.inWindow a,
      free := s.issueHas fun cx => !cx.pendingV (cx.sp.winbase + a.toNat) (maskOf fun l => l == i.toNat) } cx →
    cx.badEntry (cx.sp.winbase + a.toNat) i.toNat = false → cx.writeS (regNo d) (cx.anyLane a.toNat i.toNat) = .ok c1 → exec (.vlane d a i) s = .next c1.finish) ∧
  (∀ s cx d a, Issues s { Desc.lane [.dstV d] with
      legal := s.issueHas fun cx => cx.sp.inTrap, ok := isVec a, regOk := s.inWindow a,
      free := s.issueHas fun cx => !cx.pendingV (cx.frameBase + a.toNat) cx.part } cx →
    cx.sound (cx.badEntry (cx.frameBase + a.toNat)) = .ok () → exec (.vmovFrm d a) s =
      .next (cx.writeLanes d.toNat fun l => ([cx.st.vreg (cx.frameBase + a.toNat) l], 0)).finish) ∧
  (∀ s cx d a, Issues s { Desc.lane [.srcV a] with
      legal := s.issueHas fun cx => cx.sp.inTrap, ok := isVec d, regOk := s.inWindow d,
      free := s.issueHas fun cx => !cx.pendingV (cx.frameBase + d.toNat) cx.part } cx →
    ∃ c : Cx, exec (.vmovTo d a) s = .next c.finish ∧ c.s = cx.s ∧ c.sp = cx.sp ∧ ∀ e l, l < 96 →
      c.st.vreg e l = if e = cx.frameBase + d.toNat ∧ inMask cx.part l = true then cx.vec a.toNat l else cx.st.vreg e l) ∧
  (∀ s cx d a b x c1, Issues s (Desc.lane [.otherV a, .src b, .dstV d]) cx → cx.source b = .ok (x, c1) →
    c1.sound (fun l => c1.badEntry (c1.sp.winbase + a.toNat) (c1.laneOf b x l).toNat) = .ok () →
    c1.pendingV (c1.sp.winbase + a.toNat) (maskOf fun l => (lanesOf c1.part).any fun m =>
      (c1.laneOf b x m).toNat == l) = false →
    exec (.vperm d a b) s = .next (c1.writeLanes d.toNat fun l =>
      ([c1.anyLane a.toNat (c1.laneOf b x l).toNat], 0)).finish) ∧
  (∀ s cx d a (i : BitVec 8), Issues s { Desc.lane [.otherV a, .dstV d] with legal := decide (i.toNat < 96) } cx →
    let src := fun l => if i.toNat < 64 then l ^^^ i.toNat else 32 * (l / 32) + (l % 32 + i.toNat % 32) % 32
    cx.pendingV (cx.sp.winbase + a.toNat) (maskOf fun l => (lanesOf cx.part).any fun m => src m == l) = false →
    cx.sound (fun l => cx.badEntry (cx.sp.winbase + a.toNat) (src l)) = .ok () →
    exec (.vswz d a i) s = .next (cx.writeLanes d.toNat fun l =>
      ([cx.anyLane a.toNat (src l)], 0)).finish) ∧
  (∀ s cx d (v : BitVec 2) p c1, Issues s { Desc.split [.dstS d] with mcc := false, legal := v != 3, preds := [p.toNat] } cx →
    let hits := (List.range 96).filter fun l => inMask (cx.st.pred p.toNat) l && inMask cx.part l
    let all := (List.range 96).filter fun l => inMask cx.part l
    cx.writeS (regNo d) (BitVec.ofNat 32 (if v = 0 then (if hits = [] then 0 else 1)
      else if v = 1 then (if hits = all then 1 else 0) else hits.length)) = .ok c1 →
    exec (.vvote d v p) s = .next c1.finish) ∧
  (∀ s cx (d : BitVec 3) (f : BitVec 4) a b, Issues s { Desc.lane [] with ok := d != 7, preds := [a.toNat, b.toNat] } cx →
    exec (.plog d f a b) s = .next (cx.writePred d.toNat fun l =>
      f.getLsbD ((if inMask (cx.st.pred a.toNat) l then 2 else 0) + (if inMask (cx.st.pred b.toNat) l then 1 else 0))).finish) ∧
  ∀ s cx d a b (o : BitVec 1) x c1 y c2, Issues s (Desc.lane [.src a, .src b, .dstV d]) cx → cx.ty.isInt = true →
    cx.source a = .ok (x, c1) → c1.source b = .ok (y, c2) →
    let res := fun l => fieldOf (o == 1) (c2.laneOf a x l) (c2.laneOf b y l)
    ((∀ l, l < 96 → inMask c2.part l = true → (res l).isSome = true) →
      exec (.vbfx d a b o) s = .next (c2.writeLanes d.toNat fun l => ([(res l).getD 0], 0)).finish) ∧
    (∀ l, l < 96 → inMask c2.part l = true → res l = none →
      exec (.vbfx d a b o) s = faultsOn cx c2 (Exn.plain .illegalOperand))

/-- A float made an integer of w bits (R131): the value rounded in the mode, and clamped to the type's range, which raises invalid
alone; a NaN gives 0 and raises invalid. -/
def RoundsToIntegers : Prop :=
  ∀ (w : Nat) (sg : Bool) (r : Rounding), 0 < w →
    let lo : Int := if sg then -(2 ^ (w - 1)) else 0
    let hi : Int := if sg then 2 ^ (w - 1) - 1 else 2 ^ w - 1
    (∀ q, roundInt w sg r (.nan q) = (0, fIV)) ∧
    (∀ n, roundInt w sg r (.inf n) = (((if n then lo else hi) % 2 ^ w).toNat, fIV)) ∧
    ∀ n m e, let k := roundMag r n (scaled m 1 e)
      let i : Int := if n then -(k.1 : Int) else k.1
      (i < lo → roundInt w sg r (.fin n m e) = ((lo % 2 ^ w).toNat, fIV)) ∧
      (hi < i → roundInt w sg r (.fin n m e) = ((hi % 2 ^ w).toNat, fIV)) ∧
      (lo ≤ i → i ≤ hi → roundInt w sg r (.fin n m e) = ((i % 2 ^ w).toNat, if k.2 then fNX else 0))

/-- The conversions and dot products of a lane (R131, R132, R140, R141, R384, R387, R388, R391, R392): VCVT converts the
elements that the ratio of the widths pairs and, narrowing, keeps the other half, and raises ILLEGAL_OPERAND at a ratio of 4 or
more, whatever X, and for lns32; VDQNT and VQNT scale each element by the fp32 of B, VQNT to an integer type as R131 converts;
VFCLS gives the class masks; VFDOT2 adds two products to D; VDOTB adds the scaled sum of a block of eight lanes; VXF64
transforms an fp64 point. Three points are the model's: the sub-index of each stochastic rounding (log 46), which inputs of
VDOTB and VXF64 FTZ reads as zeros (log 45), and the sign of an exact zero sum (DESIGN CHOICE, log 61). -/
def Obligations.LaneConversions : Prop :=
  (∀ s cx d a (e : BitVec 6) (x : BitVec 1) u c1 f, Ty.ofCode e = some f →
    let t := cx.ty
    let half := x.toNat
    let kept := decide (t.width < f.width ∧ f.width < 64)
    let dd := (Opnd.dstV d).under t
    Issues s { Desc.lane [(Opnd.src a).under f, if kept then dd.both else dd] with
      legal := x == 0 || decide (t.width ≠ f.width ∧ t.width < 64 ∧ f.width < 64) } cx →
    f ≠ .lns → t ≠ .lns → t.width ≤ 2 * f.width → f.width ≤ 2 * t.width → cx.source a = .ok (u, c1) →
    let n := min f.count t.count
    let from_ := if t.width > f.width ∧ t.width < 64 then n * half else 0
    let tb := if kept then n * half else 0
    exec (.vcvt d a e x) s = .next (c1.writeLanes d.toNat fun l =>
      let r := packElems t.width n fun i =>
        convertElem f t (c1.rounding l (i + tb)) (subElem f.width (i + from_) (c1.laneNat (f.width == 64) a u l))
      (wordsOf (t.width == 64) (if kept then (List.range n).foldl (fun o i =>
        setElem t.width (i + tb) o (subElem t.width i r.1)) (c1.vec d.toNat l).toNat else r.1), r.2)).finish) ∧
  (∀ s cx d a (e : BitVec 6) (x : BitVec 1) f, Ty.ofCode e = some f →
    let t := cx.ty
    let dd := (Opnd.dstV d).under t
    let opnds := [(Opnd.src a).under f, if t.width < f.width ∧ f.width < 64 then dd.both else dd]
    (2 * f.width < t.width ∨ 2 * t.width < f.width → Issues s (Desc.lane opnds) cx →
      exec (.vcvt d a e x) s = .next (cx.takeFault (Exn.plain .illegalOperand))) ∧
    (f = .lns ∨ t = .lns → x = 0 → Issues s (Desc.lane opnds) cx →
      exec (.vcvt d a e x) s = .next (cx.takeFault (Exn.plain .illegalOperand)))) ∧
  (∀ s cx d a b x c1 y c2, cx.ty.narrow = true →
    Issues s (Desc.lane [.src a, .src b, (Opnd.dstV d).many cx.ty.count]) cx →
    cx.source a = .ok (x, c1) → c1.source b = .ok (y, c2) →
    exec (.vdqnt d a b) s = .next (c2.writeLanes d.toNat fun l =>
      let sc := inputOf .f32 cx.sp.mode.ftz (c2.laneOf b y l).toNat
      let rs := (List.range cx.ty.count).map fun i =>
        let v := elemValue cx.ty cx.sp.mode.ftz (subElem cx.ty.width i (c2.laneOf a x l).toNat)
        finishFloat .f32 (c2.rounding l i) [v, sc] (v.mul sc)
      (rs.map fun r => BitVec.ofNat 32 r.1, rs.foldl (fun f r => f ||| r.2) 0)).finish) ∧
  (∀ s cx d a b y c1, cx.ty.narrow = true → cx.ty.isInt = false →
    Issues s (Desc.lane [(Opnd.srcV a).many cx.ty.count, .src b, .dstV d]) cx → cx.source b = .ok (y, c1) →
    exec (.vqnt d a b) s = .next (c1.writeLanes d.toNat fun l =>
      let sc := inputOf .f32 cx.sp.mode.ftz (c1.laneOf b y l).toNat
      let r := packElems cx.ty.width cx.ty.count fun i =>
        let v := inputOf .f32 cx.sp.mode.ftz (c1.vec (a.toNat + i) l).toNat
        finishFloat cx.ty (c1.rounding l i) [v, sc] (v.mul sc)
      ([BitVec.ofNat 32 r.1], r.2)).finish) ∧
  (∀ s cx d a b y c1 w sg, cx.ty = .int w sg → w = 8 ∨ w = 16 →
    Issues s (Desc.lane [(Opnd.srcV a).many cx.ty.count, .src b, .dstV d]) cx → cx.source b = .ok (y, c1) →
    exec (.vqnt d a b) s = .next (c1.writeLanes d.toNat fun l =>
      let sc := inputOf .f32 cx.sp.mode.ftz (c1.laneOf b y l).toNat
      let r := packElems w cx.ty.count fun i =>
        let v := inputOf .f32 cx.sp.mode.ftz (c1.vec (a.toNat + i) l).toNat
        let k := roundInt w sg (c1.rounding l i) (v.mul sc).1
        (k.1, k.2 ||| if (v.mul sc).2 || v.isSig || sc.isSig then fIV else 0)
      ([BitVec.ofNat 32 r.1], r.2)).finish) ∧
  RoundsToIntegers ∧
  (∀ s cx d a x c1, cx.ty.isFloat = true → Issues s (Desc.lane [(Opnd.src a).under cx.ty, .dstV d]) cx →
    cx.source a = .ok (x, c1) →
    exec (.vfcls d a) s = .next (c1.writeLanes d.toNat fun l => ([BitVec.ofNat 32 (packElems cx.ty.width cx.ty.count
      fun i => (classMask cx.ty (subElem cx.ty.width i (c1.laneNat (cx.ty.width == 64) a x l)), 0)).1], 0)).finish) ∧
  (∀ s cx d a b x c1 y c2, cx.ty = .f16 ∨ cx.ty = .bf16 →
    Issues s (Desc.lane [.src a, .src b, (Opnd.dstV d).both]) cx →
    cx.source a = .ok (x, c1) → c1.source b = .ok (y, c2) →
    exec (.vfdot2 d a b) s = .next (c2.writeLanes d.toNat fun l =>
      let u := fun i => inputOf cx.ty cx.sp.mode.ftz (subElem 16 i (c2.laneOf a x l).toNat)
      let v := fun i => inputOf cx.ty cx.sp.mode.ftz (subElem 16 i (c2.laneOf b y l).toNat)
      let z := inputOf .f32 cx.sp.mode.ftz (c2.vec d.toNat l).toNat
      let r := c2.rounding l 0
      let k := finishFloat .f32 r [u 0, v 0, u 1, v 1, z]
        (sumNums (zeroSumNeg r) [(u 0).mul (v 0), (u 1).mul (v 1), (z, false)])
      ([BitVec.ofNat 32 k.1], k.2)).finish) ∧
  (∀ s cx d (a : BitVec 7) b (x : BitVec 1), cx.ty.isB8 = true →
    Issues s { Desc.lane [.srcV a, (Opnd.otherV a).many 2, .srcV b, (Opnd.dstV d).both] with ok := decide (a.toNat ≤ 62) } cx →
    cx.sound (fun l => cx.badEntry (cx.sp.winbase + a.toNat + 1) (8 * (l / 8))) = .ok () →
    let q := fun (n l i : Nat) => inputOf cx.ty cx.sp.mode.ftz (subElem 8 i (cx.vec n l).toNat)
    let lanes := fun (j : Nat) => (List.range 8).map (8 * j + ·) |>.filter (inMask cx.part)
    let block := fun (j : Nat) => sumNums false ((lanes j).flatMap fun l =>
      (List.range 4).map fun i => (q a.toNat l i).mul (q b.toNat l i))
    ∃ c : Cx, exec (.vdotb d a b x) s = .next c.finish ∧ c.s = cx.s ∧
      ∀ l, l < 96 → ∀ e, c.st.vreg e l =
        if e = cx.sp.winbase + d.toNat ∧ inMask cx.part l = true then
          let sc := (cx.anyLane (a.toNat + 1) (8 * (l / 8))).toNat
          let ea := subElem 8 (2 * x.toNat) sc
          let eb := subElem 8 (2 * x.toNat + 1) sc
          let dn := inputOf .f32 cx.sp.mode.ftz (cx.vec d.toNat l).toNat
          let sum := block (l / 8)
          BitVec.ofNat 32 (if ea = 255 ∨ eb = 255 then Ty.f32.nanCode
            else (deliverSum .f32 (cx.rounding l 0) (Sum.plus (zeroSumNeg (cx.rounding l 0)) (dn, false)
              (if sum.1.isNan then sum else ((sum.1.mul (.fin false 1 ((ea : Int) + eb - 254))).1, sum.2))) dn.isSig).1)
        else cx.st.vreg e l) ∧
  ∀ s cx d a b, Issues s { Desc.lane [(Opnd.srcV a).evenMany 6, (Opnd.srcS b).evenMany 30, (Opnd.dstV d).many 3] with
      ok := decide (regNo b ≤ 18) } cx →
    let n := regNo b
    exec (.vxf64 d a b) s = .next (cx.writeLanes d.toNat fun l =>
      let rs := xf64 (fun c => (cx.scalar64 (n + 2 * c)).toNat) (fun r c => (cx.scalar64 (n + 6 + 8 * r + 2 * c)).toNat)
        (fun c => (pair64 (cx.vec (a.toNat + 2 * c) l) (cx.vec (a.toNat + 2 * c + 1) l)).toNat) (cx.rounding l)
      (rs.map fun r => BitVec.ofNat 32 r.1, rs.foldl (fun f r => f ||| r.2) 0)).finish

/-! ## Statistics (R188-R199, R366, R394, R399) -/

/-- Combine (R190), with the flags so far: FP64 sums, differences, products and quotients, each rounded once to nearest, in the order
that the rule writes them; overflow and invalid are kept of their flags (R192). The quotient: of finite numbers the exact one,
rounded as RoundsFinite says; by a zero, of and by an infinity, and of a NaN as IEEE 754 has it. -/
def CombineFormulas : Prop :=
  let a := floatAdd .f64 .rne
  let b := floatSub .f64 .rne
  let m := floatMul .f64 .rne
  let q := floatDiv .f64 .rne
  let all := fun (l : List Flagged) (f : BitVec 6) => f ||| (l.foldl (fun f r => f ||| r.2) 0 &&& (fOF ||| fIV))
  (∀ (x y : Triple) (f g : BitVec 6), let r := combineF (x, f) (y, g)
    (y.st = .empty → r = (x, f ||| g)) ∧ (y.st ≠ .empty → x.st = .empty → r = (y, f ||| g)) ∧
    (x.st ≠ .empty → y.st = .one →
      let w := a x.w y.w
      let d := b y.mu x.mu
      let dw := m d.1 y.w
      let e := q dw.1 w.1
      let mu := a x.mu e.1
      let wd := m y.w d.1
      let d' := b y.mu mu.1
      let p := m wd.1 d'.1
      let m2 := a x.m2 p.1
      r = ({ st := .many, w := w.1, mu := mu.1, m2 := m2.1 }, all [w, d, dw, e, mu, wd, d', p, m2] (f ||| g))) ∧
    (x.st ≠ .empty → y.st ≠ .empty → y.st ≠ .one →
      let w := a x.w y.w
      let d := b y.mu x.mu
      let dw := m d.1 y.w
      let e := q dw.1 w.1
      let mu := a x.mu e.1
      let dd := m d.1 d.1
      let t := m dd.1 x.w
      let u := m t.1 y.w
      let v := q u.1 w.1
      let sum := a x.m2 y.m2
      let m2 := a sum.1 v.1
      r = ({ st := .many, w := w.1, mu := mu.1, m2 := m2.1 }, all [w, d, dw, e, mu, dd, t, u, v, sum, m2] (f ||| g)))) ∧
  ∀ x y : Nat, let u := valueOf .f64 x
    let v := valueOf .f64 y
    (u.isNan = true ∨ v.isNan = true → q x y = (Ty.f64.nanCode, if u.isSig || v.isSig then fIV else 0)) ∧
    (u.isInf = true → v.isInf = true → q x y = (Ty.f64.nanCode, fIV)) ∧
    (u.isInf = true → v.isNan = false → v.isInf = false → q x y = (Ty.f64.infCode (u.neg != v.neg), 0)) ∧
    (u.isNan = false → u.isInf = false → v.isInf = true → q x y = (Ty.f64.zeroCode (u.neg != v.neg), 0)) ∧
    (∀ n e k f, u = .fin n 0 e → v = .fin k 0 f → q x y = (Ty.f64.nanCode, fIV)) ∧
    (∀ n i e k f, i ≠ 0 → u = .fin n i e → v = .fin k 0 f → q x y = (Ty.f64.infCode (n != k), fDZ)) ∧
    ∀ n i e k j f, j ≠ 0 → u = .fin n i e → v = .fin k j f → q x y = roundRat .f64 .rne (n != k) i j (e - f)

/-- The rank tree (R191) of a list of 2^n, and of one whose first half has 2^n elements and whose second has no more; and the tree of
R192: in each beat of 32 lanes the rank tree, then the first two beats and the third. -/
def TreeFormulas : Prop :=
  ∀ (α : Type) (f : α → α → α) (z : α),
    (∀ n a, rankTree f z n [a] = a) ∧ (∀ n, rankTree f z n [] = z) ∧
    (∀ (n : Nat) (l m : List α), l.length = 2 ^ n → m ≠ [] → m.length ≤ 2 ^ n →
      rankTree f z (n + 1) (l ++ m) = f (rankTree f z n l) (rankTree f z n m)) ∧
    ∀ lane : Nat → α, let beat := fun b => rankTree f z 5 ((List.range 32).map fun i => lane (32 * b + i))
      beatTree f z lane = f (f (beat 0) (beat 1)) (beat 2)

/-- What one element gives an accumulation (R192): with a weight, or with 1; its value widened to FP64. -/
def ElementTriples : Prop :=
  ∀ (t : Ty) (x : Nat), t.statOk = true →
    let wide := fun (c : Nat) => (roundTo .f64 .rne (elemValue t false c)).1
    let nan := (valueOf .f64 (wide x)).isNan
    let sig := if (elemValue t false x).isSig then fIV else 0
    let one := fun (w : Nat) => if nan then (({ st := .one, w := w, mu := Ty.f64.nanCode, m2 := Ty.f64.nanCode } : Triple), sig)
      else ({ st := .one, w := w, mu := wide x, m2 := 0 }, 0)
    statElem t x none = one 0x3FF0000000000000 ∧
    ∀ c, let w := valueOf .f64 (wide c)
      (w.isNan = true ∨ w.isInf = true ∨ (w.neg = true ∧ w.isZero = false) → statElem t x (some c) = (Triple.empty, fIV)) ∧
      (w.isZero = true → statElem t x (some c) = (Triple.empty, 0)) ∧
      (w.isNan = false → w.isInf = false → w.neg = false → w.isZero = false → statElem t x (some c) = one (wide c))

/-- The candidates of an extremum (R198): the key, which orders the values of the type before the index, the element's bits and its
index; and which of two wins. -/
def ExtremumFormulas : Prop :=
  (∀ (t : Ty) (kind : BitVec 2) (x idx : Nat), t.extOk = true → x < 2 ^ t.width →
    let nan := t.isFloat && (valueOf t x).isNan
    let min := kind.getLsbD 0
    let low := if min then idx % 2 ^ 32 else 2 ^ 32 - 1 - idx % 2 ^ 32
    let out := fun (k : Nat) => some ({ key := BitVec.ofNat 64 (2 ^ 32 * k + low), bits := BitVec.ofNat 32 x, index := BitVec.ofNat 32 idx } : Cand)
    (nan = true → kind.getLsbD 1 = true → candidate t kind x idx = none) ∧
    (nan = true → kind.getLsbD 1 = false → candidate t kind x idx = out (if min then 0 else 2 ^ 32 - 1)) ∧
    (∀ w sg, t = .int w sg → candidate t kind x idx = out (if sg then (intOf w true x + 2 ^ 31).toNat else x)) ∧
    (t.isFloat = true → nan = false →
      let b := (roundTo .f32 .rne (valueOf t x)).1
      candidate t kind x idx = out (if b / 2 ^ 31 % 2 = 1 then 2 ^ 32 - 1 - b else b ^^^ 2 ^ 31))) ∧
  ∀ (kind : BitVec 2) (a b : Option Cand),
    pickCand kind none b = b ∧ pickCand kind a none = a ∧
    ∀ x y, pickCand kind (some x) (some y) =
      some (if kind.getLsbD 0 then (if y.key < x.key then y else x) else if x.key < y.key then y else x)

/-- The values of a drain, its condition word and its flags (R195): the empty-set code; μ, M2 / W, M2 / (W - 1), W times μ; and for
NORM the value r in its five steps. A v of -0 is log 59's (DESIGN CHOICE), an L that is SPECIAL log 69's (DESIGN CHOICE). -/
def DrainFormulas : Prop :=
  let m := fun x y => (floatMul .f64 .rne x y).1
  let q := fun x y => (floatDiv .f64 .rne x y).1
  let canon := fun c => if (valueOf .f64 c).isNan then Ty.f64.nanCode else c
  let one := 0x3FF0000000000000
  let e := 0x7FF8000000000E0E
  (∀ (t : Triple) (eps : Nat),
    (t.st = .empty → (∀ o, o < 4 → drain t o eps = ([e], 1, 0)) ∧ drain t 4 eps = ([e, e], 1, 0)) ∧
    (t.st ≠ .empty → drain t 0 eps = ([canon t.mu], 0, 0) ∧ drain t 1 eps = ([canon (q t.m2 t.w)], 0, 0) ∧
      drain t 3 eps = ([canon (m t.w t.mu)], 0, 0) ∧
      let w := valueOf .f64 t.w
      let low := w.isNan = false ∧ NumLe w (valueOf .f64 one)
      (low → drain t 2 eps = ([Ty.f64.nanCode], 2, fIV)) ∧
      (¬low → drain t 2 eps = ([canon (q t.m2 (floatSub .f64 .rne t.w one).1)], 0, 0)) ∧
      let v := (roundTo .f32 .rne (valueOf .f64 (floatAdd .f64 .rne (q t.m2 t.w) eps).1)).1
      let n := valueOf .f32 v
      let norm := fun (r : Nat) (f : BitVec 6) => drain t 4 eps = ([canon t.mu, r], 0, f)
      (n.isNan = true ∨ n.neg = true → norm Ty.f64.nanCode fIV) ∧
      (n.isZero = true → n.neg = false → norm (Ty.f64.infCode false) fDZ) ∧
      (n.isNan = false → n.neg = false → n.isZero = false →
        (∀ b, Lns.ofWord (lcv v).1 = .zero b → norm (Ty.f64.infCode false) fDZ) ∧
        (∀ b, Lns.ofWord (lcv v).1 = .inf b → norm 0 0) ∧
        ∀ b l, Lns.ofWord (lcv v).1 = .fin b l → ∃ g : Int, |2 * g + l| ≤ 1 ∧ (|2 * g + l| = 1 → g % 2 = 0) ∧
          norm (roundTo .f64 .rne (valueOf .f32 (lex .rne (lnsFin false g)).1)).1 0))) ∧
  ∀ x, drain32 x = if x = e then 0x7FC00E0E else BitVec.ofNat 32 (roundTo .f32 .rne (valueOf .f64 x)).1

/-- A k register may be written (R189): not inside a divergence of a DET launch. -/
def kFree (cx : Cx) : Prop := cx.la.det = false ∨ cx.divergent = false

/-- The statistics instructions: SRINI empties k; SRMRG combines two registers and raises the flags; SRACC and SRACW combine
the triples of every element of every lane that takes part, in the rank tree, into k; XRACC keeps the extremum; SRGET reads
a field against the SEQ it expects; SRDRN delivers a result to scalars or to a vector register. Every write of k
moves its SEQ by 1. A k write inside a divergence of a DET launch raises DET_VIOLATION, whichever instruction makes it; SRACC,
SRACW and SRDRN of an extremum, a merge or an extremum of another kind or type, an ETYPE that the instruction does not take and
a SEQ that is not the register's raise ILLEGAL_OPERAND. The formulas (R190-R192, R195, R198): of Combine, of
the rank tree and the tree of beats, of what an element gives, of an extremum's candidates and their winner, and of the drain. That an
empty register and an extremum merge to the extremum, and NORM of -0, are the model's (DESIGN CHOICE, log 59), and so is NORM where
the log is SPECIAL (DESIGN CHOICE, log 69). -/
def Obligations.StatisticsRegisters : Prop :=
  CombineFormulas ∧ TreeFormulas ∧ ElementTriples ∧ ExtremumFormulas ∧ DrainFormulas ∧
  (∀ s cx k, Issues s { Desc.split [] with mcc := false } cx →
    (kFree cx → exec (.srini k) s = .next (Cx.finish { cx with
      st := cx.st.setKreg k.toNat { KReg.initial with seq := (cx.st.kreg k.toNat).seq + 1 } })) ∧
    (¬kFree cx → exec (.srini k) s = .next (cx.takeFault (Exn.plain .detViolation))) ∧
    (∀ j r fl, kFree cx → (cx.st.kreg k.toNat).combine (cx.st.kreg j.toNat) = some (r, fl) →
      exec (.srmrg j k) s = .next (({ cx with st := cx.st.setKreg k.toNat { r with
        seq := (cx.st.kreg k.toNat).seq + 1 } } : Cx).raiseFlags fl).finish) ∧
    (∀ j, kFree cx → (cx.st.kreg k.toNat).combine (cx.st.kreg j.toNat) = none →
      exec (.srmrg j k) s = .next (cx.takeFault (Exn.plain .illegalOperand))) ∧
    (∀ j, ¬kFree cx → exec (.srmrg j k) s = .next (cx.takeFault (Exn.plain .detViolation)))) ∧
  (∀ s cx a k, Issues s (Desc.lane [(Opnd.src a).under cx.ty]) cx →
    (cx.ty.statOk = false → exec (.sracc a k) s = .next (cx.takeFault (Exn.plain .illegalOperand))) ∧
    (cx.ty.statOk = true → ¬kFree cx → exec (.sracc a k) s = .next (cx.takeFault (Exn.plain .detViolation))) ∧
    (cx.ty.statOk = true → kFree cx → (cx.st.kreg k.toNat).st = .ext →
      exec (.sracc a k) s = .next (cx.takeFault (Exn.plain .illegalOperand)))) ∧
  (∀ s cx d a k, Issues s (Desc.lane [(Opnd.src a).under cx.ty, (Opnd.src d).under cx.ty]) cx →
    (cx.ty.statOk = false → exec (.sracw d a k) s = .next (cx.takeFault (Exn.plain .illegalOperand))) ∧
    (cx.ty.statOk = true → ¬kFree cx → exec (.sracw d a k) s = .next (cx.takeFault (Exn.plain .detViolation))) ∧
    (cx.ty.statOk = true → kFree cx → (cx.st.kreg k.toNat).st = .ext →
      exec (.sracw d a k) s = .next (cx.takeFault (Exn.plain .illegalOperand)))) ∧
  (∀ s cx d a (n m : BitVec 1) k, Issues s (Desc.lane [(Opnd.src a).under cx.ty, .src d]) cx →
    let old := cx.st.kreg k.toNat
    (cx.ty.extOk = false → exec (.xracc d a n m k) s = .next (cx.takeFault (Exn.plain .illegalOperand))) ∧
    (cx.ty.extOk = true → ¬kFree cx → exec (.xracc d a n m k) s = .next (cx.takeFault (Exn.plain .detViolation))) ∧
    (cx.ty.extOk = true → kFree cx → old.st ≠ .empty →
      ¬(old.st = .ext ∧ old.kind = n ++ m ∧ old.etype = cx.sp.mode.etype) →
      exec (.xracc d a n m k) s = .next (cx.takeFault (Exn.plain .illegalOperand)))) ∧
  (∀ s cx a k x c1, Issues s (Desc.lane [(Opnd.src a).under cx.ty]) cx → cx.ty.statOk = true → kFree cx →
    (cx.st.kreg k.toNat).st ≠ .ext → cx.source a = .ok (x, c1) →
    let lane := fun l => if inMask c1.part l then rankTree combineF (Triple.empty, 0) 2 ((List.range cx.ty.count).map fun i =>
      statElem cx.ty (subElem cx.ty.width i (c1.laneNat (cx.ty.width == 64) a x l)) none) else (Triple.empty, 0)
    let r := combineF ((c1.st.kreg k.toNat).triple, 0) (beatTree combineF (Triple.empty, 0) lane)
    let k' := (c1.st.kreg k.toNat).withTriple r.1
    exec (.sracc a k) s = .next (({ c1 with st := c1.st.setKreg k.toNat k' } : Cx).raiseFlags r.2).finish) ∧
  (∀ s cx d a k x c1 y c2, Issues s (Desc.lane [(Opnd.src a).under cx.ty, (Opnd.src d).under cx.ty]) cx →
    cx.ty.statOk = true → kFree cx → (cx.st.kreg k.toNat).st ≠ .ext → cx.source a = .ok (x, c1) →
    c1.source d = .ok (y, c2) →
    let wide := cx.ty.width == 64
    let lane := fun l => if inMask c2.part l then rankTree combineF (Triple.empty, 0) 2 ((List.range cx.ty.count).map fun i =>
      statElem cx.ty (subElem cx.ty.width i (c2.laneNat wide a x l)) (some (subElem cx.ty.width i (c2.laneNat wide d y l))))
      else (Triple.empty, 0)
    let r := combineF ((c2.st.kreg k.toNat).triple, 0) (beatTree combineF (Triple.empty, 0) lane)
    let k' := (c2.st.kreg k.toNat).withTriple r.1
    exec (.sracw d a k) s = .next (({ c2 with st := c2.st.setKreg k.toNat k' } : Cx).raiseFlags r.2).finish) ∧
  (∀ s cx d a (n m : BitVec 1) k x c1 y c2, Issues s (Desc.lane [(Opnd.src a).under cx.ty, .src d]) cx →
    cx.ty.extOk = true → kFree cx → cx.source a = .ok (x, c1) → c1.source d = .ok (y, c2) →
    let kind : BitVec 2 := n ++ m
    let old := cx.st.kreg k.toNat
    (old.st = .empty ∨ (old.st = .ext ∧ old.kind = kind ∧ old.etype = cx.sp.mode.etype)) →
    let best := beatTree (pickCand kind) none fun l => if inMask c2.part l then
      rankTree (pickCand kind) none 2 ((List.range cx.ty.count).map fun i =>
        candidate cx.ty kind (subElem cx.ty.width i (c2.laneOf a x l).toNat) ((c2.laneOf d y l).toNat + i)) else none
    let held : Option Cand := if old.st = .ext then some ⟨old.key, old.bits, old.index⟩ else none
    ∃ r : KReg, exec (.xracc d a n m k) s = .next (Cx.finish { c2 with st := c2.st.setKreg k.toNat r }) ∧
      r.seq = old.seq + 1 ∧ (best = none → r = { old with seq := old.seq + 1 }) ∧
      ∀ b w, best = some b → pickCand kind held best = some w →
        r.st = .ext ∧ r.key = w.key ∧ r.bits = w.bits ∧ r.index = w.index ∧ r.kind = kind ∧
        r.etype = cx.sp.mode.etype) ∧
  (∀ s cx d a (f : BitVec 4) k x c1 c2,
    let kr := cx.st.kreg k.toNat
    let wide := (kr.field f.toNat).2
    Issues s { Desc.split [.srcS a, if wide then (Opnd.dstS d).pair else (Opnd.dstS d).pending] with
      mcc := false, legal := decide (f.toNat < 4) } cx →
    cx.readS (regNo a) = .ok (x, c1) →
    (x.toNat = kr.seq.toNat → (if wide then c1.writeS64 (regNo d) (BitVec.ofNat 64 (kr.field f.toNat).1)
      else c1.writeS (regNo d) (BitVec.ofNat 32 (kr.field f.toNat).1)) = .ok c2 →
      exec (.srget d a f k) s = .next c2.finish) ∧
    (x.toNat ≠ kr.seq.toNat → exec (.srget d a f k) s = faultsOn cx c1 (Exn.plain .illegalOperand))) ∧
  (∀ s cx d a (o : BitVec 4) k, (cx.st.kreg k.toNat).st = .ext →
    let nv := if o = 4 then 2 else 1
    Issues s { Desc.lane ((if isVec d then (Opnd.dstV d).many nv else (Opnd.dstS d).evenMany (2 * nv + 1)) ::
        if o = 4 then [(Opnd.srcS a).pair] else []) with
      legal := decide (o.toNat < 5) && (o == 4 || a == 0), perLane := isVec d,
      ok := isVec d || decide (regNo d + 2 * nv ≤ 59) } cx →
    exec (.srdrn d a o k) s = .next (cx.takeFault (Exn.plain .illegalOperand))) ∧
  ∀ s cx d a (o : BitVec 4) k,
    let norm := o == 4
    let nv := if norm then 2 else 1
    let r := drain (cx.st.kreg k.toNat).triple o.toNat (if norm then (cx.scalar64 (regNo a)).toNat else 0)
    (cx.st.kreg k.toNat).st ≠ .ext →
    (isVec d = true → Issues s { Desc.lane ((Opnd.dstV d).many nv :: if norm then [(Opnd.srcS a).pair] else []) with
        legal := decide (o.toNat < 5) && (norm || a == 0) } cx →
      exec (.srdrn d a o k) s = .next (cx.writeLanes d.toNat fun _ => (r.1.map drain32, r.2.2)).finish) ∧
    (isVec d = false → Issues s { Desc.lane ((Opnd.dstS d).evenMany (2 * nv + 1) ::
          if norm then [(Opnd.srcS a).pair] else []) with
        legal := decide (o.toNat < 5) && (norm || a == 0), perLane := false, ok := decide (regNo d + 2 * nv ≤ 59) } cx →
      ∀ c, (r.1.flatMap (wordsOf true) ++ [BitVec.ofNat 32 r.2.1]).zipIdx.foldlM
          (fun cx w => cx.writeS (regNo d + w.2) w.1) cx = .ok c →
        exec (.srdrn d a o k) s = .next (c.raiseFlags r.2.2).finish)

/-- The memory forms of the statistics (R194, R197): SRINI.LD reads a record of 32 bytes, which gives the register, or raises
ILLEGAL_OPERAND where it breaks its form; SRST holds the record's four words as one store of 32 bytes. Both need an address
aligned to 32. -/
def Obligations.StatisticsRecords : Prop :=
  ∀ s cx a k, Issues s { Desc.split [(Opnd.srcS a).pair] with mcc := false } cx →
    let base := cx.scalar64 (regNo a)
    let as := (List.range 4).map fun i => (noLane, base + BitVec.ofNat 64 (8 * i))
    apertureBad cx.la base = false → tagOf base ≠ 2 →
    (base.toNat % 32 ≠ 0 → (kFree cx → exec (.sriniLd a k) s = .next (cx.takeFault (Exn.at .alignment base))) ∧
      exec (.srst a k) s = .next (cx.takeFault (Exn.at .alignment base))) ∧
    (base.toNat % 32 = 0 → cx.staticLanes 8 false [2] as = .ok () →
      ∀ c1 c2 oks vs c3, cx.mapWs (as.map (·.2)) = .ok c1 → c1.reachAll .read true 8 .row as = (c2, oks, []) →
      c2.readAll 8 oks = .ok (vs, c3) → kFree cx →
      (∀ r, kregOfRecord (fun i => (nth (0, 0) vs i).2) = some r →
        exec (.sriniLd a k) s = .next (Cx.finish { c3 with st := c3.st.setKreg k.toNat { r with
          seq := (c3.st.kreg k.toNat).seq + 1 } })) ∧
      (kregOfRecord (fun i => (nth (0, 0) vs i).2) = none →
        exec (.sriniLd a k) s = faultsOn cx c3 (Exn.plain .illegalOperand))) ∧
    (base.toNat % 32 = 0 → cx.staticLanes 8 true [2] as = .ok () → cx.bufferRoom 32 = .ok () →
      ∀ c1 oks c2, cx.reachAll .write false 8 .row as = (c1, oks, []) →
      let ws := oks.zip (c1.st.kreg k.toNat).record
      c1.buffer [{ size := 32, item := .store (ws.flatMap fun e => placeBytes e.1.place e.2 8),
                   recs := ws.map fun e => storeRec e.1.addr e.2 8, issue := 0, lane := 0, rel := none, cached := c1.cached .write base, own := false }] = .ok c2 →
      exec (.srst a k) s = .next c2.finish)

/-! ## Memory instructions (R109, R143-R146, R177-R184, R224-R227, R246, R325, R331-R334, R359, R363, R367-R369) -/

/-- A load at issue, with every check of its addresses passed and room on its flag. An acquire that another stream's STL holds
waits. Otherwise the bytes are read as the stream sees memory; with every access reached the flag rises by 1 and an operation
that will write the destination is in flight, and no register, no byte of memory and no mask changes before it completes; a
reissue adds its lanes to the operation it left in flight. Where some accesses fault, a fault that traps ends the operation
with the lanes that were reached, or is the instruction's alone where none was, and one that parks leaves it waiting for the
reissue (DEDUCED, log 48). -/
def LoadRuns (run : Host.Outcome State Fault Refusal) (s : State) (cx : Cx) (flag : Option Nat) (d : BitVec 7)
    (as : List (Nat × Addr)) (n : Nat) (deny : List Nat) (o : Orient) (acq : Option Nat) : Prop :=
  ∀ c1 c2 c3 oks errs vs, cx.staticLanes n false deny as = .ok () → cx.flagRoom flag = .ok () →
    cx.mapWs (as.map (·.2)) = .ok c1 → c1.reachAll .read true n o as = (c2, oks, errs) →
    let ps := oks.flatMap fun r => r.place.span n
    let held := ∃ c, acq = some c ∧ c2.acquireHeld c ps = true
    (held → run = .next (({ cx with sp := { cx.sp with hold := some .acquire } }.flush).endTurn cx.id)) ∧
    (¬held → c2.readAll n oks = .ok (vs, c3) →
      let c4 : Cx := if acq.isSome then c3.acquire ps else c3
      let k := if n = 8 then 2 else 1
      let ws := vs.map fun e => c4.writesOf d k e.1 e.2
      let op := { Op.blank c4 .load with
        pendV := c4.destV d k, lanes := c4.part, pendS := destS d k, vres := ws.flatMap (·.1), sres := ws.flatMap (·.2) }
      (errs = [] → cx.sp.retryOp = none → ∀ c5, c4.launchOp flag op = .ok c5 →
        run = .next c5.finish ∧ (∀ pa, c5.finish.readPhys pa = s.readPhys pa) ∧ c5.st.vis = cx.st.vis ∧ c5.sp = cx.sp) ∧
      (∀ j q, errs = [] → cx.sp.retryOp = some j → c4.s.op? j = some q →
        run = .next (Cx.finish { c4 with s := c4.s.putOp j { op with
          flag := q.flag, lanes := q.lanes, vres := q.vres ++ op.vres, sres := q.sres ++ op.sres, contribs := q.contribs,
          fault := q.fault, waiting := false } })) ∧
      ∀ e, laneFault oks errs = some e → c4.st.faulting c4.sp.num = false → cx.sp.retryOp = none →
        (e.parks = false → oks = [] → run = faultsOn cx c4 e) ∧
        (e.parks = false → oks ≠ [] → ∀ c5, c4.launchOp flag { op with lanes := lanesIn (oks.map (·.lane)) } = .ok c5 →
          run = .next (cx.onStop (.after { c5 with sp := { c5.sp with retryOp := none } } e))) ∧
        (e.parks = true → ∀ c5, c4.launchOp flag { op with waiting := true } = .ok c5 →
          run = .next (cx.onStop (.after { c5 with sp := { c5.sp with retryOp := some c4.s.nextId } } e))))

/-- LD, LDC, LDA and SLD (R332-R334, R363): each lane that takes part reads 2^z bytes at its pair, with the signed offset
times the size in LD, LDC and SLD; LDA with a scalar D, and SLD, read once for the split. The header's flag A or B counts
the operation. That the bytes are read at issue and the registers written at completion, and which STLs an acquire waits for, is
the model's reading (DEDUCED, log 6), and so is what a fault of some of the accesses does with the others (DEDUCED, log 48). -/
def Obligations.Loads : Prop :=
  (∀ s cx d a (o : BitVec 5) (z : BitVec 2) (f : BitVec 1),
    let n : Nat := 2 ^ z.toNat
    let as := (lanesOf cx.part).map fun l => (l, cx.lane64 a l + BitVec.ofInt 64 (o.toInt * n))
    let d' := fun (ok : Bool) => { Desc.lane [((Opnd.dstV d).sized n).pending, (Opnd.src a).pair] with
      flag := some (f == 1), ok := ok }
    (Issues s (d' true) cx → LoadRuns (exec (.ld d a o z f) s) s cx (cx.flagOf (f == 1)) d as n [] .row none) ∧
    (z ≠ 3 → Issues s (d' true) cx → LoadRuns (exec (.ldc d a o z f) s) s cx (cx.flagOf (f == 1)) d as n []
      (if z = 0 then .col1 else if z = 1 then .col2 else .col4) none)) ∧
  (∀ s cx d a (z : BitVec 2) (p f : BitVec 1) (c : BitVec 4),
    let n : Nat := 2 ^ z.toNat
    let once := !isVec d
    let as := if once then [(noLane, cx.scalar64 (regNo a) + 0)]
      else (lanesOf cx.part).map fun l => (l, cx.lane64 a l + 0)
    Issues s { Desc.lane [(({ Opnd.dstV d with kind := .any } : Opnd).sized n).pending, (Opnd.src a).pair] with
      mcc := true, perLane := !once, legal := decide (c.toNat < 12), flag := some (f == 1), ok := !(once && isVec a) } cx →
    LoadRuns (exec (.lda d a z p f c) s) s cx (cx.flagOf (f == 1)) d as n (if once then [2] else []) .row
      (some c.toNat)) ∧
  ∀ s cx d a (o : BitVec 5) (z : BitVec 2) (f : BitVec 1),
    let n : Nat := 2 ^ z.toNat
    Issues s { Desc.split [((Opnd.dstS d).sized n).pending, (Opnd.srcS a).pair] with flag := some (f == 1) } cx →
    LoadRuns (exec (.sld d a o z f) s) s cx (cx.flagOf (f == 1)) d
      [(noLane, cx.scalar64 (regNo a) + BitVec.ofInt 64 (o.toInt * n))] n [2] .row none

/-- A store at issue, with every check of its addresses passed and room for it: its bytes are held in the release buffer, one
item of its lane's bytes for each access in lane order; memory, registers and masks stay as they are until the commit. Where
some accesses fault, the others are held; the fault is the instruction's alone where none was reached. -/
def StoreRuns (run : Host.Outcome State Fault Refusal) (s : State) (cx c0 : Cx) (as : List (Nat × Addr)) (n : Nat)
    (deny : List Nat) (rel : Option Nat) (data : Nat → Nat) : Prop :=
  ∀ c1 c2 oks errs, c0.staticLanes n true deny as = .ok () → c0.bufferRoom (8 * as.length) = .ok () →
    c0.reachAll .write false n .row as = (c1, oks, errs) →
    c1.buffer (oks.map fun r => { storeItem r.lane rel r.place r.addr (data r.lane) n with cached := c1.cached .write r.addr }) = .ok c2 →
    (errs = [] → run = .next c2.finish ∧ (∀ pa, c2.finish.readPhys pa = s.readPhys pa) ∧ c2.st.vis = c0.st.vis ∧
      c2.sp = { c0.sp with serial := c2.sp.serial }) ∧
    ∀ e, laneFault oks errs = some e → c2.st.faulting c2.sp.num = false →
      (oks = [] → run = faultsOn cx c2 e) ∧ (oks ≠ [] → run = .next (cx.onStop (.after c2 e)))

/-- ST, SST and STL (R363, R368, R369), the bytes a stream then reads back, and where they go at the commit: a store of n
bytes at a place reads back its value to the stream's own accesses, every place outside it reads as before, and the item's
commit writes exactly those bytes, where memory lies behind them on a package that answers. -/
def Obligations.Stores : Prop :=
  (∀ s cx d a (o : BitVec 5) (z : BitVec 2) x c0,
    let n : Nat := 2 ^ z.toNat
    Issues s (Desc.lane [(Opnd.src d).sized n, (Opnd.src a).pair]) cx → cx.source d = .ok (x, c0) →
    StoreRuns (exec (.st d a o z) s) s cx c0
      ((lanesOf c0.part).map fun l => (l, c0.lane64 a l + BitVec.ofInt 64 (o.toInt * n))) n [] none (c0.storeData d x n)) ∧
  (∀ s cx d a (o : BitVec 5) (z : BitVec 2) x c0,
    let n : Nat := 2 ^ z.toNat
    Issues s (Desc.split [(Opnd.srcS d).sized n, (Opnd.srcS a).pair]) cx → cx.source d = .ok (x, c0) →
    StoreRuns (exec (.sst d a o z) s) s cx c0 [(noLane, c0.scalar64 (regNo a) + BitVec.ofInt 64 (o.toInt * n))] n [2]
      none (c0.storeData d x n)) ∧
  (∀ s cx d a (z : BitVec 2) (c : BitVec 4) x c0,
    let n : Nat := 2 ^ z.toNat
    let once := !isVec d
    Issues s { Desc.lane [(Opnd.src d).sized n, (Opnd.src a).pair] with
      mcc := true, perLane := !once, legal := decide (c.toNat < 12), ok := !(once && isVec a) } cx →
    cx.source d = .ok (x, c0) →
    StoreRuns (exec (.stl d a z c) s) s cx c0
      (if once then [(noLane, c0.scalar64 (regNo a) + 0)] else (lanesOf c0.part).map fun l => (l, c0.lane64 a l + 0)) n
      (if once then [2] else []) (some c.toNat) (c0.storeData d x n)) ∧
  (∀ (s : State) (st : Stream) (p : Place) (a : Addr) (lane v n : Nat) (rel : Option Nat),
    let st' := { st with buffer := st.buffer ++ [storeItem lane rel p a v n] }
    s.viewN st' p n = v % 2 ^ (8 * n) ∧
    ∀ q, q ∉ p.span n → s.viewPlace st' q = s.viewPlace st q) ∧
  ∀ (s : State) (launch sid wid cl : Nat) (p : Place) (a : Addr) (lane v n : Nat) (rel : Option Nat) (llc : Bool), p.space = .phys →
    let t := s.commitItem launch sid wid cl false { storeItem lane rel p a v n with cached := llc }
    (∀ q, (∀ i, i < n → s.canon q ≠ s.canon (p.key + i)) → t.readPhys q = s.readPhys q) ∧
    ((∀ i j, i < j → j < n → s.canon (p.key + i) ≠ s.canon (p.key + j)) →
      ∀ i, i < n → backed (s.canon (p.key + i)) = true → s.linkFault (p.key + i) = false → t.readPhys (p.key + i) = BitVec.ofNat 8 (v / 256 ^ i))

/-- FENCE, SCATB, SCAT and ATOM (R182-R184, R224-R227). A release fence commits and an acquire waits for the split's reads.
SCAT holds one contribution of each lane, converted to the launch's reference exponent. SCATB commits and counts, in a DET
launch once its epoch is closed. ATOM commits its region and starts an operation with one read-modify-write for each lane
that takes part, in lane order, except in a DET launch, where an exchange and a float ATOM raise DET_VIOLATION. Each makes the
new value of its bytes from the old one and changes no other byte, and returns the old value, to D outside a DET launch. That the
lanes act one at a time between the steps of other streams is the model's reading (DEDUCED, log 6), and so is what a lane does that
meets an error after the issue: it changes no byte, its registers hold a free value, and the fault waits with the operation
(DEDUCED, log 70). -/
def Obligations.AtomicsAndContributions : Prop :=
  (∀ s cx (sub c : BitVec 4), Issues s { Desc.split [] with
      legal := decide (sub.toNat < 3) && decide (c.toNat < 12), commits := sub != 0, recomp := sub == 0 } cx →
    let reads := ∃ o ∈ cx.s.ops, o.2.stream = cx.id ∧ o.2.owner = cx.sp.num ∧ (o.2.kind = .load ∨ ∃ q, o.2.kind = .atom q)
    (sub = 0 → ¬reads → exec (.fence sub c) s = .next cx.finish) ∧
    (sub ≠ 1 → reads → exec (.fence sub c) s =
      .next (({ cx with sp := { cx.sp with hold := some .reads } }.flush).endTurn cx.id)) ∧
    (∀ c1, sub ≠ 0 → (sub = 2 → ¬reads) → cx.commit = .ok c1 → exec (.fence sub c) s = .next c1.finish)) ∧
  (∀ s cx c1, Issues s { Desc.split [] with mcc := false, commits := true, recomp := false } cx →
    cx.la.routed = false → (cx.la.det = false ∨ cx.divergent = false) → cx.adjointsBusy = false → cx.commit = .ok c1 →
    let c2 : Cx := { c1 with sp := { c1.sp with scatbs := cx.sp.scatbs + 1 } }
    let waits := cx.la.det = true ∧ cx.st.isReplay = false ∧ cx.la.closed ≤ cx.sp.scatbs
    (¬waits → exec .scatb s = .next c2.finish) ∧
    (waits → exec .scatb s = .next (cx.onStop (.wait c2 (.epoch cx.sp.scatbs))))) ∧
  (∀ s cx, Issues s { Desc.split [] with mcc := false, commits := true, recomp := false } cx →
    (cx.la.routed = true → exec .scatb s = .next (cx.takeFault (Exn.plain .route))) ∧
    (cx.la.routed = false → cx.la.det = true → cx.divergent = true →
      exec .scatb s = .next (cx.takeFault (Exn.plain .detViolation)))) ∧
  (∀ s cx d a (o : BitVec 5) (z : BitVec 2) x c1 c2 oks c3,
    Issues s { Desc.lane [.src d, (Opnd.src a).pair] with ok := z == 2 } cx → cx.source d = .ok (x, c1) →
    let as := (lanesOf c1.part).map fun l => (l, c1.lane64 a l + BitVec.ofInt 64 (o.toInt * 4))
    c1.staticLanes 4 true [1, 2] as = .ok () → c1.bufferRoom (8 * as.length) = .ok () →
    c1.reachAll .write false 4 .row as = (c2, oks, []) →
    let cs := oks.map fun r => c2.contribution r.place r.addr (c2.laneOf d x r.lane).toNat r.lane 0
    c2.buffer (cs.map (·.1)) = .ok c3 →
    exec (.scat d a o z) s = .next (cs.foldl (fun (c : Cx) e => c.raiseFlags e.2) c3).finish) ∧
  (∀ s cx d a (sub c' : BitVec 4) t c1 c2 oks c3, atomTy sub.toNat cx.ty = some t →
    let k := t.width / 32
    let cnt := if sub = 4 then 2 * k else k
    let once := !isVec d
    let dd : Opnd := { Opnd.dstV d with kind := .any, rd := true, long := true, even := decide (cnt > 1), n := cnt }
    Issues s { Desc.lane [dd, (Opnd.src a).pair] with
      mcc := true, perLane := !once, legal := decide (sub.toNat < 10) && decide (c'.toNat < 12), commits := true,
      recomp := false, flag := some false, ok := !(once && isVec a) && (cnt != 4 || d.toNat % 4 == 0) } cx →
    let breach := cx.la.det = true ∧ (sub = 3 ∨ sub = 4 ∨ (sub.toNat ≤ 2 ∧ t.isFloat = true))
    (breach → exec (.atom d a sub c') s = .next (cx.takeFault (Exn.plain .detViolation))) ∧
    (¬breach → cx.sp.retryOp = none →
    let as := if once then [(noLane, cx.scalar64 (regNo a) + 0)] else (lanesOf cx.part).map fun l => (l, cx.lane64 a l + 0)
    cx.staticLanes (t.width / 8) true (if once then [2] else []) as = .ok () → cx.flagRoom (cx.flagOf false) = .ok () →
    cx.commit = .ok c1 → c1.reachAll .write true (t.width / 8) .row as = (c2, oks, []) →
    let word := fun i l => if isVec d then (c2.vec (d.toNat + i) l).toNat else (c2.scalar (regNo d + i)).toNat
    let val := fun i l => if k = 2 then word i l + 2 ^ 32 * word (i + 1) l else word i l
    let regs := fun (l : Nat) => if cx.la.det then ([], []) else c2.writesOf d k l 0
    let todo := (oks.map fun q => ({
      place := q.place, n := t.width / 8, sub := sub.toNat, etype := cx.sp.mode.etype, opd := val 0 q.lane,
      new := if sub = 4 then val k q.lane else 0, vdst := (regs q.lane).1.map (·.1), sdst := (regs q.lane).2.map (·.1),
      addr := q.addr, cached := c2.cached .write q.addr } : Rmw)).filter fun q => !cx.st.isReplay || q.place.space == .stack
    let c := c2.atomRecords (oks.map fun q =>
      (q.lane, operandRec 1 q.addr (BitVec.ofNat 64 (val 0 q.lane)) (t.width / 8) sub.toNat)) true
    c.launchOp (cx.flagOf false) { Op.blank c (.atom todo) with
      pendV := c.destV d k, lanes := c.part, pendS := destS d k } = .ok c3 →
    exec (.atom d a sub c') s = .next c3.finish)) ∧
  (∀ (s : State) (n : Nat) (o : Op) (q : Rmw) (l : List Rmw) (st : Stream) (t : Ty), s.op? n = some o →
    o.kind = .atom (q :: l) → s.stream? o.stream = some st → (Ty.ofCode q.etype).bind (atomTy q.sub) = some t →
    let old := s.placeN st q.place q.n
    let u := s.rmwStep n
    (∀ e, s.rmwError o q = some e → (∀ p, u.readPhys p = s.readPhys p) ∧ ∃ x, u.op? n = some { o with
      kind := .atom l, vres := o.vres ++ (q.results x).1, sres := o.sres ++ (q.results x).2, fault := o.fault.or (some e) }) ∧
    (s.rmwError o q = none → (u.op? n = some { o with
      kind := .atom l, vres := o.vres ++ (q.results old).1, sres := o.sres ++ (q.results old).2 }) ∧
    (q.place.space = .phys →
      (∀ p, (∀ i, i < q.n → s.canon p ≠ s.canon (q.place.key + i)) → u.readPhys p = s.readPhys p) ∧
      ((∀ i j, i < j → j < q.n → s.canon (q.place.key + i) ≠ s.canon (q.place.key + j)) →
        (∀ i, i < q.n → backed (s.canon (q.place.key + i)) = true ∧ s.linkFault (q.place.key + i) = false) →
        old = s.readPhysN q.place.key q.n ∧
        u.readPhysN q.place.key q.n = atomNew q.sub t old q.opd q.new % 256 ^ q.n)))) ∧
  ∀ (w old opd new : Nat) (sg : Bool), old < 2 ^ w → opd < 2 ^ w → 0 < w →
    let t := Ty.int w sg
    let f := fun sub => atomNew sub t old opd new
    f 0 = (old + opd) % 2 ^ w ∧ f 3 = opd ∧ f 4 = (if old = opd then new else old) ∧ f 5 = (old &&& opd) ∧ f 6 = (old ||| opd) ∧
    f 7 = (old ^^^ opd) ∧ (f 1 = old ∨ f 1 = opd) ∧ (f 2 = old ∨ f 2 = opd) ∧
    t.toInt (f 1) = min (t.toInt old) (t.toInt opd) ∧ t.toInt (f 2) = max (t.toInt old) (t.toInt opd) ∧
    f 8 = max old opd ∧ f 9 = min old opd

/-! ## Tiles, copies and the matrix units (R75-R81, R138-R154, R306-R308, R318-R320, R336-R343, R375-R377) -/

/-- The tile-table entry that an instruction finds (R149, R203): the cluster's, which a selected wave retains in its log; in a replay
the one that the log holds next, without which the replay ends. That the log retains it is the model's (DESIGN CHOICE, log 66). -/
def FindsTile : Prop :=
  ∀ (cx : Cx) (t : Nat),
    (cx.st.isReplay = false → cx.findTile t = .ok (cx.tile t, { cx with st := cx.st.logTile (cx.tile t) })) ∧
    (cx.st.selected = false ∨ cx.st.unverif = true → ∀ v, cx.st.logTile v = cx.st) ∧
    (cx.st.isReplay = false → cx.st.selected = true → cx.st.unverif = false → ∀ v,
      cx.st.logTile v = { cx.st with log := cx.st.log ++ [{ kind := 3, value := 0, tile := some v }] }) ∧
    (cx.st.isReplay = true → (∀ e l, cx.st.log = e :: l → e.kind = 3 →
        cx.findTile t = .ok (e.tile.getD Tile.initial, { cx with st := { cx.st with log := l } })) ∧
      ((∀ e, cx.st.log.head? = some e → e.kind ≠ 3) → cx.findTile t = .error (.endRun cx))) ∧
    ∀ c c1, c.commit = .ok c1 → cx.commitTile c = .ok { c1 with
      st := { c1.st with ckpt := c1.st.ckpt.map fun k => { k with logLen := cx.st.log.length } } }

/-- TDSC, TFREE, TSTAT, TWAIT and WSREF (R147-R151, R375, R377). The entry that each finds is the cluster's, and in a replay the one
that the log retains (R203; DESIGN CHOICE, log 66); a replay changes no entry and waits for none. TDSC writes the descriptor of an EMPTY
entry and makes the launch its owner; in another state, or where another running launch owns the tile, it raises
TILE_STATE. TFREE commits its region; then it empties a READY entry or a partial fill that no MMA reads, and is held by a
fill under way and by an MMA that reads the tile; a TFREE that was held commits no more. That a kill of its region finds the entry again is log 66's too. TSTAT delivers the status word. TWAIT goes on unless the tile fills or drains, and is held then. WSREF delivers the bank, and
outside DET the phase with a free number of clocks left (DESIGN CHOICE, log 9). -/
def Obligations.TileTable : Prop :=
  FindsTile ∧
  (∀ s cx t a old c0, Issues s { Desc.split [(Opnd.srcS a).many 4] with
      recomp := false, ok := a.toNat % 4 == 0 && decide (regNo a ≤ 60) } cx → cx.findTile t.toNat = .ok (old, c0) →
    (old.foreign cx.st.launch = true → exec (.tdsc t a) s = faultsOn cx c0 (Exn.plain .tileState)) ∧
    (old.foreign cx.st.launch = false → descriptor (cx.word a) old = none →
      exec (.tdsc t a) s = faultsOn cx c0 (Exn.plain .illegalOperand)) ∧
    ∀ v, old.foreign cx.st.launch = false → descriptor (cx.word a) old = some v →
      (v.top > cx.la.record.plaza → exec (.tdsc t a) s = faultsOn cx c0 (Exn.plain .aperture)) ∧
      (v.top ≤ cx.la.record.plaza →
        (old.st = .empty → exec (.tdsc t a) s = .next (if cx.st.isReplay then c0
          else c0.setTile t.toNat true { v with owner := some cx.st.launch }).finish) ∧
        (old.st ≠ .empty → exec (.tdsc t a) s = faultsOn cx c0 (Exn.plain .tileState)))) ∧
  (∀ s cx t v c0, Issues s { Desc.split [] with commits := true, recomp := false } cx →
    (if cx.sp.serial.isSome then v = cx.tile t.toNat ∧ c0 = cx
      else cx.findTile t.toNat = .ok (v, c0) ∧ v.foreign cx.st.launch = false) →
    let busy := fun (c : Cx) => (c.tile t.toNat).st = .filling ∧ (c.tile t.toNat).part = false ∨ c.s.tileInUse cx.st.cl t.toNat = true
    let waits := fun (c : Cx) => cx.onStop (.wait { c with sp := { c.sp with serial := some c.st.stamp } } (.tile t.toNat))
    let frees := fun (c : Cx) => (c.setTile t.toNat false { v with st := .empty, part := false }).finish
    (v.st = .empty ∨ v.st = .draining → exec (.tfree t) s = faultsOn cx c0 (Exn.plain .tileState)) ∧
    ∀ c1, v.st = .ready ∨ v.st = .filling → (if cx.sp.serial.isSome then c1 = c0 else cx.commitTile c0 = .ok c1) →
      (cx.st.isReplay = true → exec (.tfree t) s = .next c1.finish) ∧
      (cx.st.isReplay = false → busy c1 → exec (.tfree t) s = .next (waits c1)) ∧
      (cx.st.isReplay = false → ¬busy c1 → exec (.tfree t) s = .next (frees c1))) ∧
  (∀ s cx d t v c0, Issues s (Desc.split [(Opnd.dstS d).pending]) cx → cx.findTile t.toNat = .ok (v, c0) →
    (v.foreign cx.st.launch = true → exec (.tstat d t) s = faultsOn cx c0 (Exn.plain .tileState)) ∧
    ∀ c1, v.foreign cx.st.launch = false → c0.writeS (regNo d) (v.word cx.st.launch) = .ok c1 →
      exec (.tstat d t) s = .next c1.finish) ∧
  (∀ s cx t v c0, Issues s (Desc.split []) cx → cx.findTile t.toNat = .ok (v, c0) → v.foreign cx.st.launch = false →
    let waits := cx.st.isReplay = false ∧ (v.st = .draining ∨ v.st = .filling ∧ v.part = false)
    (¬waits → exec (.twait t) s = .next c0.finish) ∧ (waits → exec (.twait t) s = .next (cx.holdAt (.tile t.toNat)))) ∧
  ∀ s cx d a c1, Issues s (Desc.split [(Opnd.srcS a).pair, (Opnd.dstS d).pending]) cx →
    let x := (cx.scalar64 (regNo a)).toNat
    x / 2 ^ 60 = 3 → x / 2 ^ 54 % 64 = 0 → x / 2 ^ 28 % 2 ^ 24 = 0 →
    (cx.la.det = true → cx.writeS (regNo d) (BitVec.ofNat 32 (x / 2 ^ 10 % 32)) = .ok c1 →
      exec (.wsref d a) s = .next c1.finish) ∧
    (cx.la.det = false → ∃ r, r < 8192 ∧ ∀ c2,
      ({ cx with s := cx.s.bump } : Cx).writeS (regNo d) (BitVec.ofNat 32
        (r * 65536 + Sp.get 0 cx.s.wsPhase (x / 2 ^ 52 % 4) % 32 * 256 + x / 2 ^ 10 % 32)) = .ok c2 →
      exec (.wsref d a) s = .next c2.finish)

/-- TLD and TST (R152, R165, R376): with their checks passed, a flag with room, room in the copy engine and every sector
translated, the tile is FILLING (DRAINING) and an operation is in flight whose bytes are those of the tile's sectors. A TLD that names
the fill of a PARTIAL tile again brings the sectors that the tile lacks. Where a sector does not translate, the sectors below it are in
the tile, which is FILLING and PARTIAL, and the fault names them. Where a read meets an uncorrectable error, the sectors below it come
and the operation brings the fault (R266); a drain goes on past a sector that another package does not answer (R271). A selected wave
retains the granules of the Plaza that are read, and a read outside the sealed ranges makes it unverifiable (R201); TST's bytes are in
the digest (R202). A replay takes them from its log and changes no tile and no memory (R203). That the bytes are read at issue and
written at completion is the model's reading (DEDUCED, log 7), that the sectors below a fault are written at once too (DEDUCED, log
35), and that a replay finds its tiles in the log (DESIGN CHOICE, log 66). -/
def Obligations.TileTransfers : Prop :=
  (∀ s cx t a (r f : BitVec 1) v c0 c1 c2 ps' errs, Issues s { Desc.split [(Opnd.srcS a).evenMany 3] with
      recomp := false, flag := some (f == 1), ok := decide (regNo a ≤ 60) } cx →
    let tr := r == 1
    let base := cx.scalar64 (regNo a)
    let stride := cx.scalar (regNo a + 2)
    let n := v.sectors tr
    let again := v.st = .filling ∧ v.part = true ∧ v.addr = base ∧ v.stride = stride ∧ v.tr = tr
    let done := if v.st = .filling then v.done else 0
    cx.findTile t.toNat = .ok (v, c0) → v.foreign cx.st.launch = false → v.st = .empty ∨ again →
    c0.checkSectors v tr false base stride = .ok () → c0.flagRoom (cx.flagOf (f == 1)) = .ok () →
    cx.s.copyRoom cx.st.cl cx.st.core = true → c0.mapWs [base] = .ok c1 →
    c1.reachSectors v tr false base stride (if tr then colOrient v.width else .row)
      ((List.range n).filter fun i => !done.getLsbD i) = (c2, ps', errs) →
    let ecc := c2.badSector v tr base stride ps' errs
    let ps := match ecc with
      | some e => ps'.filter fun p => decide (p.1 < e.1)
      | none => ps'
    let bytes := c2.sectorBytes v tr base stride ps
    let c3 : Cx := if cx.st.selected = true ∧ tagOf base = 0 ∧ ∃ b ∈ bytes, c2.la.sealedAt b.1 1 = false then
      { c2 with st := { c2.st with unverif := true } } else c2
    let gs := if tagOf base = 1 then granules (bytes.map fun b => (b.1, b.2.2)) else []
    let err := if ecc.isSome then none else errs.head?
    let got := done ||| doneBits (ps.map (·.1))
    let fill := { v with st := .filling, done := done, nsec := n, addr := base, stride := stride, tr := tr, part := false }
    let part := { fill with done := got, part := true }
    let fault := fun (e : Exn) => { e with mask := some (got.setWidth 96 ||| ((part.word cx.st.launch).setWidth 96 <<< 32)) }
    let out := bytes.map fun b => (c3.plazaKey b.2.1, b.2.2)
    (cx.st.isReplay = false → let c4 := c3.logGranules gs
      (∀ c5, err = none → let c := c4.setTile t.toNat true fill
        c.launchOp (cx.flagOf (f == 1)) { Op.blank c (.tileFill t.toNat out 0) with
          trans := [(got.toNat, n)], fault := ecc.map (·.2) } = .ok c5 →
        exec (.tld t a r f) s = .next c5.finish) ∧
      ∀ e, err = some e → c4.st.faulting c4.sp.num = false →
        let c := (c4.setTile t.toNat true part).onState fun s => s.engineWrite cx.st.launch cx.id
          (c4.setTile t.toNat true part).st.stamp (out.map fun b => ({ space := .plaza, key := b.1 }, b.2))
        exec (.tld t a r f) s = .next (cx.onStop (.after (cx.refind c e.2) (fault e.2)))) ∧
    (cx.st.isReplay = true → ∀ g c4, c3.takeGranules gs = .ok (g, c4) →
      (err = none → exec (.tld t a r f) s = .next c4.finish) ∧
      ∀ e, err = some e → exec (.tld t a r f) s = faultsOn cx c4 (fault e.2))) ∧
  ∀ s cx t a (f : BitVec 1) v c0 c1 c2 ps errs, Issues s { Desc.split [(Opnd.srcS a).evenMany 3] with
      recomp := false, commits := true, flag := some (f == 1), ok := decide (regNo a ≤ 60) } cx →
    let base := cx.scalar64 (regNo a)
    let stride := cx.scalar (regNo a + 2)
    let n := v.sectors false
    cx.findTile t.toNat = .ok (v, c0) → v.foreign cx.st.launch = false → v.admits false = true →
    (cx.st.isReplay = true ∨ c0.tileBusy t.toNat = false) → c0.checkSectors v false true base stride = .ok () →
    c0.flagRoom (cx.flagOf (f == 1)) = .ok () → cx.s.copyRoom cx.st.cl cx.st.core = true → cx.commitTile c0 = .ok c1 →
    c1.reachSectors v false true base stride (if v.orient then colOrient v.width else .row) (List.range n) =
      (c2, ps, errs) →
    let place := fun (o : Nat) => ({ space := .plaza, key := c2.plazaKey o } : Place)
    let bad := ps.any fun p => (v.sector false p.1).any fun b => c2.badAt (place b.2) 1
    let out := ps.flatMap fun p => (v.sector false p.1).map fun b =>
      (v.sectorAddr false base stride p.1 + BitVec.ofNat 64 b.1, p.2.plus b.1, c2.s.viewPlace c2.st (place b.2))
    let gs := granules (out.map fun b => (b.1, b.2.2))
    let soft := ∀ e ∈ errs, e.2.link.isSome = true
    (∀ e, errs.find? (fun e => e.2.link.isNone) = some e → c2.st.faulting c2.sp.num = false →
      exec (.tst t a f) s = .next (cx.onStop (.after { cx.refind c2 e.2 with ckpt := false } e.2))) ∧
    (soft → cx.st.isReplay = true → ∀ g c3, c2.takeGranules gs = .ok (g, c3) →
      exec (.tst t a f) s = .next (Cx.finish { c3 with st := c3.st.fold g })) ∧
    (soft → cx.st.isReplay = false → let c3 := c2.logGranules gs
      let c := Cx.setTile { c3 with st := c3.st.fold gs } t.toNat false { v with st := .draining, done := 0, nsec := n }
      let trans := ps.filterMap fun p => let a := v.sectorAddr false base stride p.1
        if tagOf a = 0 then some (a.toNat / 4096, 4 * (p.2.key / 4096) + (if c.cached .write a then 0 else 2)) else none
      ∀ c4, c.launchOp (cx.flagOf (f == 1)) { Op.blank c (.tileDrain t.toNat (if bad then [] else out.map (·.2))) with
          trans := trans, fault := if bad then some (Exn.ecc 3 base) else errs.head?.map (·.2) } = .ok c4 →
        exec (.tst t a f) s = .next c4.finish)

/-- CPY and CQBAR (R79-R81, R319, R320). A copy between two shapes of one element type and the same
extents, whose addresses pass, that overlaps no copy of another queue (COPY_OVERLAP if it does), whose pages translate and whose destination no sealed range meets
(PERMISSION if one does), maps the weight stores that it reads (R146), is put in its queue and starts;
shapes that differ raise ILLEGAL_OPERAND. A destination in the weight store of a die that a launch has mapped raises WS_WRITE,
and one in any die's raises DET_VIOLATION in a DET launch. CQBAR puts one barrier over the masked queues of the core; a mask of 0
does nothing and one above 0xFF raises ILLEGAL_OPERAND. Two points are the model's: a source outside the sealed ranges leaves the
wave verifiable (DEDUCED, log 55), and only the wave's own CQBARs separate its copies in DET (DESIGN CHOICE, log 60). -/
def Obligations.Copies : Prop :=
  (∀ s cx d a' (q : BitVec 3) (f : BitVec 1) ha c1 hd c2 src c3 dst c4,
    Issues s { Desc.split [.srcS a', .srcS d] with recomp := false, flag := some (f == 1) } cx →
    cx.readS (regNo a') = .ok (ha, c1) → c1.readS (regNo d) = .ok (hd, c2) → c2.handle ha = .ok (src, c3) →
    c3.handle hd = .ok (dst, c4) →
    (src.etype ≠ dst.etype ∨ src.ndim ≠ dst.ndim ∨ src.dims ≠ dst.dims →
      exec (.cpy d a' q f) s = faultsOn cx c4 (Exn.plain .illegalOperand)) ∧
    (src.etype = dst.etype → src.ndim = dst.ndim → src.dims = dst.dims →
      (src.ndim = 1 → src.layout = 0 ∧ dst.layout = 0) → c4.checkElems src.width src.elems = .ok () →
      c4.checkElems src.width dst.elems = .ok () →
      let dies := (List.range 4).filter fun k => dst.elems.any fun a => tagOf a == 3 && a.toNat / 2 ^ 52 % 4 == k
      let mapped := ∃ k ∈ dies, ∃ l ∈ c4.s.launches, k ∈ l.2.wsMaps
      (mapped → exec (.cpy d a' q f) s = faultsOn cx c4 (Exn.plain .wsWrite)) ∧
      (¬mapped → dies ≠ [] → c4.la.det = true → exec (.cpy d a' q f) s = faultsOn cx c4 (Exn.plain .detViolation)) ∧
      (¬mapped → (dies = [] ∨ c4.la.det = false) →
      let x := extent src.width (dst.elems.map c4.plain)
      let overlap := if c4.la.det then overlapDet c4.id q.toNat x c4.la.overlap
        else c4.s.overlapFree c4.st.launch c4.st.coreNo q.toNat x c4.s.copyq
      (overlap = true → exec (.cpy d a' q f) s = faultsOn cx c4 (Exn.plain .copyOverlap)) ∧
      ∀ m1 c5 m2 c6, overlap = false → c4.flagRoom (c4.flagOf (f == 1)) = .ok () →
        c4.s.copyRoom c4.st.cl c4.st.core = true →
        c4.translatePages .read (pagesOf src.elems) = .ok (m1, c5) →
        c5.translatePages .write (pagesOf dst.elems) = .ok (m2, c6) →
        (∀ a, dst.elems.find? (fun a => tagOf a == 0 && c6.s.isSealed a src.width) = some a →
          exec (.cpy d a' q f) s = faultsOn cx c6 (Exn.at .permission a)) ∧
        ∀ c7, (∀ a ∈ dst.elems, tagOf a = 0 → c6.s.isSealed a src.width = false) →
        c6.mapWs (src.elems.filter fun a => tagOf a == 3) = .ok c7 →
        (c7.st.isReplay = true → exec (.cpy d a' q f) s = .next c7.finish) ∧
        ∀ c8, c7.st.isReplay = false →
        let trans := m2.foldl (fun m p => Tab.put m p.1 p.2) (m1.foldl (fun m p => Tab.put m p.1 p.2) [])
        c7.launchOp (c7.flagOf (f == 1)) { Op.blank c7 (.copy q.toNat src dst dies) with trans := trans } = .ok c8 →
        ∃ c : Cx, exec (.cpy d a' q f) s = .next c.finish ∧ c.s.ops = c8.s.ops ∧ c.st = c8.st ∧ c.s.mem = c8.s.mem ∧
          c.s.copyq = c8.s.copyq ++ [.copy c7.s.nextId c4.st.coreNo q.toNat]))) ∧
  ∀ s cx a x c1, Issues s { Desc.split [.srcS a] with recomp := false } cx → cx.readS (regNo a) = .ok (x, c1) →
    (256 ≤ x.toNat → exec (.cqbar a) s = faultsOn cx c1 (Exn.plain .illegalOperand)) ∧
    (x = 0 → exec (.cqbar a) s = .next c1.finish) ∧
    (x ≠ 0 → x.toNat < 256 → c1.st.isReplay = false →
      ∃ c : Cx, exec (.cqbar a) s = .next c.finish ∧ c.st = c1.st ∧ c.s.ops = c1.s.ops ∧ c.s.mem = c1.s.mem ∧
        c.s.copyq = c1.s.copyq ++ [.barrier c1.st.coreNo (BitVec.ofNat 8 x.toNat)])

/-- The matrix units (R75-R78, R306-R308, R336-R343), which MCC streams alone use. ACLR (R306) is the word 0x7000_0000 plus
32768 times the accumulator; without a live lease it raises NO_LEASE, an earlier MMA on its accumulator holds it, and then
every element is 0, with the lease's count as it was. MREL (R77, R343) checks its token once, is held by operations of the
lease, and ends the lease; the release is as good where the count has ended it meanwhile. MLEASE is held
with its request until the arbiter has granted the units, and then delivers the token. MMA and MMAS take one operation of
the lease and start; ADRN starts the fill of its tile with the rounded elements. Elsewhere than on the MCC each raises
ILLEGAL_INSTRUCTION. That ADRN reads and rounds at issue and fills at completion is the model's reading (DEDUCED, log 7), and so
is that a live lease is the stream's own (DEDUCED, log 38). -/
def Obligations.MatrixUnits : Prop :=
  (∀ d : BitVec 4, encode (.aclr d) = BitVec.ofNat 32 (0x70000000 + 32768 * d.toNat) ∧
    decodeWord (BitVec.ofNat 32 (0x70000000 + 32768 * d.toNat)) = some (.aclr d)) ∧
  (∀ s cx d, Cx.load s = some cx → cx.st.isMcc = false →
    exec (.aclr d) s = .next (cx.takeFault (Exn.plain .illegalInstruction)) ∧
    (∀ a, exec (.mrel a) s = .next (cx.takeFault (Exn.plain .illegalInstruction))) ∧
    (∀ e a, exec (.mlease e a) s = .next (cx.takeFault (Exn.plain .illegalInstruction))) ∧
    (∀ a b, exec (.mma d a b) s = .next (cx.takeFault (Exn.plain .illegalInstruction)) ∧
      exec (.mmas d a b) s = .next (cx.takeFault (Exn.plain .illegalInstruction))) ∧
    ∀ t, exec (.adrn t d) s = .next (cx.takeFault (Exn.plain .illegalInstruction))) ∧
  (∀ s cx (d : BitVec 4), Issues s (Desc.mccOnly []) cx →
    (cx.lease = none → exec (.aclr d) s = .next (cx.takeFault (Exn.plain .noLease))) ∧
    (∀ l, cx.lease = some l → cx.s.mxuBusy cx.id (some d.toNat) = true →
      exec (.aclr d) s = .next (cx.holdAt .mxu)) ∧
    (∀ l, cx.lease = some l → cx.s.mxuBusy cx.id (some d.toNat) = false →
      ∃ accs, exec (.aclr d) s = .next (Cx.finish { cx with
          s := cx.s.putCluster cx.st.cl { cx.s.cluster cx.st.cl with accs := accs } }) ∧
        (∀ i j, i < 64 → j < 64 → Sp.get 0 accs (accKey d.toNat i j) = 0) ∧
        ∀ b i j, i < 64 → j < 64 → b ≠ d.toNat →
          Sp.get 0 accs (accKey b i j) = Sp.get 0 (cx.s.cluster cx.st.cl).accs (accKey b i j))) ∧
  (∀ s cx a x c1, Issues s (Desc.mccOnly [.srcS a]) cx → cx.sp.serial = none → cx.readS (regNo a) = .ok (x, c1) →
    (∀ l, cx.lease = some l → l.token = x → c1.s.mxuBusy c1.id none = false →
      exec (.mrel a) s = .next (c1.setLease none).finish) ∧
    (∀ l, cx.lease = some l → l.token = x → c1.s.mxuBusy c1.id none = true → exec (.mrel a) s =
      .next (cx.onStop (.wait { c1 with sp := { c1.sp with serial := some c1.st.stamp } } .mxu))) ∧
    ((∀ l, cx.lease = some l → l.token ≠ x) → exec (.mrel a) s = faultsOn cx c1 (Exn.plain .illegalOperand))) ∧
  (∀ s cx a, Issues s (Desc.mccOnly [.srcS a]) cx → cx.sp.serial ≠ none →
    (cx.s.mxuBusy cx.id none = false →
      exec (.mrel a) s = .next (if cx.lease = none then cx else cx.setLease none).finish) ∧
    (cx.s.mxuBusy cx.id none = true → exec (.mrel a) s =
      .next (cx.onStop (.wait { cx with sp := { cx.sp with serial := some cx.st.stamp } } .mxu)))) ∧
  (∀ s cx d a n c1 c2, Issues s (Desc.mccOnly [.srcS a, .dstS d]) cx → cx.readS (regNo a) = .ok (n, c1) →
    1 ≤ n.toNat → n.toNat ≤ 4096 →
    (∀ l, (cx.s.cluster cx.st.cl).lease = some l → l.stream = cx.id → l.taken = false →
      (c1.setLease (some { l with taken := true })).writeS (regNo d) l.token = .ok c2 →
      exec (.mlease d a) s = .next c2.finish) ∧
    ((∀ l, (cx.s.cluster cx.st.cl).lease = some l → l.stream ≠ cx.id) → exec (.mlease d a) s =
      .next (cx.onStop (.wait (cx.onState fun s => s.askLease cx.id n.toNat) .lease)))) ∧
  (∀ s cx d a b l c1 (scaled : Bool), Issues s (Desc.mccOnly []) cx → cx.lease = some l → l.left ≠ 0 →
    let ta := cx.tile a.toNat
    let tb := cx.tile b.toNat
    ta.foreign cx.st.launch = false → tb.foreign cx.st.launch = false →
    (scaled = true → (cx.tile ta.pair).foreign cx.st.launch = false ∧ (cx.tile tb.pair).foreign cx.st.launch = false) →
    cx.mmaOk scaled ta tb = true → ta.st = .ready → tb.st = .ready →
    let c := cx.setLease (some { l with left := l.left - 1 })
    let w := if ta.ty.isB8 then 32 else 16
    c.launchOp none (Op.blank c (.mma d.toNat a.toNat b.toNat scaled 0 ((ta.cols + w - 1) / w) 0 false)) = .ok c1 →
    exec (if scaled then .mmas d a b else .mma d a b) s = .next c1.finish) ∧
  ∀ s cx t a l, Issues s (Desc.mccOnly []) cx → cx.lease = some l →
    let v := cx.tile t.toNat
    v.st = .empty → v.owner = some cx.st.launch → v.kind ≠ 1 → cx.s.mxuBusy cx.id (some a.toNat) = false →
    let elem := fun (r c : Nat) =>
      drainElem v.ty (cx.rounding r c) (Sp.get 0 (cx.s.cluster cx.st.cl).accs (accKey a.toNat r c))
    ∃ (c : Cx) (n : Nat) (o : Op) (bytes : List (Nat × Byte)) (fl : BitVec 6), exec (.adrn t a) s = .next c.finish ∧
      c.s.op? n = some o ∧ o.kind = .tileFill t.toNat bytes fl ∧
      c.tile t.toNat = { v with st := .filling, part := false, done := 0, nsec := (c.tile t.toNat).nsec } ∧
      c.lease = some l ∧
      (∀ r k i, r < v.rows → k < v.cols → i < v.width →
        (cx.plazaKey (v.elem r k + i), (BitVec.ofNat 8 ((elem r k).1 / 256 ^ i) : Byte)) ∈ bytes) ∧
      ∀ k, fl.getLsbD k = true → ∃ r j, r < v.rows ∧ j < v.cols ∧ (elem r j).2.getLsbD k = true

/-! ## Synchronisation (R33-R42, R68-R73, R272, R273, R310, R311, R317, R328, R345, R347, R349) -/

/-- Named barriers and quarters, outside a replay (R33-R37, R310, R311, R328). JOIN and LEAVE add the stream to a quarter and
remove it; a JOIN of a member and a LEAVE of another change nothing. A barrier bound to the quarter expects one more at a JOIN
if it is a membership barrier, and one fewer, without the arrivals of the wave, at a LEAVE. BARA commits and arrives; BARS then
waits; BARW waits for a phase and ignores a free barrier. A malformed operand, a use by a wave that is no member and a barrier
bound otherwise raise ILLEGAL_OPERAND. A wave has arrived when each of its splits has; an arrival past that is held or counts
early. A barrier whose arrivals reach its expected number turns its phase: the early arrivals open the next, and without any the
barrier is free again (DEDUCED, log 37, the model's reading). -/
def Obligations.Barriers : Prop :=
  (∀ s cx q, Issues s { Desc.split [] with recomp := false } cx → cx.st.isReplay = false →
    exec (.join q) s = .next (cx.onState fun s =>
      (s.putBay cx.st.launch cx.st.cl ((s.bay cx.st.launch cx.st.cl).join q.toNat cx.id)).settle).finish ∧
    exec (.leave q) s = .next (cx.onState fun s =>
      (s.putBay cx.st.launch cx.st.cl ((s.bay cx.st.launch cx.st.cl).leave q.toNat cx.id)).settle).finish) ∧
  (∀ (c : Bay) (q sid : Nat),
    (sid ∈ c.members q → c.join q sid = c) ∧ (sid ∉ c.members q → c.leave q sid = c) ∧
    (∀ x, x ∈ (c.join q sid).members q ↔ x = sid ∨ x ∈ c.members q) ∧
    (∀ x, x ∈ (c.leave q sid).members q ↔ x ≠ sid ∧ x ∈ c.members q) ∧
    (c.join q sid).hwq = c.hwq ∧ (c.leave q sid).hwq = c.hwq ∧
    (∀ p, p ≠ q → (c.join q sid).members p = c.members p ∧ (c.leave q sid).members p = c.members p) ∧
    ∀ k, let b := c.barrier k
      (sid ∉ c.members q → (c.join q sid).barrier k = if b.bound = true ∧ b.quarter = q then
        (if b.decl = 0 then { b with expected := b.expected + 1 } else b).complete ((c.members q).length + 1) else b) ∧
      (sid ∈ c.members q → (c.leave q sid).barrier k = if b.bound = true ∧ b.quarter = q then
        Barrier.complete { b with
          expected := b.expected - 1, kept := b.kept - 1, arrived := b.arrived.filter (· ≠ sid),
          partly := b.partly.filter (·.1 ≠ sid), early := b.early.filter (· ≠ sid),
          earlyPart := b.earlyPart.filter (·.1 ≠ sid) } ((c.members q).filter (· ≠ sid)).length else b)) ∧
  (∀ s cx a b x c1, cx.st.isReplay = false → cx.readS (regNo a) = .ok (x, c1) →
    let n := x.toNat
    let name : BarName := { quarter := n % 16, decl := n / 256 % 256, key := n % 4 * 128 + b.toNat }
    let bar := c1.barrierAt name
    let member := cx.id ∈ c1.bay.members name.quarter
    let fits := bar.bound = true → bar.quarter = name.quarter ∧ bar.decl = name.decl
    let full := bar.bind name (c1.bay.members name.quarter).length
    let bad := faultsOn cx c1 (Exn.plain .illegalOperand)
    (Issues s (Desc.barrier a true) cx →
      (n / 16 % 16 ≠ 0 ∨ n / 65536 ≠ 0 ∨ ¬member ∨ ¬fits → exec (.bara a b) s = bad ∧ exec (.bars a b) s = bad) ∧
      (n / 16 % 16 = 0 → n / 65536 = 0 → member → fits →
        (full.arrive cx.id cx.sp.num (c1.st.vis.splits.map (·.num)) = none →
          exec (.bara a b) s = .next (cx.holdAt (.barrierArrive name.key full.phase)) ∧
          exec (.bars a b) s = .next (cx.holdAt (.barrierArrive name.key full.phase))) ∧
        ∀ b' c2, full.arrive cx.id cx.sp.num (c1.st.vis.splits.map (·.num)) = some b' → c1.commit = .ok c2 →
          exec (.bara a b) s = .next (c2.putBarrier name b').finish ∧
          (∀ c3, (c2.putBarrier name b').waitBarrier name (full.phaseOf cx.id) = .ok c3 →
            exec (.bars a b) s = .next c3.finish) ∧
          ∀ c3 h, (c2.putBarrier name b').waitBarrier name (full.phaseOf cx.id) = .error (.wait c3 h) →
            exec (.bars a b) s = .next (cx.onStop (.wait c3 h)))) ∧
    (Issues s (Desc.barrier a false) cx →
      (n / 16 % 16 ≠ 0 ∨ n / 65536 ≠ 0 ∨ ¬member ∨ ¬fits → exec (.barw a b) s = bad) ∧
      (n / 16 % 16 = 0 → n / 65536 = 0 → member →
        (bar.bound = false → exec (.barw a b) s = .next c1.finish) ∧
        (bar.bound = true → fits →
          let early := bar.early.contains cx.id || bar.earlyPart.contains (cx.id, cx.sp.num)
          ∀ c3 h, c1.waitBarrier name (if early then bar.phase + 1 else bar.phase) = .error (.wait c3 h) →
            exec (.barw a b) s = .next (cx.onStop (.wait c3 h)))))) ∧
  (∀ (b : Barrier) (sid k : Nat) (splits : List Nat),
    let here := b.partly ++ [(sid, k)]
    (sid ∉ b.arrived → (sid, k) ∈ b.partly → b.arrive sid k splits = none) ∧
    (sid ∉ b.arrived → (sid, k) ∉ b.partly →
      ((∀ j ∈ splits, (sid, j) ∈ here) → b.arrive sid k splits =
        some { b with arrived := b.arrived ++ [sid], partly := here.filter (·.1 ≠ sid) }) ∧
      (¬(∀ j ∈ splits, (sid, j) ∈ here) → b.arrive sid k splits = some { b with partly := here })) ∧
    (sid ∈ b.arrived → (sid ∈ b.early ∨ (sid, k) ∈ b.earlyPart) → b.arrive sid k splits = none) ∧
    (sid ∈ b.arrived → sid ∉ b.early → (sid, k) ∉ b.earlyPart → ∃ b', b.arrive sid k splits = some b' ∧
      b'.arrived = b.arrived ∧ b'.partly = b.partly ∧
      ((∀ j ∈ splits, (sid, j) ∈ b.earlyPart ++ [(sid, k)]) → b'.early = b.early ++ [sid]))) ∧
  ∀ (b : Barrier) (members : Nat), b.bound = true →
    let next := if b.decl = 0 then members else b.kept
    let stays := b.waiting.filter fun e => decide (b.phase < e.2.2)
    (b.arrived.length ≠ b.expected → b.complete members = b) ∧
    (b.arrived.length = b.expected → b.early = [] → b.earlyPart = [] → stays = [] →
      (b.complete members).phase = b.phase + 1 ∧ (b.complete members).bound = false) ∧
    (b.arrived.length = b.expected → (b.early ≠ [] ∨ b.earlyPart ≠ []) → (b.early = [] ∨ b.early.length ≠ next) →
      b.complete members = { b with
        phase := b.phase + 1, arrived := b.early, partly := b.earlyPart, early := [], earlyPart := [], waiting := stays,
        expected := next, bound := true })

/-- QCFG, POST, OCCQ and COLL (R39, R41, R68-R73, R272, R273, R317, R345, R347, R349). QCFG maps a port to a queue, or unmaps
it; a bad field, and in a DET launch a direction another stream holds, raise QUEUE_CONFIG, and the latter makes the launch end
badly whatever a handler does; a vector code in D is QUEUE_CONFIG on a wave and illegal on the MCC. POST writes 1 and holds the
card until the commit, or writes 0 past the quota (DET) or where the stage queue is full; outside a ROUTED launch it raises
ROUTE; in DET its first card to a queue reserves the quota there. The numbers a card carries and what fills a queue are the
model's reading (DEDUCED, log 36). OCCQ reads the object's bit, at issue (DEDUCED, log 6), a replay
from its log; in a ROUTED launch without an occlusion table it raises ROUTE as well. COLL starts one collective of its group, numbered
in order, and maps the weight stores that it reads; a destination that a sealed range meets raises PERMISSION, and a scope but 8 and
10, one of 12 to 15 too, ILLEGAL_OPERAND (DEDUCED, log 19). -/
def Obligations.PortsCardsCollectives : Prop :=
  (∀ s cx d a x c1, Issues s { Desc.split [.srcS a] with recomp := false } cx → 112 ≤ d.toNat → d.toNat ≤ 119 →
    cx.readS (regNo a) = .ok (x, c1) →
    let n := x.toNat
    let port := d.toNat - 112
    let dir := n / 32 % 4
    let pop := dir ≠ 2
    let push := dir ≠ 1
    (n ≥ 512 ∨ n / 128 % 2 = 1 ∨ dir = 3 → exec (.qcfg d a) s = faultsOn cx c1 (Exn.plain .queueConfig)) ∧
    (256 ≤ n → n < 512 → n / 128 % 2 = 0 → dir ≠ 3 → exec (.qcfg d a) s = .next (Cx.finish { c1 with
      st := { c1.st with vis := { c1.st.vis with ports := Tab.del c1.st.vis.ports port } } })) ∧
    (n < 128 → dir ≠ 3 →
      let other := fun (k : Nat) => ∃ o, Tab.get? c1.la.claims (claimKey c1.st.cl (n % 32) k) = some o ∧ o ≠ cx.id
      let taken := c1.la.det = true ∧ c1.st.isReplay = false ∧ (pop ∧ other 0 ∨ push ∧ other 1)
      (taken → exec (.qcfg d a) s = .next (cx.onStop (.after { c1 with
        s := c1.s.onLaunch c1.st.launch fun la => { la with bad := true } } (Exn.plain .queueConfig)))) ∧
      (¬taken → ∃ c : Cx, exec (.qcfg d a) s = .next c.finish ∧ c.st = { c1.st with vis := { c1.st.vis with
        ports := Tab.put c1.st.vis.ports port
          { queue := n % 32, pop := decide pop, push := decide push } } } ∧
        c.s.mem = c1.s.mem ∧ c.s.clusters = c1.s.clusters))) ∧
  (∀ s cx d a, Issues s { Desc.split [.srcS a] with recomp := false } cx → d.toNat < 112 ∨ 119 < d.toNat →
    (isVec d = true → cx.st.isMcc = false) → exec (.qcfg d a) s = .next (cx.takeFault (Exn.plain .queueConfig))) ∧
  (∀ s cx d a, Cx.load s = some cx → isVec d = true → cx.st.isMcc = true →
    exec (.qcfg d a) s = .next (cx.takeFault (Exn.plain .illegalInstruction))) ∧
  (∀ s cx d a (c : BitVec 4), Issues s { Desc.split [(Opnd.srcS a).many 8, .dstS d] with
      mcc := false, recomp := false, ok := decide (64 ≤ a.toNat ∧ a.toNat ≤ 104) && a.toNat % 8 == 0 &&
        decide (c.toNat < 4) } cx →
    let ws := (List.range 8).map fun i => cx.scalar (regNo a + i)
    let stage := (nth 0 ws 0).toNat % 65536
    let held : Cx → Nat → Card := fun cx cl =>
      { stage := stage, cl := cl, prod := cx.st.producer, seq := cx.st.postSeq + postsHeld cx.st.buffer,
        rank := cx.st.rank, words := ws }
    (cx.la.routed = false → exec (.post d a c) s = .next (cx.takeFault (Exn.plain .route))) ∧
    ∀ cl stg, cx.la.routed = true → badCard cx.la cx.st.stageOf ws = false → cx.s.postTarget cx.st.cl c.toNat = some cl →
      cx.la.stages[stage]? = some stg →
      let item : BufItem :=
        { size := 32, item := .post (held cx cl), recs := cardRecs ws, issue := 0, lane := 0, rel := none,
          cached := false, own := false }
      (cx.la.det = false → cx.flush.cardsOf cx.st.launch cx.la stage cl < stg.room →
        ∀ c1 c2, cx.buffer [item] = .ok c1 → c1.writeS (regNo d) 1 = .ok c2 → exec (.post d a c) s = .next c2.finish) ∧
      (cx.la.det = false → stg.room ≤ cx.flush.cardsOf cx.st.launch cx.la stage cl → cx.st.isReplay = false →
        let c1 : Cx := { cx with
          s := cx.s.onLaunch cx.st.launch fun la => { la with
            refused := Sp.set 0 la.refused stage (Sp.get 0 la.refused stage + 1) },
          st := { cx.st with refusals := Sp.set 0 cx.st.refusals stage (Sp.get 0 cx.st.refusals stage + 1) } }
        ∀ c2, Cx.writeS c1 (regNo d) 0 = .ok c2 → exec (.post d a c) s = .next c2.finish) ∧
      (cx.la.det = true → Sp.get 0 (postCounts cx.st.posts cx.st.buffer) stage < stg.quota → cx.st.isReplay = false →
        (cx.la.parts.any fun p => p.stage == stage && p.cl == cl && p.prod == cx.st.producer) = true →
        ∀ c1 c2, cx.buffer [item] = .ok c1 → c1.writeS (regNo d) 1 = .ok c2 → exec (.post d a c) s = .next c2.finish) ∧
      (cx.la.det = true → Sp.get 0 (postCounts cx.st.posts cx.st.buffer) stage < stg.quota → cx.st.isReplay = false →
        (cx.la.parts.any fun p => p.stage == stage && p.cl == cl && p.prod == cx.st.producer) = false →
        (cx.s.freeCards cx.st.launch cx.la stage cl stg < stg.quota →
          exec (.post d a c) s = .next (cx.holdAt (.partition stage cl))) ∧
        (stg.quota ≤ cx.s.freeCards cx.st.launch cx.la stage cl stg → ∀ c1 c2, cx.buffer [item] = .ok c1 →
          Cx.writeS { c1 with
            s := c1.s.onLaunch c1.st.launch fun la => { la with
              parts := la.parts ++ [{ stage := stage, cl := cl, prod := cx.st.producer, size := stg.quota }] },
            st := { c1.st with newParts := (stage, cl) :: c1.st.newParts } } (regNo d) 1 = .ok c2 →
          exec (.post d a c) s = .next c2.finish)) ∧
      (cx.la.det = true → stg.quota ≤ Sp.get 0 (postCounts cx.st.posts cx.st.buffer) stage → cx.st.isReplay = false →
        ∀ c2, Cx.writeS { cx with
            s := cx.s.onLaunch cx.st.launch fun la => { la with
              refused := Sp.set 0 la.refused stage (Sp.get 0 la.refused stage + 1) },
            st := { cx.st with refusals := Sp.set 0 cx.st.refusals stage (Sp.get 0 cx.st.refusals stage + 1) } }
          (regNo d) 0 = .ok c2 → exec (.post d a c) s = .next c2.finish)) ∧
  (∀ s cx d a (f : BitVec 1) (c : BitVec 4) x c1 c2 r, Issues s { Desc.split [.srcS a, (Opnd.dstS d).pending] with
      mcc := false, legal := decide (c.toNat < 12), flag := some (f == 1) } cx →
    cx.readS (regNo a) = .ok (x, c1) →
    (x.toNat ≥ 2 ^ 20 → exec (.occq d a f c) s = faultsOn cx c1 (Exn.plain .illegalOperand)) ∧
    (cx.la.routed = false ∨ cx.la.occtab = 0 → x.toNat < 2 ^ 20 → exec (.occq d a f c) s = faultsOn cx c1 (Exn.plain .route)) ∧
    (let addr := c1.la.occtab + BitVec.ofNat 64 (x.toNat / 8)
     c1.la.routed = true → c1.la.occtab ≠ 0 → x.toNat < 2 ^ 20 → c1.st.isReplay = false → cx.sp.retryOp = none →
     c1.flagRoom (c1.flagOf (f == 1)) = .ok () → c1.staticLanes 1 false [2] [(noLane, addr)] = .ok () →
     c1.reachAll .read true 1 .row [(noLane, addr)] = (c2, [r], []) →
     c2.acquireHeld c.toNat [r.place] = false →
     let v := c2.s.viewN c2.st r.place 1 / 2 ^ (x.toNat % 8) % 2
     let c3 := Cx.acquire { c2 with st := c2.st.logInput 2 1 (BitVec.ofNat 64 v) } [r.place]
     ∀ c4, c3.launchOp (c1.flagOf (f == 1)) { Op.blank c3 .occq with
       pendS := destS d 1, sres := [(regNo d, BitVec.ofNat 32 v)] } = .ok c4 →
     exec (.occq d a f c) s = .next c4.finish) ∧
    (c1.la.routed = true → c1.la.occtab ≠ 0 → x.toNat < 2 ^ 20 → c1.st.isReplay = true →
      c1.flagRoom (c1.flagOf (f == 1)) = .ok () → ∀ v c3 c4, c1.takeLog 2 = .ok (v, c3) →
      c3.launchOp (c1.flagOf (f == 1)) { Op.blank c3 .occq with
        pendS := destS d 1, sres := [(regNo d, BitVec.ofNat 32 (v.toNat % 2))] } = .ok c4 →
      exec (.occq d a f c) s = .next c4.finish)) ∧
  (∀ s cx d a (o : BitVec 3) (f : BitVec 1) (c : BitVec 4), Cx.load s = some cx → c ≠ 8 → c ≠ 10 →
    cx.illegal { Desc.split [(Opnd.srcS a).pair, .srcS d] with
      legal := decide (o.toNat < 5), recomp := false, flag := some (f == 1) } = false →
    exec (.coll d a o f c) s = .next (cx.takeFault (Exn.plain .illegalOperand))) ∧
  ∀ s cx d a (o : BitVec 3) (f : BitVec 1) (c : BitVec 4) hd c1 src c2 dst c3, Issues s { Desc.split [(Opnd.srcS a).pair, .srcS d] with
      legal := decide (o.toNat < 5), ok := c == 8 || c == 10, recomp := false, flag := some (f == 1) } cx →
    let ctl := (cx.scalar (regNo a + 1)).toNat
    let pod := c == 10
    cx.readS (regNo d) = .ok (hd, c1) →
    (65536 ≤ ctl ∨ c1.groupSize pod ≤ ctl / 64 % 1024 →
      exec (.coll d a o f c) s = faultsOn cx c1 (Exn.plain .illegalOperand)) ∧
    (ctl < 65536 → ctl / 64 % 1024 < c1.groupSize pod → (pod = true → c1.st.cl = 0) →
      (c1.la.det = true → c1.collStream = true) → c1.handle (cx.scalar (regNo a)) = .ok (src, c2) →
      c2.handle hd = .ok (dst, c3) → src.etype = dst.etype →
      collCount o.toNat (c1.groupSize pod) src.elems.length dst.elems.length = true →
      (o = 1 → src.width = 8 ∧ Ty.ofCode src.etype = some (.int 64 false) ∧ src.elems.length % 4 = 0) →
      (src.ndim = 1 → src.layout = 0) → (dst.ndim = 1 → dst.layout = 0) → c3.checkElems src.width src.elems = .ok () →
      c3.checkElems src.width dst.elems = .ok () → (∀ a ∈ dst.elems, tagOf a ≠ 3) →
      ∀ m1 c4 m2 c5, c3.flagRoom (c3.flagOf (f == 1)) = .ok () →
        c3.translatePages .read (pagesOf src.elems) = .ok (m1, c4) →
        c4.translatePages .write (pagesOf dst.elems) = .ok (m2, c5) →
        (∀ x, dst.elems.find? (fun a => tagOf a == 0 && c5.s.isSealed a src.width) = some x →
          exec (.coll d a o f c) s = faultsOn cx c5 (Exn.at .permission x)) ∧
        ∀ c6, (∀ a ∈ dst.elems, tagOf a = 0 → c5.s.isSealed a src.width = false) →
        c5.mapWs (src.elems.filter fun a => tagOf a == 3) = .ok c6 →
        (c6.st.isReplay = true → exec (.coll d a o f c) s = .next c6.finish) ∧
        ∀ c7, c6.st.isReplay = false →
        let key := if pod then 48 else c6.st.cl
        let seq := Sp.get 0 c6.la.colls key
        let trans := m2.foldl (fun m p => Tab.put m p.1 p.2) (m1.foldl (fun m p => Tab.put m p.1 p.2) [])
        let chunks := chunksOf (max src.elems.length dst.elems.length * src.width)
        c6.launchOp (c6.flagOf (f == 1)) { Op.blank c6
          (.coll o.toNat c.toNat (ctl % 64) (ctl / 64 % 1024) src dst seq chunks false []) with trans := trans } = .ok c7 →
        exec (.coll d a o f c) s = .next (Cx.finish { c7 with s := c7.s.onLaunch c7.st.launch fun la => { la with
          colls := Sp.set 0 la.colls key (seq + 1) } }))

/-! ## Graphics and adjoints (R210-R223, R230-R236, R348, R350, R353-R355, R364, R365, R378) -/

/-- The value of an exact rational. -/
def ratQ (a : Rat2) : ℚ := a.n / a.d * (2 : ℚ) ^ a.e

/-- Whether a code is that of an exact value rounded once, RNE, to a type (R126). -/
def RoundsTo (t : Ty) (q : ℚ) (c : Nat) : Prop := ∃ a : Rat2, 0 < a.d ∧ ratQ a = q ∧ c = (a.round t .rne).1

/-- The exact arithmetic of the graphics rules (R211, R214, R219, R230): sums, differences, products, quotients, order and floor are
those of the rationals, and the grid rounds to nearest, to even on a tie (R214). -/
def RationalsExact : Prop :=
  (∀ a b : Rat2, 0 < a.d → 0 < b.d →
    (0 < (a.add b).d ∧ ratQ (a.add b) = ratQ a + ratQ b) ∧ (0 < (a.sub b).d ∧ ratQ (a.sub b) = ratQ a - ratQ b) ∧
    (0 < (a.mul b).d ∧ ratQ (a.mul b) = ratQ a * ratQ b) ∧
    (b.n ≠ 0 → 0 < (a.div b).d ∧ ratQ (a.div b) = ratQ a / ratQ b) ∧
    (a.lt b = true ↔ ratQ a < ratQ b) ∧ (a.isZero = true ↔ ratQ a = 0) ∧ a.floor = ⌊ratQ a⌋ ∧
    ∀ k : Nat, let g := a.grid k
      |2 * (ratQ a * 2 ^ k - g)| ≤ 1 ∧ (|2 * (ratQ a * 2 ^ k - g)| = 1 → g % 2 = 0)) ∧
  (∀ i, ratQ (Rat2.ofInt i) = i) ∧
  ∀ x, finS x = true → (Rat2.ofS x).d = 1 ∧ ratQ (Rat2.ofS x) = numQ (valueOf .f32 x)

/-- What a lane samples (R213, R214): the coordinates and derivatives of the two kinds of filter; the index that an address mode
gives; Bil, Tri, Lod and the number of taps along a footprint; each filter's taps; and each component, the exact weighted sum of the
texels rounded once. -/
def SampleFormulas : Prop :=
  (∀ (cx : Cx) (sh : Shape) (t m d l : Nat),
    cx.sampleLane sh t m d l = sh.sample t m (cx.vec d l).toNat (cx.vec (d + 1) l).toNat (cx.derivs t d l) ∧
    (t = 3 ∨ t = 5 →
      let half := fun (i j : Nat) => (roundTo .f32 .rne (valueOf .f16 ((cx.vec (d + i) l).toNat / 2 ^ (16 * j) % 2 ^ 16))).1
      cx.derivs t d l = { ux := half 2 0, vx := half 2 1, uy := half 3 0, vy := half 3 1 })) ∧
  (∀ (i : Int) (n : Nat), 0 < n →
    (mapIndex 0 i n : Int) = i % n ∧ (mapIndex 1 i n : Int) = min (max i 0) (n - 1) ∧
    (mapIndex 2 i n : Int) = if i % (2 * n) < n then i % (2 * n) else 2 * n - 1 - i % (2 * n)) ∧
  (∀ x, finS x = true →
    let i := ⌊ratQ (Rat2.ofS x)⌋
    let a := (Rat2.ofS (subS x (intS i))).grid 8
    splitCoord x = if a = 256 then (i + 1, 0) else (i, a.toNat)) ∧
  (∀ (s : Shape) (mode m f u v : Nat),
    let p := splitCoord (subS (mulS u (intS (s.levelW m))) halfS)
    let q := splitCoord (subS (mulS v (intS (s.levelH m))) halfS)
    let tap := fun (k di dj : Nat) => ({ w := f * k, m := m, x := mapIndex mode (p.1 + di) (s.levelW m), y := mapIndex mode (q.1 + dj) (s.levelH m) } : Tap)
    s.bil mode m f u v = [tap ((256 - p.2) * (256 - q.2)) 0 0, tap (p.2 * (256 - q.2)) 1 0, tap ((256 - p.2) * q.2) 0 1,
      tap (p.2 * q.2) 1 1]) ∧
  (∀ (s : Shape) (mode u v : Nat) (lam : Int), 1 ≤ s.levels →
    let l := (min (max lam 0) (256 * ((s.levels : Int) - 1))).toNat
    s.tri mode lam u v = s.bil mode (l / 256) (256 - l % 256) u v ++
      s.bil mode (min (l / 256 + 1) (s.levels - 1)) (l % 256) u v) ∧
  (∀ r, ((valueOf .f32 r).isZero = true → lodOf r = 0) ∧
    ∀ neg l, (valueOf .f32 r).isZero = false → Lns.ofWord (lcv r).1 = .fin neg l →
      |2 * ((l : ℚ) / 16384 - lodOf r)| ≤ 1 ∧ (|2 * ((l : ℚ) / 16384 - lodOf r)| = 1 → lodOf r % 2 = 0)) ∧
  (∀ (s : Shape) (du dv : Nat),
    let x := mulS du (intS (s.levelW 0))
    let y := mulS dv (intS (s.levelH 0))
    s.reachOf du dv = sqrtS (addS (mulS x x) (mulS y y))) ∧
  (∀ big small, ((valueOf .f32 small).isZero = true → anisoCount big small = some 16) ∧
    ((valueOf .f32 small).isZero = false → finS (divS big small) = true →
      anisoCount big small = some (max 1 (min 16 ⌈numQ (valueOf .f32 (divS big small))⌉.toNat)))) ∧
  (∀ (s : Shape) (mode u v : Nat) (k : Derivs), finS u = true → finS v = true → isNanS k.ux = false → isNanS k.vx = false →
    isNanS k.uy = false → isNanS k.vy = false →
    let rx := s.reachOf k.ux k.vx
    let ry := s.reachOf k.uy k.vy
    let big := if ltS rx ry then ry else rx
    let small := if ltS rx ry then rx else ry
    let texel := fun (x n : Nat) => mapIndex mode ⌊ratQ (Rat2.ofS (mulS x (intS n)))⌋ n
    s.sample 0 mode u v k = .taps [{ w := 2 ^ 24, m := 0, x := texel u (s.levelW 0), y := texel v (s.levelH 0) }] 1 ∧
    s.sample 1 mode u v k = .taps (s.bil mode 0 256 u v) 1 ∧
    (∀ f, f = 2 ∨ f = 3 → s.sample f mode u v k = .taps (s.tri mode (lodOf big) u v) 1) ∧
    ∀ f n, f = 4 ∨ f = 5 → anisoCount big small = some n →
      let du := if ltS rx ry then k.uy else k.ux
      let dv := if ltS rx ry then k.vy else k.vx
      let at_ := fun (i x d : Nat) => addS x (mulS (subS (divS (addS (intS i) halfS) (intS n)) halfS) d)
      (∀ i, i < n → finS (at_ i u du) = true ∧ finS (at_ i v dv) = true) →
      s.sample f mode u v k =
        .taps ((List.range n).flatMap fun i => s.tri mode (lodOf (divS big (intS n))) (at_ i u du) (at_ i v dv)) n) ∧
  (∀ (s : Shape) (x : Nat),
    (Ty.ofCode s.etype = some (.int 8 false) → s.component x = .fin false (x % 256) 0 ∧ s.unit = 255) ∧
    ∀ t, t = .f32 ∨ t = .f16 ∨ t = .bf16 → Ty.ofCode s.etype = some t → s.component x = valueOf t x ∧ s.unit = 1) ∧
  ∀ (s : Shape) (ts : List Tap) (n fresh l : Nat) (vals : List Nat),
    s.tapAddrs (.taps ts n) = (ts.flatMap fun t => (List.range 4).map fun c =>
      s.base + BitVec.ofNat 64 (t.m * nth 0 s.strides 1 + t.y * nth 0 s.strides 0 + t.x * 4 * s.width + c * s.width)) ∧
    (vals.length = 4 * ts.length → (∀ x ∈ vals, (s.component x).isNan = false ∧ (s.component x).isInf = false) →
      ∀ c, c < 4 → ∃ (neg : Bool) (m : Nat) (e : Int),
        numQ (.fin neg m e) = ((ts.zipIdx).map fun k => (k.1.w : ℚ) / 2 ^ 24 * numQ (s.component (nth 0 vals (4 * k.2 + c)))).sum ∧
        nth 0 (s.results (.taps ts n) fresh l vals) c = BitVec.ofNat 32 (roundRat .f32 .rne neg m (n * s.unit) e).1)

/-- Rasterisation (R208, R209, R211): the fields of a target; snapping; the edge function and its tie rule; the fragments of a
triangle, one for each pixel of the target that is inside its three edges in positive orientation and whose depth lies in [0, 1]; what
discards a triangle, and the address of each entry; the reach of each entry, where one that meets an error is left out (R266, R271);
and what a fragment does in each mode, once another package that holds its entry answers. -/
def RasterFormulas : Prop :=
  (∀ w0 w1 w2 w3 : Nat, w1 < 2 ^ 64 →
    let pitch := w1 % 2 ^ 32
    let width := w1 / 2 ^ 32 % 2 ^ 16
    let height := w1 / 2 ^ 48
    let legal := w0 < 2 ^ 57 ∧ pitch % 8 = 0 ∧ 8 * width ≤ pitch ∧ 1 ≤ width ∧ width ≤ 16384 ∧ 1 ≤ height ∧ height ≤ 16384 ∧
      w2 ≤ 2 ∧ w3 = 0
    (¬legal → parseTarget w0 w1 w2 w3 = none) ∧
    (legal → parseTarget w0 w1 w2 w3 =
      some { base := BitVec.ofNat 64 w0, pitch := pitch, width := width, height := height, cull := w2 })) ∧
  (∀ x y z v, snapVertex x y z = some v ↔ finS x = true ∧ finS y = true ∧ finS z = true ∧
    v = { x := (Rat2.ofS x).grid 8, y := (Rat2.ofS y).grid 8, z := Rat2.ofS z } ∧
    -(2 ^ 23) ≤ v.x ∧ v.x < 2 ^ 23 ∧ -(2 ^ 23) ≤ v.y ∧ v.y < 2 ^ 23) ∧
  (∀ a b p : Int × Int, edgeFn a b p = (b.1 - a.1) * (p.2 - a.2) - (b.2 - a.2) * (p.1 - a.1) ∧
    (edgeInside a b p = true ↔ 0 < edgeFn a b p ∨ edgeFn a b p = 0 ∧ (a.2 < b.2 ∨ a.2 = b.2 ∧ a.1 < b.1))) ∧
  (∀ (a b c : Vertex) (e20 e01 area : Int), 0 < a.z.d → 0 < b.z.d → 0 < c.z.d → area ≠ 0 →
    ∃ z, RoundsTo .f32 (ratQ a.z + (e20 * (ratQ b.z - ratQ a.z) + e01 * (ratQ c.z - ratQ a.z)) / area) z ∧
      let z' := if z = 0x80000000 then 0 else z
      fragDepth a b c e20 e01 area = if z' ≤ 0x3F800000 then some z' else none) ∧
  (∀ (t : Target) (a b c : Vertex) (vis px py key : Nat),
    let area := edgeFn a.at b.at c.at
    let cut := area = 0 ∨ (t.cull = 1 ∧ area < 0) ∨ (t.cull = 2 ∧ area > 0)
    let b' := if area < 0 then c else b
    let c' := if area < 0 then b else c
    let p : Int × Int := (256 * px + 128, 256 * py + 128)
    (px, py, key) ∈ t.fragments a b c vis ↔ ¬cut ∧ px < t.width ∧ py < t.height ∧
      edgeInside a.at b'.at p = true ∧ edgeInside b'.at c'.at p = true ∧ edgeInside c'.at a.at p = true ∧
      ∃ z, fragDepth a b' c' (edgeFn c'.at a.at p) (edgeFn a.at b'.at p) |area| = some z ∧ key = 2 ^ 32 * z + vis) ∧
  (∀ (t : Target) (w : Nat → Nat) (obj : Nat),
    let snap := fun i => snapVertex (w (3 * i)) (w (3 * i + 1)) (w (3 * i + 2))
    (w 9 = 0xFFFFFFFF ∨ 2 ^ 20 ≤ obj ∨ snap 0 = none ∨ snap 1 = none ∨ snap 2 = none → t.lane w obj = []) ∧
    ∀ a b c, snap 0 = some a → snap 1 = some b → snap 2 = some c → w 9 ≠ 0xFFFFFFFF → obj < 2 ^ 20 →
      t.lane w obj = (t.fragments a b c (w 9)).map fun f =>
        (t.base + BitVec.ofNat 64 (f.2.1 * t.pitch + f.1 * 8), BitVec.ofNat 64 f.2.2)) ∧
  (∀ (cx c c' : Cx) (acc : Acc) (obj : Option (Spot × Nat)) (l : Nat) (a : Addr) (k : BitVec 64)
    (t : List (Addr × BitVec 64)) (p : Place) (e : Exn) (r : Except Exn (List Fragment × List Exn)),
    cx.reachFrags acc obj l [] = (.ok ([], []), cx) ∧
    (c.reachFrags acc obj l t = (r, c') →
      (cx.reach acc true 8 .row l a = (.ok p, c) → cx.reachFrags acc obj l ((a, k) :: t) =
        (r.map fun q => ({ entry := { place := p, addr := a, cached := c.cached acc a }, key := k, obj := obj } :: q.1, q.2), c')) ∧
      (cx.reach acc true 8 .row l a = (.error e, c) → e.code = .eccUncorrectable →
        cx.reachFrags acc obj l ((a, k) :: t) = (r.map fun q => (q.1, e :: q.2), c'))) ∧
    (cx.reach acc true 8 .row l a = (.error e, c) → e.code ≠ .eccUncorrectable →
      cx.reachFrags acc obj l ((a, k) :: t) = (.error e, c))) ∧
  (∀ (s : State) (sid mark mode : Nat) (st : Stream) (f : Fragment), s.stream? sid = some st → s.spotError f.entry = none →
    let old := s.engineN sid mark f.entry.place 8
    let t := s.arrive f.entry.cached .row f.entry.place
    let u := if mode ≠ 2 ∧ f.key.toNat < old then t.engineWrite st.launch sid mark (placeBytes f.entry.place f.key.toNat 8) else t
    let v := State.fragment sid mark mode s f
    (f.obj = none → v = u) ∧
    ∀ x b, f.obj = some (x, b) → (old < f.key.toNat → v = u) ∧
      (f.key.toNat ≤ old → u.spotError x = none → v = (u.arrive x.cached .row x.place).engineWrite st.launch sid mark
        [(x.place, u.engineByte sid mark x.place ||| BitVec.ofNat 8 (2 ^ b))])) ∧
  ∀ (cx c : Cx) (mode obj l : Nat) (fs : List (Addr × BitVec 64)), fs ≠ [] →
    let acc := if mode = 2 then Acc.read else Acc.write
    let at_ := cx.la.occtab + BitVec.ofNat 64 (obj / 8)
    cx.reachTriangle mode obj l [] = (.ok ([], []), cx) ∧
    (mode = 0 ∨ obj = 0xFFFFF → cx.reachTriangle mode obj l fs = cx.reachFrags acc none l fs) ∧
    ∀ p, mode ≠ 0 → obj ≠ 0xFFFFF → cx.reach .write true 1 .row l at_ = (.ok p, c) →
      cx.reachTriangle mode obj l fs =
        c.reachFrags acc (some ({ place := p, addr := at_, cached := c.cached .write at_ }, obj % 8)) l fs

/-- Nodes and the tests of a ray walk (R216, R218, R219): which nodes are well formed; Box; a matrix row, exact and rounded once; the
entry of an instance; and Test: the shear, the vertices, the edge values with their tie rule, t, UV and the id of a hit. -/
def RayTests : Prop :=
  (∀ k n, let f := fun hi lo => n / 2 ^ lo % 2 ^ (hi + 1 - lo)
    nodeOk k n = true ↔ f 453 449 = 0 ∧ f 511 505 = 0 ∧
      (k = 0 ∧ f 385 384 ≠ 3 ∧ f 447 441 = 0 ∨ k = 1 ∧ f 319 313 = 0 ∧ f 383 320 = 0 ∧ f 447 384 = 0 ∨
        k = 2 ∧ f 447 441 ≠ 0x7F ∧ f 389 384 = 0)) ∧
  (∀ n c, let link := n / 2 ^ 384 % 2 ^ 64
    childAddr n c = link / 64 % 2 ^ 51 * 64 + 64 * c ∧ childKind n c = link / 2 ^ (if c = 0 then 2 else 4) % 4 ∧
    nodeAxis n = link % 4) ∧
  (∀ (w : Walk) (n c : Nat), isNanS w.tmin = false → isNanS w.tbest = false →
    let inv := fun i => divS 0x3F800000 (nth 0 w.d i)
    let lo := fun i => mulS (subS (nodeWord n (6 * c + i)) (nth 0 w.o i)) (inv i)
    let hi := fun i => mulS (subS (nodeWord n (6 * c + 3 + i)) (nth 0 w.o i)) (inv i)
    let nan := fun i => isNanS (lo i) || isNanS (hi i)
    let near := fun i => if nan i then 0xFF800000 else if ltS (hi i) (lo i) then hi i else lo i
    let far := fun i => if nan i then 0x7F800000 else if ltS (lo i) (hi i) then hi i else lo i
    w.box n c = true ↔ childKind n c ≠ 3 ∧
      ∀ x ∈ [w.tmin, near 0, near 1, near 2], ∀ y ∈ [w.tbest, far 0, far 1, far 2], leS x y = true) ∧
  (∀ (n r : Nat) (v : List Nat) (one : Bool), let m := fun c => nodeWord n (4 * r + c)
    (∀ c, c < 3 → finS (m c) = true ∧ finS (nth 0 v c) = true) → (one = true → finS (m 3) = true) →
    ∃ (neg : Bool) (k : Nat) (e : Int),
      numQ (.fin neg k e) = ((List.range 3).map fun c => numQ (valueOf .f32 (m c)) * numQ (valueOf .f32 (nth 0 v c))).sum +
        (if one then numQ (valueOf .f32 (m 3)) else 0) ∧
      matRow n r v one = (roundTo .f32 .rne (.fin neg k e)).1) ∧
  (∀ (w : Walk) (n a k : Nat), w.enter n a k = { w with
    o := (List.range 3).map fun r => matRow n r w.o true, d := (List.range 3).map fun r => matRow n r w.d false,
    insts := { level := k, addr := a, id := n / 2 ^ 441 % 2 ^ 7, o := w.o, d := w.d } :: w.insts }) ∧
  (∀ (w : Walk) (n fresh kz : Nat), kz < 3 →
    let d := fun i => nth 0 w.d i
    (∀ i, i < 3 → d i % 2 ^ 31 ≤ d kz % 2 ^ 31) → (∀ i, i < kz → d i % 2 ^ 31 < d kz % 2 ^ 31) →
    let kx := if ltS (d kz) 0 then (kz + 2) % 3 else (kz + 1) % 3
    let ky := if ltS (d kz) 0 then (kz + 1) % 3 else (kz + 2) % 3
    let a := fun v i => subS (nodeWord n (3 * v + i)) (nth 0 w.o i)
    let x := fun v => subS (a v kx) (mulS (divS (d kx) (d kz)) (a v kz))
    let y := fun v => subS (a v ky) (mulS (divS (d ky) (d kz)) (a v kz))
    let z := fun v => mulS (divS 0x3F800000 (d kz)) (a v kz)
    (∀ v, v < 3 → finS (x v) = true ∧ finS (y v) = true ∧ finS (z v) = true) →
    let qx := fun v => numQ (valueOf .f32 (x v))
    let qy := fun v => numQ (valueOf .f32 (y v))
    let qz := fun v => numQ (valueOf .f32 (z v))
    let e := fun i j => qx i * qy j - qy i * qx j
    let det := e 1 2 + e 2 0 + e 0 1
    let i := if det < 0 then 2 else 1
    let j := if det < 0 then 1 else 2
    let inside := fun u v => 0 < e u v ∨ e u v = 0 ∧ (qy u < qy v ∨ qy u = qy v ∧ qx u < qx v)
    (det = 0 ∨ ¬inside 0 i ∨ ¬inside i j ∨ ¬inside j 0 → w.test n fresh = none) ∧
    (det ≠ 0 → inside 0 i → inside i j → inside j 0 → ∃ t u v, w.test n fresh = some (t, u + 65536 * v) ∧
      RoundsTo .f32 ((e 1 2 * qz 0 + e 2 0 * qz 1 + e 0 1 * qz 2) / det) t ∧
      RoundsTo .f16 (e 2 0 / det) u ∧ RoundsTo .f16 (e 0 1 / det) v)) ∧
  ∀ (w : Walk) (n fresh : Nat),
    (w.test n fresh = none → w.tested n fresh = none) ∧
    ∀ r, w.test n fresh = some r →
      ((ltS w.tmin r.1 = false ∨ ltS r.1 w.tbest = false) → w.tested n fresh = none) ∧
      (ltS w.tmin r.1 = true → ltS r.1 w.tbest = true → w.tested n fresh = some { w with
        tbest := r.1, uv := r.2, hit := n / 2 ^ 288 % 2 ^ 25 * 128 + ((w.insts.head?).map (·.id)).getD 0x7F })

/-- The walk of a ray (R218): Descend and the TRAIL bit it writes; the three visits, where SKIP at an instance of level 64 is log 40's;
Ascend, whose levels are fewer than the steps it may take; the visits under a budget; the path down to the current node; and the whole
of one lane. -/
def RayWalks : Prop :=
  (∀ t k b j, (setTrail t k b).testBit j = if j = k then b else t.testBit j) ∧
  (∀ (w : Walk) (c k : Nat) (far : Bool), w.descend c k far =
    { w with node := c, kind := k, level := w.level + 1, trail := setTrail w.trail w.level far }) ∧
  (∀ (l n : Nat) (w : Walk) (cx : Cx),
    let hit := fun c => w.skip = false ∧ w.box n c = true
    let w' := { w with skip := false }
    let near := if (nth 0 w.d (nodeAxis n)).testBit 31 then 1 else 0
    let down := fun c far => Except.ok (w'.descend (childAddr n c) (childKind n c) far, Flow.go, cx)
    (w.level = 64 → hit 0 ∨ hit 1 → Cx.visitInternal l n w cx = .ok ({ w with status := stDepth }, .stop, cx)) ∧
    (w.level ≠ 64 → hit near → Cx.visitInternal l n w cx = down near false) ∧
    (w.level ≠ 64 → ¬hit near → hit (1 - near) → Cx.visitInternal l n w cx = down (1 - near) true) ∧
    (¬hit 0 → ¬hit 1 → Cx.visitInternal l n w cx = Cx.ascend l 65 w' cx) ∧
    (w.level ≠ 64 → Cx.visitInstance l n w cx = .ok ({ w.enter n w.node w.level with
      node := n / 2 ^ 384 % 2 ^ 57, kind := 0, level := w.level + 1, trail := setTrail w.trail w.level true }, .go, cx)) ∧
    (w.level = 64 → w.skip = false → Cx.visitInstance l n w cx = .ok ({ w with status := stDepth }, .stop, cx)) ∧
    (w.level = 64 → w.skip = true → Cx.visitInstance l n w cx = Cx.ascend l 65 w' cx) ∧
    ∀ fresh, (w.tested n fresh = none → Cx.visitTriangle l n fresh w cx = Cx.ascend l 65 w cx) ∧
      ∀ w2, w.tested n fresh = some w2 →
        (∀ w3 c, Cx.ascend l 65 w2 cx = .ok (w3, .go, c) →
          Cx.visitTriangle l n fresh w cx = .ok ({ w3 with status := stHit }, .stop, c)) ∧
        ∀ w3 c, Cx.ascend l 65 w2 cx = .ok (w3, .ended, c) →
          Cx.visitTriangle l n fresh w cx = .ok ({ w3 with status := stDone }, .stop, c)) ∧
  (∀ (l k : Nat) (w : Walk) (cx : Cx), w.level ≤ 64 → Cx.ascend l (65 + k) w cx = Cx.ascend l 65 w cx) ∧
  (∀ (l k : Nat) (w : Walk) (cx : Cx),
    (w.level ≤ 1 → Cx.ascend l (k + 1) w cx = .ok (w, .ended, cx)) ∧
    (1 < w.level → ∀ n c, cx.nodeAt l w.node = .ok (n, c) →
      let up := { w with trail := setTrail w.trail (w.level - 1) false, node := bits (nodeParent n) 56 6 * 64, kind := 0,
                         level := w.level - 1 }
      (nodeOk w.kind n = false → Cx.ascend l (k + 1) w cx = .ok ({ w with status := stInvalid }, .stop, c)) ∧
      (nodeOk w.kind n = true →
        (nodeParent n = 0 → ∀ i t, w.insts = i :: t → Cx.ascend l (k + 1) w cx =
          Cx.ascend l k { w with node := i.addr, kind := 2, level := w.level - 1, o := i.o, d := i.d, insts := t } c) ∧
        (nodeParent n ≠ 0 → w.trail.testBit (w.level - 1) = true → Cx.ascend l (k + 1) w cx = Cx.ascend l k up c) ∧
        (nodeParent n ≠ 0 → w.trail.testBit (w.level - 1) = false → ∀ p c2, c.nodeAt l up.node = .ok (p, c2) →
          let o := 1 - nodeParent n % 2
          (nodeOk 0 p = false → Cx.ascend l (k + 1) w cx = .ok ({ w with status := stInvalid }, .stop, c2)) ∧
          (nodeOk 0 p = true → w.box p o = false → Cx.ascend l (k + 1) w cx = Cx.ascend l k up c2) ∧
          (nodeOk 0 p = true → w.box p o = true → Cx.ascend l (k + 1) w cx = .ok ({ w with
            node := childAddr p o, kind := childKind p o, trail := setTrail w.trail (w.level - 1) true }, .go, c2)))))) ∧
  (∀ (l fresh k : Nat) (w : Walk) (cx : Cx),
    Cx.walk l fresh 0 w cx = .ok ({ w with status := stBudget }, cx) ∧
    ∀ n c, cx.nodeAt l w.node = .ok (n, c) →
      (nodeOk w.kind n = false → Cx.walk l fresh (k + 1) w cx = .ok ({ w with status := stInvalid }, c)) ∧
      (nodeOk w.kind n = true →
        let visit := if w.kind = 1 then Cx.visitTriangle l n (fresh + 2 * k) w c
          else if w.kind = 2 then Cx.visitInstance l n w c else Cx.visitInternal l n w c
        ∀ w2 f c2, visit = .ok (w2, f, c2) →
          (f = .go → Cx.walk l fresh (k + 1) w cx = Cx.walk l fresh k w2 c2) ∧
          (f = .ended → Cx.walk l fresh (k + 1) w cx = .ok ({ w2 with status := stDone }, c2)) ∧
          (f = .stop → Cx.walk l fresh (k + 1) w cx = .ok (w2, c2)))) ∧
  (∀ (l k lvl a kind : Nat) (w : Walk) (cx : Cx), Cx.retrace l 0 lvl a kind w cx = .ok (some w, cx) ∧
    ∀ n c, cx.nodeAt l a = .ok (n, c) →
      (nodeOk kind n = false ∨ kind = 1 → Cx.retrace l (k + 1) lvl a kind w cx = .ok (none, c)) ∧
      (nodeOk kind n = true → kind = 0 →
        let ch := if (nth 0 w.d (nodeAxis n)).testBit 31 = w.trail.testBit lvl then 0 else 1
        Cx.retrace l (k + 1) lvl a kind w cx = Cx.retrace l k (lvl + 1) (childAddr n ch) (childKind n ch) w c) ∧
      (nodeOk kind n = true → kind = 2 → Cx.retrace l (k + 1) lvl a kind w cx =
        Cx.retrace l k (lvl + 1) (n / 2 ^ 384 % 2 ^ 57) 0 (w.enter n a lvl) c)) ∧
  ∀ (cx : Cx) (l fresh budget root : Nat) (x : Nat → Nat),
    let w := Walk.ofWords x
    let bad := 2 ^ 14 ≤ x 14 ∨ w.kind = 3 ∨ w.status > 5 ∨ w.level > 64
    (bad → ∃ ws, cx.stepRay l fresh budget root x = .ok (ws, cx) ∧
      ws = w.words.take 7 ++ [BitVec.ofNat 32 (x 14 - w.status * 256 + stInvalid * 256)]) ∧
    (¬bad → w.status = stDone ∨ w.status = stInvalid → cx.stepRay l fresh budget root x = .ok (w.words, cx)) ∧
    (¬bad → w.status ≠ stDone → w.status ≠ stInvalid →
      let w1 := if w.level = 0 then { w with node := root, kind := 0, level := 1, trail := 0 } else w
      ∀ r c, Cx.retrace l (w1.level - 1) 1 root 0 w1 cx = .ok (r, c) →
        (r = none → cx.stepRay l fresh budget root x = .ok (Walk.words { w1 with status := stInvalid }, c)) ∧
        ∀ w2 w3 c3, r = some w2 → Cx.walk l fresh budget w2 c = .ok (w3, c3) →
          cx.stepRay l fresh budget root x = .ok (w3.words, c3))

/-- Compositing (R223): the order of the sort, the position of a pixel, the term of a record, each step of the loop, and the whole. -/
def SplatFormulas : Prop :=
  (∀ fresh rs, (sortRecs fresh rs).Perm rs ∧ (sortRecs fresh rs).Pairwise fun a b => splatKey a ≤ splatKey b) ∧
  (∀ r, splatKey r = 2 ^ 32 * nth 0 r 6 + nth 0 r 7) ∧
  (∀ (l : SplatList) (p : Nat), l.pixel p =
    (addS (intS ((16 * l.tileX + p % 16 : Nat) : Int)) halfS, addS (intS ((16 * l.tileY + p / 16 : Nat) : Int)) halfS)) ∧
  RoundsTo .f32 (-7213475 / 10000000) splatScale ∧ RoundsTo .f32 (99 / 100) splatMax ∧
  (∀ (r : SplatRec) (px : Nat × Nat),
    let w := fun i => nth 0 r i
    let dx := subS px.1 (w 0)
    let dy := subS px.2 (w 1)
    let q := addS (addS (mulS (mulS (w 2) dx) dx) (mulS (mulS (mulS 0x40000000 (w 3)) dx) dy)) (mulS (mulS (w 4) dy) dy)
    let g := exp2F32 (mulS splatScale q)
    let og := mulS (w 5) g
    (leS 0 q = false → splatTerm r px = none) ∧
    (leS 0 q = true → splatTerm r px =
      some { dx := dx, dy := dy, q := q, g := g, og := og, al := minN (maxN og 0) splatMax })) ∧
  (∀ (stop i : Nat) (px : Nat × Nat) (a : Pixel) (r : SplatRec),
    (a.done = true ∨ splatTerm r px = none → Pixel.step stop px a (r, i) = a) ∧
    ∀ k, a.done = false → splatTerm r px = some k →
      let c := (a.c.zipIdx).map fun e => addS e.1 (mulS (mulS a.t k.al) (nth 0 r (8 + e.2)))
      let t := mulS a.t (subS 0x3F800000 k.al)
      Pixel.step stop px a (r, i) =
        if ltS t stop then { t := t, c := c, s := i + 1, done := true } else { a with t := t, c := c }) ∧
  ∀ (rs : List SplatRec) (stop : Nat) (px : Nat × Nat), compositePixel rs stop px =
    rs.zipIdx.foldl (Pixel.step stop px) { t := 0x3F800000, c := [0, 0, 0], s := rs.length, done := false }

/-- The graphics instructions outside a fault of memory (R210-R223). TEX samples its texture at each lane's coordinates, with the
derivatives of its quad where the filter does not bring its own, and a NaN among them gives NaNs; RTINI initialises a ray's 16
registers, INVALID where an input is not finite, the direction is 0 or the interval is empty; RTSTEP walks each lane's ray; SPLS
holds a record of 48 bytes for each lane; SPLC composites the list for each lane's pixel, and a pixel above 255 raises
ILLEGAL_OPERAND before any effect; PRIM forks a raster thread of its triangles' fragments; a malformed target raises
ILLEGAL_OPERAND and a misaligned one ALIGNMENT. What one lane computes in each stands in the definitions that come first. Each long one leaves an operation in flight with the results that its completion
writes. What the model reads into the rules stands in its log: when an engine reads and writes (7), the order of equal keys
(DESIGN CHOICE, 21), a fragment's fault (26), corners of sampling (39), of the ray walk (40) and of splat lists (41), each
DEDUCED but 21. -/
def Obligations.Graphics : Prop :=
  RationalsExact ∧ SampleFormulas ∧ RasterFormulas ∧ RayTests ∧ RayWalks ∧ SplatFormulas ∧
  (∀ s cx d a (t : BitVec 3) (f : BitVec 1) (m : BitVec 2) h c1 sh c2 c3 c4 oks vs c5 c8,
    let quads := t.toNat ≠ 3 ∧ t.toNat ≠ 5
    Issues s { Desc.lane [(Opnd.dstV d).both.many 4, .srcS a] with
      legal := decide (t.toNat < 6) && m != 3, flag := some (f == 1), ok := decide (d.toNat ≤ 60),
      free := s.issueHas fun cx => decide ¬quads || !(cx.quadPending d.toNat || cx.quadPending (d.toNat + 1)) } cx →
    cx.readS (regNo a) = .ok (h, c1) → c1.texture h = .ok (sh, c2) → c2.quadsSound t.toNat d.toNat = .ok () →
    let smp := (lanesOf c2.part).map fun l => (l, c2.sampleLane sh t.toNat m.toNat d.toNat l)
    let as := smp.map fun e => (e.1, sh.tapAddrs e.2)
    c2.staticLanes sh.width false [1, 2] (as.flatMap fun e => e.2.map fun a => (e.1, a)) = .ok () →
    c2.flagRoom (c2.flagOf (f == 1)) = .ok () → c2.mapWs (as.flatMap (·.2)) = .ok c3 →
    c3.gatherLanes sh.width as = (c4, oks, []) → c4.readLists sh.width oks = .ok (vs, c5) → c5.sp.retryOp = none →
    let res := vs.map fun e =>
      let sm := ((smp.find? fun q => q.1 == e.1).map (·.2)).getD .nan
      (e.1, sm, sh.results sm c5.s.fresh e.1 e.2)
    let c6 := if res.any fun r => r.2.1 == .nan then c5.raiseFlags fIV else c5
    let c7 := { c6 with s := c6.s.bump }
    c7.launchOp (c7.flagOf (f == 1)) { Op.blank c7 .tex with
      pendV := c7.destV d 4, lanes := c7.part,
      vres := res.flatMap fun r => (r.2.2.zipIdx).map fun w => ((c7.sp.winbase + d.toNat + w.2) * 96 + r.1, w.1) } =
      .ok c8 →
    exec (.tex d a t f m) s = .next c8.finish) ∧
  (∀ (sh : Shape) (t m u v fresh l : Nat) (k : Derivs) (vals : List Nat),
    isNanS u = true ∨ isNanS v = true ∨ isNanS k.ux = true ∨ isNanS k.vx = true ∨ isNanS k.uy = true ∨ isNanS k.vy = true →
    sh.sample t m u v k = .nan ∧ sh.tapAddrs .nan = [] ∧ sh.results .nan fresh l vals = List.replicate 4 0x7FC00000) ∧
  (∀ (cx : Cx) (t d l : Nat), t ≠ 3 → t ≠ 5 →
    let g := fun i k => (cx.anyLane (d + i) (l / 4 * 4 + k)).toNat
    cx.derivs t d l =
      { ux := subS (g 0 1) (g 0 0), vx := subS (g 1 1) (g 1 0), uy := subS (g 0 2) (g 0 0), vy := subS (g 1 2) (g 1 0) }) ∧
  (∀ s cx d a, Issues s { Desc.lane [(Opnd.srcV a).many 9, (Opnd.dstV d).many 16] with
      ok := decide (d.toNat ≤ 48) && decide (a.toNat ≤ 55) } cx →
    ∃ st : Nat → Nat, exec (.rtini d a) s = .next (cx.writeLanes d.toNat fun l =>
        ((List.range 8).map (fun i => cx.vec (a.toNat + i) l) ++
          [0xFFFFFFFF, 0, 0, 0, 0, 0, BitVec.ofNat 32 (st l * 256), cx.vec (a.toNat + 8) l], 0)).finish ∧
      ∀ l, let x := fun i => (cx.vec (a.toNat + i) l).toNat
        let fin := ∀ i, i < 8 → finS (x i) = true
        let dir := ∃ i, 3 ≤ i ∧ i < 6 ∧ (valueOf .f32 (x i)).isZero = false
        let good := fin ∧ dir ∧ ltS (x 6) 0 = false ∧ ltS (x 7) (x 6) = false
        (good → st l = 0) ∧ (¬good → st l = stInvalid)) ∧
  (∀ s cx d a (f : BitVec 1) c1 oks c3, Issues s { Desc.lane [(Opnd.srcS a).many 4, (Opnd.dstV d).both.many 16] with
      flag := some (f == 1), ok := a.toNat % 4 == 0 && decide (regNo a ≤ 60) && decide (d.toNat ≤ 48) } cx →
    let n := (cx.scalar (regNo a)).toNat
    let root := cx.scalar64 (regNo a + 2)
    (n = 0 ∨ 65536 ≤ n ∨ cx.scalar (regNo a + 1) ≠ 0 →
      exec (.rtstep d a f) s = .next (cx.takeFault (Exn.plain .illegalOperand))) ∧
    (1 ≤ n → n < 65536 → cx.scalar (regNo a + 1) = 0 →
      (cx.part ≠ 0 → cx.staticLanes 64 false [1, 2, 3] [(noLane, root)] = .ok ()) →
      cx.flagRoom (cx.flagOf (f == 1)) = .ok () →
      (lanesOf cx.part).foldl (fun r l =>
        match Cx.stepRay r.1 l (262144 * (cx.s.fresh * 128 + l)) n root.toNat (fun i => (cx.vec (d.toNat + i) l).toNat) with
        | .ok (ws, c) => (c, r.2.1 ++ [(l, ws)], r.2.2)
        | .error (e, c) => (c, r.2.1, r.2.2 ++ [(l, e)])) (cx, ([] : List (Nat × List Word)), ([] : List (Nat × Exn))) =
        (c1, oks, []) → c1.sp.retryOp = none →
      let c2 := { c1 with s := c1.s.bump }
      c2.launchOp (c2.flagOf (f == 1)) { Op.blank c2 .rtstep with
        pendV := c2.destV d 16, lanes := c2.part,
        vres := oks.flatMap fun r => (r.2.zipIdx).map fun w => ((c2.sp.winbase + d.toNat + 7 + w.2) * 96 + r.1, w.1) } =
        .ok c3 →
      exec (.rtstep d a f) s = .next c3.finish)) ∧
  (∀ s cx d a (f : BitVec 1) x c1 l c2 c3 c4, Issues s { Desc.lane [(Opnd.srcV d).many 11, .srcS a] with
      flag := some (f == 1), ok := decide (d.toNat ≤ 53) } cx →
    cx.readS (regNo a) = .ok (x, c1) → c1.splatList x.toNat = .ok (l, c2) →
    c2.flagRoom (c2.flagOf (f == 1)) = .ok () →
    let recs := (lanesOf c2.part).map fun ln => ((List.range 11).map fun i => c2.vec (d.toNat + i) ln) ++ [0]
    c2.buffer (if recs.isEmpty then []
      else [{ size := 48 * recs.length, item := .spls l.off recs, recs := [], issue := 0, lane := 0, rel := none,
              cached := false, own := false }]) =
      .ok c3 →
    c3.launchOp (c3.flagOf (f == 1)) (Op.blank c3 (.splat false [])) = .ok c4 →
    exec (.spls d a f) s = .next c4.finish) ∧
  (∀ s cx d a (f : BitVec 1) x c1 l c2, Issues s { Desc.lane [(Opnd.dstV d).both.many 5, .srcS a] with
      flag := some (f == 1), recomp := false, ok := decide (d.toNat ≤ 59) } cx →
    cx.readS (regNo a) = .ok (x, c1) → c1.splatList x.toNat = .ok (l, c2) →
    (∃ ln, ln < 96 ∧ inMask c2.part ln = true ∧ 256 ≤ (c2.vec d.toNat ln).toNat) →
    exec (.splc d a f) s = faultsOn cx c2 (Exn.plain .illegalOperand)) ∧
  (∀ s cx d a (f : BitVec 1) x c1 l c2 rs0 c3 c5, Issues s { Desc.lane [(Opnd.dstV d).both.many 5, .srcS a] with
      flag := some (f == 1), recomp := false, ok := decide (d.toNat ≤ 59) } cx →
    cx.readS (regNo a) = .ok (x, c1) → c1.splatList x.toNat = .ok (l, c2) → c2.listErrors l = [] →
    c2.flagRoom (c2.flagOf (f == 1)) = .ok () → c2.splatRecs l.recs l.count = .ok (rs0, c3) →
    c3.sp.retryOp = none → c3.st.isReplay = false →
    let sort := l.flags % 2 == 0
    let rs := if sort then sortRecs (2 ^ 40 * c3.s.fresh) rs0 else rs0
    let c4 := { c3 with s := c3.s.bump }
    let px := fun ln => (c4.vec d.toNat ln).toNat
    (∀ ln, ln < 96 → inMask c4.part ln = true → px ln < 256) →
    let res := (lanesOf c4.part).map fun ln => (ln, compositePixel rs c4.st.vis.alphastop.toNat (l.pixel (px ln)))
    let stops := res.flatMap fun r => c4.plazaWord (l.stop + 4 * px r.1) r.2.s
    let sorted := if sort then
      ((rs.zipIdx).flatMap fun r => ((r.1.zipIdx).flatMap fun w => c4.plazaWord (l.recs + 48 * r.2 + 4 * w.2) w.1)) ++
        c4.plazaWord (l.off + 0x14) (l.flags + 1) else []
    c4.launchOp (c4.flagOf (f == 1)) { Op.blank c4 (.splat false (sorted ++ stops)) with
      pendV := c4.destV d 5, lanes := c4.part,
      vres := res.flatMap fun r => (((r.2.c ++ [r.2.t, r.2.s]).zipIdx).map fun w =>
        ((c4.sp.winbase + d.toNat + w.2) * 96 + r.1, BitVec.ofNat 32 w.1)) } = .ok c5 →
    exec (.splc d a f) s = .next c5.finish) ∧
  ∀ s cx d a (m : BitVec 2) p c1 ws c2 t c3 oks c4,
    Issues s { Desc.lane [(Opnd.srcV d).many (if m = 0 then 10 else 11), (Opnd.srcS a).pair] with
      legal := m != 3, recomp := false, ok := decide (d.toNat ≤ 53),
      regOk := s.issueHas fun cx => decide (d.toNat + 11 ≤ windowOf cx.st.vis.allot) } cx →
    (m = 0 ∨ cx.la.occtab ≠ 0) → (m = 1 → cx.la.det = false) →
    let addr := cx.scalar64 (regNo a)
    cx.staticLanes 32 false [1, 2, 3] [(noLane, addr)] = .ok () → cx.reach .read true 32 .row noLane addr = (.ok p, c1) →
    c1.readWords addr p 4 = .ok (ws, c2) →
    (parseTarget (nth 0 ws 0) (nth 0 ws 1) (nth 0 ws 2) (nth 0 ws 3) = none →
      exec (.prim d a m) s = faultsOn cx c2 (Exn.plain .illegalOperand)) ∧
    (parseTarget (nth 0 ws 0) (nth 0 ws 1) (nth 0 ws 2) (nth 0 ws 3) = some t →
      (t.base.toNat % 8 ≠ 0 → exec (.prim d a m) s = faultsOn cx c2 (Exn.at .alignment t.base)) ∧
      (t.base.toNat % 8 = 0 →
        let obj := fun l => if m.toNat = 0 then 0xFFFFF else (c2.vec (d.toNat + 10) l).toNat
        (lanesOf c2.part).foldl (fun r l =>
          match Cx.reachTriangle r.1 m.toNat (obj l) l (t.lane (fun i => (c2.vec (d.toNat + i) l).toNat) (obj l)) with
          | (.ok fr, c) => (c, r.2.1 ++ [(l, fr)], r.2.2)
          | (.error e, c) => (c, r.2.1, r.2.2 ++ [(l, e)]))
          (c2, ([] : List (Nat × List Fragment × List Exn)), ([] : List (Nat × Exn))) = (c3, oks, []) →
        (∀ e ∈ oks, e.2.2 = []) →
        let frags := oks.flatMap (·.2.1)
        (c3.st.isReplay = true ∨ frags = [] → exec (.prim d a m) s = .next c3.finish) ∧
        (c3.st.isReplay = false → frags ≠ [] → c3.launchOp none (Op.blank c3 (.raster m.toNat frags)) = .ok c4 →
          exec (.prim d a m) s = .next c4.finish)))

/-- The gradients of exact expressions (R230, R232, R234): a sum of upstream values times derivatives is exact and rounded once; the
derivatives of RASADJ's b1 and b2 and of RTADJ's t, u and v by each variable are those of the real functions of the rules; and what
forms nothing. -/
def ExactGradients : Prop :=
  (∀ ts : List (Machine.Num × Rat2), (∀ t ∈ ts, t.1.isNan = false ∧ t.1.isInf = false ∧ 0 < t.2.d) →
    RoundsTo .f32 (ts.map fun t => numQ t.1 * ratQ t.2).sum (weighted ts)) ∧
  (∀ (w : Nat → Nat) (g : Addr) (fresh : Nat),
    let edge := fun (ax ay bx by_ px py : ℝ) => (bx - ax) * (py - ay) - (by_ - ay) * (px - ax)
    let px : ℝ := ((w 6 % 65536 : Nat) : ℝ) + 1 / 2
    let py : ℝ := ((w 6 / 65536 : Nat) : ℝ) + 1 / 2
    let area := fun x : Nat → ℝ => edge (x 0) (x 1) (x 2) (x 3) (x 4) (x 5)
    let b1 := fun x : Nat → ℝ => edge (x 4) (x 5) (x 0) (x 1) px py / area x
    let b2 := fun x : Nat → ℝ => edge (x 0) (x 1) (x 2) (x 3) px py / area x
    let q : Nat → ℝ := fun i => ((numQ (valueOf .f32 (w i)) : ℚ) : ℝ)
    ((∃ i ∈ [0, 1, 2, 3, 4, 5, 7, 8], isNanS (w i) = true) → rasEmits w g fresh = []) ∧
    ((∀ i, i < 6 → finS (w i) = true) →
      (area q = 0 → rasEmits w g fresh = []) ∧
      (area q ≠ 0 → isNanS (w 7) = false → isNanS (w 8) = false → ∃ d1 d2 : Nat → Rat2,
        (∀ i, i < 6 → 0 < (d1 i).d ∧ 0 < (d2 i).d ∧
          HasDerivAt (fun z => b1 (Function.update q i z)) ((ratQ (d1 i) : ℚ) : ℝ) (q i) ∧
          HasDerivAt (fun z => b2 (Function.update q i z)) ((ratQ (d2 i) : ℚ) : ℝ) (q i)) ∧
        rasEmits w g fresh = (List.range 6).map fun i => (g + BitVec.ofNat 64 (8 * w (9 + i / 2) + 4 * (i % 2)),
          weighted [(valueOf .f32 (w 7), d1 i), (valueOf .f32 (w 8), d2 i)])))) ∧
  ∀ (vs gs : List Nat) (fresh : Nat), vs.length = 15 → gs.length = 3 →
    let cross := fun (a b : Nat → ℝ) (i : Nat) => a ((i + 1) % 3) * b ((i + 2) % 3) - a ((i + 2) % 3) * b ((i + 1) % 3)
    let dot := fun a b : Nat → ℝ => a 0 * b 0 + a 1 * b 1 + a 2 * b 2
    let part := fun (x : Nat → ℝ) (k i : Nat) => x (3 * k + i)
    let e1 := fun (x : Nat → ℝ) (i : Nat) => part x 3 i - part x 2 i
    let e2 := fun (x : Nat → ℝ) (i : Nat) => part x 4 i - part x 2 i
    let n := fun x : Nat → ℝ => cross (e1 x) (e2 x)
    let t := fun x : Nat → ℝ => dot (fun i => part x 2 i - part x 0 i) (n x) / dot (part x 1) (n x)
    let p := fun (x : Nat → ℝ) (i : Nat) => part x 0 i + t x * part x 1 i - part x 2 i
    let u := fun x : Nat → ℝ => dot (cross (p x) (e2 x)) (n x) / dot (n x) (n x)
    let v := fun x : Nat → ℝ => dot (cross (e1 x) (p x)) (n x) / dot (n x) (n x)
    let q : Nat → ℝ := fun i => ((numQ (valueOf .f32 (nth 0 vs i)) : ℚ) : ℝ)
    ((∃ c ∈ vs, isNanS c = true) → rayGrads vs gs fresh = some (List.replicate 15 0x7FC00000)) ∧
    ((∀ c ∈ vs, finS c = true) →
      (dot (part q 1) (n q) = 0 → rayGrads vs gs fresh = none) ∧
      (dot (part q 1) (n q) ≠ 0 → ∃ dt du dv : Nat → Rat2,
        (∀ k, k < 15 → 0 < (dt k).d ∧ 0 < (du k).d ∧ 0 < (dv k).d ∧
          HasDerivAt (fun z => t (Function.update q k z)) ((ratQ (dt k) : ℚ) : ℝ) (q k) ∧
          HasDerivAt (fun z => u (Function.update q k z)) ((ratQ (du k) : ℚ) : ℝ) (q k) ∧
          HasDerivAt (fun z => v (Function.update q k z)) ((ratQ (dv k) : ℚ) : ℝ) (q k)) ∧
        rayGrads vs gs fresh = some ((List.range 15).map fun k => weighted [(valueOf .f32 (nth 0 gs 0), dt k),
          (valueOf .f32 (nth 0 gs 1), du k), (valueOf .f32 (nth 0 gs 2), dv k)])))

/-- The contributions of a texture's adjoint and of an edge's (R233, R235): each tap of a weight that is not 0 gives its four
components; the clipped part of an edge, exact and rounded to fp64, and the four values in fp64 arithmetic. -/
def TapAndEdgeGradients : Prop :=
  (∀ (sh gt : Shape) (ts : List Tap) (n : Nat) (g : Nat → Nat) (fresh : Nat),
    texEmits sh gt (.taps ts n) g fresh = (ts.filter fun t => t.w ≠ 0).flatMap fun t => (List.range 4).map fun c =>
      (gt.texel t.m t.x t.y c, weighted [(valueOf .f32 (g c), { n := t.w, d := n, e := -24 })])) ∧
  (∀ (x0 y0 x1 y1 : Rat2) (px py : Nat), 0 < x0.d → 0 < y0.d → 0 < x1.d → 0 < y1.d →
    let at_ := fun (a b : Rat2) (s : ℚ) => ratQ a + s * (ratQ b - ratQ a)
    let part : Set ℚ := { s | 0 ≤ s ∧ s ≤ 1 ∧ (px : ℚ) ≤ at_ x0 x1 s ∧ at_ x0 x1 s ≤ px + 1 ∧ (py : ℚ) ≤ at_ y0 y1 s ∧ at_ y0 y1 s ≤ py + 1 }
    (part = ∅ → clipEdge x0 y0 x1 y1 px py = none) ∧
    ∀ lo hi : ℚ, lo ≤ hi → part = Set.Icc lo hi → ∃ a b, clipEdge x0 y0 x1 y1 px py = some (a, b) ∧
      RoundsTo .f64 lo a ∧ RoundsTo .f64 hi b) ∧
  ∀ (w c : Nat → Nat) (g : Addr) (h fresh : Nat),
    let f := fun a : Flagged => a.1
    let x := fun i => (roundTo .f64 .rne (valueOf .f32 (w i))).1
    let col := fun i => (roundTo .f64 .rne (valueOf .f32 (c i))).1
    let mul := fun a b => f (floatMul .f64 .rne a b)
    let add := fun a b => f (floatAdd .f64 .rne a b)
    let sub := fun a b => f (floatSub .f64 .rne a b)
    let div := fun a b => f (floatDiv .f64 .rne a b)
    let dx := sub (x 2) (x 0)
    let dy := sub (x 3) (x 1)
    let len := f (floatSqrt .f64 .rne (add (mul dx dx) (mul dy dy)))
    let clip := clipEdge (Rat2.ofS (w 0)) (Rat2.ofS (w 1)) (Rat2.ofS (w 2)) (Rat2.ofS (w 3)) (w 4 % 65536) (w 4 / 65536)
    (∀ i, i < 4 → finS (w i) = true) → (∀ i ∈ [7, 8, 9], isNanS (w i) = false) → (∀ i, i < 6 → isNanS (c i) = false) →
    (clip = none ∨ (valueOf .f64 len).isZero = true → edgEmits w c g h fresh = []) ∧
    ∀ sa sb, clip = some (sa, sb) →
      ((valueOf .f64 sa).lt (valueOf .f64 sb) = false → edgEmits w c g h fresh = []) ∧
      ((valueOf .f64 sa).lt (valueOf .f64 sb) = true → (valueOf .f64 len).isZero = false →
        ∃ tau, RoundsTo .f64 (((h / 2 ^ 40 : Nat) + 1 / 2) / 2 ^ 24) tau ∧
          let s := add sa (mul tau (sub sb sa))
          let nx := div dy len
          let ny := div (dx ^^^ 2 ^ 63) len
          let term := fun i => mul (x (7 + i)) (sub (col i) (col (3 + i)))
          let k := mul (add (add (term 0) (term 1)) (term 2)) (mul (sub sb sa) len)
          let out := fun a n => (roundTo .f32 .rne (valueOf .f64 (mul a n))).1
          let k0 := mul k (sub 0x3FF0000000000000 s)
          let k1 := mul k s
          let at_ := fun i a => g + BitVec.ofNat 64 (8 * w (5 + i) + 4 * a)
          edgEmits w c g h fresh = [(at_ 0 0, out k0 nx), (at_ 0 1, out k0 ny), (at_ 1 0, out k1 nx), (at_ 1 1, out k1 ny)])

/-- The contributions of a splat list's adjoint (R236): the records that the compositing took, each with its transmittance; and each
of them, from the last, gives nine values and carries S on. -/
def SplatGradients : Prop :=
  (∀ (rs : List SplatRec) (r : SplatRec) (px : Nat × Nat), splatTrace [] px = ([], 0x3F800000) ∧
    (splatTerm r px = none → splatTrace (rs ++ [r]) px = splatTrace rs px) ∧
    ∀ k, splatTerm r px = some k → splatTrace (rs ++ [r]) px =
      ((splatTrace rs px).1 ++ [(r, k, (splatTrace rs px).2)], mulS (splatTrace rs px).2 (subS 0x3F800000 k.al))) ∧
  (∀ (c0 c1 c2 s0 s1 s2 gt ts ti : Nat) (r : SplatRec) (k : SplatTerm),
    let w := fun i => nth 0 r i
    let dot := fun (f : Nat → Nat) => addS (addS (mulS c0 (f 0)) (mulS c1 (f 1))) (mulS c2 (f 2))
    let ta := mulS ti k.al
    let sv := fun i => if i = 0 then s0 else if i = 1 then s1 else s2
    let ga := subS (dot fun i => mulS ti (w (8 + i))) (divS (addS (dot sv) (mulS gt ts)) (subS 0x3F800000 k.al))
    let ga := if ltS k.og 0 = true ∨ ltS splatMax k.og = true then 0 else ga
    let gq := mulS (mulS ga (w 5)) (mulS 0xBF000000 k.g)
    let lin := fun a b => mulS gq (mulS 0x40000000 (addS (mulS (w a) k.dx) (mulS (w b) k.dy)) ^^^ 2 ^ 31)
    splatBack [c0, c1, c2] gt ts (r, k, ti) [s0, s1, s2] =
      ([lin 2 3, lin 3 4, mulS (mulS gq k.dx) k.dx, mulS (mulS gq (mulS 0x40000000 k.dx)) k.dy, mulS (mulS gq k.dy) k.dy,
        mulS ga k.g, mulS ta c0, mulS ta c1, mulS ta c2],
       [addS s0 (mulS ta (w 8)), addS s1 (mulS ta (w 9)), addS s2 (mulS ta (w 10))])) ∧
  ∀ (rs : List SplatRec) (px : Nat × Nat) (gc : List Nat) (gt : Nat) (g : Addr),
    let tr := (splatTrace rs px).1
    let back := fun e sv => splatBack gc gt (splatTrace rs px).2 e sv
    splatEmits rs px gc gt g = ((List.range tr.length).reverse.flatMap fun i =>
      let sv := (tr.drop (i + 1)).foldr (fun e sv => (back e sv).2) [0, 0, 0]
      let e := nth ([], { dx := 0, dy := 0, q := 0, g := 0, og := 0, al := 0 }, 0) tr i
      ([0, 1, 2, 3, 4, 5, 8, 9, 10].zip (back e sv).1).map fun w =>
        (g + BitVec.ofNat 64 (48 * nth 0 e.1 7) + BitVec.ofNat 64 (4 * w.1), w.2))

/-- The commit that an adjoint makes before it issues (R230): none in a recomputation (R242); that of the whole region at its first
issue; and where it issues again for some of its lanes, that of everything but its own contributions, from which a kill replays it
whole. -/
def OpensRegion : Prop :=
  ∀ cx : Cx, (cx.st.recomputing = true → cx.openRegion = .ok cx) ∧
    (cx.st.recomputing = false → cx.sp.retry = none → cx.openRegion = cx.commit) ∧
    (cx.st.recomputing = false → cx.sp.retry ≠ none → cx.s.rasterBusy cx.id cx.st = false →
      let mine := fun (b : BufItem) => cx.sp.serial == some b.issue
      let others := cx.st.buffer.filter fun b => !mine b
      State.adjointOpen { cx.s with ops := cx.s.ops.filter fun o => some o.1 != cx.sp.retryOp } cx.id = false →
      cx.s.logFull { cx.st with buffer := others } = false →
      cx.openRegion = .ok (cx.onState fun s => (s.commitItems cx.id others (cx.st.buffer.filter mine)).onStream cx.id fun st =>
        { st.checkpoint with ckpt := some { st.snapshot with splits := st.vis.splits.map fun p =>
            if p.num = cx.sp.num then { p with retry := none, retryOp := none, serial := none } else p } }))

/-- A short adjoint: the region before it commits, its contributions and registers take effect for every lane, and its own region
commits, where the scatter log has room; in a recomputation (R242) nothing commits. -/
def ShortAdjointCompletes (run : Host.Outcome State Fault Refusal) (cx : Cx) (es : List (Nat × Emits))
    (after : Cx → List Nat → Cx) : Prop :=
  ∀ c1 c2 items good c3, cx.checkEmits es = .ok () → cx.openRegion = .ok c1 → c1.formLanes es = (c2, items, good, []) →
    c2.buffer (items.map fun b => { b with own := true }) = .ok c3 →
    let c4 := after c3 good
    (c4.st.recomputing = true → run = .next c4.finish) ∧
    (c4.st.recomputing = false → c4.s.logFull c4.st = false →
      ∀ c5, Cx.commit { c4 with st := c4.st.disown c4.sp.serial } = .ok c5 → run = .next c5.finish)

/-- A long adjoint whose region is open: an operation is in flight that holds its contributions, which commit together when it
completes; a kill before that replays it. Where the instruction issues again, its earlier lanes' contributions and its operation are
part of it; a recomputation (R242) forms none. -/
def LongAdjointForms (run : Host.Outcome State Fault Refusal) (c1 : Cx) (flag : Option Nat) (kind : OpKind)
    (es : List (Nat × Emits)) : Prop :=
  ∀ c2 items good, c1.formLanes es = (c2, items, good, []) →
    let again := c2.sp.retry.isSome
    let n := if again then c2.sp.serial.getD c2.st.stamp else c2.st.stamp
    let early := if again then c2.st.buffer.filter fun b => b.issue == n else []
    let rest := if again then c2.st.buffer.filter fun b => b.issue != n else c2.st.buffer
    let own := if c2.st.recomputing then [] else (items.map fun b => { b with issue := n }).foldl (fun l b => insertItem b l) early
    let c3 : Cx := if c2.st.recomputing then { c2 with ckpt := false, later := false } else { c2 with
      st := { c2.st with buffer := rest, stamp := c2.st.stamp + 1 }, sp := { c2.sp with serial := some n },
      ckpt := false, later := true }
    let op := { Op.blank c3 kind with lanes := c3.part, contribs := own }
    (c2.sp.retryOp = none → ∀ c4, c3.launchOp flag op = .ok c4 → run = .next c4.finish) ∧
    ∀ k p, c2.sp.retryOp = some k → c2.s.op? k = some p →
      run = .next (Cx.finish { c3 with s := c3.s.putOp k { op with
        flag := p.flag, lanes := p.lanes, vres := p.vres, sres := p.sres, fault := p.fault,
        contribs := own.foldl (fun l b => insertItem b l) p.contribs } })

/-- A long adjoint: the region before it commits, and its operation starts. -/
def LongAdjointCompletes (run : Host.Outcome State Fault Refusal) (cx : Cx) (flag : Option Nat) (kind : OpKind)
    (es : List (Nat × Emits)) : Prop :=
  ∀ c1, cx.checkEmits es = .ok () → cx.flagRoom flag = .ok () → cx.openRegion = .ok c1 → LongAdjointForms run c1 flag kind es

/-- The adjoint instructions (R230-R236, R350, R353, R364, R378): the contributions of each lane are those of its
registers, formed in order. RASADJ and RTADJ commit theirs at once, and RTADJ writes the gradients of the ray's origin and
direction; TEXADJ, EDGS and SPLADJ commit theirs when they complete. A NaN coordinate, derivative, end point or texel forms
nothing. SPLADJ commits the region before it reads its list, and an unsorted one then raises ILLEGAL_OPERAND. The forms in a
recomputation and in a retry are those of OpensRegion and of the three definitions after it. What the model reads
into the rules stands in its log: when an engine reads and writes (7), corners of sampling (39) and of the adjoints (42), each
DEDUCED. -/
def Obligations.Adjoints : Prop :=
  ExactGradients ∧ TapAndEdgeGradients ∧ SplatGradients ∧ OpensRegion ∧
  (∀ s cx d a, Issues s { Desc.adjoint [(Opnd.srcV d).many 12, (Opnd.srcS a).pair] with ok := decide (d.toNat ≤ 52) } cx →
    let c0 := { cx with s := cx.s.bump }
    ShortAdjointCompletes (exec (.rasadj d a) s) c0 ((lanesOf cx.part).map fun l =>
      (l, rasEmits (fun i => (cx.vec (d.toNat + i) l).toNat) (cx.scalar64 (regNo a)) ((cx.s.fresh * 128 + l) * 8)))
      fun cx _ => cx) ∧
  (∀ s cx d a, Issues s { Desc.adjoint [(Opnd.srcV d).evenMany 20, (Opnd.srcV a).many 16] with
      ok := decide (d.toNat ≤ 44) && decide (a.toNat ≤ 48) &&
        decide (d.toNat + 19 < a.toNat ∨ a.toNat + 15 < d.toNat + 14) } cx →
    let ray := fun l i => (cx.vec (a.toNat + i) l).toNat
    let x := fun l i => (cx.vec (d.toNat + i) l).toNat
    let grads := fun l => if ray l 8 = 0xFFFFFFFF then none
      else rayGrads ((List.range 6).map (ray l) ++ (List.range 9).map fun i => x l (2 + i)) [x l 11, x l 12, x l 13]
        ((cx.s.fresh * 128 + l) * 16)
    let es := (lanesOf cx.part).map fun l => (l, match grads l with
      | none => []
      | some g => (List.range 9).map fun i =>
          (cx.lane64 d l + BitVec.ofNat 64 (36 * (ray l 8 / 128) + 4 * i), nth 0 g (6 + i)))
    let after := fun (c : Cx) (good : List Nat) => (lanesOf cx.part).foldl (fun (c : Cx) l =>
      if good.contains l then c.setVecs (d.toNat + 14) l (match grads l with
        | none => List.replicate 6 0
        | some g => (g.take 6).map (BitVec.ofNat 32)) else c) c
    let c0 := { cx with s := cx.s.bump }
    ShortAdjointCompletes (exec (.rtadj d a) s) c0 es after) ∧
  (∀ s cx d a (t : BitVec 3) (f : BitVec 1) (m : BitVec 2) sh c1 gt c2,
    let quads := t.toNat ≠ 3 ∧ t.toNat ≠ 5
    Issues s { Desc.adjoint [(Opnd.srcV d).many 8, (Opnd.srcS a).many 2] with
      legal := decide (t.toNat < 6) && m != 3, flag := some (f == 1), ok := decide (d.toNat ≤ 56) && decide (regNo a ≤ 62),
      free := s.issueHas fun cx => decide ¬quads || !(cx.quadPending d.toNat || cx.quadPending (d.toNat + 1)) } cx →
    cx.texture (cx.scalar (regNo a)) = .ok (sh, c1) → c1.texture (c1.scalar (regNo a + 1)) = .ok (gt, c2) →
    Ty.ofCode gt.etype = some .f32 → tagOf gt.base = 0 → gt.dims = sh.dims → c2.quadsSound t.toNat d.toNat = .ok () →
    let smp := (lanesOf c2.part).map fun l => (l, c2.sampleLane sh t.toNat m.toNat d.toNat l)
    let es := smp.map fun e =>
      (e.1, texEmits sh gt e.2 (fun c => (c2.vec (d.toNat + 4 + c) e.1).toNat) ((c2.s.fresh * 128 + e.1) * 16))
    let c3 := if smp.any fun e => e.2 == .nan then c2.raiseFlags fIV else c2
    let c4 := { c3 with s := c3.s.bump }
    LongAdjointCompletes (exec (.texadj d a t f m) s) c4 (c4.flagOf (f == 1)) .texadj es) ∧
  (∀ sh gt g fresh, texEmits sh gt .nan g fresh = []) ∧
  (∀ w c g h fresh, ((∃ i ∈ [0, 1, 2, 3, 7, 8, 9], isNanS (w i) = true) ∨ ∃ i, i < 6 ∧ isNanS (c i) = true) →
    edgEmits w c g h fresh = []) ∧
  (∀ s cx d a (f : BitVec 1) ins c1 outs c2, Issues s { Desc.adjoint [(Opnd.srcV d).many 10, (Opnd.srcS a).evenMany 4] with
      flag := some (f == 1), ok := decide (d.toNat ≤ 54) && decide (regNo a ≤ 60) } cx →
    cx.texture (cx.scalar (regNo a)) = .ok (ins, c1) → c1.texture (c1.scalar (regNo a + 1)) = .ok (outs, c2) →
    Ty.ofCode ins.etype = some .f32 → Ty.ofCode outs.etype = some .f32 →
    let w := fun (l i : Nat) => (c2.vec (d.toNat + i) l).toNat
    let within := fun l => w l 4 % 65536 < ins.levelW 0 ∧ w l 4 / 65536 < ins.levelH 0 ∧
      w l 4 % 65536 < outs.levelW 0 ∧ w l 4 / 65536 < outs.levelH 0
    ((∃ l, l < 96 ∧ inMask c2.part l = true ∧ ¬within l) →
      exec (.edgs d a f) s = faultsOn cx c2 (Exn.plain .illegalOperand)) ∧
    ((∀ l, l < 96 → inMask c2.part l = true → within l) →
    let as := (lanesOf c2.part).map fun l =>
      (l, ((List.range 3).map fun c => ins.texel 0 (w l 4 % 65536) (w l 4 / 65536) c) ++
        (List.range 3).map fun c => outs.texel 0 (w l 4 % 65536) (w l 4 / 65536) c)
    c2.staticLanes 4 false [1, 2] (as.flatMap fun e => e.2.map fun x => (e.1, x)) = .ok () →
    ∀ c3 c4 oks vs c5, c2.mapWs (as.flatMap (·.2)) = .ok c3 → c3.gatherLanes 4 as = (c4, oks, []) →
    c4.readLists 4 oks = .ok (vs, c5) →
    let es := vs.map fun e => (e.1, edgEmits (w e.1) (fun i => nth 0 e.2 i) (c2.scalar64 (regNo a + 2))
      (hBits c5.sp.srseed.toNat c5.sp.dii.toNat e.1 0) ((c5.s.fresh * 128 + e.1) * 4))
    let c6 := { c5 with s := c5.s.bump }
    LongAdjointCompletes (exec (.edgs d a f) s) c6 (c6.flagOf (f == 1)) .edgs es)) ∧
  ∀ s cx d a (f : BitVec 1) c0 l c1, Issues s { Desc.adjoint [(Opnd.srcV d).many 5, (Opnd.srcS a).evenMany 4] with
      flag := some (f == 1), ok := decide (d.toNat ≤ 59) && decide (regNo a ≤ 60) } cx →
    cx.scalar (regNo a + 1) = 0 → cx.flagRoom (cx.flagOf (f == 1)) = .ok () → cx.openRegion = .ok c0 →
    c0.splatList (c0.scalar (regNo a)).toNat = .ok (l, c1) →
    (l.flags % 2 = 0 → c0.st.recomputing = false → exec (.spladj d a f) s =
      .next (cx.onStop (.after { c1 with ckpt := false } (Exn.plain .illegalOperand)))) ∧
    (l.flags % 2 = 0 → c0.st.recomputing = true → exec (.spladj d a f) s = faultsOn cx c1 (Exn.plain .illegalOperand)) ∧
    ∀ rs c2 stops c3, l.flags % 2 = 1 →
      let w := fun (ln i : Nat) => (c1.vec (d.toNat + i) ln).toNat
      (∀ ln, ln < 96 → inMask c1.part ln = true → w ln 0 < 256) →
      c1.badAt (c1.plazaPlace l.stop) 1024 = false → c1.listErrors l = [] →
      c1.splatRecs l.recs l.count = .ok (rs, c2) →
      c2.stopWords l (fun ln => w ln 0) (lanesOf c2.part) = .ok (stops, c3) → (∀ e ∈ stops, e.2 ≤ l.count) →
      let es := stops.map fun e =>
        (e.1, splatEmits (rs.take e.2) (l.pixel (w e.1 0)) [w e.1 1, w e.1 2, w e.1 3] (w e.1 4)
          (c0.scalar64 (regNo a + 2)))
      c3.checkEmits es = .ok () →
      LongAdjointForms (exec (.spladj d a f) s) c3 (c3.flagOf (f == 1)) (.splat true []) es

/-! ## The tape (R237-R244, R354, R370-R372) -/

/-- The tape instructions outside a handler. TSPAN opens a span with the header and the inputs of every live lane; TREC appends
one record of each lane that takes part to the open span, with the first code that fits its value, the previous value 0 at
first; TCLS closes the span; TMARK drops the newest closed span's records where the span may be recomputed; TPOP takes each
lane's newest record, once its span is there, and leaves an operation in flight that will write it. Without a tape share each
of the five raises TAPE_EXHAUSTED. A record takes 2 bytes as ZERO or REPEAT, 3 as DELTA8 and 6 as RAW32, and the bytes that it
takes are as many. Where a span that was spilled is popped from is the model's reading (DEDUCED, log 43), and so is a wave's part of
TAPESIZE in a DET launch (DESIGN CHOICE, log 71). -/
def Obligations.Tape : Prop :=
  (∀ (cx : Cx) (adds : List (Nat × Nat)) (keep target : Option Nat),
    let t := cx.st.tape
    let u := t.spillFor cx.la.record.tape adds keep target
    let past := fun (t : Machine.Tape) => ∃ a ∈ adds, cx.la.record.tape < t.share a.1 + a.2
    let others := cx.s.tapeElsewhere cx.id cx.st
    let fits := cx.la.record.tapeBase ≠ 0 ∧ (cx.la.det = false → others + u.backing ≤ cx.la.record.tapeSize) ∧
      (cx.la.det = true → u.backing ≤ cx.la.tapePart)
    (¬past t → cx.tapeRoom adds keep target = .ok cx) ∧
    (past t → ¬past u → fits → cx.tapeRoom adds keep target = .ok { cx with st := { cx.st with tape := u } }) ∧
    (past t → past u ∨ ¬fits → cx.tapeRoom adds keep target = .error (.faultOn cx (Exn.plain .tapeExhausted)))) ∧
  (∀ s cx (d : BitVec 7) (n : BitVec 4) (r : BitVec 1) c1,
    let k := n.toNat + 1
    Issues s { Desc.tape s false [(Opnd.srcV d).many k] with
      free := !(s.issueHas fun cx => (List.range k).any fun i => cx.pendingV (cx.sp.winbase + d.toNat + i) cx.sp.members) } cx →
    (cx.la.record.tape = 0 → exec (.tspan d n r) s = .next (cx.takeFault (Exn.plain .tapeExhausted))) ∧
    (cx.la.record.tape ≠ 0 → cx.divergent = true ∨ cx.st.tape.open?.isSome = true ∨ 4096 ≤ cx.st.tape.opened →
      exec (.tspan d n r) s = .next (cx.takeFault (Exn.plain .illegalOperand))) ∧
    (cx.la.record.tape ≠ 0 → cx.divergent = false → cx.st.tape.open? = none → cx.st.tape.opened < 4096 →
      (∀ i l, i < k → inMask cx.sp.members l = true → cx.badEntry (cx.sp.winbase + d.toNat + i) l = false) →
      cx.tapeRoom ((lanesOf cx.sp.members).map fun l => (l, 4 + 4 * k)) none none = .ok c1 →
      ∃ p : Span, exec (.tspan d n r) s = .next (Cx.finish { c1 with
          st := { c1.st with tape := { c1.st.tape with
            spans := c1.st.tape.spans ++ [p], opened := c1.st.tape.opened + 1 } } }) ∧
        p.st = .opened ∧ p.rc = (r == 1) ∧ p.pc = c1.sp.pc + 4 ∧ p.dii = c1.sp.dii + 1 ∧ p.mode = c1.sp.mode ∧
        p.srseed = c1.sp.srseed ∧ p.lossexp = c1.sp.lossexp ∧ p.lanes = c1.sp.members ∧ p.recs = [] ∧
        p.inputs = (lanesOf c1.sp.members).map fun l => (l, (List.range k).map fun i => c1.vec (d.toNat + i) l))) ∧
  (∀ s cx d a tag c1 x c2 i, Issues s { Desc.lane [.src d, .srcS a] with legal := !s.inHandler } cx →
    (cx.la.record.tape = 0 → exec (.trec d a) s = .next (cx.takeFault (Exn.plain .tapeExhausted))) ∧
    (cx.la.record.tape ≠ 0 → cx.tapeTag a = .ok (tag, c1) → c1.source d = .ok (x, c2) → c2.st.tape.open? = some i →
      let prev := fun l => match c2.st.tape.spans[i]? with
        | some p => ((p.lane l).getLast?.map (·.value)).getD 0
        | none => 0
      let recs : List TapeRec := (lanesOf c2.part).map fun l =>
        let v := c2.laneOf d x l
        { lane := l, code := tapeCode v (prev l), tag := tag, value := v, size := (tapeCode v (prev l)).size, spilled := false }
      ∀ c3 c4, c2.tapeRoom (recs.map fun r => (r.lane, r.size)) none (some i) = .ok c3 →
        c3.buffer [{ size := (recs.map (·.size)).sum, item := .tape, recs := [], issue := 0, lane := 0, rel := none,
                       cached := false, own := false }] =
          .ok c4 →
        exec (.trec d a) s = .next (Cx.finish { c4 with st := { c4.st with
          tape := c4.st.tape.onSpan i fun p => { p with recs := p.recs ++ recs } } }))) ∧
  (∀ s cx, Issues s (Desc.tape s true []) cx →
    (cx.la.record.tape = 0 → exec .tcls s = .next (cx.takeFault (Exn.plain .tapeExhausted))) ∧
    (∀ i, cx.la.record.tape ≠ 0 → cx.st.saved = none → cx.divergent = false → cx.st.tape.open? = some i →
      exec .tcls s = .next (Cx.finish { cx with st := { cx.st with
        tape := cx.st.tape.onSpan i fun p => { p with st := .closed } } })) ∧
    (cx.la.record.tape ≠ 0 → cx.st.saved = none → cx.divergent = true ∨ cx.st.tape.open? = none →
      exec .tcls s = .next (cx.takeFault (Exn.plain .illegalOperand)))) ∧
  (∀ s cx, Issues s (Desc.tape s false []) cx →
    (cx.la.record.tape = 0 → exec .tmark s = .next (cx.takeFault (Exn.plain .tapeExhausted))) ∧
    (cx.la.record.tape ≠ 0 → cx.divergent = true ∨ (∀ p ∈ cx.st.tape.spans, p.st = .opened) →
      exec .tmark s = .next (cx.takeFault (Exn.plain .illegalOperand)))) ∧
  (∀ s cx, Issues s (Desc.tape s false []) cx → cx.la.record.tape ≠ 0 → cx.divergent = false → ∀ p i,
    ((cx.st.tape.spans.zipIdx).filter fun p => p.1.st != .opened).getLast? = some (p, i) →
    (p.st = .dropped → exec .tmark s = .next cx.finish) ∧
    (p.st ≠ .dropped → p.rc = false → exec .tmark s = .next (cx.takeFault (Exn.plain .illegalOperand))) ∧
    (p.st ≠ .dropped → p.rc = true → exec .tmark s = .next (Cx.finish { cx with st := { cx.st with
      tape := cx.st.tape.onSpan i fun q => { q with
        st := .dropped, counts := allLanes.map fun l => (l, (p.lane l).length), recs := [] } } }))) ∧
  (∀ (x prev : Word) (l : Nat) (tag : BitVec 12),
    let d := (x - prev).toInt
    let c := tapeCode x prev
    c = (if x = 0 then .zero else if x = prev then .same else if -128 ≤ d ∧ d ≤ 127 then .delta else .raw) ∧
    (∀ sz sp, (TapeRec.bytes ⟨l, c, tag, x, sz, sp⟩ prev).length = c.size) ∧
    TapeCode.size .zero = 2 ∧ TapeCode.size .same = 2 ∧ TapeCode.size .delta = 3 ∧ TapeCode.size .raw = 6) ∧
  ∀ s cx d a (f : BitVec 1) tag c1 c2 got c3, Issues s { Desc.lane [(Opnd.dstV d).pending, .srcS a] with
      recomp := false, legal := !s.inHandler, flag := some (f == 1) } cx →
    (cx.la.record.tape = 0 → exec (.tpop d a f) s = .next (cx.takeFault (Exn.plain .tapeExhausted))) ∧
    (cx.la.record.tape ≠ 0 → cx.st.tape.open?.isSome = true →
      exec (.tpop d a f) s = .next (cx.takeFault (Exn.plain .illegalOperand))) ∧
    (cx.la.record.tape ≠ 0 → cx.st.tape.open? = none → cx.tapeTag a = .ok (tag, c1) →
      cx.flagRoom (cx.flagOf (f == 1)) = .ok () → (∃ c, cx.bringLanes (lanesOf cx.part) = .ok c) →
      c1.bringLanes (lanesOf cx.part) = .ok c2 →
      c2.st.tape.popLanes tag (Sp.get false c2.st.tape.first tag.toNat) (Sp.get false c2.st.tape.replay tag.toNat)
        (lanesOf cx.part) = (got, []) → (∀ l ∈ lanesOf cx.part, ErrSite.tape c2.id l ∉ c2.s.errors) →
      let t := (got.foldl (fun t g => Tape.markPop t tag g.1 g.2.1 g.2.2.2) c2.st.tape).free
      let c := { c2 with st := { c2.st with tape := t } }
      c.launchOp (cx.flagOf (f == 1)) { Op.blank c2 .tpop with
        pendV := c2.destV d 1, lanes := c2.part,
        vres := got.map fun g => ((c2.sp.winbase + d.toNat) * 96 + g.1, g.2.2.1) } = .ok c3 →
      exec (.tpop d a f) s = .next c3.finish)

/-! ## System instructions (R32, R43-R48, R115, R257-R263, R326, R361, R400-R403) -/

/-- GROW, SHRINK, TRAP and TRET (R45-R48, R259-R263, R326, R361; the room of a partition counts the slots that DET stages
hold, R71). GROW raises the allotment by 8 times its immediate where the
partition has room, and is held otherwise; SHRINK lowers it; each outside 1 to 30, or to an allotment outside 16 to 256,
raises ILLEGAL_OPERAND; entries that become visible hold zero, and those that cease to be lose their contents: they hold free values
(DESIGN CHOICE, log 4). TRAP raises SOFTWARE with its code. TRET
leaves the handler for the instruction, or for the next one. -/
def Obligations.AllotmentAndTraps : Prop :=
  (∀ s cx (n : BitVec 8), Issues s { Desc.split [] with mcc := false, recomp := false } cx →
    let a := cx.st.vis.allot
    let b := a + 8 * n.toNat
    let legal := 1 ≤ n.toNat ∧ n.toNat ≤ 30 ∧ 16 ≤ b ∧ b ≤ 256
    (¬legal → exec (.grow n) s = .next (cx.takeFault (Exn.plain .illegalOperand))) ∧
    (legal → Config.allotUnits < cx.s.allotBeside cx.id cx.st.cl cx.st.core cx.st.part + b →
      exec (.grow n) s = .next (cx.holdAt (.grow b))) ∧
    (legal → cx.s.allotBeside cx.id cx.st.cl cx.st.core cx.st.part + b ≤ Config.allotUnits →
      ∃ c : Cx, exec (.grow n) s = .next c.finish ∧ c.s = cx.s ∧ c.sp = cx.sp ∧ c.st.vis.allot = b ∧
        c.st.vis.sregs = cx.st.vis.sregs ∧ c.st.vis.preds = cx.st.vis.preds ∧ c.st.flags = cx.st.flags ∧
        ∀ e l, l < 96 → c.st.vreg e l =
          if visibleEntry (putSplit cx.st.vis.splits cx.sp) a e = visibleEntry (putSplit cx.st.vis.splits cx.sp) b e then
            cx.st.vreg e l else 0)) ∧
  (∀ s cx (n : BitVec 8), Issues s { Desc.split [] with mcc := false, recomp := false } cx →
    let a := cx.st.vis.allot
    let b := a - 8 * n.toNat
    let legal := 8 * n.toNat ≤ a ∧ 1 ≤ n.toNat ∧ n.toNat ≤ 30 ∧ 16 ≤ b ∧ b ≤ 256
    (¬legal → exec (.shrink n) s = .next (cx.takeFault (Exn.plain .illegalOperand))) ∧
    (∀ ps, legal → spillAll b cx.la.psize (putSplit cx.st.vis.splits cx.sp) = some ps →
      ∃ c : Cx, exec (.shrink n) s = .next c.finish ∧ c.s = cx.s.bump ∧ c.st.vis.allot = b ∧ c.st.vis.splits = ps ∧
        c.st.vis.sregs = cx.st.vis.sregs ∧ c.st.vis.preds = cx.st.vis.preds ∧
        ∀ e l, l < 96 → c.st.vreg e l =
          if visibleEntry ps a e = true ∧ visibleEntry ps b e = false then Config.freeWord (2 ^ 24 * cx.s.fresh + e * 96 + l)
          else cx.st.vreg e l)) ∧
  (∀ s cx (k : BitVec 8), Issues s { Desc.control with recomp := false } cx →
    exec (.trap k) s = .next (cx.takeFault { Exn.plain .software with sw := k.toNat, empty := true })) ∧
  ∀ s cx (n : BitVec 1) t f rest, Issues s { Desc.control with legal := s.inHandler } cx → cx.sp.trap = some t →
    cx.sp.linkage = .trap f :: rest → ∃ (p : Split) (st : Stream),
      exec (.tret n) s = .next (Cx.finish { cx with
        st := (st.putSplit { p with dii := cx.sp.dii + 1 }).releaseFaults, keep := false }) ∧
      st = (if n = 1 then (cx.st.fold (cx.sp.recs.map (·.2))).disown cx.sp.serial else cx.st) ∧ (n = 0 → p.retry = some (t.retry &&& p.mask)) ∧
      (n = 1 → p.retry = none) ∧ p.trap = none ∧ p.linkage = rest ∧ p.winbase = cx.sp.winbase - f ∧ p.mode = t.mode ∧
      p.mask = t.mask &&& cx.sp.members ∧ p.members = cx.sp.members ∧ (n = 0 → p.pc = t.pc) ∧ (n = 1 → p.pc = t.pc + 4) ∧ p.hold = none ∧
      p.fpstat = cx.sp.fpstat ∧ p.srseed = cx.sp.srseed ∧ p.num = cx.sp.num

/-- XRD and XWR (R32, R48, R160, R400-R403). The indices of the registers are 0x00-0x17, 0x80-0x82, 0x90-0xAD, 0xC0-0xC3 and
0xD0-0xD2; read-only are DII, ALLOT to SPLITINFO, RANKINFO and the SUSPECT window. An index without a register, and a write of a
read-only one, raise ILLEGAL_OPERAND; XRD and XWR of one from 0x80 need the privilege; a DET launch may not read CYCLE,
SPLITINFO or the SUSPECT window. Each stream
register that may be written reads back what was written; ALLOT, WINBASE and SPLITINFO read as the issuing split stands. -/
def Obligations.SystemRegisters : Prop :=
  (∀ i, i < 256 →
    sysReg i = decide (i ∈ List.range' 0 24 ++ List.range' 0x80 3 ++ List.range' 0x90 30 ++ List.range' 0xC0 4 ++
      List.range' 0xD0 3) ∧
    sysReadOnly i = decide (i ∈ [3, 4] ++ List.range' 8 13 ++ [0x17] ++ List.range' 0x90 30) ∧
    sysTimed i = decide (i ∈ [0x0A, 0x0B, 0x14] ++ List.range' 0x90 30)) ∧
  (∀ s cx a (i : BitVec 8), Cx.load s = some cx →
    cx.illegal { Desc.split [.srcS a] with priv := decide (i.toNat ≥ 0x80), recomp := decide (i.toNat < 0x80) } = false →
    0x80 ≤ i.toNat → cx.st.privileged = false → exec (.xwr a i) s = .next (cx.takeFault (Exn.plain .privilege))) ∧
  (∀ s cx d (i : BitVec 8), Issues s { Desc.split [.dstS d] with priv := decide (i.toNat ≥ 0x80) } cx →
    (sysReg i.toNat = false → exec (.xrd d i) s = .next (cx.takeFault (Exn.plain .illegalOperand))) ∧
    (sysReg i.toNat = true → cx.la.det = true → sysTimed i.toNat = true →
      exec (.xrd d i) s = .next (cx.takeFault (Exn.plain .detViolation))) ∧
    ∀ v c1 c2, sysReg i.toNat = true → (cx.la.det = false ∨ sysTimed i.toNat = false) → cx.sysRead i.toNat = (v, c1) →
      c1.writeS (regNo d) v = .ok c2 → exec (.xrd d i) s = .next c2.finish) ∧
  (∀ s cx a (i : BitVec 8), Issues s { Desc.split [.srcS a] with
      priv := decide (i.toNat ≥ 0x80), recomp := decide (i.toNat < 0x80) } cx →
    (sysReg i.toNat = false ∨ sysReadOnly i.toNat = true →
      exec (.xwr a i) s = .next (cx.takeFault (Exn.plain .illegalOperand))) ∧
    ∀ v c1, sysReg i.toNat = true → sysReadOnly i.toNat = false → cx.readS (regNo a) = .ok (v, c1) →
      (sysTakes i.toNat v.toNat = true → exec (.xwr a i) s = .next (c1.sysWrite i.toNat v).finish) ∧
      (sysTakes i.toNat v.toNat = false → exec (.xwr a i) s = faultsOn cx c1 (Exn.plain .illegalOperand))) ∧
  (∀ s cx d (i : BitVec 8), Cx.load s = some cx →
    cx.illegal { Desc.split [.dstS d] with priv := decide (i.toNat ≥ 0x80) } = false → 0x80 ≤ i.toNat →
    cx.st.privileged = false → exec (.xrd d i) s = .next (cx.takeFault (Exn.plain .privilege))) ∧
  (∀ (cx : Cx) (v : Word), ∀ i ∈ [0x00, 0x01, 0x02, 0x05, 0x06, 0x07, 0x15, 0x16], sysTakes i v.toNat = true →
    ((cx.sysWrite i v).sysRead i).1 = v ∧ (cx.sysWrite i v).s = cx.s) ∧
  (∀ (cx : Cx) (v : Word), cx.st.isReplay = false → ∀ i ∈ [0x80, 0x81, 0x82, 0xD0, 0xD1, 0xD2],
    sysTakes i v.toNat = true → (cx.s.packageWrite i v).packageReg i = v ∧ (cx.s.packageWrite i v).mem = cx.s.mem) ∧
  ∀ (cx : Cx), cx.st.isMcc = false →
    (cx.sysRead 0x08).1 = BitVec.ofNat 32 cx.st.vis.allot ∧ (cx.sysRead 0x09).1 = BitVec.ofNat 32 cx.sp.winbase ∧
    (cx.sysRead 0x14).1 = BitVec.ofNat 32 (cx.sp.num + 4 * cx.st.vis.splits.length + 32 * cx.sp.stack.length +
      1024 * (if cx.sp.trap.isSome then 1 else 0)) ∧
    (cx.sysRead 0x03).1 = BitVec.ofNat 32 cx.sp.dii.toNat ∧
    ((cx.sysRead 0x03).2.sysRead 0x04).1 = BitVec.ofNat 32 (cx.sp.dii.toNat / 2 ^ 32)

/-! ## What the device does of itself, and what comes from outside (R13, R50-R76, R87-R91, R149-R154, R163, R164, R178,
R200-R206, R227-R230, R248-R281, R318-R320, R341, R404-R407) -/

/-- The end of an operation (R88, R250, R264, R266, R324): it is gone, its flag is lower by 1, and memory stays. Each register it writes
holds the last value of its results, but in a lane that has exited; a mask word among them sets the mask of the split that issued
it; what was issued before the checkpoint is in the checkpoint too, also for a lane that has exited since and that a kill brings back,
and so is its error, at the split that held it then; and an engine fault waits at its split. -/
def EndsOperation (s t : State) (n : Nat) (o : Op) (st : Stream) : Prop :=
  let last := fun (ws : List (Nat × Word)) (k : Nat) => (ws.reverse.find? fun w => w.1 == k).map (·.2)
  t.op? n = none ∧ (∀ m, m ≠ n → t.op? m = s.op? m) ∧ t.mem = s.mem ∧ t.ws = s.ws ∧ t.launches = s.launches ∧
  t.clusters = s.clusters ∧
  ∃ st', t.stream? o.stream = some st' ∧ st'.buffer = st.buffer ∧ st'.vis.preds = st.vis.preds ∧ st'.vis.kregs = st.vis.kregs ∧
    (∀ f, st'.flag f = if o.flag = some f then st.flag f - 1 else st.flag f) ∧
    (∀ e l, l < 96 → st'.vreg e l =
      if inMask st.exited l then st.vreg e l else (last o.vres (e * 96 + l)).getD (st.vreg e l)) ∧
    (∀ k, k < 60 → st'.sreg k = (last o.sres k).getD (st.sreg k)) ∧
    (∀ ck, st.ckpt = some ck → o.ckptNo < st.ckptNumber → ∃ ck', st'.ckpt = some ck' ∧ st'.dirtyV = st.dirtyV ∧
      st'.dirtyS = st.dirtyS ∧
      (∀ e l, l < 96 → Sp.get 0 ck'.frames (e * 96 + l) = if inMask ck.exited l then Sp.get 0 ck.frames (e * 96 + l)
        else (last o.vres (e * 96 + l)).getD (Sp.get 0 ck.frames (e * 96 + l))) ∧
      ck'.writes = ck.writes ++ o.vres.filter (fun r => !inMask ck.exited (r.1 % 96) && inMask st.exited (r.1 % 96)) ∧
      ∀ e, o.fault = some e → ∀ q' ∈ ck'.splits, ∃ q ∈ ck.splits, q.num = q'.num ∧
        q'.late = if q.num = o.homeAt st.ckptNumber then q.late ++ [(o.flag.getD noFlag, o.pc, e)] else q.late) ∧
    ∀ p, st.split? o.owner = some p → ∃ p', st'.split? o.owner = some p' ∧
      p'.mask = (o.sres.filter fun r => decide (60 ≤ r.1 ∧ r.1 < 63)).foldl
        (fun m r => setMaskWord m (r.1 - 60) r.2 &&& p.members) p.mask ∧
      p'.late = p.late ++ match o.fault with
        | some e => [(o.flag.getD noFlag, o.pc, e)]
        | none => []

/-- The end of an adjoint (R229, R230): the contributions of an instruction that faulted on other lanes wait in the release
buffer as its own; else they commit, in their order, and the checkpoint after the instruction stands; a full scatter log puts that
off. What stays in the buffer, and the digest that the checkpoint takes, are the model's reading (DEDUCED, log 42), and so is the hold
by a full log (DEDUCED, log 63). -/
def AdjointEnds : Prop :=
  ∀ (s : State) n o st, s.op? n = some o → s.stream? o.stream = some st → (st.pendKill = none ∨ st.killWaits = true) →
    (st.nextCkpt = none → s.finishAdjoint n o =
      (s.putStream o.stream { st with
        buffer := (o.contribs.map fun b => { b with own := true }).foldl (fun l b => insertItem b l) st.buffer }).finishOp n o) ∧
    ∀ ck, st.nextCkpt = some ck →
      (s.logFull { st with buffer := o.contribs } = true →
        ((s.finishAdjoint n o).op? n).map (·.held) = some true ∧ (s.finishAdjoint n o).arcade = s.arcade) ∧
      (s.logFull { st with buffer := o.contribs } = false → st.isReplay = false → ∀ cs : List Contrib,
        o.contribs.map (·.item) = cs.map .scat → ∃ t : State, ∃ st' : Stream, s.finishAdjoint n o = t.finishOp n o ∧
          t.ops = s.ops ∧ t.arcade.map (fun h => (h.launch, h.wid, h.c)) =
            s.arcade.map (fun h => (h.launch, h.wid, h.c)) ++ cs.map (fun c => (st.launch, st.wid, c)) ∧
          (s.arcade.length - (s.arcade.filterMap (·.slot)).length + cs.length ≤ arcadeSlots →
            t.mem = s.mem ∧ t.arcade = s.arcade ++ cs.map fun c => ⟨st.launch, st.wid, c, none⟩) ∧
          t.stream? o.stream = some st' ∧ st'.buffer = st.buffer ∧ st'.vis = st.vis ∧ st'.nextCkpt = none ∧
          st'.ckpt = some { ck with digest := st'.digest })

/-- Collectives go on (R273-R275): once every rank of a package group has issued its instance, each is matched, with the bytes it
will receive or, where the ranks disagree, with the fault ILLEGAL_OPERAND; the engine takes the matched ones chunk by chunk,
and at its end each writes its destination. -/
def CollectivesGoOn : Prop :=
  (∀ (s : State) n c, s.collOp n = some c → c.op.waiting = false → c.pod = false →
    (∀ d ∈ s.collGroup c, d.isSome = true) →
    let ds := (s.collGroup c).filterMap id
    let q := s.collReads ds
    let rs : List CollRank := (ds.zip q.1).map fun d => { oper := d.1.oper, count := d.1.src.elems.length, data := d.2 }
    let u := (ds.zipIdx).foldl (fun s d => s.matchRank (ds.all fun d => collAgree d rs) q.1 d.2 d.1) q.2
    ∃ t : State, exec (.collMatch n []) s = .next t ∧ t.mem = u.mem ∧ t.ops = u.ops ∧
      t.collNow = if u.collNow.isSome then u.collNow else u.nextColl) ∧
  (∀ (s : State) (ok : Bool) ts rk (c : CollOp) oper sc b root src dst seq ch m res,
    c.op.kind = .coll oper sc b root src dst seq ch m res →
    let t := s.matchRank ok ts rk c
    t.mem = s.mem ∧ t.streams = s.streams ∧ ∃ o, t.op? c.id = some o ∧
      (ok = true → o.fault = none ∧ o.kind = .coll oper sc b root src dst seq ch true
        (collResult oper root rk (2 ^ 32 * s.fresh) ((Ty.ofCode src.etype).getD .f32) ts)) ∧
      (ok = false → o.fault = some (Exn.plain .illegalOperand) ∧ o.kind = .coll oper sc b root src dst seq 0 true [])) ∧
  (∀ root rk fresh ty ts, collResult 2 root rk fresh ty ts = ts.flatten ∧ collResult 4 root rk fresh ty ts = nth [] ts root) ∧
  (∀ (s : State) n o c sc b rt src dst seq k bs, s.op? n = some o → o.waiting = false → s.collNow = some n →
    (∃ st, s.stream? o.stream = some st) → o.kind = .coll c sc b rt src dst seq (k + 1) true bs →
    let u := s.putOp n { o with kind := .coll c sc b rt src dst seq k true bs }
    exec (.collChunkComplete n) s = .next { u with collNow := u.nextColl }) ∧
  ∀ (s : State) n o st c sc b rt src dst seq bs u, s.op? n = some o → o.waiting = false → s.stream? o.stream = some st →
    o.kind = .coll c sc b rt src dst seq 0 true bs →
    (bs = [] → ∃ t : State, exec (.collComplete n) s = .next (t.finishOp n o) ∧ t.mem = s.mem ∧ t.ops = s.ops) ∧
    (bs ≠ [] → s.engineTouches o.stream st true dst.orient dst.width o.trans dst.elems = (dst.elems.length, none, u) →
      exec (.collComplete n) s = .next ((u.engineWrite st.launch o.stream o.mark
        ((elemPlaces st.cl dst.width o.trans dst.elems).zip bs)).finishOp n o))

/-- What one chunk of an MMA or an MMAS adds to an accumulator (R138, R139, R340): in each element of M x N the exact products of the
chunk's elements along K, for MMAS their sum times 2 to the sum of both scales' exponents, added to the old value and rounded once;
NaNs, infinities and a scale of 0xFF; no other element changes, and the flags are those of all the elements' steps. -/
def MatrixChunks : Prop :=
  (∀ (acc : Nat) (ts : List (Machine.Num × Machine.Num)),
    let old := valueOf .f32 acc
    let finite := fun v : Machine.Num => v.isNan = false ∧ v.isInf = false
    let dot := (ts.map fun t => numQ t.1 * numQ t.2).sum
    let inf := fun b => old = .inf b ∨ ∃ t ∈ ts, (t.1.mul t.2).1 = .inf b
    let nan := old.isNan = true ∨ ∃ t ∈ ts, t.1.isNan = true ∨ t.2.isNan = true
    let sig := old.isSig = true ∨ ∃ t ∈ ts, t.1.isSig = true ∨ t.2.isSig = true
    let bad := ∃ t ∈ ts, (t.1.mul t.2).2 = true
    (finite old → (∀ t ∈ ts, finite t.1 ∧ finite t.2) →
      (∃ (neg : Bool) (m : Nat) (e : Int), numQ (.fin neg m e) = numQ old + dot ∧
        chunkStep acc ts = roundTo .f32 .rne (.fin neg m e)) ∧
      ∀ ea eb : Nat, ea ≠ 255 → eb ≠ 255 → ∃ (neg : Bool) (m : Nat) (e : Int),
        numQ (.fin neg m e) = numQ old + (2 : ℚ) ^ (((ea : Int) - 127) + ((eb : Int) - 127)) * dot ∧
        scaledStep acc ts ea eb = roundTo .f32 .rne (.fin neg m e)) ∧
    (bad → chunkStep acc ts = (0x7FC00000, fIV)) ∧ (nan → (chunkStep acc ts).1 = 0x7FC00000 ∧ (sig → (chunkStep acc ts).2 = fIV)) ∧
    (¬nan → ¬bad → inf true → inf false → chunkStep acc ts = (0x7FC00000, fIV)) ∧
    (∀ b, ¬nan → ¬bad → inf b → ¬inf (!b) → chunkStep acc ts = (Ty.f32.infCode b, 0)) ∧
    ∀ ea eb, ea = 255 ∨ eb = 255 → scaledStep acc ts ea eb = (0x7FC00000, fIV)) ∧
  ∀ (c : Cluster) (pz : Nat → Byte) (cl acc : Nat) (a b : Tile) (scaled : Bool) (k : Nat), a.rows ≤ 64 → b.cols ≤ 64 →
    let r := c.chunk pz cl acc a b scaled k
    let w := if a.ty.isB8 then 32 else 16
    let el := fun (t : Tile) (i j : Nat) => (List.range t.width).foldr (fun n v => (pz (2 ^ 22 * cl + t.elem i j + n)).toNat + 256 * v) 0
    let terms := fun (i j : Nat) => ((List.range' (k * w) w).filter (· < a.cols)).map fun q =>
      (valueOf a.ty (el a i q), valueOf b.ty (el b q j))
    let old := fun (i j : Nat) => (Sp.get 0 c.accs (accKey acc i j)).toNat
    let step := fun (i j : Nat) => if scaled then scaledStep (old i j) (terms i j) (el (c.tile a.pair) i k) (el (c.tile b.pair) k j)
      else chunkStep (old i j) (terms i j)
    (∀ i j, i < a.rows → j < b.cols → Sp.get 0 r.1 (accKey acc i j) = BitVec.ofNat 32 (step i j).1) ∧
    (∀ n, (∀ i j, i < a.rows → j < b.cols → n ≠ accKey acc i j) → Sp.get 0 r.1 n = Sp.get 0 c.accs n) ∧
    ∀ n, r.2.getLsbD n = true ↔ ∃ i j, i < a.rows ∧ j < b.cols ∧ (step i j).2.getLsbD n = true

/-- Operations complete (R88, R149, R183, R214, R218, R273-R275, R318-R320, R341, R372). The completion of an operation
lowers its flag by 1, writes its registers and removes it, and writes no memory; an ATOM makes its read-modify-writes one by one
first, a copy, a drain and a fill write their bytes, a fill leaves its tile READY, or FILLING and PARTIAL where an error
stopped it, and a drain leaves it EMPTY; a chunk of an MMA adds to the accumulators; adjoints commit, and collectives match,
run and write. An operation whose instruction is unfinished does not complete. When an engine reads and writes, and that what it
writes comes after its issuer's earlier stores, is the model's reading (DEDUCED, log 7), and so is what a collective makes of
records that do not combine and of an error in a source (DEDUCED, log 51), the end of an adjoint (DEDUCED, logs 42 and 63) and an
ATOM's lane that fails after its issue (DEDUCED, log 70). -/
def Obligations.OperationsComplete : Prop :=
  (∀ (s : State) n o, s.op? n = some o → o.waiting = false →
    (o.kind = .load → exec (.memoryLoadComplete n) s = .next (s.finishOp n o)) ∧
    (o.kind = .occq → exec (.occqComplete n) s = .next (s.finishOp n o)) ∧
    (o.kind = .tex → exec (.texComplete n) s = .next (s.finishOp n o)) ∧
    (o.kind = .rtstep → exec (.rtstepComplete n) s = .next (s.finishOp n o)) ∧
    (o.kind = .tpop → exec (.tpopComplete n) s = .next (s.finishOp n o)) ∧
    (o.kind = .atom [] → exec (.atomComplete n) s = .next (s.finishOp n o)) ∧
    (∀ x q, o.kind = .atom [x] → (s.rmwStep n).op? n = some q →
      exec (.atomComplete n) s = .next ((s.rmwStep n).finishOp n q)) ∧
    (∀ x y q, o.kind = .atom (x :: y :: q) → exec (.atomComplete n) s = .next (s.rmwStep n)) ∧
    (o.kind = .texadj → exec (.texadjComplete n) s = .next (s.finishAdjoint n o)) ∧
    (o.kind = .edgs → exec (.edgsComplete n) s = .next (s.finishAdjoint n o)) ∧
    (∀ st bs, s.stream? o.stream = some st → o.kind = .splat true bs →
      exec (.splatOpComplete n) s = .next (s.finishAdjoint n o)) ∧
    (∀ st bs, s.stream? o.stream = some st → o.kind = .splat false bs →
      exec (.splatOpComplete n) s = .next ((s.engineWrite st.launch o.stream o.mark
        (bs.map fun b => ({ space := .plaza, key := b.1 }, b.2))).finishOp n o)) ∧
    (∀ m fs, o.kind = .raster m fs → (∀ f ∈ fs, s.spotError f.entry = none ∧ ∀ x, f.obj = some x → s.spotError x.1 = none) →
      exec (.rasterThreadComplete n) s = .next ((fs.foldl (State.fragment o.stream o.mark m) s).finishOp n o))) ∧
  (∀ (s : State) n o, s.op? n = some o → o.waiting = true → ∀ i ∈ [Instr.memoryLoadComplete n, .copyComplete n, .texComplete n,
      .atomComplete n, .occqComplete n, .rtstepComplete n, .tpopComplete n, .texadjComplete n, .edgsComplete n,
      .splatOpComplete n, .tileFillComplete n, .tileDrainComplete n, .rasterThreadComplete n, .collComplete n,
      .collChunkComplete n, .mmaChunkComplete n, .mmaComplete n], exec i s = .next s) ∧
  (∀ (s : State) n o st, s.op? n = some o → s.stream? o.stream = some st → st.life ≠ .ended →
    EndsOperation s (s.finishOp n o) n o st) ∧
  AdjointEnds ∧ CollectivesGoOn ∧ MatrixChunks ∧
  (∀ (s : State) n o st, s.op? n = some o → o.waiting = false → s.stream? o.stream = some st →
    (∀ q src dst dies, o.kind = .copy q src dst dies → mayComplete n st.coreNo q [] s.copyq = true →
      let u := s.runCopy st o src dst
      exec (.copyComplete n) s = .next ((({ u.2 with copyq := dropCopy n u.2.copyq } : State).finishOp n
        { o with fault := u.1 }).wakeCopy st.cl st.core dies)) ∧
    (∀ q src dst dies, o.kind = .copy q src dst dies → mayComplete n st.coreNo q [] s.copyq = false →
      exec (.copyComplete n) s = .next s) ∧
    (∀ (src dst : Shape) u v, src.elems.length = dst.elems.length →
      s.engineTouches o.stream st false .row src.width o.trans src.elems = (src.elems.length, none, u) →
      u.engineTouches o.stream st true .row src.width o.trans dst.elems = (dst.elems.length, none, v) →
      let sp := elemPlaces st.cl src.width o.trans src.elems
      let dp := elemPlaces st.cl src.width o.trans dst.elems
      (∀ p ∈ dp, p ∉ sp) → s.runCopy st o src dst = (none, (v.engineWrite st.launch o.stream o.mark
        ((dp.zip sp).map fun b => (b.1, v.engineByte o.stream o.mark b.2))).bump)) ∧
    (∀ k bs fl, o.kind = .tileFill k bs fl → ∃ u : State, ∃ st' : Stream,
      exec (.tileFillComplete n) s = .next u ∧ u.op? n = none ∧ u.mem = s.mem ∧
      (o.fault = none → ((u.cluster st.cl).tile k).st = .ready ∧ ((u.cluster st.cl).tile k).part = false) ∧
      (o.fault ≠ none → ((u.cluster st.cl).tile k).st = .filling ∧ ((u.cluster st.cl).tile k).part = true) ∧
      u.stream? o.stream = some st' ∧ (o.vres = [] → st'.vis.vregs = st.vis.vregs)) ∧
    (∀ k bs, o.kind = .tileDrain k bs → ∃ u : State, exec (.tileDrainComplete n) s = .next u ∧ u.op? n = none ∧
      u.mem = (s.engineWrite st.launch o.stream o.mark bs).mem ∧ ((u.cluster st.cl).tile k).st = .empty) ∧
    (∀ a ta tb sc ch chs fl last, o.kind = .mma a ta tb sc ch chs fl last → st.life = .resident → ch < chs →
      (∃ l, (s.cluster st.cl).lease = some l ∧ l.stream = o.stream) → s.mmaBefore n o.stream a = false → s.errors = [] →
      let c := s.cluster st.cl
      let q := c.chunk (fun k => s.engineByte o.stream o.mark { space := .plaza, key := k }) st.cl a (c.tile ta) (c.tile tb) sc ch
      exec (.mmaChunkComplete n) s = .next ((s.putCluster st.cl { c with accs := q.1 }).putOp n { o with
        kind := .mma a ta tb sc (ch + 1) chs (fl ||| q.2) (ch + 1 == chs) })) ∧
    (∀ a ta tb sc ch chs fl, o.kind = .mma a ta tb sc ch chs fl true → (st.life ≠ .resident ∨ st.savedLease ≠ none) →
      exec (.mmaComplete n) s = .next s) ∧
    (∀ a ta tb sc ch chs fl, o.kind = .mma a ta tb sc ch chs fl true → st.life = .resident → st.savedLease = none → ∃ u : State, exec (.mmaComplete n) s = .next u ∧
      u.op? n = none ∧ u.mem = s.mem ∧ (u.cluster st.cl).accs = (s.cluster st.cl).accs)) ∧
  ∀ (s : State) launch sid mark (bs : List (Place × Byte)),
    let t := s.engineWrite launch sid mark bs
    (∀ q, (∀ b ∈ bs, b.1.space = .phys → s.canon q ≠ s.canon b.1.key) → t.readPhys q = s.readPhys q) ∧
    ∀ a v, bs = [({ space := .phys, key := a }, v)] → backed (s.canon a) = true → t.readPhys a = v ∧
      ∀ st, t.stream? sid = some st → st.isReplay = false → s.stream? sid ≠ none →
        bufferedByte { space := .phys, key := a } (st.buffer.filter fun b => decide (b.issue < mark)) = none

/-- Which releases a split held at issue goes on by (R40, R46, R71, R87, R88, R149, R323, R377): once what it waits for has
come, its hold is lifted and its instruction issues again; the wait of a split that has exited ends the split. -/
def ReleasesLetGo : Prop :=
  ∀ (s : State) sid k st p h, s.stream? sid = some st → st.split? k = some p → p.hold = some h → st.life = .resident →
    let go := s.putStream sid (st.putSplit { p with hold := none })
    (p.status ≠ .ended →
      (∀ m, h = .flags m → st.flagsClear m = true → exec (.flagWaitRelease sid k) s = .next go) ∧
      (∀ m, h = .flags m → st.flagsClear m = false → exec (.flagWaitRelease sid k) s = .next s) ∧
      (h = .own → s.ownBusy sid k = false → exec (.flagWaitRelease sid k) s = .next go) ∧
      (h = .own → s.ownBusy sid k = true → exec (.flagWaitRelease sid k) s = .next s)) ∧
    (p.status = .ended → h = .own →
      (s.ownBusy sid k = true → exec (.flagWaitRelease sid k) s = .next s) ∧
      (s.ownBusy sid k = false → p.late = [] → exec (.flagWaitRelease sid k) s = .next (s.endSplit sid p.num)) ∧
      (s.ownBusy sid k = false → p.late ≠ [] → exec (.flagWaitRelease sid k) s = .next (s.putStream sid
        (({ st with exited := st.exited &&& ~~~p.members } : Stream).putSplit { p with status := .run, hold := none })))) ∧
    (∀ q, h = .queueEmpty q → Sp.get [] (s.bay st.launch st.cl).hwq q ≠ [] ∨ (∃ e ∈ st.redeliver, e.1 = q) →
      exec (.queueStallRelease sid k) s = .next go) ∧
    (∀ q, h = .queueFull q →
      (Sp.get [] (s.bay st.launch st.cl).hwq q).length + s.heldPushes st.launch st.cl q < Config.queueEntries →
      exec (.queueStallRelease sid k) s = .next go) ∧
    (∀ a, h = .grow a → s.allotBeside sid st.cl st.core st.part + a ≤ Config.allotUnits →
      exec (.growGrant sid k) s = .next go) ∧
    (∀ x, h = .tile x → let v := (s.cluster st.cl).tile x
      (v.st = .ready ∨ v.st = .empty ∨ v.st = .filling ∧ v.part = true) → s.tileInUse st.cl x = false →
      exec (.tileReadyRelease sid k) s = .next go) ∧
    ∀ g q c, h = .partition g c → (s.launchOf st).stages[g]? = some q →
      q.quota ≤ s.freeCards st.launch (s.launchOf st) g c q → exec (.postPartitionGrant sid k) s = .next go

/-- Exchanges of active slots (R50-R52). A stalled active wave, or one at a clause boundary that yielded or has used its time
slice, gives its slot to the pending wave that has been ready longest; a free slot goes to that wave; with no ready wave
nothing changes; a wave that leaves its slot and can issue counts as ready from then on (DEDUCED, log 53). That the time slice counts
the wave's issues is the model's choice (DESIGN CHOICE, log 9). -/
def SlotsExchange : Prop :=
  (∀ (s : State) sid st, s.stream? sid = some st → st.life = .resident → st.isMcc = false → st.isReplay = false →
    (st.active = true → st.stalled = true → exec (.waveExchange sid) s = .next (s.exchange sid st)) ∧
    (st.active = true → st.stalled = false → exec (.waveExchange sid) s = .next s) ∧
    (st.active = false → exec (.waveExchange sid) s = .next (s.promote st.cl st.core st.part)) ∧
    let due := st.active = true ∧ (st.yielded = true ∨ 4096 ≤ st.turns) ∧ st.atBoundary = true ∧
      ∃ e ∈ s.streams, e.2.inPartition st.cl st.core st.part = true ∧ e.2.active = false ∧ e.2.stalled = false
    (due → exec (.timesliceExchange sid) s = .next (s.exchange sid st)) ∧
    (¬due → exec (.timesliceExchange sid) s = .next s)) ∧
  (∀ (s : State) sid st, s.oldestReady st = none → s.exchange sid st = s) ∧
  (∀ (s : State) sid st k o, s.oldestReady st = some (k, o) → k ≠ sid →
    let t := s.exchange sid st
    (k, o) ∈ s.streams ∧ o.inPartition st.cl st.core st.part = true ∧ o.active = false ∧ o.stalled = false ∧
    (∀ e ∈ s.streams, e.2.inPartition st.cl st.core st.part = true → e.2.active = false → e.2.stalled = false →
      o.since ≤ e.2.since) ∧
    t.stream? k = some { o with active := true, turns := 0 } ∧
    t.stream? sid = some { st with
      active := false, order := s.nextId, yielded := false, turns := 0, readyAt := if st.stalled then none else some s.nextId } ∧ t.mem = s.mem) ∧
  ∀ (s : State) cl core part,
    let here := s.streams.filter fun e => e.2.inPartition cl core part
    (Config.activeSlots ≤ (here.filter fun e => e.2.active).length → s.promote cl core part = s) ∧
    ((∀ e ∈ here, e.2.active = true ∨ e.2.stalled = true) → s.promote cl core part = s) ∧
    ∀ k o, (k, o) ∈ here → o.active = false → o.stalled = false → s.stream? k = some o →
      (∀ e ∈ here, e ≠ (k, o) → e.2.active = false → e.2.stalled = false → o.since < e.2.since) →
      (here.filter fun e => e.2.active).length < Config.activeSlots →
      s.promote cl core part = s.putStream k { o with active := true, turns := 0 }

/-- A kill and the return to the checkpoint (R153, R248-R250, R256, R261). A kill takes place once every operation of the wave has ended but
parked ones and raster threads. The release buffer is discarded, what the region popped waits to be delivered again, tile
entries return, refused cards count no more, and the wave is out of its slot with the splits, k registers, allotment, tape
and frames of its checkpoint; what an operation of before the checkpoint wrote since in a lane that had exited stands; registers that
the region did not write keep their values (DEDUCED, log 15). A kill without replay ends the wave and makes its launch faulty. -/
def KillsRollBack : Prop :=
  (∀ (s : State) sid st, s.stream? sid = some st →
    (s.killReady sid st = true → st.overran = false → exec (.waveKill sid) s = .next (s.killNow sid)) ∧
    (s.killReady sid st = true → st.overran = true → exec (.handlerLimit sid) s = .next (s.killNow sid)) ∧
    (s.killReady sid st = false → exec (.waveKill sid) s = .next s ∧ exec (.handlerLimit sid) s = .next s) ∧
    (s.killReady sid st = true ↔ st.life = .resident ∧ st.pendKill ≠ none ∧ st.killWaits = false ∧
      ∀ o ∈ s.ops, o.2.stream = sid → o.2.waiting = true ∨ ∃ m fs, o.2.kind = .raster m fs)) ∧
  (∀ (s : State) sid st ck, s.stream? sid = some st → st.isMcc = false → st.isReplay = false → st.pendKill = some .replay →
    st.ckpt = some ck →
    let t := s.killNow sid
    let free := fun (f : Op → Prop) => ∀ o ∈ s.ops, o.2.stream = sid → o.2.waiting = true → f o.2
    t.mem = s.mem ∧ t.ws = s.ws ∧ t.arcade = s.arcade ∧ (∀ o ∈ t.ops, o.2.stream = sid → o.2.waiting = false) ∧
    (∀ n o, s.op? n = some o → o.stream ≠ sid → t.op? n = some o) ∧
    (∀ k, (∀ e ∈ st.tileUndo, e.1 ≠ k) → (t.cluster st.cl).tile k = (s.cluster st.cl).tile k) ∧
    (∀ k v, st.tileUndo = [(k, v)] → (t.cluster st.cl).tile k = v) ∧
    (∀ la, s.launch? st.launch = some la → ∃ l', t.launch? st.launch = some l' ∧ l'.cards = la.cards ∧ l'.plaza = la.plaza ∧
      l'.bays = la.bays ∧ l'.next = la.next ∧
      (∀ k, Sp.get 0 l'.refused k = Sp.get 0 la.refused k - ((st.refusals.filter fun e => e.1 = k).map (·.2)).sum) ∧
      ∀ p ∈ l'.parts, p ∈ la.parts ∧ ¬(p.prod = st.producer ∧ (p.stage, p.cl) ∈ st.newParts)) ∧
    ∃ st', t.stream? sid = some st' ∧ st'.life = .killed ∧ st'.active = false ∧ st'.pendKill = none ∧ st'.buffer = [] ∧
      st'.flags = [] ∧ st'.pops = [] ∧ st'.redeliver = st.pops ++ st.redeliver ∧ st'.region = st.region + 1 ∧
      st'.vis.ports = st.vis.ports ∧ st'.stack = st.stack ∧ st'.vis.splits = ck.splits.map Split.atReplay ∧
      st'.vis.kregs = ck.kregs ∧ st'.vis.allot = ck.allot ∧ st'.vis.pfill = ck.pfill ∧ st'.vis.alphastop = ck.alphastop ∧
      st'.vis.tba = ck.tba ∧ st'.exited = ck.exited ∧ st'.tape = ck.tape ∧ st'.digest = ck.digest ∧
      st'.log = st.log.take ck.logLen ∧
      (∀ k, (∀ e ∈ st.dirtyS, e.1 ≠ k) → free (fun o => k ∉ o.pendS) → st'.sreg k = st.sreg k) ∧
      (∀ e l, l < 96 → e < ck.lowBase → st'.vreg e l = Sp.get 0 ck.frames (e * 96 + l)) ∧
      (∀ e l, l < 96 → ck.lowBase ≤ e → (∀ x ∈ st.dirtyV, x.1 ≠ e * 96 + l) → free (fun o => e ∉ o.pendV) →
        (∀ x ∈ ck.writes, x.1 ≠ e * 96 + l) → st'.vreg e l = st.vreg e l) ∧
      (∀ e l v, l < 96 → ck.lowBase ≤ e → (ck.writes.reverse.find? fun x => x.1 == e * 96 + l).map (·.2) = some v →
        st'.vreg e l = v) ∧
      ∀ k, (∀ e ∈ st.dirtyP, e.1 ≠ k) → Sp.get 0 st'.vis.preds k = Sp.get 0 st.vis.preds k) ∧
  (∀ p : Split, (p.status = .parked → p.atReplay.status = .run) ∧ p.atReplay.members = p.members ∧ p.atReplay.num = p.num ∧
    (p.trap = none → p.atReplay.pc = p.pc ∧ p.atReplay.mask = p.mask ∧ p.atReplay.mode = p.mode ∧ p.atReplay.dii = p.dii ∧
      p.atReplay.winbase = p.winbase ∧ p.atReplay.linkage = p.linkage ∧ p.atReplay.stack = p.stack) ∧
    ∀ x, p.trap = some x → p.atReplay.pc = x.pc ∧ p.atReplay.mode = x.mode ∧ p.atReplay.mask = x.mask &&& p.members ∧
      p.atReplay.retry = some x.retry ∧ p.atReplay.trap = none ∧ p.atReplay.status = .run ∧ p.atReplay.late = x.late ++ p.late) ∧
  (∀ (s : State) sid st, s.stream? sid = some st → st.isMcc = false → st.isReplay = false → st.pendKill = some .replay →
    st.ckpt = none → ∃ st', (s.killNow sid).stream? sid = some st' ∧ st'.life = .killed ∧ st'.buffer = [] ∧ st'.flags = [] ∧
      st'.redeliver = st.pops ++ st.redeliver ∧ st'.ckpt = none ∧ st'.vis = st.vis) ∧
  ∀ (s : State) sid st, s.stream? sid = some st → st.isMcc = false → st.isReplay = false → st.pendKill = some .final →
    let t := s.killNow sid
    t.mem = s.mem ∧ t.ws = s.ws ∧ t.arcade = s.arcade ∧
    (∀ la, s.launch? st.launch = some la → ∃ l', t.launch? st.launch = some l' ∧ l'.faults = la.faults + 1 ∧ l'.bad = true ∧
      l'.cards = la.cards) ∧
    ∃ st', t.stream? sid = some st' ∧ st'.life = .ended ∧ st'.failed = true ∧ st'.buffer = [] ∧ st'.vis.splits = [] ∧
      st'.vis.ports = []

/-- Admission and dispatch (R11, R62-R64, R67, R71, R72, R74, R248). A launch's killed wave returns, on a cluster of the die where it
ran, before its next new wave takes a place; with slots and allotment at no place of it, a wave of the lowest priority below the
launch's, admitted last, is killed; the wave that returns resumes from its checkpoint, or as new where it had none. A card starts its
stage wave or is dropped by occlusion. The order of the two, and that a wave waits where only the Plaza has no room, are the model's
choice (DESIGN CHOICE, log 8), and so is the dealing index of a dropped card (DESIGN CHOICE, log 60). -/
def WavesAreAdmitted : Prop :=
  (∀ (s : State) l la place, s.launch? l = some la → let p := Seat.ofNat place
    (s.admitting la = false ∨ s.clusterTakes l p.cl = false ∨ s.outranked la p.cl = true →
      exec (.waveAdmission l place) s = .next s) ∧
    (s.admitting la = true → s.clusterTakes l p.cl = true → s.outranked la p.cl = false →
      (∀ sid st, s.returning l la p = some (sid, st) →
        (s.returnsTo la st p = true → s.notItsTurn l la = true → exec (.waveAdmission l place) s = .next s) ∧
        (s.returnsTo la st p = true → s.notItsTurn l la = false → exec (.waveAdmission l place) s =
          .next { s.readmit sid st la p with admitted := la.queue }) ∧
        (s.returnsTo la st p = false → (∃ q ∈ s.seatsOf la, s.slotReturns la st q = true) →
          exec (.waveAdmission l place) s = .next s) ∧
        ((∀ q ∈ p :: s.seatsOf la, s.slotReturns la st q = false) →
          exec (.waveAdmission l place) s = .next (s.preempt la p.cl))) ∧
      (s.returning l la p = none → la.next < la.total → la.mayPlace p = true →
        (s.placesAt l la p = true → s.notItsTurn l la = true → exec (.waveAdmission l place) s = .next s) ∧
        (s.placesAt l la p = true → s.notItsTurn l la = false → exec (.waveAdmission l place) s =
          .next { (({ s with nextId := s.nextId + 1 } : State).putLaunch l { la with next := la.next + 1 }).seat s.nextId
            { Stream.launchWave l la la.next p.cl p.core p.part with
              selected := la.selects la.next } with admitted := la.queue }) ∧
        (s.placesAt l la p = false → (∃ q ∈ s.seatsOf la, s.slotPlaces l la q = true) →
          exec (.waveAdmission l place) s = .next s) ∧
        ((∀ q ∈ p :: s.seatsOf la, s.slotPlaces l la q = false) →
          exec (.waveAdmission l place) s = .next (s.preempt la p.cl))))) ∧
  (∀ (s : State) l la sid st p, s.returning l la p = some (sid, st) → (sid, st) ∈ s.streams ∧ st.launch = l ∧ st.life = .killed ∧
    st.cl = p.cl ∧ st.core = p.core ∧ (la.det = true → st.part = p.part) ∧ s.physOf st.cl / 13 = st.phys / 13) ∧
  (∀ (s : State) l la st p,
    (s.returnsTo la st p = true ↔ s.slotReturns la st p = true ∧ s.shareRoom la (la.ownSlot p.cl st.stageOf) p.cl = true) ∧
    (s.placesAt l la p = true ↔ s.slotPlaces l la p = true ∧ s.shareRoom la none p.cl = true) ∧
    (s.shareRoom la none p.cl = true ↔ s.plazaUsed p.cl + 96 * la.record.tape ≤ Config.plazaBytes)) ∧
  (∀ (s : State) allot cl core part, s.slotRoom allot none cl core part = true ↔
    (s.streams.filter fun e => e.2.inPartition cl core part).length + (s.reserved cl core part).length < Config.waveSlots ∧
    s.allotBeside 0 cl core part + allot ≤ Config.allotUnits) ∧
  (∀ (s : State) l la cl, s.launch? l = some la → (∃ o ∈ s.launches, s.priOf o.2 < s.priOf la ∧ ∃ k card i, k < o.2.stages.length ∧
      i < 16 ∧ o.2.headCard k cl = some card ∧ s.wants o.1 o.2 k (Seat.ofNat (16 * cl + i)) card = true) →
    s.outranked la cl = true) ∧
  (∀ (s : State) sid st la p, let t := s.readmit sid st la p
    let w := if st.ckpt.isNone then st.afresh la else st
    t.mem = s.mem ∧ ∃ st', t.stream? sid = some st' ∧ st'.life = .resident ∧ st'.part = p.part ∧ st'.cl = w.cl ∧
      st'.core = w.core ∧ st'.vis.sregs = w.vis.sregs ∧ st'.vis.vregs = w.vis.vregs ∧ st'.redeliver = w.redeliver ∧
      st'.vis.ports = w.vis.ports) ∧
  (∀ (st : Stream) la, st.kind = .wave → (st.afresh la).vis =
    { (Stream.launchWave st.launch la st.rank.toNat st.cl st.core st.part).vis with ports := st.vis.ports } ∧
    (st.afresh la).redeliver = st.redeliver ∧ (st.afresh la).stack = st.stack) ∧
  (∀ (s : State) la cl, let here := s.streams.filter fun e =>
      e.2.life == .resident && e.2.cl == cl && !e.2.isMcc && !e.2.isReplay
    let pri := fun (e : Nat × Stream) => s.priOf (s.launchOf e.2)
    ((∃ e ∈ here, e.2.pendKill ≠ none) → s.preempt la cl = s) ∧
    ∀ v ∈ here, (∀ e ∈ here, e.2.pendKill = none) →
      (∀ e ∈ here, e ≠ v → pri e < pri v ∨ pri e = pri v ∧ e.2.admitted < v.2.admitted) →
      s.preempt la cl = if pri v > s.priOf la then s.requestKill v.1 .replay else s) ∧
  (∀ (s : State) l la cl, s.launch? l = some la →
    (s.compute && la.started && la.hasMcc && decide (cl < la.ncl) && !la.mccStart.contains cl && decide (cl < s.presented) &&
      s.serving (s.physOf cl) && s.mccRoom cl) = true →
    exec (.mccStreamStart l cl) s = .next ((({ s with nextId := s.nextId + 1 } : State).putLaunch l { la with
        mccStart := la.mccStart ++ [cl] }).putStream s.nextId { Stream.mccStream l la cl with
      phys := s.physOf cl, admitted := s.nextId })) ∧
  (∀ (s : State) l la stage place card g, let p := Seat.ofNat place
    s.launch? l = some la → la.headCard stage p.cl = some card → la.stages[stage]? = some g → s.compute = true →
    s.clusterTakes l p.cl = true → s.outranked la p.cl = false → s.wants l la stage p card = true →
    let t := s.dealCard l la g card p
    (s.seats l la stage p = true → s.notItsTurn l la = true → exec (.stageWaveDispatch l stage p.cl place) s = .next s) ∧
    (s.seats l la stage p = true → s.notItsTurn l la = false → exec (.stageWaveDispatch l stage p.cl place) s =
      .next (if s.occluded la card then t else { t with admitted := la.queue })) ∧
    let slot := fun i => let q := Seat.ofNat (16 * p.cl + i)
      s.wants l la stage q card = true ∧ s.stageSlot la stage q = true
    (s.seats l la stage p = false → (∃ i, i < 16 ∧ slot i) → exec (.stageWaveDispatch l stage p.cl place) s = .next s) ∧
    (s.seats l la stage p = false → (∀ i, i < 16 → ¬slot i) →
      exec (.stageWaveDispatch l stage p.cl place) s = .next (s.preempt la p.cl))) ∧
  (∀ (la : Launch) stage cl card, la.headCard stage cl = some card → card ∈ la.cards ∧ card.stage = stage ∧ card.cl = cl ∧
    (la.det = true → ∀ e ∈ la.queueOf stage cl, card.prod < e.prod ∨ card.prod = e.prod ∧ card.seq ≤ e.seq)) ∧
  ∀ (s : State) l la g card p, let t := s.dealCard l la g card p
    t.mem = s.mem ∧ (t.launch? l).map (·.cards) = some (la.cards.erase card) ∧
    (s.occluded la card = true → t.streams = s.streams ∧
      (t.launch? l).map (fun x => Sp.get 0 x.dropped card.stage) = some (Sp.get 0 la.dropped card.stage + 1)) ∧
    (s.occluded la card = false → ∃ st', t.stream? s.nextId = some st' ∧ st'.life = .resident ∧
      st'.kind = .stage card.stage (Sp.get 0 la.dealt (stageKey card.stage card.cl)) card ∧ st'.cl = card.cl ∧
      st'.core = p.core ∧ st'.part = p.part)

/-- Launches begin, close their epochs and complete (R56-R61, R206, R227, R228, R252, R253, R406). The record at the head of a queue is
refused with its REASON, or begins once the record before it lets it; a barrier record waits for its count; an epoch closes once
every wave has passed it, and its contributions are added in ascending key; a launch completes once nothing of it is left, and writes
its record. When a barrier record reaches the head (DESIGN CHOICE, log 60), the reach of the checks (DEDUCED, log 49), the page records of
the launch's own accesses (DESIGN CHOICE, log 62), the wait for the Plaza (DESIGN CHOICE, log 68) and what the scatter log's bytes are
(DESIGN CHOICE, log 25) are the model's. -/
def LaunchesRun : Prop :=
  (∀ (s : State) l la, s.launch? l = some la →
    (la.routed = false → s.epochOver l la la.closed = true → (∃ h ∈ s.arcade, h.launch = l ∧ h.c.epoch = la.closed) →
      exec (.epochClose l) s =
        .next (((s.sumEpoch l la.closed).onLaunch l fun x => { x with closed := la.closed + 1 }).settle)) ∧
    (s.quiet l la = false → exec (.launchComplete l) s = .next s) ∧
    (s.quiet l la = true → ∃ t : State, exec (.launchComplete l) s = .next t ∧ t.launch? l = none ∧
      (∀ e ∈ t.streams, e.2.launch ≠ l) ∧ (t.queue la.queue).count = (s.queue la.queue).count + 1 ∧
      (la.stats = 0 → (∀ h ∈ s.arcade, h.launch ≠ l) → t.mem = (s.writeDone (underPages la.trans la.record.done.toNat)
        (if la.faults > 0 ∨ la.bad = true then 3 else 1) 0 (s.verifyWord l la) la.faults (la.refused.map (·.2)).sum).mem)) ∧
    (exec (.launchSuspend l) s = .next (s.onLaunch l fun la => { la with suspended := true }) ∧
      exec (.launchSuspendEnd l) s = .next (s.onLaunch l fun la => { la with suspended := false }))) ∧
  (∀ (s : State) l n (hs : List Held), let mine := fun (h : Held) => h.launch == l && h.c.epoch == n
    hs.Perm (s.arcade.filter mine) → hs.Pairwise (fun a b => a.before b = true) →
    let u : State := { s with arcade := s.arcade.filter fun h => !mine h }
    (s.sumEpoch l n).mem = (hs.foldl State.arcadeAdd u).mem ∧ (s.sumEpoch l n).arcade = u.arcade) ∧
  (∀ (s : State) l la n, s.epochOver l la n = true → s.awaits l la = false ∧
    (∀ e ∈ s.streams, e.2.launch = l → e.2.isReplay = false →
      (∀ b ∈ e.2.buffer, ∀ c, b.item = .scat c → n < c.epoch) ∧
      (∀ o ∈ s.ops, o.2.stream = e.1 → s.stream? e.1 = some e.2 → ∀ b ∈ o.2.contribs, ∀ c, b.item = .scat c → n < c.epoch) ∧
      (e.2.isMcc = false → e.2.life ≠ .ended → e.2.saved = none → ∀ p ∈ e.2.vis.splits, n < p.scatbs))) ∧
  (∀ (s : State) h, s.errors = [] → s.linkFault h.c.place.key = false →
    let k := h.c.place.key
    let added := fun (s : State) => let u := s.arrive h.c.cached .row h.c.place
      u.writePhysN k (floatAdd .f32 .rne (u.readPhysN k 4) h.c.value.toNat).1 4
    (h.slot = none → s.arcadeAdd h = added s) ∧
    ∀ a, h.slot = some a → s.linkFault a = false →
      ((∀ i, i < logBytes → backed (s.canon (a + i)) = true) → s.arcadeAdd h = added (s.note Who.host false a)) ∧
      ((∃ i, i < logBytes ∧ backed (s.canon (a + i)) = false) → s.arcadeAdd h = s.note Who.host false a)) ∧
  (∀ (s : State) (q : BitVec 6) j n c0, (s.queue q.toNat).barrier = some (j, n, c0) →
    ((s.queue j).count - c0 ≥ n → exec (.queueBarrierComplete q) s =
      .next ((s.putQueue q.toNat { s.queue q.toNat with barrier := none }).countRecord q.toNat)) ∧
    ((s.queue j).count - c0 < n → exec (.queueBarrierComplete q) s = .next s)) ∧
  (∀ (s : State) q overlap, s.mayBegin q overlap = true ↔ ∀ l la, (s.queue q).last = some l → s.launch? l = some la →
    overlap = true ∧ la.routed = false ∧ s.awaits l la = false) ∧
  ∀ (s : State) (q : BitVec 6), s.headReady q.toNat = true →
    let c := s.queue q.toNat
    let slot := s.headSlot q.toNat
    let b := s.recByte slot
    let t := s.note Who.host false slot
    (recKind b ≠ 1 → let r := LaunchRec.parse slot b
      let k := t.checkRecord r b c.priv
      (s.mayBegin q.toNat (r.attr.getLsbD 1) = false → exec (.launchStart q) s = .next s) ∧
      (s.mayBegin q.toNat (r.attr.getLsbD 1) = true →
        (k.reason ≠ 0 → exec (.launchStart q) s = .next (k.s.refuse q.toNat (some r.done) k.reason c.priv)) ∧
        (let ncl := if r.nclus = 0 then t.presented else r.nclus
         (k.reason = 0 → (∃ i, i < ncl ∧ Config.plazaBytes < t.plazaUsed i + r.plaza) → exec (.launchStart q) s = .next t) ∧
         (k.reason = 0 → (∀ i, i < ncl → t.plazaUsed i + r.plaza ≤ Config.plazaBytes) →
         ∃ u : State, ∃ la : Launch, exec (.launchStart q) s = .next u ∧ u.launch? k.s.nextId = some la ∧ la.record = r ∧
           la.queue = q.toNat ∧ la.ncl = ncl ∧ la.ident = t.identOf q.toNat ∧ la.started = true ∧ la.next = 0 ∧
           la.total = (if r.attr.getLsbD 0 then 4 * ncl * r.w else (r.threads + 95) / 96) ∧
           (u.queue q.toNat).last = some k.s.nextId)))) ∧
    (recKind b = 1 → s.mayBegin q.toNat false = true → b 0 / 64 = 0 → fieldAt b 1 7 = 0 → fieldAt b 0x0C 4 = 64 →
      fieldAt b 0x10 112 = 0 →
      (b 0 % 64 = q.toNat →
        exec (.queueBarrier q) s = .next (((t.countRecord q.toNat).takeHead q.toNat).setLast q.toNat none)) ∧
      (b 0 % 64 ≠ q.toNat → let u := (t.takeHead q.toNat).setLast q.toNat none
        exec (.queueBarrier q) s = .next (u.putQueue q.toNat { u.queue q.toNat with
          barrier := some (b 0 % 64, BitVec.ofNat 32 (fieldAt b 8 4), (u.queue (b 0 % 64)).count) })))

/-- Replays, arbitrations and cordons (R11, R13, R200-R206, R302, R407). A selected wave that has ended is replayed on another cluster
with the input log of the original, from the wave's start; a digest that differs is arbitrated by a third; the scores move;
a cluster whose score is spent is cordoned at its boundary, and the spare of its die, in service, takes its index. How a replay
runs beside the waves (DEDUCED, log 16), the corners of the scores (DEDUCED, log 54) and when ranks move (DEDUCED, log 27) are
the model's reading. -/
def ReplaysAndCordons : Prop :=
  (∀ (s : State) l la g cl sid st, s.launch? l = some la → s.toVerify l g la = some (sid, st) →
    (s.replayOf sid = none → s.compute = true → s.mayReplay cl = true → cl ≠ st.phys →
      exec (.verifyReplay l g cl) s = .next (s.startReplay l g cl la st (.replay sid cl))) ∧
    (∀ k q, s.replayOf sid = some (k, q) → q.life = .ended → q.unverif = false → q.matches st.digest = true →
      exec (.verifyReplay l g cl) s = .next
        ((((s.judge l sid 1).onLaunch l fun la => { la with clean := la.clean + 1 }).countClean st.phys).countClean q.phys)) ∧
    (∀ k q, s.replayOf sid = some (k, q) → q.life = .ended → q.unverif = true →
      exec (.verifyReplay l g cl) s = .next (s.judge l sid 2)) ∧
    (∀ k q, s.replayOf sid = some (k, q) → q.life = .ended → q.unverif = false → q.matches st.digest = false →
      (s.arbiterOf sid = none → s.compute = true → s.mayReplay cl = true → cl ≠ st.phys → cl ≠ q.phys →
        exec (.arbitration l g cl) s =
          .next ((s.mismatch l g sid la st q).startReplay l g cl la st (.arbiter sid cl))) ∧
      ∀ j a, s.arbiterOf sid = some (j, a) → a.life = .ended → a.unverif = false →
        let code := arbitrate st q a
        let d := scoreTable code
        exec (.arbitration l g cl) s = .next (((((s.judge l sid code).box (a.phys / 13) 5 (clusterUnit a.phys)
          (BitVec.ofNat 32 code) (BitVec.ofNat 64 g) la.ident).addScore st.phys d.1).addScore q.phys d.2.1).addScore
          a.phys d.2.2))) ∧
  (scoreTable 3 = (32, 192, -32) ∧ scoreTable 4 = (192, 32, -32) ∧ scoreTable 5 = (64, 64, 64)) ∧
  (∀ (s : State) l g phys la st role, let t := s.startReplay l g phys la st role
    let w := Stream.launchWave l la g st.cl st.core st.part
    t.mem = s.mem ∧ t.launches = s.launches ∧ (∀ k, k ≠ s.nextId → t.stream? k = s.stream? k) ∧
    ∃ q, t.stream? s.nextId = some q ∧ q.role = role ∧ q.log = st.log ∧ q.phys = phys ∧ q.vis = w.vis ∧ q.digest = w.digest ∧
      q.life = w.life ∧ q.buffer = w.buffer) ∧
  (∀ (s : State) phys,
    (phys < 52 → (s.physAt phys).st = .pending → s.streams = [] → exec (.clusterCordon phys) s = .next (s.cordon phys)) ∧
    (∀ cl e, s.logicalOf phys = some cl → e ∈ s.streams → e.2.cl = cl → e.2.life = .resident → e.2.isReplay = false →
      (s.physAt phys).st = .pending → exec (.clusterCordon phys) s = .next s) ∧
    ((s.physAt phys).st = .inService ∨ (s.physAt phys).st = .spare → exec (.clusterCordon phys) s = .next s) ∧
    (phys < 52 → (s.physAt phys).st = .cordoned → phys % 13 ∈ s.dieRow (phys / 13) → exec (.clusterCordon phys) s = .next s.renumber) ∧
    (2 ^ 20 ≤ (s.physAt phys).clean → exec (.scoreDecay phys) s = .next (s.putPhys phys { s.physAt phys with
      clean := (s.physAt phys).clean - 2 ^ 20, score := (s.physAt phys).score - 1 })) ∧
    ((s.physAt phys).clean < 2 ^ 20 → exec (.scoreDecay phys) s = .next s)) ∧
  (∀ (s : State) d i, i < 12 → (s.physAt (13 * d + 12)).st = .spare → i ∈ s.dieRow d →
    let t := s.cordon (13 * d + i)
    t.mem = s.mem ∧ t.launches = s.launches ∧ (t.physAt (13 * d + i)).st = .cordoned ∧
    (t.physAt (13 * d + 12)).st = .inService ∧ t.dieRow d = (s.dieRow d).map (fun p => if p = i then 12 else p) ∧
    (∀ e, e ≠ d → t.dieRow e = s.dieRow e) ∧ t.presented = s.presented ∧
    ∀ e ∈ t.streams, e ∈ s.streams ∧ ¬(e.2.isReplay = true ∧ e.2.life = .resident ∧ e.2.phys = 13 * d + i)) ∧
  ∀ s : State, (s.movedRanks = [] → s.renumber = s) ∧
    (s.movedRanks ≠ [] → (∀ e ∈ s.streams, e.2.life = .resident → e.2.isReplay = true ∨ e.2.cl ∉ s.movedRanks) →
      s.renumber = { s with dieMap := s.newRows }) ∧
    ((∃ e ∈ s.streams, e.2.life = .resident ∧ e.2.isReplay = false ∧ e.2.isMcc = false ∧ e.2.cl ∈ s.movedRanks) →
      s.renumber = s) ∧
    (s.renumberDue = true → (∃ e ∈ s.streams, e.2.life = .resident ∧ e.2.isReplay = false ∧ e.2.cl ∈ s.movedRanks) →
      s.renumber.dieMap = s.dieMap ∧ s.renumber.streams = s.streams.map fun e =>
        if e.2.life = .resident ∧ e.2.isReplay = false ∧ e.2.cl ∈ s.movedRanks then (e.1, { e.2 with saveDue := true }) else e) ∧
    ∀ d, d < 4 → ({ s with dieMap := s.newRows } : State).dieRow d =
      (s.dieRow d).filter fun p => (s.physAt (13 * d + p)).st ≠ .cordoned

/-- Leases are granted, and MCC streams saved and restored (R75, R76, R154, R252, R253). A new lease has a fresh token and zeroed
accumulators for a new holder; a saved one comes back with its token, its count and its accumulators. A save leaves the stream's
registers as they are and writes only the context area that system software gave the cluster. A restore, on a cluster of the same die,
reads that area: it brings back what was saved where the area has memory, and zeroes where it has none (R267). The moment of a save is
the model's reading (DEDUCED, log 50), that the area's bytes are free values its choice (DESIGN CHOICE, log 32), and so is when a rank
that moves takes its streams back (DEDUCED, log 27). -/
def LeasesAndSaves : Prop :=
  (∀ (s : State) cl sid n st, (s.cluster cl).lease = none → s.nextLease (s.cluster cl) = some (sid, n) →
    s.stream? sid = some st → ∃ t : State, exec (.leaseGrant cl) s = .next t ∧ t.mem = s.mem ∧
      (st.savedLease = none → (t.cluster cl).lease =
        some { stream := sid, token := BitVec.ofNat 32 ((st.leases + 1) * 8192 + n), left := n, taken := false } ∧
        ((s.cluster cl).lastHolder ≠ some sid → (t.cluster cl).accs = []) ∧
        ((s.cluster cl).lastHolder = some sid → (t.cluster cl).accs = (s.cluster cl).accs)) ∧
      ∀ left token, st.savedLease = some (left, token) → (t.cluster cl).accs = st.savedAccs ∧ (t.cluster cl).lease =
        some { stream := sid, token := token, left := left, taken := true }) ∧
  ∀ (s : State) sid st, s.stream? sid = some st → st.isMcc = true →
    (st.life = .resident → st.saveDue = true → (∀ o ∈ s.ops, o.2.stream ≠ sid) →
      ∃ t : State, ∃ st' : Stream, exec (.mccSave sid) s = .next t ∧ t.stream? sid = some st' ∧ st'.life = .saved ∧
        st'.vis.sregs = st.vis.sregs ∧ st'.vis.kregs = st.vis.kregs ∧ st'.buffer = st.buffer ∧
        (∀ l, (s.cluster st.cl).lease = some l → l.stream = sid → l.taken = true →
          st'.savedLease = some (l.left, l.token) ∧ st'.savedAccs = (s.cluster st.cl).accs ∧
            (t.cluster st.cl).lease = none) ∧
        (Tab.get? s.ctxAreas (s.physOf st.cl) = none → t.mem = s.mem) ∧
        ∀ base size q, Tab.get? s.ctxAreas (s.physOf st.cl) = some (base, size) →
          (∀ i, i < Config.saveBytes (s.physOf st.cl) → s.canon q ≠ s.canon (base.toNat + i)) → t.readPhys q = s.readPhys q) ∧
    (st.life = .saved → s.physOf st.cl / 13 ≠ st.phys / 13 ∨ (s.renumberDue = true ∧ st.cl ∈ s.movedRanks) →
      exec (.mccRestore sid) s = .next s) ∧
    (st.life = .saved → s.compute = true → st.cl < s.presented → s.serving (s.physOf st.cl) = true → s.mccRoom st.cl = true →
      (s.launchOf st).suspended = false → s.physOf st.cl / 13 = st.phys / 13 → (s.renumberDue = false ∨ st.cl ∉ s.movedRanks) →
      let w := (s.readContext st).1
      (∃ t : State, exec (.mccRestore sid) s = .next t ∧ t.mem = s.mem ∧
        t.stream? sid = some { w with life := .resident, phys := s.physOf st.cl } ∧
        (w.savedLease = none → t.clusters = s.clusters) ∧
        (w.savedLease ≠ none → ∃ e ∈ (t.cluster st.cl).leaseReqs, e.1 = sid)) ∧
      (Tab.get? s.ctxAreas st.phys = none → w = st) ∧
      ∀ base size, Tab.get? s.ctxAreas st.phys = some (base, size) →
        let has := fun i => backed (s.canon (base.toNat + i)) = true
        (∀ i, i < Config.saveBytes st.phys → s.linkFault (base.toNat + i) = false) →
        ((∀ i, i < Config.saveBytes st.phys → has i) → w = st) ∧
        (0 < Config.saveBytes st.phys → (∀ i, i < Config.saveBytes st.phys → ¬has i) →
          (∀ k, w.sreg k = 0) ∧ w.flags = [] ∧ w.buffer = [] ∧ w.savedLease = none ∧ w.vis.splits.length = st.vis.splits.length))

/-- The scheduler and the life of waves and launches (R50-R76, R200-R206, R227, R228, R248-R253, R261, R302, R407): a held
split goes on once what it waits for has come; an exchange, an admission, a grant, a kill, a close, a replay and a cordon
take place when their condition holds, and leave the state as it is when it does not. Clauses of it are the model's own where
the rules leave the point open: the time slice (DESIGN CHOICE, log 9), replays beside the slots (DEDUCED, log 16), renumbering (DEDUCED,
log 27), the context area (DESIGN CHOICE, log 32), the reach of the launch checks (DEDUCED, log 49), the moment of an MCC save
(DEDUCED, log 50), the order of readiness and YIELD's mark (DEDUCED, log 53), the corners of the scores (DEDUCED, log 54), and
barrier records, the rotation and dealing indices (DESIGN CHOICE, log 60); registers that a killed region did not write (DEDUCED,
log 15), the order of admissions and the moment of a pre-emption (DESIGN CHOICE, log 8), the page records of the launch's own accesses
(DESIGN CHOICE, log 62), a launch that waits for the Plaza (DESIGN CHOICE, log 68) and the scatter log's bytes (DESIGN CHOICE,
log 25). -/
def Obligations.SchedulerSteps : Prop :=
  ReleasesLetGo ∧ SlotsExchange ∧ KillsRollBack ∧ WavesAreAdmitted ∧ LaunchesRun ∧ ReplaysAndCordons ∧ LeasesAndSaves

/-- A mailbox command (R270): with the mailbox not BUSY, the word is taken, the status is BUSY at once, and the command's
final status and results wait for COMMAND_COMPLETION. -/
def CommandTaken (s t : State) (code status : Nat) (words : List Word) : Prop :=
  t.mbox = { s.mbox with cmd := BitVec.ofNat 32 code, status := 1, pending := some (BitVec.ofNat 32 status, words) }

/-- Bring-up (R276, R280, R405): the image that passed the check runs; the tests end one by one, a failure ends in SAFE at once, and
the last result in SERVICE; SAFE kills every wave without replay. -/
def BringUpGoesOn : Prop :=
  (∀ s : State,
    (s.bring = .reset → exec .resetRelease s = .next { s with bring := .boot, cycles := [], wsPhase := [] }) ∧
    (s.bring = .boot → exec (.bootCheckComplete true) s = .next { s with bring := .selftest, running := s.firmware } ∧
      ∃ t : State, exec (.bootCheckComplete false) s = .next t ∧ t.bring = .safe ∧ t.mem = s.mem) ∧
    (∀ p ok, s.bring = .selftest → p < 52 → (s.physAt p).test = none → (s.physAt p).st ≠ .cordoned →
      let t := s.putPhys p { s.physAt p with test := some ok }
      exec (.clusterSelftestResult p ok) s = .next (if ok then t else t.cordon p).judgeTests) ∧
    ∀ k ok, s.bring = .selftest → k < 16 → Tab.get? s.testParts k = none → exec (.selftestFinish (k, ok)) s =
      .next ({ s with testParts := Tab.put s.testParts k ok } : State).judgeTests) ∧
  (∀ s : State,
    ((∃ d, d < 4 ∧ s.dieFailed d = true) → s.judgeTests = ({ s with bring := .safe } : State).killAll) ∧
    ((∀ d, d < 4 → s.dieFailed d = false ∧ s.dieTested d = true) →
      s.judgeTests = ({ s with bring := .service } : State).renumber) ∧
    ((∀ d, d < 4 → s.dieFailed d = false) → (∃ d, d < 4 ∧ s.dieTested d = false) → s.judgeTests = s)) ∧
  (∀ (s : State) d,
    (s.dieFailed d = true ↔ (∃ k, k < 4 ∧ Tab.get? s.testParts (4 * d + k) = some false) ∨
      ∀ p, p < 13 → (s.physAt (13 * d + p)).st = .cordoned ∨ (s.physAt (13 * d + p)).test = some false) ∧
    (s.dieTested d = true ↔ (∀ k, k < 4 → Tab.get? s.testParts (4 * d + k) ≠ none) ∧
      ∀ p, p < 13 → (s.physAt (13 * d + p)).st = .cordoned ∨ (s.physAt (13 * d + p)).test ≠ none)) ∧
  ∀ (s : State) sid st, s.stream? sid = some st → st.life = .resident →
    s.killAll.mem = s.mem ∧ ∃ st', s.killAll.stream? sid = some st' ∧ st'.pendKill = some .final

/-- What the host reads of the register window (R269, R270): the mailbox words, the completion counts and the indices of the host
fault queue; 0 at every other offset. -/
def WindowReads : Prop :=
  (∀ (s : State) off, off % 4 = 0 → s.windowRead off 4 = (s.windowWord off).toNat) ∧
  ∀ s : State, s.windowWord 0 = s.mbox.cmd ∧ s.windowWord 4 = s.mbox.status ∧
    (∀ i, i < 14 → s.windowWord (8 + 4 * i) = nth 0 s.mbox.args i) ∧
    (∀ q, q < 64 → s.windowWord (0x1400 + 8 * q) = (s.queue q).count ∧ s.windowWord (0x1404 + 8 * q) = 0) ∧
    s.windowWord 0x2000 = lo32 s.fq.head ∧ s.windowWord 0x2004 = hi32 s.fq.head ∧
    s.windowWord 0x2008 = lo32 s.fq.tail ∧ s.windowWord 0x200C = hi32 s.fq.tail ∧
    ∀ off, off % 4 = 0 → (0x40 ≤ off ∧ off < 0x1400 ∨ 0x1600 ≤ off ∧ off < 0x2000 ∨ 0x2010 ≤ off) → s.windowWord off = 0

/-- Soft errors and links as turns of the agenda (R265, R266, R271, R279): a corrected error is counted and recorded, and changes nothing
else; an uncorrectable one stays at its place. When they come is the model's choice (DESIGN CHOICE, log 17). -/
def ErrorsCome : Prop :=
  ∀ s : State,
    (∀ d u k a x, ∃ t : State, runTurn (.corrected d u k a x) s = .next t ∧
      Sp.get 0 t.corrected d = Sp.get 0 s.corrected d + 1 ∧ t.mem = s.mem ∧ t.streams = s.streams ∧ t.launches = s.launches ∧
      ∃ q, (Sp.get [] t.bbox d).getLast? = some q ∧ q.kind = 7 ∧ q.code = BitVec.ofNat 32 k ∧ q.addr = a ∧ q.detail = x) ∧
    (∀ e, e ∉ s.errors → runTurn (.strike e) s = .next { s with errors := e :: s.errors }) ∧
    (∀ rk, ∃ t : State, runTurn (.link rk true) s = .next t ∧ rk ∈ t.linkDown ∧ t.mem = s.mem) ∧
    ∀ rk, ∃ t : State, runTurn (.link rk false) s = .next t ∧ rk ∉ t.linkDown ∧ t.mem = s.mem

/-- Bring-up, clocks, the register window, the mailbox and accesses from outside (R13, R55, R147, R163, R229, R252, R265-R281,
R405). Each step of bring-up follows the one before; a clock falls and returns; a doorbell moves its queue's tail; a
command sets BUSY and its completion brings its status; the host reads the window, and the host and other packages read and write
memory. What a reset leaves of settings and of storage (DESIGN CHOICE, log 2), that accesses from outside are turns of the agenda
(DESIGN CHOICE, log 3), the order of the status codes (DEDUCED, log 28), a read of the window while a command runs (log 28), the fullness
of the host fault queue (DEDUCED, log 33), the form of the attestation report (DESIGN CHOICE, log 18) and its digest function, SHA-256
(PRESUMED, log 65), are the model's. -/
def Obligations.PackageSteps : Prop :=
  BringUpGoesOn ∧ WindowReads ∧ ErrorsCome ∧
  (∀ s : State, ∃ t u : State, exec .coldReset s = .next t ∧ t.bring = .reset ∧ t.mem = s.mem ∧ t.launches = [] ∧
    t.streams = [] ∧ t.phys = State.reset.phys ∧ t.corrected = [] ∧ exec .warmReset s = .next u ∧ u.bring = .reset ∧ u.mem = s.mem ∧
    u.launches = [] ∧ u.streams = [] ∧ u.dieMap = s.dieMap ∧ u.corrected = s.corrected ∧
    ∀ p, (u.physAt p).st = (s.physAt p).st ∧ (u.physAt p).score = (s.physAt p).score) ∧
  (∀ s : State,
    (∀ p, s.bring = .service → p < 52 → (s.physAt p).test = some true → s.streams = [] →
      exec (.clusterClockRise p) s = .next (s.putPhys p { s.physAt p with mhz := Config.serviceMhz })) ∧
    (∀ d m, d < 4 → m < s.dieMhz d → exec (.thermalResponse d m) s = .next
      (State.box { s with dieClock := Sp.set Config.serviceMhz s.dieClock d m } d 9 noUnit (BitVec.ofNat 32 m) 0 0)) ∧
    (∀ d, d < 4 → s.dieMhz d ≠ Config.serviceMhz → exec (.thermalResponseEnd d) s = .next
      (State.box { s with dieClock := Sp.set Config.serviceMhz s.dieClock d Config.serviceMhz } d 9 noUnit
        (BitVec.ofNat 32 Config.serviceMhz) 0 0)) ∧
    (∀ d, d < 4 → exec (.wsRefreshPhase d) s = .next { s with
      wsPhase := Sp.set 0 s.wsPhase d ((Sp.get 0 s.wsPhase d + 1) % 32) }) ∧
    (∀ c, c < 208 → exec (.coreClockStop c) s = .next { s with stopped := Sp.set false s.stopped c true } ∧
      exec (.coreClockStart c) s = .next { s with stopped := Sp.set false s.stopped c false }) ∧
    exec .ualinkFlitRetry s = .next s ∧
    ∀ r : BitVec 4, ∃ t : State, exec (.rafInvalidate r) s = .next t ∧ t.mem = s.mem ∧
      (∀ e ∈ t.tlb, e.page / 2 ^ 41 ≠ r.toNat) ∧ (∀ e ∈ t.walks, e.1 / 2 ^ 60 ≠ r.toNat) ∧ ∀ e ∈ s.tlb, e.page / 2 ^ 41 ≠ r.toNat → e ∈ t.tlb) ∧
  (∀ (s : State) (q : BitVec 6) (v : BitVec 64),
    let c := s.queue q.toNat
    let size := 2 ^ c.log2
    (s.bring = .safe → exec (.doorbell q v) s = .next s) ∧
    (s.bring ≠ .safe → c.cfg = true →
      (v.toNat % size + size - c.tail) % size + (c.tail + size - c.head) % size ≤ size - 1 →
      exec (.doorbell q v) s = .next (s.putQueue q.toNat { c with tail := v.toNat % size })) ∧
    exec (.fqhead v) s = .next { s with fq := { s.fq with head := v } }) ∧
  (∀ (s : State) (off : Nat) (v : Word),
    (∀ i, i < 14 → off = 8 + 4 * i → exec (.registerWrite off v) s = .next { s with
      mbox := { s.mbox with args := setNth s.mbox.args i v } }) ∧
    (off < 8 ∨ 0x3C < off ∨ off % 4 ≠ 0 → exec (.registerWrite off v) s = .next s)) ∧
  (∀ (s : State) st ws, s.mbox.pending = some (st, ws) → exec .commandCompletion s = .next { s with
    mbox := { s.mbox with status := st, args := ws ++ s.mbox.args.drop ws.length, pending := none } }) ∧
  (∀ s : State, s.mbox.status = 1 →
    exec .queueConfig s = .next s ∧ exec .kill s = .next s ∧ exec .resume s = .next s ∧ exec .clusterMap s = .next s) ∧
  (∀ s : State, s.mbox.status ≠ 1 →
    let m := s.mbox
    let base := m.arg64 0
    (s.compute = false → ∃ t : State, exec .queueConfig s = .next t ∧ CommandTaken s t 1 4 [] ∧ t.queues = s.queues) ∧
    (s.compute = true → m.arg 0 < 64 → m.arg64 1 % 128 = 0 → m.arg64 1 < 3 * 2 ^ 50 → 4 ≤ m.arg 3 → m.arg 3 ≤ 16 →
      bits (m.arg 4) 30 3 = 0 → (∃ k, k < 13 ∧ m.arg 5 = 2 ^ (12 + k)) → m.rest 6 = true → s.queueBusy (m.arg 0) = false →
      ∃ t : State, exec .queueConfig s = .next t ∧ CommandTaken s t 1 0 [] ∧ t.mem = s.mem ∧
        t.queue (m.arg 0) = {
          cfg := true, base := BitVec.ofNat 64 (m.arg64 1), log2 := m.arg 3, pri := m.arg 4 % 8,
          priv := bit (m.arg 4) 31, psize := m.arg 5, head := 0, tail := 0, count := 0, barrier := none,
          last := none }) ∧
    (s.compute = true → m.arg 0 % 256 < 13 → m.arg 0 < 1024 → m.arg64 1 % 4096 = 0 → m.arg64 1 < 3 * 2 ^ 50 →
      m.rest 5 = true → let n := 13 * (m.arg 0 / 256) + m.arg 0 % 256
      let need := Config.saveBytes n
      ∃ t : State, exec .contextArea s = .next t ∧
        CommandTaken s t 2 (if m.arg64 3 < need then 3 else 0) [BitVec.ofNat 32 need] ∧
        (need ≤ m.arg64 3 → Tab.get? t.ctxAreas n = some (BitVec.ofNat 64 (m.arg64 1), m.arg64 3))) ∧
    (s.compute = true → base % 4096 = 0 → base < 3 * 2 ^ 50 → m.arg64 2 % 4096 = 0 → m.rest 4 = true →
      ∃ t : State, exec .scatterLog s = .next t ∧ CommandTaken s t 3 0 [] ∧ t.slog = (BitVec.ofNat 64 base, m.arg64 2)) ∧
    (base % 64 = 0 → base < 3 * 2 ^ 50 → 4 ≤ m.arg 2 → m.arg 2 ≤ 16 → m.rest 3 = true →
      ∃ t : State, exec .faultQueue s = .next t ∧ CommandTaken s t 4 0 [] ∧ t.fq = { s.fq with
        cfg := true, base := BitVec.ofNat 64 base, log2 := m.arg 2, head := 0, tail := 0, parked := [] }) ∧
    (∀ i sid k st, s.compute = true → m.rest 1 = true →
      s.fq.parked.find? (fun e => e.1 == m.arg 0) = some (i, sid, k) → s.stream? sid = some st →
      ∃ t : State, exec .resume s = .next t ∧ CommandTaken s t 5 0 [] ∧ t.stream? sid = some (st.resume k)) ∧
    (s.compute = true → m.arg 0 < 64 → m.rest 1 = true → ∃ t : State, exec .kill s = .next t ∧ CommandTaken s t 6 0 [] ∧
      ∀ sid st, s.stream? sid = some st → st.life = .resident → st.isMcc = false → st.isReplay = false →
        (s.launchOf st).queue = m.arg 0 → ∃ st', t.stream? sid = some st' ∧ st'.pendKill.isSome = true) ∧
    (s.compute = true → m.arg 0 < m.arg 1 → m.arg 1 ≤ 1024 → m.rest 2 = true → ∃ t : State,
      exec .podConfig s = .next t ∧ CommandTaken s t 7 0 [] ∧ t.podRank = m.arg 0 ∧ t.podSize = m.arg 1) ∧
    (m.rest 0 = true → ∃ t : State, exec .clusterMap s = .next t ∧ t.mem = s.mem ∧
      CommandTaken s t 8 0 (BitVec.ofNat 32 s.presented :: (List.range 12).map fun i =>
        BitVec.ofNat 32 ((List.range 4).foldr (fun b acc => s.mapByte (4 * i + b) + 256 * acc) 0))) ∧
    (∀ r, m.arg 0 < 4 → m.rest 3 = true →
      (Sp.get [] s.bbox (m.arg 0)).find? (fun r => decide (r.seq.toNat ≥ m.arg64 1)) = some r →
      ∃ t : State, exec .blackboxRead s = .next t ∧ CommandTaken s t 9 0 (r.words ++ [1])) ∧
    (m.arg 0 < 4 → m.rest 3 = true →
      (Sp.get [] s.bbox (m.arg 0)).find? (fun r => decide (r.seq.toNat ≥ m.arg64 1)) = none →
      ∃ t : State, exec .blackboxRead s = .next t ∧ CommandTaken s t 9 0 (List.replicate 9 0)) ∧
    (m.rest 0 = true → ∃ t : State, exec .selftestResult s = .next t ∧
      CommandTaken s t 10 0 ((List.range 4).map s.testWord ++ (List.range 4).map s.failWord)) ∧
    (base < 3 * 2 ^ 50 → m.rest 3 = true → ∃ t : State, exec (.firmwareUpdate true) s = .next t ∧
      CommandTaken s t 11 0 [] ∧ t.running = s.running ∧
      t.firmware = (List.range (m.arg 2)).map fun i => s.ownByte (base + i)) ∧
    (∃ t : State, exec (.firmwareUpdate false) s = .next t ∧ CommandTaken s t 11 3 [] ∧ t.firmware = s.firmware) ∧
    (∀ nonce : List Byte, ∃ rest, s.report nonce =
      nonce ++ (List.range 32).map Config.deviceIdentity ++ sha256 s.running ++ rest) ∧
    (∀ r : Addr, r.toNat / 2 ^ 50 = 2 → s.compute = true → base < 3 * 2 ^ 50 → m.rest 2 = true → ∃ t : State,
      exec (.attest r) s = .next t ∧ CommandTaken s t 12 0 [lo32 r, hi32 r]) ∧
    ∀ w : Word, w = 0 ∨ 12 < w.toNat → ∃ t : State, exec (.unknownCommand w) s = .next t ∧ CommandTaken s t w.toNat 2 []) ∧
  ∀ (s : State) (a : OutsideAccess), (a.size = 1 ∨ a.size = 2 ∨ a.size = 4 ∨ a.size = 8) → a.addr.toNat % a.size = 0 →
    (a.kind = .read → a.window = true → exec (.hostMemoryAccess a) s =
      .next { s with outside := BitVec.ofNat 64 (s.windowRead a.addr.toNat a.size) }) ∧
    (a.kind = .read → a.window = false → a.addr.toNat < 3 * 2 ^ 50 → s.linkFault a.addr.toNat = false → ∃ t : State,
      exec (.hostMemoryAccess a) s = .next t ∧ t.mem = s.mem ∧
      t.outside = BitVec.ofNat 64 (s.readPhysN a.addr.toNat a.size)) ∧
    (a.kind = .write → a.window = false → a.addr.toNat < 3 * 2 ^ 50 → s.linkFault a.addr.toNat = false →
      exec (.hostMemoryAccess a) s =
        .next ((s.note Who.host true a.addr.toNat).writePhysN a.addr.toNat a.data.toNat a.size)) ∧
    (a.kind = .write → a.window = false → a.addr.toNat < 2 ^ 40 → s.linkFault a.addr.toNat = false →
      exec (.podRemoteAccess a) s =
        .next ((s.note Who.host true a.addr.toNat).writePhysN a.addr.toNat a.data.toNat a.size))
end

