-- ==== Sys2Proof/Laws/Table.lean ====
section
/-! SUPPORT. The laws of sparse tables: a read after a write, and the canonical form that every write keeps. -/

namespace Sys2Proof.Laws

variable {α : Type}

/-- Reading the key just written. -/
theorem get_put_same (m : List (Nat × α)) (k : Nat) (v : α) : Tab.get? (Tab.put m k v) k = some v := by
  induction m with
  | nil => simp [Tab.put, Tab.get?]
  | cons e t ih =>
    obtain ⟨a, w⟩ := e
    simp only [Tab.put]
    split
    · simp [Tab.get?]
    · split
      · simp [Tab.get?]
      · rename_i h1 h2
        simp [Tab.get?, h2, ih]

/-- Reading another key after a write. -/
theorem get_put_ne (m : List (Nat × α)) {k j : Nat} (v : α) (h : j ≠ k) : Tab.get? (Tab.put m k v) j = Tab.get? m j := by
  induction m with
  | nil => simp [Tab.put, Tab.get?, Ne.symm h]
  | cons e t ih =>
    obtain ⟨a, w⟩ := e
    simp only [Tab.put]
    split
    · simp [Tab.get?, Ne.symm h]
    · split
      · rename_i h1 h2
        subst h2
        simp [Tab.get?, Ne.symm h]
      · simp [Tab.get?, ih]

/-- Reading a removed key. -/
theorem get_del_same (m : List (Nat × α)) (k : Nat) : Tab.get? (Tab.del m k) k = none := by
  induction m with
  | nil => rfl
  | cons e t ih =>
    obtain ⟨a, w⟩ := e
    simp only [Tab.del]
    split
    · exact ih
    · rename_i h
      simp [Tab.get?, h, ih]

/-- Reading another key after a removal. -/
theorem get_del_ne (m : List (Nat × α)) {k j : Nat} (h : j ≠ k) : Tab.get? (Tab.del m k) j = Tab.get? m j := by
  induction m with
  | nil => rfl
  | cons e t ih =>
    obtain ⟨a, w⟩ := e
    simp only [Tab.del]
    split
    · rename_i h1
      subst h1
      simp [Tab.get?, Ne.symm h, ih]
    · simp [Tab.get?, ih]

/-- A sparse table reads the value just written. -/
@[simp] theorem sp_get_set_same [DecidableEq α] (d : α) (m : List (Nat × α)) (k : Nat) (v : α) :
    Sp.get d (Sp.set d m k v) k = v := by
  unfold Sp.get Sp.set
  split
  · rename_i h
    simp [get_del_same, h]
  · simp [get_put_same]

/-- A write to a sparse table leaves every other key. -/
theorem sp_get_set_ne [DecidableEq α] (d : α) (m : List (Nat × α)) {k j : Nat} (v : α) (h : j ≠ k) :
    Sp.get d (Sp.set d m k v) j = Sp.get d m j := by
  unfold Sp.get Sp.set
  split
  · rw [get_del_ne m h]
  · rw [get_put_ne m v h]

/-- Every key of a table is above a bound. -/
def above (k : Nat) (m : List (Nat × α)) : Prop := ∀ e ∈ m, k < e.1

/-- A table is sorted when its head is below its sorted tail. -/
theorem sorted_cons {a : Nat} {w : α} {t : List (Nat × α)} :
    Tab.sorted ((a, w) :: t) = true ↔ above a t ∧ Tab.sorted t = true := by
  induction t generalizing a w with
  | nil => simp [Tab.sorted, above]
  | cons e t ih =>
    obtain ⟨b, x⟩ := e
    simp only [Tab.sorted, Bool.and_eq_true, decide_eq_true_eq]
    constructor
    · rintro ⟨h1, h2⟩
      refine ⟨?_, h2⟩
      intro e he
      rcases List.mem_cons.mp he with rfl | he
      · exact h1
      · exact Nat.lt_trans h1 ((ih.mp h2).1 e he)
    · rintro ⟨h1, h2⟩
      exact ⟨h1 (b, x) (List.mem_cons_self ..), h2⟩

/-- A write keeps a bound below every key. -/
theorem above_put {a k : Nat} {v : α} {m : List (Nat × α)} (h : above a m) (hk : a < k) : above a (Tab.put m k v) := by
  induction m with
  | nil => intro e he; simp [Tab.put] at he; subst he; exact hk
  | cons e t ih =>
    obtain ⟨b, x⟩ := e
    have ht : above a t := fun e he => h e (List.mem_cons_of_mem _ he)
    have hb : a < b := h (b, x) (List.mem_cons_self ..)
    simp only [Tab.put]
    split
    · intro e he
      rcases List.mem_cons.mp he with rfl | he
      · exact hk
      · exact h e he
    · split
      · intro e he
        rcases List.mem_cons.mp he with rfl | he
        · exact hk
        · exact ht e he
      · intro e he
        rcases List.mem_cons.mp he with rfl | he
        · exact hb
        · exact ih ht e he

/-- A removal keeps a bound below every key. -/
theorem above_del {a k : Nat} {m : List (Nat × α)} (h : above a m) : above a (Tab.del m k) := by
  induction m with
  | nil => exact h
  | cons e t ih =>
    obtain ⟨b, x⟩ := e
    have ht : above a t := fun e he => h e (List.mem_cons_of_mem _ he)
    simp only [Tab.del]
    split
    · exact ih ht
    · intro e he
      rcases List.mem_cons.mp he with rfl | he
      · exact h _ (List.mem_cons_self ..)
      · exact ih ht e he

/-- A write keeps the keys rising. -/
theorem sorted_put {k : Nat} {v : α} {m : List (Nat × α)} (h : Tab.sorted m = true) : Tab.sorted (Tab.put m k v) = true := by
  induction m with
  | nil => rfl
  | cons e t ih =>
    obtain ⟨b, x⟩ := e
    have ⟨h1, h2⟩ := sorted_cons.mp h
    simp only [Tab.put]
    split
    · rename_i hk
      refine sorted_cons.mpr ⟨?_, h⟩
      intro e he
      rcases List.mem_cons.mp he with rfl | he
      · exact hk
      · exact Nat.lt_trans hk (h1 e he)
    · split
      · rename_i hb
        subst hb
        exact sorted_cons.mpr ⟨h1, h2⟩
      · exact sorted_cons.mpr ⟨above_put h1 (by omega), ih h2⟩

/-- A removal keeps the keys rising. -/
theorem sorted_del {k : Nat} {m : List (Nat × α)} (h : Tab.sorted m = true) : Tab.sorted (Tab.del m k) = true := by
  induction m with
  | nil => rfl
  | cons e t ih =>
    obtain ⟨b, x⟩ := e
    have ⟨h1, h2⟩ := sorted_cons.mp h
    simp only [Tab.del]
    split
    · exact ih h2
    · exact sorted_cons.mpr ⟨above_del h1, ih h2⟩

/-- What a table lists after a write was written or was listed before. -/
theorem mem_put {k : Nat} {v : α} {m : List (Nat × α)} {e : Nat × α} (h : e ∈ Tab.put m k v) : e = (k, v) ∨ e ∈ m := by
  induction m with
  | nil => left; simpa [Tab.put] using h
  | cons f t ih =>
    obtain ⟨b, x⟩ := f
    simp only [Tab.put] at h
    split at h
    · rcases List.mem_cons.mp h with rfl | h
      · exact .inl rfl
      · exact .inr h
    · split at h
      · rcases List.mem_cons.mp h with rfl | h
        · exact .inl rfl
        · exact .inr (List.mem_cons_of_mem _ h)
      · rcases List.mem_cons.mp h with rfl | h
        · exact .inr (List.mem_cons_self ..)
        · exact (ih h).imp id (List.mem_cons_of_mem _)

/-- What a table lists after a removal was listed before. -/
theorem mem_del {k : Nat} {m : List (Nat × α)} {e : Nat × α} (h : e ∈ Tab.del m k) : e ∈ m := by
  induction m with
  | nil => exact h
  | cons f t ih =>
    obtain ⟨b, x⟩ := f
    simp only [Tab.del] at h
    split at h
    · exact List.mem_cons_of_mem _ (ih h)
    · rcases List.mem_cons.mp h with rfl | h
      · exact List.mem_cons_self ..
      · exact List.mem_cons_of_mem _ (ih h)

/-- The canonical form: rising keys, and no entry that is the default. -/
theorem sp_wf_iff [DecidableEq α] {d : α} {m : List (Nat × α)} :
    Sp.wf d m = true ↔ Tab.sorted m = true ∧ ∀ e ∈ m, e.2 ≠ d := by
  simp [Sp.wf, List.all_eq_true]

/-- Every write to a sparse table keeps its canonical form. -/
theorem sp_wf_set [DecidableEq α] {d : α} {m : List (Nat × α)} (k : Nat) (v : α) (h : Sp.wf d m = true) :
    Sp.wf d (Sp.set d m k v) = true := by
  have ⟨h1, h2⟩ := sp_wf_iff.mp h
  refine sp_wf_iff.mpr ?_
  unfold Sp.set
  split
  · exact ⟨sorted_del h1, fun e he => h2 e (mem_del he)⟩
  · rename_i hv
    refine ⟨sorted_put h1, fun e he => ?_⟩
    rcases mem_put he with rfl | he
    · exact hv
    · exact h2 e he

end Sys2Proof.Laws
end

