-- ==== Sys2Proof/Laws/Memory.lean ====
section
/-! SUPPORT. What the operations over physical memory do: a byte written reads back, every other byte stays, and every
write keeps the canonical form of memory. -/

namespace Sys2Proof.Laws

open Sys2Proof.Machine

/-- Memory after reset is in canonical form. -/
theorem reset_mem_wf : Memory.wf State.reset.mem := rfl

/-- A write with memory behind it that is answered reads back (R267, R271). -/
theorem readPhys_writePhys_same (s : State) (pa : Nat) (b : Byte) (h : backed (s.canon pa) = true) (hl : s.linkFault pa = false) :
    (s.writePhys pa b).readPhys pa = b := by
  have hc : (s.writePhys pa b).canon pa = s.canon pa := by unfold State.writePhys; split <;> rfl
  unfold State.readPhys
  rw [hc, if_pos h]
  simp [State.writePhys, h, hl]

/-- The place that an address names does not change with a write. -/
theorem canon_writePhys (s : State) (pa q : Nat) (b : Byte) : (s.writePhys pa b).canon q = s.canon q := by
  unfold State.writePhys; split <;> rfl

/-- A write leaves every other byte. -/
theorem readPhys_writePhys_ne (s : State) {pa q : Nat} (b : Byte) (h : s.canon q ≠ s.canon pa) :
    (s.writePhys pa b).readPhys q = s.readPhys q := by
  unfold State.readPhys
  rw [canon_writePhys]
  by_cases hb : (backed (s.canon pa) && !s.linkFault pa) = true
  · simp only [State.writePhys, hb, if_true, sp_get_set_ne emptyByte s.mem b h]
  · simp only [State.writePhys, hb, if_false, Bool.false_eq_true]

/-- A write with no memory behind it changes nothing (R267). -/
theorem writePhys_unbacked (s : State) (pa : Nat) (b : Byte) (h : backed (s.canon pa) = false) : s.writePhys pa b = s := by
  simp [State.writePhys, h]

/-- A write that another package does not answer changes nothing (R271). -/
theorem writePhys_unanswered (s : State) (pa : Nat) (b : Byte) (h : s.linkFault pa = true) : s.writePhys pa b = s := by
  simp [State.writePhys, h]

/-- A write of one byte keeps memory canonical. -/
theorem writePhys_wf (s : State) (pa : Nat) (b : Byte) (h : Memory.wf s.mem) : Memory.wf (s.writePhys pa b).mem := by
  unfold State.writePhys
  split
  · exact sp_wf_set _ _ h
  · exact h

/-- A write of several bytes keeps memory canonical. -/
theorem writePhysN_wf (s : State) (pa v n : Nat) (h : Memory.wf s.mem) : Memory.wf (s.writePhysN pa v n).mem := by
  induction n generalizing s pa v with
  | zero => exact h
  | succ n ih => exact ih _ _ _ (writePhys_wf s pa _ h)

/-- A write to a place of any space keeps memory canonical. -/
theorem writePlace_wf (s : State) (launch sid : Nat) (p : Place) (b : Byte) (h : Memory.wf s.mem) :
    Memory.wf (s.writePlace launch sid p b).mem := by
  unfold State.writePlace
  split
  · exact writePhys_wf _ _ _ h
  · split <;> exact h
  · split <;> exact h
  · exact h

/-- A record of the black box leaves memory. -/
@[simp] theorem box_mem (s : State) (die kind unitw : Nat) (code : Word) (addr detail : BitVec 64) :
    (s.box die kind unitw code addr detail).mem = s.mem := rfl

/-- A sector's turn leaves memory (R157). -/
@[simp] theorem turn_mem (s : State) (pa policy : Nat) (o : Orient) : (s.turn pa policy o).mem = s.mem := by
  unfold State.turn; split <;> rfl

/-- So does its turn as bytes arrive. -/
@[simp] theorem arrive_mem (s : State) (c : Bool) (o : Orient) (p : Place) : (s.arrive c o p).mem = s.mem := by
  unfold State.arrive; split <;> simp

/-- The notice of an access with no memory behind it leaves memory. -/
@[simp] theorem busCheck_mem (s : State) (who : Who) (write : Bool) (pa : Nat) : (s.busCheck who write pa).mem = s.mem := by
  unfold State.busCheck; split <;> rfl

end Sys2Proof.Laws
end

