-- ==== Sys2Proof/Laws/State.lean ====
section
/-! SUPPORT. One lemma per field of the state and of a stream, for each of the named updates: what it leaves, by rfl. -/

namespace Sys2Proof.Laws

open Sys2Proof.Machine

@[simp] theorem putStream_mem (s : State) (sid : Nat) (st : Stream) : (s.putStream sid st).mem = s.mem := rfl
@[simp] theorem putStream_ws (s : State) (sid : Nat) (st : Stream) : (s.putStream sid st).ws = s.ws := rfl
@[simp] theorem putStream_wsPhase (s : State) (sid : Nat) (st : Stream) : (s.putStream sid st).wsPhase = s.wsPhase := rfl
@[simp] theorem putStream_orient (s : State) (sid : Nat) (st : Stream) : (s.putStream sid st).orient = s.orient := rfl
@[simp] theorem putStream_raf (s : State) (sid : Nat) (st : Stream) : (s.putStream sid st).raf = s.raf := rfl
@[simp] theorem putStream_rafsel (s : State) (sid : Nat) (st : Stream) : (s.putStream sid st).rafsel = s.rafsel := rfl
@[simp] theorem putStream_shapeBase (s : State) (sid : Nat) (st : Stream) : (s.putStream sid st).shapeBase = s.shapeBase := rfl
@[simp] theorem putStream_shapeCnt (s : State) (sid : Nat) (st : Stream) : (s.putStream sid st).shapeCnt = s.shapeCnt := rfl
@[simp] theorem putStream_vfrac (s : State) (sid : Nat) (st : Stream) : (s.putStream sid st).vfrac = s.vfrac := rfl
@[simp] theorem putStream_bktsel (s : State) (sid : Nat) (st : Stream) : (s.putStream sid st).bktsel = s.bktsel := rfl
@[simp] theorem putStream_bktpri (s : State) (sid : Nat) (st : Stream) : (s.putStream sid st).bktpri = s.bktpri := rfl
@[simp] theorem putStream_tlb (s : State) (sid : Nat) (st : Stream) : (s.putStream sid st).tlb = s.tlb := rfl
@[simp] theorem putStream_walks (s : State) (sid : Nat) (st : Stream) : (s.putStream sid st).walks = s.walks := rfl
@[simp] theorem putStream_errors (s : State) (sid : Nat) (st : Stream) : (s.putStream sid st).errors = s.errors := rfl
@[simp] theorem putStream_corrected (s : State) (sid : Nat) (st : Stream) : (s.putStream sid st).corrected = s.corrected := rfl
@[simp] theorem putStream_linkDown (s : State) (sid : Nat) (st : Stream) : (s.putStream sid st).linkDown = s.linkDown := rfl
@[simp] theorem putStream_stlAfter (s : State) (sid : Nat) (st : Stream) : (s.putStream sid st).stlAfter = s.stlAfter := rfl
@[simp] theorem putStream_phys (s : State) (sid : Nat) (st : Stream) : (s.putStream sid st).phys = s.phys := rfl
@[simp] theorem putStream_dieMap (s : State) (sid : Nat) (st : Stream) : (s.putStream sid st).dieMap = s.dieMap := rfl
@[simp] theorem putStream_dieClock (s : State) (sid : Nat) (st : Stream) : (s.putStream sid st).dieClock = s.dieClock := rfl
@[simp] theorem putStream_cycles (s : State) (sid : Nat) (st : Stream) : (s.putStream sid st).cycles = s.cycles := rfl
@[simp] theorem putStream_stopped (s : State) (sid : Nat) (st : Stream) : (s.putStream sid st).stopped = s.stopped := rfl
@[simp] theorem putStream_bring (s : State) (sid : Nat) (st : Stream) : (s.putStream sid st).bring = s.bring := rfl
@[simp] theorem putStream_queues (s : State) (sid : Nat) (st : Stream) : (s.putStream sid st).queues = s.queues := rfl
@[simp] theorem putStream_mbox (s : State) (sid : Nat) (st : Stream) : (s.putStream sid st).mbox = s.mbox := rfl
@[simp] theorem putStream_fq (s : State) (sid : Nat) (st : Stream) : (s.putStream sid st).fq = s.fq := rfl
@[simp] theorem putStream_slog (s : State) (sid : Nat) (st : Stream) : (s.putStream sid st).slog = s.slog := rfl
@[simp] theorem putStream_ctxAreas (s : State) (sid : Nat) (st : Stream) : (s.putStream sid st).ctxAreas = s.ctxAreas := rfl
@[simp] theorem putStream_podRank (s : State) (sid : Nat) (st : Stream) : (s.putStream sid st).podRank = s.podRank := rfl
@[simp] theorem putStream_podSize (s : State) (sid : Nat) (st : Stream) : (s.putStream sid st).podSize = s.podSize := rfl
@[simp] theorem putStream_firmware (s : State) (sid : Nat) (st : Stream) : (s.putStream sid st).firmware = s.firmware := rfl
@[simp] theorem putStream_running (s : State) (sid : Nat) (st : Stream) : (s.putStream sid st).running = s.running := rfl
@[simp] theorem putStream_bbox (s : State) (sid : Nat) (st : Stream) : (s.putStream sid st).bbox = s.bbox := rfl
@[simp] theorem putStream_bboxSeq (s : State) (sid : Nat) (st : Stream) : (s.putStream sid st).bboxSeq = s.bboxSeq := rfl
@[simp] theorem putStream_arcade (s : State) (sid : Nat) (st : Stream) : (s.putStream sid st).arcade = s.arcade := rfl
@[simp] theorem putStream_clusters (s : State) (sid : Nat) (st : Stream) : (s.putStream sid st).clusters = s.clusters := rfl
@[simp] theorem putStream_launches (s : State) (sid : Nat) (st : Stream) : (s.putStream sid st).launches = s.launches := rfl
@[simp] theorem putStream_ops (s : State) (sid : Nat) (st : Stream) : (s.putStream sid st).ops = s.ops := rfl
@[simp] theorem putStream_copyq (s : State) (sid : Nat) (st : Stream) : (s.putStream sid st).copyq = s.copyq := rfl
@[simp] theorem putStream_collNow (s : State) (sid : Nat) (st : Stream) : (s.putStream sid st).collNow = s.collNow := rfl
@[simp] theorem putStream_testParts (s : State) (sid : Nat) (st : Stream) : (s.putStream sid st).testParts = s.testParts := rfl
@[simp] theorem putStream_admitted (s : State) (sid : Nat) (st : Stream) : (s.putStream sid st).admitted = s.admitted := rfl
@[simp] theorem putStream_agenda (s : State) (sid : Nat) (st : Stream) : (s.putStream sid st).agenda = s.agenda := rfl
@[simp] theorem putStream_issuer (s : State) (sid : Nat) (st : Stream) : (s.putStream sid st).issuer = s.issuer := rfl
@[simp] theorem putStream_fresh (s : State) (sid : Nat) (st : Stream) : (s.putStream sid st).fresh = s.fresh := rfl
@[simp] theorem putStream_nextId (s : State) (sid : Nat) (st : Stream) : (s.putStream sid st).nextId = s.nextId := rfl
@[simp] theorem putStream_outside (s : State) (sid : Nat) (st : Stream) : (s.putStream sid st).outside = s.outside := rfl

@[simp] theorem putLaunch_mem (s : State) (l : Nat) (la : Launch) : (s.putLaunch l la).mem = s.mem := rfl
@[simp] theorem putLaunch_ws (s : State) (l : Nat) (la : Launch) : (s.putLaunch l la).ws = s.ws := rfl
@[simp] theorem putLaunch_wsPhase (s : State) (l : Nat) (la : Launch) : (s.putLaunch l la).wsPhase = s.wsPhase := rfl
@[simp] theorem putLaunch_orient (s : State) (l : Nat) (la : Launch) : (s.putLaunch l la).orient = s.orient := rfl
@[simp] theorem putLaunch_raf (s : State) (l : Nat) (la : Launch) : (s.putLaunch l la).raf = s.raf := rfl
@[simp] theorem putLaunch_rafsel (s : State) (l : Nat) (la : Launch) : (s.putLaunch l la).rafsel = s.rafsel := rfl
@[simp] theorem putLaunch_shapeBase (s : State) (l : Nat) (la : Launch) : (s.putLaunch l la).shapeBase = s.shapeBase := rfl
@[simp] theorem putLaunch_shapeCnt (s : State) (l : Nat) (la : Launch) : (s.putLaunch l la).shapeCnt = s.shapeCnt := rfl
@[simp] theorem putLaunch_vfrac (s : State) (l : Nat) (la : Launch) : (s.putLaunch l la).vfrac = s.vfrac := rfl
@[simp] theorem putLaunch_bktsel (s : State) (l : Nat) (la : Launch) : (s.putLaunch l la).bktsel = s.bktsel := rfl
@[simp] theorem putLaunch_bktpri (s : State) (l : Nat) (la : Launch) : (s.putLaunch l la).bktpri = s.bktpri := rfl
@[simp] theorem putLaunch_tlb (s : State) (l : Nat) (la : Launch) : (s.putLaunch l la).tlb = s.tlb := rfl
@[simp] theorem putLaunch_walks (s : State) (l : Nat) (la : Launch) : (s.putLaunch l la).walks = s.walks := rfl
@[simp] theorem putLaunch_errors (s : State) (l : Nat) (la : Launch) : (s.putLaunch l la).errors = s.errors := rfl
@[simp] theorem putLaunch_corrected (s : State) (l : Nat) (la : Launch) : (s.putLaunch l la).corrected = s.corrected := rfl
@[simp] theorem putLaunch_linkDown (s : State) (l : Nat) (la : Launch) : (s.putLaunch l la).linkDown = s.linkDown := rfl
@[simp] theorem putLaunch_stlAfter (s : State) (l : Nat) (la : Launch) : (s.putLaunch l la).stlAfter = s.stlAfter := rfl
@[simp] theorem putLaunch_phys (s : State) (l : Nat) (la : Launch) : (s.putLaunch l la).phys = s.phys := rfl
@[simp] theorem putLaunch_dieMap (s : State) (l : Nat) (la : Launch) : (s.putLaunch l la).dieMap = s.dieMap := rfl
@[simp] theorem putLaunch_dieClock (s : State) (l : Nat) (la : Launch) : (s.putLaunch l la).dieClock = s.dieClock := rfl
@[simp] theorem putLaunch_cycles (s : State) (l : Nat) (la : Launch) : (s.putLaunch l la).cycles = s.cycles := rfl
@[simp] theorem putLaunch_stopped (s : State) (l : Nat) (la : Launch) : (s.putLaunch l la).stopped = s.stopped := rfl
@[simp] theorem putLaunch_bring (s : State) (l : Nat) (la : Launch) : (s.putLaunch l la).bring = s.bring := rfl
@[simp] theorem putLaunch_queues (s : State) (l : Nat) (la : Launch) : (s.putLaunch l la).queues = s.queues := rfl
@[simp] theorem putLaunch_mbox (s : State) (l : Nat) (la : Launch) : (s.putLaunch l la).mbox = s.mbox := rfl
@[simp] theorem putLaunch_fq (s : State) (l : Nat) (la : Launch) : (s.putLaunch l la).fq = s.fq := rfl
@[simp] theorem putLaunch_slog (s : State) (l : Nat) (la : Launch) : (s.putLaunch l la).slog = s.slog := rfl
@[simp] theorem putLaunch_ctxAreas (s : State) (l : Nat) (la : Launch) : (s.putLaunch l la).ctxAreas = s.ctxAreas := rfl
@[simp] theorem putLaunch_podRank (s : State) (l : Nat) (la : Launch) : (s.putLaunch l la).podRank = s.podRank := rfl
@[simp] theorem putLaunch_podSize (s : State) (l : Nat) (la : Launch) : (s.putLaunch l la).podSize = s.podSize := rfl
@[simp] theorem putLaunch_firmware (s : State) (l : Nat) (la : Launch) : (s.putLaunch l la).firmware = s.firmware := rfl
@[simp] theorem putLaunch_running (s : State) (l : Nat) (la : Launch) : (s.putLaunch l la).running = s.running := rfl
@[simp] theorem putLaunch_bbox (s : State) (l : Nat) (la : Launch) : (s.putLaunch l la).bbox = s.bbox := rfl
@[simp] theorem putLaunch_bboxSeq (s : State) (l : Nat) (la : Launch) : (s.putLaunch l la).bboxSeq = s.bboxSeq := rfl
@[simp] theorem putLaunch_arcade (s : State) (l : Nat) (la : Launch) : (s.putLaunch l la).arcade = s.arcade := rfl
@[simp] theorem putLaunch_clusters (s : State) (l : Nat) (la : Launch) : (s.putLaunch l la).clusters = s.clusters := rfl
@[simp] theorem putLaunch_streams (s : State) (l : Nat) (la : Launch) : (s.putLaunch l la).streams = s.streams := rfl
@[simp] theorem putLaunch_ops (s : State) (l : Nat) (la : Launch) : (s.putLaunch l la).ops = s.ops := rfl
@[simp] theorem putLaunch_copyq (s : State) (l : Nat) (la : Launch) : (s.putLaunch l la).copyq = s.copyq := rfl
@[simp] theorem putLaunch_collNow (s : State) (l : Nat) (la : Launch) : (s.putLaunch l la).collNow = s.collNow := rfl
@[simp] theorem putLaunch_testParts (s : State) (l : Nat) (la : Launch) : (s.putLaunch l la).testParts = s.testParts := rfl
@[simp] theorem putLaunch_admitted (s : State) (l : Nat) (la : Launch) : (s.putLaunch l la).admitted = s.admitted := rfl
@[simp] theorem putLaunch_agenda (s : State) (l : Nat) (la : Launch) : (s.putLaunch l la).agenda = s.agenda := rfl
@[simp] theorem putLaunch_issuer (s : State) (l : Nat) (la : Launch) : (s.putLaunch l la).issuer = s.issuer := rfl
@[simp] theorem putLaunch_fresh (s : State) (l : Nat) (la : Launch) : (s.putLaunch l la).fresh = s.fresh := rfl
@[simp] theorem putLaunch_nextId (s : State) (l : Nat) (la : Launch) : (s.putLaunch l la).nextId = s.nextId := rfl
@[simp] theorem putLaunch_outside (s : State) (l : Nat) (la : Launch) : (s.putLaunch l la).outside = s.outside := rfl

@[simp] theorem putOp_mem (s : State) (n : Nat) (o : Op) : (s.putOp n o).mem = s.mem := rfl
@[simp] theorem putOp_ws (s : State) (n : Nat) (o : Op) : (s.putOp n o).ws = s.ws := rfl
@[simp] theorem putOp_wsPhase (s : State) (n : Nat) (o : Op) : (s.putOp n o).wsPhase = s.wsPhase := rfl
@[simp] theorem putOp_orient (s : State) (n : Nat) (o : Op) : (s.putOp n o).orient = s.orient := rfl
@[simp] theorem putOp_raf (s : State) (n : Nat) (o : Op) : (s.putOp n o).raf = s.raf := rfl
@[simp] theorem putOp_rafsel (s : State) (n : Nat) (o : Op) : (s.putOp n o).rafsel = s.rafsel := rfl
@[simp] theorem putOp_shapeBase (s : State) (n : Nat) (o : Op) : (s.putOp n o).shapeBase = s.shapeBase := rfl
@[simp] theorem putOp_shapeCnt (s : State) (n : Nat) (o : Op) : (s.putOp n o).shapeCnt = s.shapeCnt := rfl
@[simp] theorem putOp_vfrac (s : State) (n : Nat) (o : Op) : (s.putOp n o).vfrac = s.vfrac := rfl
@[simp] theorem putOp_bktsel (s : State) (n : Nat) (o : Op) : (s.putOp n o).bktsel = s.bktsel := rfl
@[simp] theorem putOp_bktpri (s : State) (n : Nat) (o : Op) : (s.putOp n o).bktpri = s.bktpri := rfl
@[simp] theorem putOp_tlb (s : State) (n : Nat) (o : Op) : (s.putOp n o).tlb = s.tlb := rfl
@[simp] theorem putOp_walks (s : State) (n : Nat) (o : Op) : (s.putOp n o).walks = s.walks := rfl
@[simp] theorem putOp_errors (s : State) (n : Nat) (o : Op) : (s.putOp n o).errors = s.errors := rfl
@[simp] theorem putOp_corrected (s : State) (n : Nat) (o : Op) : (s.putOp n o).corrected = s.corrected := rfl
@[simp] theorem putOp_linkDown (s : State) (n : Nat) (o : Op) : (s.putOp n o).linkDown = s.linkDown := rfl
@[simp] theorem putOp_stlAfter (s : State) (n : Nat) (o : Op) : (s.putOp n o).stlAfter = s.stlAfter := rfl
@[simp] theorem putOp_phys (s : State) (n : Nat) (o : Op) : (s.putOp n o).phys = s.phys := rfl
@[simp] theorem putOp_dieMap (s : State) (n : Nat) (o : Op) : (s.putOp n o).dieMap = s.dieMap := rfl
@[simp] theorem putOp_dieClock (s : State) (n : Nat) (o : Op) : (s.putOp n o).dieClock = s.dieClock := rfl
@[simp] theorem putOp_cycles (s : State) (n : Nat) (o : Op) : (s.putOp n o).cycles = s.cycles := rfl
@[simp] theorem putOp_stopped (s : State) (n : Nat) (o : Op) : (s.putOp n o).stopped = s.stopped := rfl
@[simp] theorem putOp_bring (s : State) (n : Nat) (o : Op) : (s.putOp n o).bring = s.bring := rfl
@[simp] theorem putOp_queues (s : State) (n : Nat) (o : Op) : (s.putOp n o).queues = s.queues := rfl
@[simp] theorem putOp_mbox (s : State) (n : Nat) (o : Op) : (s.putOp n o).mbox = s.mbox := rfl
@[simp] theorem putOp_fq (s : State) (n : Nat) (o : Op) : (s.putOp n o).fq = s.fq := rfl
@[simp] theorem putOp_slog (s : State) (n : Nat) (o : Op) : (s.putOp n o).slog = s.slog := rfl
@[simp] theorem putOp_ctxAreas (s : State) (n : Nat) (o : Op) : (s.putOp n o).ctxAreas = s.ctxAreas := rfl
@[simp] theorem putOp_podRank (s : State) (n : Nat) (o : Op) : (s.putOp n o).podRank = s.podRank := rfl
@[simp] theorem putOp_podSize (s : State) (n : Nat) (o : Op) : (s.putOp n o).podSize = s.podSize := rfl
@[simp] theorem putOp_firmware (s : State) (n : Nat) (o : Op) : (s.putOp n o).firmware = s.firmware := rfl
@[simp] theorem putOp_running (s : State) (n : Nat) (o : Op) : (s.putOp n o).running = s.running := rfl
@[simp] theorem putOp_bbox (s : State) (n : Nat) (o : Op) : (s.putOp n o).bbox = s.bbox := rfl
@[simp] theorem putOp_bboxSeq (s : State) (n : Nat) (o : Op) : (s.putOp n o).bboxSeq = s.bboxSeq := rfl
@[simp] theorem putOp_arcade (s : State) (n : Nat) (o : Op) : (s.putOp n o).arcade = s.arcade := rfl
@[simp] theorem putOp_clusters (s : State) (n : Nat) (o : Op) : (s.putOp n o).clusters = s.clusters := rfl
@[simp] theorem putOp_launches (s : State) (n : Nat) (o : Op) : (s.putOp n o).launches = s.launches := rfl
@[simp] theorem putOp_streams (s : State) (n : Nat) (o : Op) : (s.putOp n o).streams = s.streams := rfl
@[simp] theorem putOp_copyq (s : State) (n : Nat) (o : Op) : (s.putOp n o).copyq = s.copyq := rfl
@[simp] theorem putOp_collNow (s : State) (n : Nat) (o : Op) : (s.putOp n o).collNow = s.collNow := rfl
@[simp] theorem putOp_testParts (s : State) (n : Nat) (o : Op) : (s.putOp n o).testParts = s.testParts := rfl
@[simp] theorem putOp_admitted (s : State) (n : Nat) (o : Op) : (s.putOp n o).admitted = s.admitted := rfl
@[simp] theorem putOp_agenda (s : State) (n : Nat) (o : Op) : (s.putOp n o).agenda = s.agenda := rfl
@[simp] theorem putOp_issuer (s : State) (n : Nat) (o : Op) : (s.putOp n o).issuer = s.issuer := rfl
@[simp] theorem putOp_fresh (s : State) (n : Nat) (o : Op) : (s.putOp n o).fresh = s.fresh := rfl
@[simp] theorem putOp_nextId (s : State) (n : Nat) (o : Op) : (s.putOp n o).nextId = s.nextId := rfl
@[simp] theorem putOp_outside (s : State) (n : Nat) (o : Op) : (s.putOp n o).outside = s.outside := rfl

@[simp] theorem dropOp_mem (s : State) (n : Nat) : (s.dropOp n).mem = s.mem := rfl
@[simp] theorem dropOp_ws (s : State) (n : Nat) : (s.dropOp n).ws = s.ws := rfl
@[simp] theorem dropOp_wsPhase (s : State) (n : Nat) : (s.dropOp n).wsPhase = s.wsPhase := rfl
@[simp] theorem dropOp_orient (s : State) (n : Nat) : (s.dropOp n).orient = s.orient := rfl
@[simp] theorem dropOp_raf (s : State) (n : Nat) : (s.dropOp n).raf = s.raf := rfl
@[simp] theorem dropOp_rafsel (s : State) (n : Nat) : (s.dropOp n).rafsel = s.rafsel := rfl
@[simp] theorem dropOp_shapeBase (s : State) (n : Nat) : (s.dropOp n).shapeBase = s.shapeBase := rfl
@[simp] theorem dropOp_shapeCnt (s : State) (n : Nat) : (s.dropOp n).shapeCnt = s.shapeCnt := rfl
@[simp] theorem dropOp_vfrac (s : State) (n : Nat) : (s.dropOp n).vfrac = s.vfrac := rfl
@[simp] theorem dropOp_bktsel (s : State) (n : Nat) : (s.dropOp n).bktsel = s.bktsel := rfl
@[simp] theorem dropOp_bktpri (s : State) (n : Nat) : (s.dropOp n).bktpri = s.bktpri := rfl
@[simp] theorem dropOp_tlb (s : State) (n : Nat) : (s.dropOp n).tlb = s.tlb := rfl
@[simp] theorem dropOp_walks (s : State) (n : Nat) : (s.dropOp n).walks = s.walks := rfl
@[simp] theorem dropOp_errors (s : State) (n : Nat) : (s.dropOp n).errors = s.errors := rfl
@[simp] theorem dropOp_corrected (s : State) (n : Nat) : (s.dropOp n).corrected = s.corrected := rfl
@[simp] theorem dropOp_linkDown (s : State) (n : Nat) : (s.dropOp n).linkDown = s.linkDown := rfl
@[simp] theorem dropOp_stlAfter (s : State) (n : Nat) : (s.dropOp n).stlAfter = s.stlAfter := rfl
@[simp] theorem dropOp_phys (s : State) (n : Nat) : (s.dropOp n).phys = s.phys := rfl
@[simp] theorem dropOp_dieMap (s : State) (n : Nat) : (s.dropOp n).dieMap = s.dieMap := rfl
@[simp] theorem dropOp_dieClock (s : State) (n : Nat) : (s.dropOp n).dieClock = s.dieClock := rfl
@[simp] theorem dropOp_cycles (s : State) (n : Nat) : (s.dropOp n).cycles = s.cycles := rfl
@[simp] theorem dropOp_stopped (s : State) (n : Nat) : (s.dropOp n).stopped = s.stopped := rfl
@[simp] theorem dropOp_bring (s : State) (n : Nat) : (s.dropOp n).bring = s.bring := rfl
@[simp] theorem dropOp_queues (s : State) (n : Nat) : (s.dropOp n).queues = s.queues := rfl
@[simp] theorem dropOp_mbox (s : State) (n : Nat) : (s.dropOp n).mbox = s.mbox := rfl
@[simp] theorem dropOp_fq (s : State) (n : Nat) : (s.dropOp n).fq = s.fq := rfl
@[simp] theorem dropOp_slog (s : State) (n : Nat) : (s.dropOp n).slog = s.slog := rfl
@[simp] theorem dropOp_ctxAreas (s : State) (n : Nat) : (s.dropOp n).ctxAreas = s.ctxAreas := rfl
@[simp] theorem dropOp_podRank (s : State) (n : Nat) : (s.dropOp n).podRank = s.podRank := rfl
@[simp] theorem dropOp_podSize (s : State) (n : Nat) : (s.dropOp n).podSize = s.podSize := rfl
@[simp] theorem dropOp_firmware (s : State) (n : Nat) : (s.dropOp n).firmware = s.firmware := rfl
@[simp] theorem dropOp_running (s : State) (n : Nat) : (s.dropOp n).running = s.running := rfl
@[simp] theorem dropOp_bbox (s : State) (n : Nat) : (s.dropOp n).bbox = s.bbox := rfl
@[simp] theorem dropOp_bboxSeq (s : State) (n : Nat) : (s.dropOp n).bboxSeq = s.bboxSeq := rfl
@[simp] theorem dropOp_arcade (s : State) (n : Nat) : (s.dropOp n).arcade = s.arcade := rfl
@[simp] theorem dropOp_clusters (s : State) (n : Nat) : (s.dropOp n).clusters = s.clusters := rfl
@[simp] theorem dropOp_launches (s : State) (n : Nat) : (s.dropOp n).launches = s.launches := rfl
@[simp] theorem dropOp_streams (s : State) (n : Nat) : (s.dropOp n).streams = s.streams := rfl
@[simp] theorem dropOp_copyq (s : State) (n : Nat) : (s.dropOp n).copyq = s.copyq := rfl
@[simp] theorem dropOp_collNow (s : State) (n : Nat) : (s.dropOp n).collNow = s.collNow := rfl
@[simp] theorem dropOp_testParts (s : State) (n : Nat) : (s.dropOp n).testParts = s.testParts := rfl
@[simp] theorem dropOp_admitted (s : State) (n : Nat) : (s.dropOp n).admitted = s.admitted := rfl
@[simp] theorem dropOp_agenda (s : State) (n : Nat) : (s.dropOp n).agenda = s.agenda := rfl
@[simp] theorem dropOp_issuer (s : State) (n : Nat) : (s.dropOp n).issuer = s.issuer := rfl
@[simp] theorem dropOp_fresh (s : State) (n : Nat) : (s.dropOp n).fresh = s.fresh := rfl
@[simp] theorem dropOp_nextId (s : State) (n : Nat) : (s.dropOp n).nextId = s.nextId := rfl
@[simp] theorem dropOp_outside (s : State) (n : Nat) : (s.dropOp n).outside = s.outside := rfl

@[simp] theorem putCluster_mem (s : State) (c : Nat) (cl : Cluster) : (s.putCluster c cl).mem = s.mem := rfl
@[simp] theorem putCluster_ws (s : State) (c : Nat) (cl : Cluster) : (s.putCluster c cl).ws = s.ws := rfl
@[simp] theorem putCluster_wsPhase (s : State) (c : Nat) (cl : Cluster) : (s.putCluster c cl).wsPhase = s.wsPhase := rfl
@[simp] theorem putCluster_orient (s : State) (c : Nat) (cl : Cluster) : (s.putCluster c cl).orient = s.orient := rfl
@[simp] theorem putCluster_raf (s : State) (c : Nat) (cl : Cluster) : (s.putCluster c cl).raf = s.raf := rfl
@[simp] theorem putCluster_rafsel (s : State) (c : Nat) (cl : Cluster) : (s.putCluster c cl).rafsel = s.rafsel := rfl
@[simp] theorem putCluster_shapeBase (s : State) (c : Nat) (cl : Cluster) : (s.putCluster c cl).shapeBase = s.shapeBase := rfl
@[simp] theorem putCluster_shapeCnt (s : State) (c : Nat) (cl : Cluster) : (s.putCluster c cl).shapeCnt = s.shapeCnt := rfl
@[simp] theorem putCluster_vfrac (s : State) (c : Nat) (cl : Cluster) : (s.putCluster c cl).vfrac = s.vfrac := rfl
@[simp] theorem putCluster_bktsel (s : State) (c : Nat) (cl : Cluster) : (s.putCluster c cl).bktsel = s.bktsel := rfl
@[simp] theorem putCluster_bktpri (s : State) (c : Nat) (cl : Cluster) : (s.putCluster c cl).bktpri = s.bktpri := rfl
@[simp] theorem putCluster_tlb (s : State) (c : Nat) (cl : Cluster) : (s.putCluster c cl).tlb = s.tlb := rfl
@[simp] theorem putCluster_walks (s : State) (c : Nat) (cl : Cluster) : (s.putCluster c cl).walks = s.walks := rfl
@[simp] theorem putCluster_errors (s : State) (c : Nat) (cl : Cluster) : (s.putCluster c cl).errors = s.errors := rfl
@[simp] theorem putCluster_corrected (s : State) (c : Nat) (cl : Cluster) : (s.putCluster c cl).corrected = s.corrected := rfl
@[simp] theorem putCluster_linkDown (s : State) (c : Nat) (cl : Cluster) : (s.putCluster c cl).linkDown = s.linkDown := rfl
@[simp] theorem putCluster_stlAfter (s : State) (c : Nat) (cl : Cluster) : (s.putCluster c cl).stlAfter = s.stlAfter := rfl
@[simp] theorem putCluster_phys (s : State) (c : Nat) (cl : Cluster) : (s.putCluster c cl).phys = s.phys := rfl
@[simp] theorem putCluster_dieMap (s : State) (c : Nat) (cl : Cluster) : (s.putCluster c cl).dieMap = s.dieMap := rfl
@[simp] theorem putCluster_dieClock (s : State) (c : Nat) (cl : Cluster) : (s.putCluster c cl).dieClock = s.dieClock := rfl
@[simp] theorem putCluster_cycles (s : State) (c : Nat) (cl : Cluster) : (s.putCluster c cl).cycles = s.cycles := rfl
@[simp] theorem putCluster_stopped (s : State) (c : Nat) (cl : Cluster) : (s.putCluster c cl).stopped = s.stopped := rfl
@[simp] theorem putCluster_bring (s : State) (c : Nat) (cl : Cluster) : (s.putCluster c cl).bring = s.bring := rfl
@[simp] theorem putCluster_queues (s : State) (c : Nat) (cl : Cluster) : (s.putCluster c cl).queues = s.queues := rfl
@[simp] theorem putCluster_mbox (s : State) (c : Nat) (cl : Cluster) : (s.putCluster c cl).mbox = s.mbox := rfl
@[simp] theorem putCluster_fq (s : State) (c : Nat) (cl : Cluster) : (s.putCluster c cl).fq = s.fq := rfl
@[simp] theorem putCluster_slog (s : State) (c : Nat) (cl : Cluster) : (s.putCluster c cl).slog = s.slog := rfl
@[simp] theorem putCluster_ctxAreas (s : State) (c : Nat) (cl : Cluster) : (s.putCluster c cl).ctxAreas = s.ctxAreas := rfl
@[simp] theorem putCluster_podRank (s : State) (c : Nat) (cl : Cluster) : (s.putCluster c cl).podRank = s.podRank := rfl
@[simp] theorem putCluster_podSize (s : State) (c : Nat) (cl : Cluster) : (s.putCluster c cl).podSize = s.podSize := rfl
@[simp] theorem putCluster_firmware (s : State) (c : Nat) (cl : Cluster) : (s.putCluster c cl).firmware = s.firmware := rfl
@[simp] theorem putCluster_running (s : State) (c : Nat) (cl : Cluster) : (s.putCluster c cl).running = s.running := rfl
@[simp] theorem putCluster_bbox (s : State) (c : Nat) (cl : Cluster) : (s.putCluster c cl).bbox = s.bbox := rfl
@[simp] theorem putCluster_bboxSeq (s : State) (c : Nat) (cl : Cluster) : (s.putCluster c cl).bboxSeq = s.bboxSeq := rfl
@[simp] theorem putCluster_arcade (s : State) (c : Nat) (cl : Cluster) : (s.putCluster c cl).arcade = s.arcade := rfl
@[simp] theorem putCluster_launches (s : State) (c : Nat) (cl : Cluster) : (s.putCluster c cl).launches = s.launches := rfl
@[simp] theorem putCluster_streams (s : State) (c : Nat) (cl : Cluster) : (s.putCluster c cl).streams = s.streams := rfl
@[simp] theorem putCluster_ops (s : State) (c : Nat) (cl : Cluster) : (s.putCluster c cl).ops = s.ops := rfl
@[simp] theorem putCluster_copyq (s : State) (c : Nat) (cl : Cluster) : (s.putCluster c cl).copyq = s.copyq := rfl
@[simp] theorem putCluster_collNow (s : State) (c : Nat) (cl : Cluster) : (s.putCluster c cl).collNow = s.collNow := rfl
@[simp] theorem putCluster_testParts (s : State) (c : Nat) (cl : Cluster) : (s.putCluster c cl).testParts = s.testParts := rfl
@[simp] theorem putCluster_admitted (s : State) (c : Nat) (cl : Cluster) : (s.putCluster c cl).admitted = s.admitted := rfl
@[simp] theorem putCluster_agenda (s : State) (c : Nat) (cl : Cluster) : (s.putCluster c cl).agenda = s.agenda := rfl
@[simp] theorem putCluster_issuer (s : State) (c : Nat) (cl : Cluster) : (s.putCluster c cl).issuer = s.issuer := rfl
@[simp] theorem putCluster_fresh (s : State) (c : Nat) (cl : Cluster) : (s.putCluster c cl).fresh = s.fresh := rfl
@[simp] theorem putCluster_nextId (s : State) (c : Nat) (cl : Cluster) : (s.putCluster c cl).nextId = s.nextId := rfl
@[simp] theorem putCluster_outside (s : State) (c : Nat) (cl : Cluster) : (s.putCluster c cl).outside = s.outside := rfl

@[simp] theorem putQueue_mem (s : State) (q : Nat) (c : CmdQueue) : (s.putQueue q c).mem = s.mem := rfl
@[simp] theorem putQueue_ws (s : State) (q : Nat) (c : CmdQueue) : (s.putQueue q c).ws = s.ws := rfl
@[simp] theorem putQueue_wsPhase (s : State) (q : Nat) (c : CmdQueue) : (s.putQueue q c).wsPhase = s.wsPhase := rfl
@[simp] theorem putQueue_orient (s : State) (q : Nat) (c : CmdQueue) : (s.putQueue q c).orient = s.orient := rfl
@[simp] theorem putQueue_raf (s : State) (q : Nat) (c : CmdQueue) : (s.putQueue q c).raf = s.raf := rfl
@[simp] theorem putQueue_rafsel (s : State) (q : Nat) (c : CmdQueue) : (s.putQueue q c).rafsel = s.rafsel := rfl
@[simp] theorem putQueue_shapeBase (s : State) (q : Nat) (c : CmdQueue) : (s.putQueue q c).shapeBase = s.shapeBase := rfl
@[simp] theorem putQueue_shapeCnt (s : State) (q : Nat) (c : CmdQueue) : (s.putQueue q c).shapeCnt = s.shapeCnt := rfl
@[simp] theorem putQueue_vfrac (s : State) (q : Nat) (c : CmdQueue) : (s.putQueue q c).vfrac = s.vfrac := rfl
@[simp] theorem putQueue_bktsel (s : State) (q : Nat) (c : CmdQueue) : (s.putQueue q c).bktsel = s.bktsel := rfl
@[simp] theorem putQueue_bktpri (s : State) (q : Nat) (c : CmdQueue) : (s.putQueue q c).bktpri = s.bktpri := rfl
@[simp] theorem putQueue_tlb (s : State) (q : Nat) (c : CmdQueue) : (s.putQueue q c).tlb = s.tlb := rfl
@[simp] theorem putQueue_walks (s : State) (q : Nat) (c : CmdQueue) : (s.putQueue q c).walks = s.walks := rfl
@[simp] theorem putQueue_errors (s : State) (q : Nat) (c : CmdQueue) : (s.putQueue q c).errors = s.errors := rfl
@[simp] theorem putQueue_corrected (s : State) (q : Nat) (c : CmdQueue) : (s.putQueue q c).corrected = s.corrected := rfl
@[simp] theorem putQueue_linkDown (s : State) (q : Nat) (c : CmdQueue) : (s.putQueue q c).linkDown = s.linkDown := rfl
@[simp] theorem putQueue_stlAfter (s : State) (q : Nat) (c : CmdQueue) : (s.putQueue q c).stlAfter = s.stlAfter := rfl
@[simp] theorem putQueue_phys (s : State) (q : Nat) (c : CmdQueue) : (s.putQueue q c).phys = s.phys := rfl
@[simp] theorem putQueue_dieMap (s : State) (q : Nat) (c : CmdQueue) : (s.putQueue q c).dieMap = s.dieMap := rfl
@[simp] theorem putQueue_dieClock (s : State) (q : Nat) (c : CmdQueue) : (s.putQueue q c).dieClock = s.dieClock := rfl
@[simp] theorem putQueue_cycles (s : State) (q : Nat) (c : CmdQueue) : (s.putQueue q c).cycles = s.cycles := rfl
@[simp] theorem putQueue_stopped (s : State) (q : Nat) (c : CmdQueue) : (s.putQueue q c).stopped = s.stopped := rfl
@[simp] theorem putQueue_bring (s : State) (q : Nat) (c : CmdQueue) : (s.putQueue q c).bring = s.bring := rfl
@[simp] theorem putQueue_mbox (s : State) (q : Nat) (c : CmdQueue) : (s.putQueue q c).mbox = s.mbox := rfl
@[simp] theorem putQueue_fq (s : State) (q : Nat) (c : CmdQueue) : (s.putQueue q c).fq = s.fq := rfl
@[simp] theorem putQueue_slog (s : State) (q : Nat) (c : CmdQueue) : (s.putQueue q c).slog = s.slog := rfl
@[simp] theorem putQueue_ctxAreas (s : State) (q : Nat) (c : CmdQueue) : (s.putQueue q c).ctxAreas = s.ctxAreas := rfl
@[simp] theorem putQueue_podRank (s : State) (q : Nat) (c : CmdQueue) : (s.putQueue q c).podRank = s.podRank := rfl
@[simp] theorem putQueue_podSize (s : State) (q : Nat) (c : CmdQueue) : (s.putQueue q c).podSize = s.podSize := rfl
@[simp] theorem putQueue_firmware (s : State) (q : Nat) (c : CmdQueue) : (s.putQueue q c).firmware = s.firmware := rfl
@[simp] theorem putQueue_running (s : State) (q : Nat) (c : CmdQueue) : (s.putQueue q c).running = s.running := rfl
@[simp] theorem putQueue_bbox (s : State) (q : Nat) (c : CmdQueue) : (s.putQueue q c).bbox = s.bbox := rfl
@[simp] theorem putQueue_bboxSeq (s : State) (q : Nat) (c : CmdQueue) : (s.putQueue q c).bboxSeq = s.bboxSeq := rfl
@[simp] theorem putQueue_arcade (s : State) (q : Nat) (c : CmdQueue) : (s.putQueue q c).arcade = s.arcade := rfl
@[simp] theorem putQueue_clusters (s : State) (q : Nat) (c : CmdQueue) : (s.putQueue q c).clusters = s.clusters := rfl
@[simp] theorem putQueue_launches (s : State) (q : Nat) (c : CmdQueue) : (s.putQueue q c).launches = s.launches := rfl
@[simp] theorem putQueue_streams (s : State) (q : Nat) (c : CmdQueue) : (s.putQueue q c).streams = s.streams := rfl
@[simp] theorem putQueue_ops (s : State) (q : Nat) (c : CmdQueue) : (s.putQueue q c).ops = s.ops := rfl
@[simp] theorem putQueue_copyq (s : State) (q : Nat) (c : CmdQueue) : (s.putQueue q c).copyq = s.copyq := rfl
@[simp] theorem putQueue_collNow (s : State) (q : Nat) (c : CmdQueue) : (s.putQueue q c).collNow = s.collNow := rfl
@[simp] theorem putQueue_testParts (s : State) (q : Nat) (c : CmdQueue) : (s.putQueue q c).testParts = s.testParts := rfl
@[simp] theorem putQueue_admitted (s : State) (q : Nat) (c : CmdQueue) : (s.putQueue q c).admitted = s.admitted := rfl
@[simp] theorem putQueue_agenda (s : State) (q : Nat) (c : CmdQueue) : (s.putQueue q c).agenda = s.agenda := rfl
@[simp] theorem putQueue_issuer (s : State) (q : Nat) (c : CmdQueue) : (s.putQueue q c).issuer = s.issuer := rfl
@[simp] theorem putQueue_fresh (s : State) (q : Nat) (c : CmdQueue) : (s.putQueue q c).fresh = s.fresh := rfl
@[simp] theorem putQueue_nextId (s : State) (q : Nat) (c : CmdQueue) : (s.putQueue q c).nextId = s.nextId := rfl
@[simp] theorem putQueue_outside (s : State) (q : Nat) (c : CmdQueue) : (s.putQueue q c).outside = s.outside := rfl

@[simp] theorem putPhys_mem (s : State) (n : Nat) (p : Phys) : (s.putPhys n p).mem = s.mem := rfl
@[simp] theorem putPhys_ws (s : State) (n : Nat) (p : Phys) : (s.putPhys n p).ws = s.ws := rfl
@[simp] theorem putPhys_wsPhase (s : State) (n : Nat) (p : Phys) : (s.putPhys n p).wsPhase = s.wsPhase := rfl
@[simp] theorem putPhys_orient (s : State) (n : Nat) (p : Phys) : (s.putPhys n p).orient = s.orient := rfl
@[simp] theorem putPhys_raf (s : State) (n : Nat) (p : Phys) : (s.putPhys n p).raf = s.raf := rfl
@[simp] theorem putPhys_rafsel (s : State) (n : Nat) (p : Phys) : (s.putPhys n p).rafsel = s.rafsel := rfl
@[simp] theorem putPhys_shapeBase (s : State) (n : Nat) (p : Phys) : (s.putPhys n p).shapeBase = s.shapeBase := rfl
@[simp] theorem putPhys_shapeCnt (s : State) (n : Nat) (p : Phys) : (s.putPhys n p).shapeCnt = s.shapeCnt := rfl
@[simp] theorem putPhys_vfrac (s : State) (n : Nat) (p : Phys) : (s.putPhys n p).vfrac = s.vfrac := rfl
@[simp] theorem putPhys_bktsel (s : State) (n : Nat) (p : Phys) : (s.putPhys n p).bktsel = s.bktsel := rfl
@[simp] theorem putPhys_bktpri (s : State) (n : Nat) (p : Phys) : (s.putPhys n p).bktpri = s.bktpri := rfl
@[simp] theorem putPhys_tlb (s : State) (n : Nat) (p : Phys) : (s.putPhys n p).tlb = s.tlb := rfl
@[simp] theorem putPhys_walks (s : State) (n : Nat) (p : Phys) : (s.putPhys n p).walks = s.walks := rfl
@[simp] theorem putPhys_errors (s : State) (n : Nat) (p : Phys) : (s.putPhys n p).errors = s.errors := rfl
@[simp] theorem putPhys_corrected (s : State) (n : Nat) (p : Phys) : (s.putPhys n p).corrected = s.corrected := rfl
@[simp] theorem putPhys_linkDown (s : State) (n : Nat) (p : Phys) : (s.putPhys n p).linkDown = s.linkDown := rfl
@[simp] theorem putPhys_stlAfter (s : State) (n : Nat) (p : Phys) : (s.putPhys n p).stlAfter = s.stlAfter := rfl
@[simp] theorem putPhys_dieMap (s : State) (n : Nat) (p : Phys) : (s.putPhys n p).dieMap = s.dieMap := rfl
@[simp] theorem putPhys_dieClock (s : State) (n : Nat) (p : Phys) : (s.putPhys n p).dieClock = s.dieClock := rfl
@[simp] theorem putPhys_cycles (s : State) (n : Nat) (p : Phys) : (s.putPhys n p).cycles = s.cycles := rfl
@[simp] theorem putPhys_stopped (s : State) (n : Nat) (p : Phys) : (s.putPhys n p).stopped = s.stopped := rfl
@[simp] theorem putPhys_bring (s : State) (n : Nat) (p : Phys) : (s.putPhys n p).bring = s.bring := rfl
@[simp] theorem putPhys_queues (s : State) (n : Nat) (p : Phys) : (s.putPhys n p).queues = s.queues := rfl
@[simp] theorem putPhys_mbox (s : State) (n : Nat) (p : Phys) : (s.putPhys n p).mbox = s.mbox := rfl
@[simp] theorem putPhys_fq (s : State) (n : Nat) (p : Phys) : (s.putPhys n p).fq = s.fq := rfl
@[simp] theorem putPhys_slog (s : State) (n : Nat) (p : Phys) : (s.putPhys n p).slog = s.slog := rfl
@[simp] theorem putPhys_ctxAreas (s : State) (n : Nat) (p : Phys) : (s.putPhys n p).ctxAreas = s.ctxAreas := rfl
@[simp] theorem putPhys_podRank (s : State) (n : Nat) (p : Phys) : (s.putPhys n p).podRank = s.podRank := rfl
@[simp] theorem putPhys_podSize (s : State) (n : Nat) (p : Phys) : (s.putPhys n p).podSize = s.podSize := rfl
@[simp] theorem putPhys_firmware (s : State) (n : Nat) (p : Phys) : (s.putPhys n p).firmware = s.firmware := rfl
@[simp] theorem putPhys_running (s : State) (n : Nat) (p : Phys) : (s.putPhys n p).running = s.running := rfl
@[simp] theorem putPhys_bbox (s : State) (n : Nat) (p : Phys) : (s.putPhys n p).bbox = s.bbox := rfl
@[simp] theorem putPhys_bboxSeq (s : State) (n : Nat) (p : Phys) : (s.putPhys n p).bboxSeq = s.bboxSeq := rfl
@[simp] theorem putPhys_arcade (s : State) (n : Nat) (p : Phys) : (s.putPhys n p).arcade = s.arcade := rfl
@[simp] theorem putPhys_clusters (s : State) (n : Nat) (p : Phys) : (s.putPhys n p).clusters = s.clusters := rfl
@[simp] theorem putPhys_launches (s : State) (n : Nat) (p : Phys) : (s.putPhys n p).launches = s.launches := rfl
@[simp] theorem putPhys_streams (s : State) (n : Nat) (p : Phys) : (s.putPhys n p).streams = s.streams := rfl
@[simp] theorem putPhys_ops (s : State) (n : Nat) (p : Phys) : (s.putPhys n p).ops = s.ops := rfl
@[simp] theorem putPhys_copyq (s : State) (n : Nat) (p : Phys) : (s.putPhys n p).copyq = s.copyq := rfl
@[simp] theorem putPhys_collNow (s : State) (n : Nat) (p : Phys) : (s.putPhys n p).collNow = s.collNow := rfl
@[simp] theorem putPhys_testParts (s : State) (n : Nat) (p : Phys) : (s.putPhys n p).testParts = s.testParts := rfl
@[simp] theorem putPhys_admitted (s : State) (n : Nat) (p : Phys) : (s.putPhys n p).admitted = s.admitted := rfl
@[simp] theorem putPhys_agenda (s : State) (n : Nat) (p : Phys) : (s.putPhys n p).agenda = s.agenda := rfl
@[simp] theorem putPhys_issuer (s : State) (n : Nat) (p : Phys) : (s.putPhys n p).issuer = s.issuer := rfl
@[simp] theorem putPhys_fresh (s : State) (n : Nat) (p : Phys) : (s.putPhys n p).fresh = s.fresh := rfl
@[simp] theorem putPhys_nextId (s : State) (n : Nat) (p : Phys) : (s.putPhys n p).nextId = s.nextId := rfl
@[simp] theorem putPhys_outside (s : State) (n : Nat) (p : Phys) : (s.putPhys n p).outside = s.outside := rfl

@[simp] theorem bump_mem (s : State) : (s.bump).mem = s.mem := rfl
@[simp] theorem bump_ws (s : State) : (s.bump).ws = s.ws := rfl
@[simp] theorem bump_wsPhase (s : State) : (s.bump).wsPhase = s.wsPhase := rfl
@[simp] theorem bump_orient (s : State) : (s.bump).orient = s.orient := rfl
@[simp] theorem bump_raf (s : State) : (s.bump).raf = s.raf := rfl
@[simp] theorem bump_rafsel (s : State) : (s.bump).rafsel = s.rafsel := rfl
@[simp] theorem bump_shapeBase (s : State) : (s.bump).shapeBase = s.shapeBase := rfl
@[simp] theorem bump_shapeCnt (s : State) : (s.bump).shapeCnt = s.shapeCnt := rfl
@[simp] theorem bump_vfrac (s : State) : (s.bump).vfrac = s.vfrac := rfl
@[simp] theorem bump_bktsel (s : State) : (s.bump).bktsel = s.bktsel := rfl
@[simp] theorem bump_bktpri (s : State) : (s.bump).bktpri = s.bktpri := rfl
@[simp] theorem bump_tlb (s : State) : (s.bump).tlb = s.tlb := rfl
@[simp] theorem bump_walks (s : State) : (s.bump).walks = s.walks := rfl
@[simp] theorem bump_errors (s : State) : (s.bump).errors = s.errors := rfl
@[simp] theorem bump_corrected (s : State) : (s.bump).corrected = s.corrected := rfl
@[simp] theorem bump_linkDown (s : State) : (s.bump).linkDown = s.linkDown := rfl
@[simp] theorem bump_stlAfter (s : State) : (s.bump).stlAfter = s.stlAfter := rfl
@[simp] theorem bump_phys (s : State) : (s.bump).phys = s.phys := rfl
@[simp] theorem bump_dieMap (s : State) : (s.bump).dieMap = s.dieMap := rfl
@[simp] theorem bump_dieClock (s : State) : (s.bump).dieClock = s.dieClock := rfl
@[simp] theorem bump_cycles (s : State) : (s.bump).cycles = s.cycles := rfl
@[simp] theorem bump_stopped (s : State) : (s.bump).stopped = s.stopped := rfl
@[simp] theorem bump_bring (s : State) : (s.bump).bring = s.bring := rfl
@[simp] theorem bump_queues (s : State) : (s.bump).queues = s.queues := rfl
@[simp] theorem bump_mbox (s : State) : (s.bump).mbox = s.mbox := rfl
@[simp] theorem bump_fq (s : State) : (s.bump).fq = s.fq := rfl
@[simp] theorem bump_slog (s : State) : (s.bump).slog = s.slog := rfl
@[simp] theorem bump_ctxAreas (s : State) : (s.bump).ctxAreas = s.ctxAreas := rfl
@[simp] theorem bump_podRank (s : State) : (s.bump).podRank = s.podRank := rfl
@[simp] theorem bump_podSize (s : State) : (s.bump).podSize = s.podSize := rfl
@[simp] theorem bump_firmware (s : State) : (s.bump).firmware = s.firmware := rfl
@[simp] theorem bump_running (s : State) : (s.bump).running = s.running := rfl
@[simp] theorem bump_bbox (s : State) : (s.bump).bbox = s.bbox := rfl
@[simp] theorem bump_bboxSeq (s : State) : (s.bump).bboxSeq = s.bboxSeq := rfl
@[simp] theorem bump_arcade (s : State) : (s.bump).arcade = s.arcade := rfl
@[simp] theorem bump_clusters (s : State) : (s.bump).clusters = s.clusters := rfl
@[simp] theorem bump_launches (s : State) : (s.bump).launches = s.launches := rfl
@[simp] theorem bump_streams (s : State) : (s.bump).streams = s.streams := rfl
@[simp] theorem bump_ops (s : State) : (s.bump).ops = s.ops := rfl
@[simp] theorem bump_copyq (s : State) : (s.bump).copyq = s.copyq := rfl
@[simp] theorem bump_collNow (s : State) : (s.bump).collNow = s.collNow := rfl
@[simp] theorem bump_testParts (s : State) : (s.bump).testParts = s.testParts := rfl
@[simp] theorem bump_admitted (s : State) : (s.bump).admitted = s.admitted := rfl
@[simp] theorem bump_agenda (s : State) : (s.bump).agenda = s.agenda := rfl
@[simp] theorem bump_issuer (s : State) : (s.bump).issuer = s.issuer := rfl
@[simp] theorem bump_nextId (s : State) : (s.bump).nextId = s.nextId := rfl
@[simp] theorem bump_outside (s : State) : (s.bump).outside = s.outside := rfl

@[simp] theorem setSreg_kind (st : Stream) (n : Nat) (v : Word) : (st.setSreg n v).kind = st.kind := rfl
@[simp] theorem setSreg_role (st : Stream) (n : Nat) (v : Word) : (st.setSreg n v).role = st.role := rfl
@[simp] theorem setSreg_launch (st : Stream) (n : Nat) (v : Word) : (st.setSreg n v).launch = st.launch := rfl
@[simp] theorem setSreg_rank (st : Stream) (n : Nat) (v : Word) : (st.setSreg n v).rank = st.rank := rfl
@[simp] theorem setSreg_wid (st : Stream) (n : Nat) (v : Word) : (st.setSreg n v).wid = st.wid := rfl
@[simp] theorem setSreg_cl (st : Stream) (n : Nat) (v : Word) : (st.setSreg n v).cl = st.cl := rfl
@[simp] theorem setSreg_core (st : Stream) (n : Nat) (v : Word) : (st.setSreg n v).core = st.core := rfl
@[simp] theorem setSreg_part (st : Stream) (n : Nat) (v : Word) : (st.setSreg n v).part = st.part := rfl
@[simp] theorem setSreg_phys (st : Stream) (n : Nat) (v : Word) : (st.setSreg n v).phys = st.phys := rfl
@[simp] theorem setSreg_admitted (st : Stream) (n : Nat) (v : Word) : (st.setSreg n v).admitted = st.admitted := rfl
@[simp] theorem setSreg_saveDue (st : Stream) (n : Nat) (v : Word) : (st.setSreg n v).saveDue = st.saveDue := rfl
@[simp] theorem setSreg_launched (st : Stream) (n : Nat) (v : Word) : (st.setSreg n v).launched = st.launched := rfl
@[simp] theorem setSreg_exited (st : Stream) (n : Nat) (v : Word) : (st.setSreg n v).exited = st.exited := rfl
@[simp] theorem setSreg_life (st : Stream) (n : Nat) (v : Word) : (st.setSreg n v).life = st.life := rfl
@[simp] theorem setSreg_active (st : Stream) (n : Nat) (v : Word) : (st.setSreg n v).active = st.active := rfl
@[simp] theorem setSreg_order (st : Stream) (n : Nat) (v : Word) : (st.setSreg n v).order = st.order := rfl
@[simp] theorem setSreg_readyAt (st : Stream) (n : Nat) (v : Word) : (st.setSreg n v).readyAt = st.readyAt := rfl
@[simp] theorem setSreg_yielded (st : Stream) (n : Nat) (v : Word) : (st.setSreg n v).yielded = st.yielded := rfl
@[simp] theorem setSreg_turns (st : Stream) (n : Nat) (v : Word) : (st.setSreg n v).turns = st.turns := rfl
@[simp] theorem setSreg_privileged (st : Stream) (n : Nat) (v : Word) : (st.setSreg n v).privileged = st.privileged := rfl
@[simp] theorem setSreg_flags (st : Stream) (n : Nat) (v : Word) : (st.setSreg n v).flags = st.flags := rfl
@[simp] theorem setSreg_buffer (st : Stream) (n : Nat) (v : Word) : (st.setSreg n v).buffer = st.buffer := rfl
@[simp] theorem setSreg_stamp (st : Stream) (n : Nat) (v : Word) : (st.setSreg n v).stamp = st.stamp := rfl
@[simp] theorem setSreg_acqs (st : Stream) (n : Nat) (v : Word) : (st.setSreg n v).acqs = st.acqs := rfl
@[simp] theorem setSreg_after (st : Stream) (n : Nat) (v : Word) : (st.setSreg n v).after = st.after := rfl
@[simp] theorem setSreg_pops (st : Stream) (n : Nat) (v : Word) : (st.setSreg n v).pops = st.pops := rfl
@[simp] theorem setSreg_redeliver (st : Stream) (n : Nat) (v : Word) : (st.setSreg n v).redeliver = st.redeliver := rfl
@[simp] theorem setSreg_dirtyV (st : Stream) (n : Nat) (v : Word) : (st.setSreg n v).dirtyV = st.dirtyV := rfl
@[simp] theorem setSreg_dirtyP (st : Stream) (n : Nat) (v : Word) : (st.setSreg n v).dirtyP = st.dirtyP := rfl
@[simp] theorem setSreg_tileUndo (st : Stream) (n : Nat) (v : Word) : (st.setSreg n v).tileUndo = st.tileUndo := rfl
@[simp] theorem setSreg_ckpt (st : Stream) (n : Nat) (v : Word) : (st.setSreg n v).ckpt = st.ckpt := rfl
@[simp] theorem setSreg_nextCkpt (st : Stream) (n : Nat) (v : Word) : (st.setSreg n v).nextCkpt = st.nextCkpt := rfl
@[simp] theorem setSreg_ckptNo (st : Stream) (n : Nat) (v : Word) : (st.setSreg n v).ckptNo = st.ckptNo := rfl
@[simp] theorem setSreg_region (st : Stream) (n : Nat) (v : Word) : (st.setSreg n v).region = st.region := rfl
@[simp] theorem setSreg_stack (st : Stream) (n : Nat) (v : Word) : (st.setSreg n v).stack = st.stack := rfl
@[simp] theorem setSreg_tape (st : Stream) (n : Nat) (v : Word) : (st.setSreg n v).tape = st.tape := rfl
@[simp] theorem setSreg_saved (st : Stream) (n : Nat) (v : Word) : (st.setSreg n v).saved = st.saved := rfl
@[simp] theorem setSreg_pendKill (st : Stream) (n : Nat) (v : Word) : (st.setSreg n v).pendKill = st.pendKill := rfl
@[simp] theorem setSreg_posts (st : Stream) (n : Nat) (v : Word) : (st.setSreg n v).posts = st.posts := rfl
@[simp] theorem setSreg_postSeq (st : Stream) (n : Nat) (v : Word) : (st.setSreg n v).postSeq = st.postSeq := rfl
@[simp] theorem setSreg_refusals (st : Stream) (n : Nat) (v : Word) : (st.setSreg n v).refusals = st.refusals := rfl
@[simp] theorem setSreg_newParts (st : Stream) (n : Nat) (v : Word) : (st.setSreg n v).newParts = st.newParts := rfl
@[simp] theorem setSreg_leases (st : Stream) (n : Nat) (v : Word) : (st.setSreg n v).leases = st.leases := rfl
@[simp] theorem setSreg_savedLease (st : Stream) (n : Nat) (v : Word) : (st.setSreg n v).savedLease = st.savedLease := rfl
@[simp] theorem setSreg_savedAccs (st : Stream) (n : Nat) (v : Word) : (st.setSreg n v).savedAccs = st.savedAccs := rfl
@[simp] theorem setSreg_colls (st : Stream) (n : Nat) (v : Word) : (st.setSreg n v).colls = st.colls := rfl
@[simp] theorem setSreg_selected (st : Stream) (n : Nat) (v : Word) : (st.setSreg n v).selected = st.selected := rfl
@[simp] theorem setSreg_unverif (st : Stream) (n : Nat) (v : Word) : (st.setSreg n v).unverif = st.unverif := rfl
@[simp] theorem setSreg_log (st : Stream) (n : Nat) (v : Word) : (st.setSreg n v).log = st.log := rfl
@[simp] theorem setSreg_logBytes (st : Stream) (n : Nat) (v : Word) : (st.setSreg n v).logBytes = st.logBytes := rfl
@[simp] theorem setSreg_digest (st : Stream) (n : Nat) (v : Word) : (st.setSreg n v).digest = st.digest := rfl
@[simp] theorem setSreg_failed (st : Stream) (n : Nat) (v : Word) : (st.setSreg n v).failed = st.failed := rfl

@[simp] theorem setVreg_kind (st : Stream) (e l : Nat) (v : Word) : (st.setVreg e l v).kind = st.kind := rfl
@[simp] theorem setVreg_role (st : Stream) (e l : Nat) (v : Word) : (st.setVreg e l v).role = st.role := rfl
@[simp] theorem setVreg_launch (st : Stream) (e l : Nat) (v : Word) : (st.setVreg e l v).launch = st.launch := rfl
@[simp] theorem setVreg_rank (st : Stream) (e l : Nat) (v : Word) : (st.setVreg e l v).rank = st.rank := rfl
@[simp] theorem setVreg_wid (st : Stream) (e l : Nat) (v : Word) : (st.setVreg e l v).wid = st.wid := rfl
@[simp] theorem setVreg_cl (st : Stream) (e l : Nat) (v : Word) : (st.setVreg e l v).cl = st.cl := rfl
@[simp] theorem setVreg_core (st : Stream) (e l : Nat) (v : Word) : (st.setVreg e l v).core = st.core := rfl
@[simp] theorem setVreg_part (st : Stream) (e l : Nat) (v : Word) : (st.setVreg e l v).part = st.part := rfl
@[simp] theorem setVreg_phys (st : Stream) (e l : Nat) (v : Word) : (st.setVreg e l v).phys = st.phys := rfl
@[simp] theorem setVreg_admitted (st : Stream) (e l : Nat) (v : Word) : (st.setVreg e l v).admitted = st.admitted := rfl
@[simp] theorem setVreg_saveDue (st : Stream) (e l : Nat) (v : Word) : (st.setVreg e l v).saveDue = st.saveDue := rfl
@[simp] theorem setVreg_launched (st : Stream) (e l : Nat) (v : Word) : (st.setVreg e l v).launched = st.launched := rfl
@[simp] theorem setVreg_exited (st : Stream) (e l : Nat) (v : Word) : (st.setVreg e l v).exited = st.exited := rfl
@[simp] theorem setVreg_life (st : Stream) (e l : Nat) (v : Word) : (st.setVreg e l v).life = st.life := rfl
@[simp] theorem setVreg_active (st : Stream) (e l : Nat) (v : Word) : (st.setVreg e l v).active = st.active := rfl
@[simp] theorem setVreg_order (st : Stream) (e l : Nat) (v : Word) : (st.setVreg e l v).order = st.order := rfl
@[simp] theorem setVreg_readyAt (st : Stream) (e l : Nat) (v : Word) : (st.setVreg e l v).readyAt = st.readyAt := rfl
@[simp] theorem setVreg_yielded (st : Stream) (e l : Nat) (v : Word) : (st.setVreg e l v).yielded = st.yielded := rfl
@[simp] theorem setVreg_turns (st : Stream) (e l : Nat) (v : Word) : (st.setVreg e l v).turns = st.turns := rfl
@[simp] theorem setVreg_privileged (st : Stream) (e l : Nat) (v : Word) : (st.setVreg e l v).privileged = st.privileged := rfl
@[simp] theorem setVreg_flags (st : Stream) (e l : Nat) (v : Word) : (st.setVreg e l v).flags = st.flags := rfl
@[simp] theorem setVreg_buffer (st : Stream) (e l : Nat) (v : Word) : (st.setVreg e l v).buffer = st.buffer := rfl
@[simp] theorem setVreg_stamp (st : Stream) (e l : Nat) (v : Word) : (st.setVreg e l v).stamp = st.stamp := rfl
@[simp] theorem setVreg_acqs (st : Stream) (e l : Nat) (v : Word) : (st.setVreg e l v).acqs = st.acqs := rfl
@[simp] theorem setVreg_after (st : Stream) (e l : Nat) (v : Word) : (st.setVreg e l v).after = st.after := rfl
@[simp] theorem setVreg_pops (st : Stream) (e l : Nat) (v : Word) : (st.setVreg e l v).pops = st.pops := rfl
@[simp] theorem setVreg_redeliver (st : Stream) (e l : Nat) (v : Word) : (st.setVreg e l v).redeliver = st.redeliver := rfl
@[simp] theorem setVreg_dirtyS (st : Stream) (e l : Nat) (v : Word) : (st.setVreg e l v).dirtyS = st.dirtyS := rfl
@[simp] theorem setVreg_dirtyP (st : Stream) (e l : Nat) (v : Word) : (st.setVreg e l v).dirtyP = st.dirtyP := rfl
@[simp] theorem setVreg_tileUndo (st : Stream) (e l : Nat) (v : Word) : (st.setVreg e l v).tileUndo = st.tileUndo := rfl
@[simp] theorem setVreg_ckpt (st : Stream) (e l : Nat) (v : Word) : (st.setVreg e l v).ckpt = st.ckpt := rfl
@[simp] theorem setVreg_nextCkpt (st : Stream) (e l : Nat) (v : Word) : (st.setVreg e l v).nextCkpt = st.nextCkpt := rfl
@[simp] theorem setVreg_ckptNo (st : Stream) (e l : Nat) (v : Word) : (st.setVreg e l v).ckptNo = st.ckptNo := rfl
@[simp] theorem setVreg_region (st : Stream) (e l : Nat) (v : Word) : (st.setVreg e l v).region = st.region := rfl
@[simp] theorem setVreg_stack (st : Stream) (e l : Nat) (v : Word) : (st.setVreg e l v).stack = st.stack := rfl
@[simp] theorem setVreg_tape (st : Stream) (e l : Nat) (v : Word) : (st.setVreg e l v).tape = st.tape := rfl
@[simp] theorem setVreg_saved (st : Stream) (e l : Nat) (v : Word) : (st.setVreg e l v).saved = st.saved := rfl
@[simp] theorem setVreg_pendKill (st : Stream) (e l : Nat) (v : Word) : (st.setVreg e l v).pendKill = st.pendKill := rfl
@[simp] theorem setVreg_posts (st : Stream) (e l : Nat) (v : Word) : (st.setVreg e l v).posts = st.posts := rfl
@[simp] theorem setVreg_postSeq (st : Stream) (e l : Nat) (v : Word) : (st.setVreg e l v).postSeq = st.postSeq := rfl
@[simp] theorem setVreg_refusals (st : Stream) (e l : Nat) (v : Word) : (st.setVreg e l v).refusals = st.refusals := rfl
@[simp] theorem setVreg_newParts (st : Stream) (e l : Nat) (v : Word) : (st.setVreg e l v).newParts = st.newParts := rfl
@[simp] theorem setVreg_leases (st : Stream) (e l : Nat) (v : Word) : (st.setVreg e l v).leases = st.leases := rfl
@[simp] theorem setVreg_savedLease (st : Stream) (e l : Nat) (v : Word) : (st.setVreg e l v).savedLease = st.savedLease := rfl
@[simp] theorem setVreg_savedAccs (st : Stream) (e l : Nat) (v : Word) : (st.setVreg e l v).savedAccs = st.savedAccs := rfl
@[simp] theorem setVreg_colls (st : Stream) (e l : Nat) (v : Word) : (st.setVreg e l v).colls = st.colls := rfl
@[simp] theorem setVreg_selected (st : Stream) (e l : Nat) (v : Word) : (st.setVreg e l v).selected = st.selected := rfl
@[simp] theorem setVreg_unverif (st : Stream) (e l : Nat) (v : Word) : (st.setVreg e l v).unverif = st.unverif := rfl
@[simp] theorem setVreg_log (st : Stream) (e l : Nat) (v : Word) : (st.setVreg e l v).log = st.log := rfl
@[simp] theorem setVreg_logBytes (st : Stream) (e l : Nat) (v : Word) : (st.setVreg e l v).logBytes = st.logBytes := rfl
@[simp] theorem setVreg_digest (st : Stream) (e l : Nat) (v : Word) : (st.setVreg e l v).digest = st.digest := rfl
@[simp] theorem setVreg_failed (st : Stream) (e l : Nat) (v : Word) : (st.setVreg e l v).failed = st.failed := rfl

@[simp] theorem setKreg_kind (st : Stream) (n : Nat) (k : KReg) : (st.setKreg n k).kind = st.kind := rfl
@[simp] theorem setKreg_role (st : Stream) (n : Nat) (k : KReg) : (st.setKreg n k).role = st.role := rfl
@[simp] theorem setKreg_launch (st : Stream) (n : Nat) (k : KReg) : (st.setKreg n k).launch = st.launch := rfl
@[simp] theorem setKreg_rank (st : Stream) (n : Nat) (k : KReg) : (st.setKreg n k).rank = st.rank := rfl
@[simp] theorem setKreg_wid (st : Stream) (n : Nat) (k : KReg) : (st.setKreg n k).wid = st.wid := rfl
@[simp] theorem setKreg_cl (st : Stream) (n : Nat) (k : KReg) : (st.setKreg n k).cl = st.cl := rfl
@[simp] theorem setKreg_core (st : Stream) (n : Nat) (k : KReg) : (st.setKreg n k).core = st.core := rfl
@[simp] theorem setKreg_part (st : Stream) (n : Nat) (k : KReg) : (st.setKreg n k).part = st.part := rfl
@[simp] theorem setKreg_phys (st : Stream) (n : Nat) (k : KReg) : (st.setKreg n k).phys = st.phys := rfl
@[simp] theorem setKreg_admitted (st : Stream) (n : Nat) (k : KReg) : (st.setKreg n k).admitted = st.admitted := rfl
@[simp] theorem setKreg_saveDue (st : Stream) (n : Nat) (k : KReg) : (st.setKreg n k).saveDue = st.saveDue := rfl
@[simp] theorem setKreg_launched (st : Stream) (n : Nat) (k : KReg) : (st.setKreg n k).launched = st.launched := rfl
@[simp] theorem setKreg_exited (st : Stream) (n : Nat) (k : KReg) : (st.setKreg n k).exited = st.exited := rfl
@[simp] theorem setKreg_life (st : Stream) (n : Nat) (k : KReg) : (st.setKreg n k).life = st.life := rfl
@[simp] theorem setKreg_active (st : Stream) (n : Nat) (k : KReg) : (st.setKreg n k).active = st.active := rfl
@[simp] theorem setKreg_order (st : Stream) (n : Nat) (k : KReg) : (st.setKreg n k).order = st.order := rfl
@[simp] theorem setKreg_readyAt (st : Stream) (n : Nat) (k : KReg) : (st.setKreg n k).readyAt = st.readyAt := rfl
@[simp] theorem setKreg_yielded (st : Stream) (n : Nat) (k : KReg) : (st.setKreg n k).yielded = st.yielded := rfl
@[simp] theorem setKreg_turns (st : Stream) (n : Nat) (k : KReg) : (st.setKreg n k).turns = st.turns := rfl
@[simp] theorem setKreg_privileged (st : Stream) (n : Nat) (k : KReg) : (st.setKreg n k).privileged = st.privileged := rfl
@[simp] theorem setKreg_flags (st : Stream) (n : Nat) (k : KReg) : (st.setKreg n k).flags = st.flags := rfl
@[simp] theorem setKreg_buffer (st : Stream) (n : Nat) (k : KReg) : (st.setKreg n k).buffer = st.buffer := rfl
@[simp] theorem setKreg_stamp (st : Stream) (n : Nat) (k : KReg) : (st.setKreg n k).stamp = st.stamp := rfl
@[simp] theorem setKreg_acqs (st : Stream) (n : Nat) (k : KReg) : (st.setKreg n k).acqs = st.acqs := rfl
@[simp] theorem setKreg_after (st : Stream) (n : Nat) (k : KReg) : (st.setKreg n k).after = st.after := rfl
@[simp] theorem setKreg_pops (st : Stream) (n : Nat) (k : KReg) : (st.setKreg n k).pops = st.pops := rfl
@[simp] theorem setKreg_redeliver (st : Stream) (n : Nat) (k : KReg) : (st.setKreg n k).redeliver = st.redeliver := rfl
@[simp] theorem setKreg_dirtyS (st : Stream) (n : Nat) (k : KReg) : (st.setKreg n k).dirtyS = st.dirtyS := rfl
@[simp] theorem setKreg_dirtyV (st : Stream) (n : Nat) (k : KReg) : (st.setKreg n k).dirtyV = st.dirtyV := rfl
@[simp] theorem setKreg_dirtyP (st : Stream) (n : Nat) (k : KReg) : (st.setKreg n k).dirtyP = st.dirtyP := rfl
@[simp] theorem setKreg_tileUndo (st : Stream) (n : Nat) (k : KReg) : (st.setKreg n k).tileUndo = st.tileUndo := rfl
@[simp] theorem setKreg_ckpt (st : Stream) (n : Nat) (k : KReg) : (st.setKreg n k).ckpt = st.ckpt := rfl
@[simp] theorem setKreg_nextCkpt (st : Stream) (n : Nat) (k : KReg) : (st.setKreg n k).nextCkpt = st.nextCkpt := rfl
@[simp] theorem setKreg_ckptNo (st : Stream) (n : Nat) (k : KReg) : (st.setKreg n k).ckptNo = st.ckptNo := rfl
@[simp] theorem setKreg_region (st : Stream) (n : Nat) (k : KReg) : (st.setKreg n k).region = st.region := rfl
@[simp] theorem setKreg_stack (st : Stream) (n : Nat) (k : KReg) : (st.setKreg n k).stack = st.stack := rfl
@[simp] theorem setKreg_tape (st : Stream) (n : Nat) (k : KReg) : (st.setKreg n k).tape = st.tape := rfl
@[simp] theorem setKreg_saved (st : Stream) (n : Nat) (k : KReg) : (st.setKreg n k).saved = st.saved := rfl
@[simp] theorem setKreg_pendKill (st : Stream) (n : Nat) (k : KReg) : (st.setKreg n k).pendKill = st.pendKill := rfl
@[simp] theorem setKreg_posts (st : Stream) (n : Nat) (k : KReg) : (st.setKreg n k).posts = st.posts := rfl
@[simp] theorem setKreg_postSeq (st : Stream) (n : Nat) (k : KReg) : (st.setKreg n k).postSeq = st.postSeq := rfl
@[simp] theorem setKreg_refusals (st : Stream) (n : Nat) (k : KReg) : (st.setKreg n k).refusals = st.refusals := rfl
@[simp] theorem setKreg_newParts (st : Stream) (n : Nat) (k : KReg) : (st.setKreg n k).newParts = st.newParts := rfl
@[simp] theorem setKreg_leases (st : Stream) (n : Nat) (k : KReg) : (st.setKreg n k).leases = st.leases := rfl
@[simp] theorem setKreg_savedLease (st : Stream) (n : Nat) (k : KReg) : (st.setKreg n k).savedLease = st.savedLease := rfl
@[simp] theorem setKreg_savedAccs (st : Stream) (n : Nat) (k : KReg) : (st.setKreg n k).savedAccs = st.savedAccs := rfl
@[simp] theorem setKreg_colls (st : Stream) (n : Nat) (k : KReg) : (st.setKreg n k).colls = st.colls := rfl
@[simp] theorem setKreg_selected (st : Stream) (n : Nat) (k : KReg) : (st.setKreg n k).selected = st.selected := rfl
@[simp] theorem setKreg_unverif (st : Stream) (n : Nat) (k : KReg) : (st.setKreg n k).unverif = st.unverif := rfl
@[simp] theorem setKreg_log (st : Stream) (n : Nat) (k : KReg) : (st.setKreg n k).log = st.log := rfl
@[simp] theorem setKreg_logBytes (st : Stream) (n : Nat) (k : KReg) : (st.setKreg n k).logBytes = st.logBytes := rfl
@[simp] theorem setKreg_digest (st : Stream) (n : Nat) (k : KReg) : (st.setKreg n k).digest = st.digest := rfl
@[simp] theorem setKreg_failed (st : Stream) (n : Nat) (k : KReg) : (st.setKreg n k).failed = st.failed := rfl

@[simp] theorem putSplit_kind (st : Stream) (p : Split) : (st.putSplit p).kind = st.kind := rfl
@[simp] theorem putSplit_role (st : Stream) (p : Split) : (st.putSplit p).role = st.role := rfl
@[simp] theorem putSplit_launch (st : Stream) (p : Split) : (st.putSplit p).launch = st.launch := rfl
@[simp] theorem putSplit_rank (st : Stream) (p : Split) : (st.putSplit p).rank = st.rank := rfl
@[simp] theorem putSplit_wid (st : Stream) (p : Split) : (st.putSplit p).wid = st.wid := rfl
@[simp] theorem putSplit_cl (st : Stream) (p : Split) : (st.putSplit p).cl = st.cl := rfl
@[simp] theorem putSplit_core (st : Stream) (p : Split) : (st.putSplit p).core = st.core := rfl
@[simp] theorem putSplit_part (st : Stream) (p : Split) : (st.putSplit p).part = st.part := rfl
@[simp] theorem putSplit_phys (st : Stream) (p : Split) : (st.putSplit p).phys = st.phys := rfl
@[simp] theorem putSplit_admitted (st : Stream) (p : Split) : (st.putSplit p).admitted = st.admitted := rfl
@[simp] theorem putSplit_saveDue (st : Stream) (p : Split) : (st.putSplit p).saveDue = st.saveDue := rfl
@[simp] theorem putSplit_launched (st : Stream) (p : Split) : (st.putSplit p).launched = st.launched := rfl
@[simp] theorem putSplit_exited (st : Stream) (p : Split) : (st.putSplit p).exited = st.exited := rfl
@[simp] theorem putSplit_life (st : Stream) (p : Split) : (st.putSplit p).life = st.life := rfl
@[simp] theorem putSplit_active (st : Stream) (p : Split) : (st.putSplit p).active = st.active := rfl
@[simp] theorem putSplit_order (st : Stream) (p : Split) : (st.putSplit p).order = st.order := rfl
@[simp] theorem putSplit_readyAt (st : Stream) (p : Split) : (st.putSplit p).readyAt = st.readyAt := rfl
@[simp] theorem putSplit_yielded (st : Stream) (p : Split) : (st.putSplit p).yielded = st.yielded := rfl
@[simp] theorem putSplit_turns (st : Stream) (p : Split) : (st.putSplit p).turns = st.turns := rfl
@[simp] theorem putSplit_privileged (st : Stream) (p : Split) : (st.putSplit p).privileged = st.privileged := rfl
@[simp] theorem putSplit_flags (st : Stream) (p : Split) : (st.putSplit p).flags = st.flags := rfl
@[simp] theorem putSplit_buffer (st : Stream) (p : Split) : (st.putSplit p).buffer = st.buffer := rfl
@[simp] theorem putSplit_stamp (st : Stream) (p : Split) : (st.putSplit p).stamp = st.stamp := rfl
@[simp] theorem putSplit_acqs (st : Stream) (p : Split) : (st.putSplit p).acqs = st.acqs := rfl
@[simp] theorem putSplit_after (st : Stream) (p : Split) : (st.putSplit p).after = st.after := rfl
@[simp] theorem putSplit_pops (st : Stream) (p : Split) : (st.putSplit p).pops = st.pops := rfl
@[simp] theorem putSplit_redeliver (st : Stream) (p : Split) : (st.putSplit p).redeliver = st.redeliver := rfl
@[simp] theorem putSplit_dirtyS (st : Stream) (p : Split) : (st.putSplit p).dirtyS = st.dirtyS := rfl
@[simp] theorem putSplit_dirtyV (st : Stream) (p : Split) : (st.putSplit p).dirtyV = st.dirtyV := rfl
@[simp] theorem putSplit_dirtyP (st : Stream) (p : Split) : (st.putSplit p).dirtyP = st.dirtyP := rfl
@[simp] theorem putSplit_tileUndo (st : Stream) (p : Split) : (st.putSplit p).tileUndo = st.tileUndo := rfl
@[simp] theorem putSplit_ckpt (st : Stream) (p : Split) : (st.putSplit p).ckpt = st.ckpt := rfl
@[simp] theorem putSplit_nextCkpt (st : Stream) (p : Split) : (st.putSplit p).nextCkpt = st.nextCkpt := rfl
@[simp] theorem putSplit_ckptNo (st : Stream) (p : Split) : (st.putSplit p).ckptNo = st.ckptNo := rfl
@[simp] theorem putSplit_region (st : Stream) (p : Split) : (st.putSplit p).region = st.region := rfl
@[simp] theorem putSplit_stack (st : Stream) (p : Split) : (st.putSplit p).stack = st.stack := rfl
@[simp] theorem putSplit_tape (st : Stream) (p : Split) : (st.putSplit p).tape = st.tape := rfl
@[simp] theorem putSplit_saved (st : Stream) (p : Split) : (st.putSplit p).saved = st.saved := rfl
@[simp] theorem putSplit_pendKill (st : Stream) (p : Split) : (st.putSplit p).pendKill = st.pendKill := rfl
@[simp] theorem putSplit_posts (st : Stream) (p : Split) : (st.putSplit p).posts = st.posts := rfl
@[simp] theorem putSplit_postSeq (st : Stream) (p : Split) : (st.putSplit p).postSeq = st.postSeq := rfl
@[simp] theorem putSplit_refusals (st : Stream) (p : Split) : (st.putSplit p).refusals = st.refusals := rfl
@[simp] theorem putSplit_newParts (st : Stream) (p : Split) : (st.putSplit p).newParts = st.newParts := rfl
@[simp] theorem putSplit_leases (st : Stream) (p : Split) : (st.putSplit p).leases = st.leases := rfl
@[simp] theorem putSplit_savedLease (st : Stream) (p : Split) : (st.putSplit p).savedLease = st.savedLease := rfl
@[simp] theorem putSplit_savedAccs (st : Stream) (p : Split) : (st.putSplit p).savedAccs = st.savedAccs := rfl
@[simp] theorem putSplit_colls (st : Stream) (p : Split) : (st.putSplit p).colls = st.colls := rfl
@[simp] theorem putSplit_selected (st : Stream) (p : Split) : (st.putSplit p).selected = st.selected := rfl
@[simp] theorem putSplit_unverif (st : Stream) (p : Split) : (st.putSplit p).unverif = st.unverif := rfl
@[simp] theorem putSplit_log (st : Stream) (p : Split) : (st.putSplit p).log = st.log := rfl
@[simp] theorem putSplit_logBytes (st : Stream) (p : Split) : (st.putSplit p).logBytes = st.logBytes := rfl
@[simp] theorem putSplit_digest (st : Stream) (p : Split) : (st.putSplit p).digest = st.digest := rfl
@[simp] theorem putSplit_failed (st : Stream) (p : Split) : (st.putSplit p).failed = st.failed := rfl

@[simp] theorem setSreg_vis_splits (st : Stream) (n : Nat) (v : Word) : (st.setSreg n v).vis.splits = st.vis.splits := rfl
@[simp] theorem setSreg_vis_cur (st : Stream) (n : Nat) (v : Word) : (st.setSreg n v).vis.cur = st.vis.cur := rfl
@[simp] theorem setSreg_vis_vregs (st : Stream) (n : Nat) (v : Word) : (st.setSreg n v).vis.vregs = st.vis.vregs := rfl
@[simp] theorem setSreg_vis_preds (st : Stream) (n : Nat) (v : Word) : (st.setSreg n v).vis.preds = st.vis.preds := rfl
@[simp] theorem setSreg_vis_kregs (st : Stream) (n : Nat) (v : Word) : (st.setSreg n v).vis.kregs = st.vis.kregs := rfl
@[simp] theorem setSreg_vis_ports (st : Stream) (n : Nat) (v : Word) : (st.setSreg n v).vis.ports = st.vis.ports := rfl
@[simp] theorem setSreg_vis_allot (st : Stream) (n : Nat) (v : Word) : (st.setSreg n v).vis.allot = st.vis.allot := rfl
@[simp] theorem setSreg_vis_pfill (st : Stream) (n : Nat) (v : Word) : (st.setSreg n v).vis.pfill = st.vis.pfill := rfl
@[simp] theorem setSreg_vis_alphastop (st : Stream) (n : Nat) (v : Word) : (st.setSreg n v).vis.alphastop = st.vis.alphastop := rfl
@[simp] theorem setSreg_vis_tba (st : Stream) (n : Nat) (v : Word) : (st.setSreg n v).vis.tba = st.vis.tba := rfl
@[simp] theorem setSreg_vis_fault (st : Stream) (n : Nat) (v : Word) : (st.setSreg n v).vis.fault = st.vis.fault := rfl

@[simp] theorem setVreg_vis_splits (st : Stream) (e l : Nat) (v : Word) : (st.setVreg e l v).vis.splits = st.vis.splits := rfl
@[simp] theorem setVreg_vis_cur (st : Stream) (e l : Nat) (v : Word) : (st.setVreg e l v).vis.cur = st.vis.cur := rfl
@[simp] theorem setVreg_vis_sregs (st : Stream) (e l : Nat) (v : Word) : (st.setVreg e l v).vis.sregs = st.vis.sregs := rfl
@[simp] theorem setVreg_vis_preds (st : Stream) (e l : Nat) (v : Word) : (st.setVreg e l v).vis.preds = st.vis.preds := rfl
@[simp] theorem setVreg_vis_kregs (st : Stream) (e l : Nat) (v : Word) : (st.setVreg e l v).vis.kregs = st.vis.kregs := rfl
@[simp] theorem setVreg_vis_ports (st : Stream) (e l : Nat) (v : Word) : (st.setVreg e l v).vis.ports = st.vis.ports := rfl
@[simp] theorem setVreg_vis_allot (st : Stream) (e l : Nat) (v : Word) : (st.setVreg e l v).vis.allot = st.vis.allot := rfl
@[simp] theorem setVreg_vis_pfill (st : Stream) (e l : Nat) (v : Word) : (st.setVreg e l v).vis.pfill = st.vis.pfill := rfl
@[simp] theorem setVreg_vis_alphastop (st : Stream) (e l : Nat) (v : Word) : (st.setVreg e l v).vis.alphastop = st.vis.alphastop := rfl
@[simp] theorem setVreg_vis_tba (st : Stream) (e l : Nat) (v : Word) : (st.setVreg e l v).vis.tba = st.vis.tba := rfl
@[simp] theorem setVreg_vis_fault (st : Stream) (e l : Nat) (v : Word) : (st.setVreg e l v).vis.fault = st.vis.fault := rfl

@[simp] theorem setKreg_vis_splits (st : Stream) (n : Nat) (k : KReg) : (st.setKreg n k).vis.splits = st.vis.splits := rfl
@[simp] theorem setKreg_vis_cur (st : Stream) (n : Nat) (k : KReg) : (st.setKreg n k).vis.cur = st.vis.cur := rfl
@[simp] theorem setKreg_vis_sregs (st : Stream) (n : Nat) (k : KReg) : (st.setKreg n k).vis.sregs = st.vis.sregs := rfl
@[simp] theorem setKreg_vis_vregs (st : Stream) (n : Nat) (k : KReg) : (st.setKreg n k).vis.vregs = st.vis.vregs := rfl
@[simp] theorem setKreg_vis_preds (st : Stream) (n : Nat) (k : KReg) : (st.setKreg n k).vis.preds = st.vis.preds := rfl
@[simp] theorem setKreg_vis_ports (st : Stream) (n : Nat) (k : KReg) : (st.setKreg n k).vis.ports = st.vis.ports := rfl
@[simp] theorem setKreg_vis_allot (st : Stream) (n : Nat) (k : KReg) : (st.setKreg n k).vis.allot = st.vis.allot := rfl
@[simp] theorem setKreg_vis_pfill (st : Stream) (n : Nat) (k : KReg) : (st.setKreg n k).vis.pfill = st.vis.pfill := rfl
@[simp] theorem setKreg_vis_alphastop (st : Stream) (n : Nat) (k : KReg) : (st.setKreg n k).vis.alphastop = st.vis.alphastop := rfl
@[simp] theorem setKreg_vis_tba (st : Stream) (n : Nat) (k : KReg) : (st.setKreg n k).vis.tba = st.vis.tba := rfl
@[simp] theorem setKreg_vis_fault (st : Stream) (n : Nat) (k : KReg) : (st.setKreg n k).vis.fault = st.vis.fault := rfl

@[simp] theorem putSplit_vis_cur (st : Stream) (p : Split) : (st.putSplit p).vis.cur = st.vis.cur := rfl
@[simp] theorem putSplit_vis_sregs (st : Stream) (p : Split) : (st.putSplit p).vis.sregs = st.vis.sregs := rfl
@[simp] theorem putSplit_vis_vregs (st : Stream) (p : Split) : (st.putSplit p).vis.vregs = st.vis.vregs := rfl
@[simp] theorem putSplit_vis_preds (st : Stream) (p : Split) : (st.putSplit p).vis.preds = st.vis.preds := rfl
@[simp] theorem putSplit_vis_kregs (st : Stream) (p : Split) : (st.putSplit p).vis.kregs = st.vis.kregs := rfl
@[simp] theorem putSplit_vis_ports (st : Stream) (p : Split) : (st.putSplit p).vis.ports = st.vis.ports := rfl
@[simp] theorem putSplit_vis_allot (st : Stream) (p : Split) : (st.putSplit p).vis.allot = st.vis.allot := rfl
@[simp] theorem putSplit_vis_pfill (st : Stream) (p : Split) : (st.putSplit p).vis.pfill = st.vis.pfill := rfl
@[simp] theorem putSplit_vis_alphastop (st : Stream) (p : Split) : (st.putSplit p).vis.alphastop = st.vis.alphastop := rfl
@[simp] theorem putSplit_vis_tba (st : Stream) (p : Split) : (st.putSplit p).vis.tba = st.vis.tba := rfl
@[simp] theorem putSplit_vis_fault (st : Stream) (p : Split) : (st.putSplit p).vis.fault = st.vis.fault := rfl

@[simp] theorem putBay_mem (s : State) (l c : Nat) (b : Bay) : (s.putBay l c b).mem = s.mem := by
  unfold State.putBay; split <;> rfl
@[simp] theorem putBay_ws (s : State) (l c : Nat) (b : Bay) : (s.putBay l c b).ws = s.ws := by
  unfold State.putBay; split <;> rfl
@[simp] theorem putBay_wsPhase (s : State) (l c : Nat) (b : Bay) : (s.putBay l c b).wsPhase = s.wsPhase := by
  unfold State.putBay; split <;> rfl
@[simp] theorem putBay_orient (s : State) (l c : Nat) (b : Bay) : (s.putBay l c b).orient = s.orient := by
  unfold State.putBay; split <;> rfl
@[simp] theorem putBay_raf (s : State) (l c : Nat) (b : Bay) : (s.putBay l c b).raf = s.raf := by
  unfold State.putBay; split <;> rfl
@[simp] theorem putBay_rafsel (s : State) (l c : Nat) (b : Bay) : (s.putBay l c b).rafsel = s.rafsel := by
  unfold State.putBay; split <;> rfl
@[simp] theorem putBay_shapeBase (s : State) (l c : Nat) (b : Bay) : (s.putBay l c b).shapeBase = s.shapeBase := by
  unfold State.putBay; split <;> rfl
@[simp] theorem putBay_shapeCnt (s : State) (l c : Nat) (b : Bay) : (s.putBay l c b).shapeCnt = s.shapeCnt := by
  unfold State.putBay; split <;> rfl
@[simp] theorem putBay_vfrac (s : State) (l c : Nat) (b : Bay) : (s.putBay l c b).vfrac = s.vfrac := by
  unfold State.putBay; split <;> rfl
@[simp] theorem putBay_bktsel (s : State) (l c : Nat) (b : Bay) : (s.putBay l c b).bktsel = s.bktsel := by
  unfold State.putBay; split <;> rfl
@[simp] theorem putBay_bktpri (s : State) (l c : Nat) (b : Bay) : (s.putBay l c b).bktpri = s.bktpri := by
  unfold State.putBay; split <;> rfl
@[simp] theorem putBay_tlb (s : State) (l c : Nat) (b : Bay) : (s.putBay l c b).tlb = s.tlb := by
  unfold State.putBay; split <;> rfl
@[simp] theorem putBay_walks (s : State) (l c : Nat) (b : Bay) : (s.putBay l c b).walks = s.walks := by
  unfold State.putBay; split <;> rfl
@[simp] theorem putBay_errors (s : State) (l c : Nat) (b : Bay) : (s.putBay l c b).errors = s.errors := by
  unfold State.putBay; split <;> rfl
@[simp] theorem putBay_corrected (s : State) (l c : Nat) (b : Bay) : (s.putBay l c b).corrected = s.corrected := by
  unfold State.putBay; split <;> rfl
@[simp] theorem putBay_linkDown (s : State) (l c : Nat) (b : Bay) : (s.putBay l c b).linkDown = s.linkDown := by
  unfold State.putBay; split <;> rfl
@[simp] theorem putBay_stlAfter (s : State) (l c : Nat) (b : Bay) : (s.putBay l c b).stlAfter = s.stlAfter := by
  unfold State.putBay; split <;> rfl
@[simp] theorem putBay_phys (s : State) (l c : Nat) (b : Bay) : (s.putBay l c b).phys = s.phys := by
  unfold State.putBay; split <;> rfl
@[simp] theorem putBay_dieMap (s : State) (l c : Nat) (b : Bay) : (s.putBay l c b).dieMap = s.dieMap := by
  unfold State.putBay; split <;> rfl
@[simp] theorem putBay_dieClock (s : State) (l c : Nat) (b : Bay) : (s.putBay l c b).dieClock = s.dieClock := by
  unfold State.putBay; split <;> rfl
@[simp] theorem putBay_cycles (s : State) (l c : Nat) (b : Bay) : (s.putBay l c b).cycles = s.cycles := by
  unfold State.putBay; split <;> rfl
@[simp] theorem putBay_stopped (s : State) (l c : Nat) (b : Bay) : (s.putBay l c b).stopped = s.stopped := by
  unfold State.putBay; split <;> rfl
@[simp] theorem putBay_bring (s : State) (l c : Nat) (b : Bay) : (s.putBay l c b).bring = s.bring := by
  unfold State.putBay; split <;> rfl
@[simp] theorem putBay_queues (s : State) (l c : Nat) (b : Bay) : (s.putBay l c b).queues = s.queues := by
  unfold State.putBay; split <;> rfl
@[simp] theorem putBay_mbox (s : State) (l c : Nat) (b : Bay) : (s.putBay l c b).mbox = s.mbox := by
  unfold State.putBay; split <;> rfl
@[simp] theorem putBay_fq (s : State) (l c : Nat) (b : Bay) : (s.putBay l c b).fq = s.fq := by
  unfold State.putBay; split <;> rfl
@[simp] theorem putBay_slog (s : State) (l c : Nat) (b : Bay) : (s.putBay l c b).slog = s.slog := by
  unfold State.putBay; split <;> rfl
@[simp] theorem putBay_ctxAreas (s : State) (l c : Nat) (b : Bay) : (s.putBay l c b).ctxAreas = s.ctxAreas := by
  unfold State.putBay; split <;> rfl
@[simp] theorem putBay_podRank (s : State) (l c : Nat) (b : Bay) : (s.putBay l c b).podRank = s.podRank := by
  unfold State.putBay; split <;> rfl
@[simp] theorem putBay_podSize (s : State) (l c : Nat) (b : Bay) : (s.putBay l c b).podSize = s.podSize := by
  unfold State.putBay; split <;> rfl
@[simp] theorem putBay_firmware (s : State) (l c : Nat) (b : Bay) : (s.putBay l c b).firmware = s.firmware := by
  unfold State.putBay; split <;> rfl
@[simp] theorem putBay_running (s : State) (l c : Nat) (b : Bay) : (s.putBay l c b).running = s.running := by
  unfold State.putBay; split <;> rfl
@[simp] theorem putBay_bbox (s : State) (l c : Nat) (b : Bay) : (s.putBay l c b).bbox = s.bbox := by
  unfold State.putBay; split <;> rfl
@[simp] theorem putBay_bboxSeq (s : State) (l c : Nat) (b : Bay) : (s.putBay l c b).bboxSeq = s.bboxSeq := by
  unfold State.putBay; split <;> rfl
@[simp] theorem putBay_arcade (s : State) (l c : Nat) (b : Bay) : (s.putBay l c b).arcade = s.arcade := by
  unfold State.putBay; split <;> rfl
@[simp] theorem putBay_clusters (s : State) (l c : Nat) (b : Bay) : (s.putBay l c b).clusters = s.clusters := by
  unfold State.putBay; split <;> rfl
@[simp] theorem putBay_streams (s : State) (l c : Nat) (b : Bay) : (s.putBay l c b).streams = s.streams := by
  unfold State.putBay; split <;> rfl
@[simp] theorem putBay_ops (s : State) (l c : Nat) (b : Bay) : (s.putBay l c b).ops = s.ops := by
  unfold State.putBay; split <;> rfl
@[simp] theorem putBay_copyq (s : State) (l c : Nat) (b : Bay) : (s.putBay l c b).copyq = s.copyq := by
  unfold State.putBay; split <;> rfl
@[simp] theorem putBay_collNow (s : State) (l c : Nat) (b : Bay) : (s.putBay l c b).collNow = s.collNow := by
  unfold State.putBay; split <;> rfl
@[simp] theorem putBay_testParts (s : State) (l c : Nat) (b : Bay) : (s.putBay l c b).testParts = s.testParts := by
  unfold State.putBay; split <;> rfl
@[simp] theorem putBay_admitted (s : State) (l c : Nat) (b : Bay) : (s.putBay l c b).admitted = s.admitted := by
  unfold State.putBay; split <;> rfl
@[simp] theorem putBay_agenda (s : State) (l c : Nat) (b : Bay) : (s.putBay l c b).agenda = s.agenda := by
  unfold State.putBay; split <;> rfl
@[simp] theorem putBay_issuer (s : State) (l c : Nat) (b : Bay) : (s.putBay l c b).issuer = s.issuer := by
  unfold State.putBay; split <;> rfl
@[simp] theorem putBay_fresh (s : State) (l c : Nat) (b : Bay) : (s.putBay l c b).fresh = s.fresh := by
  unfold State.putBay; split <;> rfl
@[simp] theorem putBay_nextId (s : State) (l c : Nat) (b : Bay) : (s.putBay l c b).nextId = s.nextId := by
  unfold State.putBay; split <;> rfl
@[simp] theorem putBay_outside (s : State) (l c : Nat) (b : Bay) : (s.putBay l c b).outside = s.outside := by
  unfold State.putBay; split <;> rfl

end Sys2Proof.Laws
end

