-- ==== Sys2Proof/Laws/Reach.lean ====
section
/-! SUPPORT. What reaching and reading memory can do, said once: to the package the translations held, the orientation of
sectors and the black box; to the issue context these, and the input log of a selected wave or a replay; nothing else. -/

namespace Sys2Proof.Laws

open Sys2Proof.Machine

/-! The package. -/

/-- The second state differs from the first only in what a walk, a turn and a record may change (R156, R163, R267). -/
def Touches (s t : State) : Prop :=
  ∃ tlb walks orient bbox seq, t = { s with tlb := tlb, walks := walks, orient := orient, bbox := bbox, bboxSeq := seq }

theorem Touches.refl (s : State) : Touches s s := ⟨_, _, _, _, _, rfl⟩

theorem Touches.trans {s t u : State} (h : Touches s t) (k : Touches t u) : Touches s u := by
  obtain ⟨_, _, _, _, _, rfl⟩ := h
  obtain ⟨_, _, _, _, _, rfl⟩ := k
  exact ⟨_, _, _, _, _, rfl⟩

theorem Touches.mem {s t : State} (h : Touches s t) : t.mem = s.mem := by obtain ⟨_, _, _, _, _, rfl⟩ := h; rfl
theorem Touches.launches {s t : State} (h : Touches s t) : t.launches = s.launches := by
  obtain ⟨_, _, _, _, _, rfl⟩ := h; rfl
theorem Touches.streams {s t : State} (h : Touches s t) : t.streams = s.streams := by
  obtain ⟨_, _, _, _, _, rfl⟩ := h; rfl
theorem Touches.ops {s t : State} (h : Touches s t) : t.ops = s.ops := by obtain ⟨_, _, _, _, _, rfl⟩ := h; rfl
theorem Touches.queues {s t : State} (h : Touches s t) : t.queues = s.queues := by
  obtain ⟨_, _, _, _, _, rfl⟩ := h; rfl

theorem box_touches (s : State) (die kind unitw : Nat) (code : Word) (addr detail : BitVec 64) :
    Touches s (s.box die kind unitw code addr detail) := ⟨_, _, _, _, _, rfl⟩

theorem turn_touches (s : State) (pa policy : Nat) (o : Orient) : Touches s (s.turn pa policy o) := by
  unfold State.turn
  split
  · exact ⟨_, _, _, _, _, rfl⟩
  · exact Touches.refl s

theorem busCheck_touches (s : State) (who : Who) (w : Bool) (pa : Nat) : Touches s (s.busCheck who w pa) := by
  unfold State.busCheck
  split
  · exact Touches.refl s
  · exact box_touches ..

theorem note_touches (s : State) (who : Who) (w : Bool) (pa : Nat) : Touches s (s.note who w pa) := by
  unfold State.note
  split
  · exact box_touches ..
  · exact busCheck_touches ..

/-- A table entry (R162, R163). -/
theorem walkEntry_touches (s : State) (who : Who) (va leaf lvl tab : Nat) :
    Touches s (s.walkEntry who va leaf lvl tab).2 := by
  unfold State.walkEntry
  extract_lets a pa held t pte
  have h1 : Touches s t := by
    simp only [t]
    split
    · exact (turn_touches ..).trans (busCheck_touches ..)
    · exact Touches.refl s
  clear_value t pte
  split
  · exact Touches.refl s
  · split
    · exact Touches.refl s
    · split
      · exact h1
      · split
        · exact h1.trans ⟨_, _, _, _, _, rfl⟩
        · exact h1

/-- A walk (R162, R163). -/
theorem walkFrom_touches (who : Who) (va : Nat) (r : Region) (leaf : Nat) : ∀ (fuel tab : Nat) (s : State),
    Touches s (State.walkFrom who va r leaf fuel tab s).2 := by
  intro fuel
  induction fuel with
  | zero =>
    intro tab s
    have h := walkEntry_touches s who va leaf leaf tab
    unfold State.walkFrom
    split <;> (rename_i e; rw [e] at h; exact h)
  | succ f ih =>
    intro tab s
    have h := walkEntry_touches s who va leaf (leaf + f + 1) tab
    unfold State.walkFrom
    split
    · rename_i e; rw [e] at h; exact h
    · rename_i e; rw [e] at h; exact h.trans (ih _ _)

/-- A translation (R162, R163). -/
theorem translate_touches (s : State) (who : Who) (va : Addr) (acc : Acc) (user : Bool) :
    Touches s (s.translate who va acc user).2 := by
  unfold State.translate
  simp only
  split
  · exact Touches.refl s
  · split
    · exact Touches.refl s
    · split
      · exact Touches.refl s
      · split
        · exact Touches.refl s
        · split
          · rename_i h
            have := walkFrom_touches who (va.toNat % 2 ^ 57) (s.region (va.toNat % 2 ^ 57 / 2 ^ 53))
              (1 + (s.region (va.toNat % 2 ^ 57 / 2 ^ 53)).pgsz)
              ((if (s.region (va.toNat % 2 ^ 57 / 2 ^ 53)).rootL4 then 4 else 5) -
                (1 + (s.region (va.toNat % 2 ^ 57 / 2 ^ 53)).pgsz))
              ((s.region (va.toNat % 2 ^ 57 / 2 ^ 53)).root.toNat * 4096) s
            rw [h] at this
            exact this
          · rename_i h
            have := walkFrom_touches who (va.toNat % 2 ^ 57) (s.region (va.toNat % 2 ^ 57 / 2 ^ 53))
              (1 + (s.region (va.toNat % 2 ^ 57 / 2 ^ 53)).pgsz)
              ((if (s.region (va.toNat % 2 ^ 57 / 2 ^ 53)).rootL4 then 4 else 5) -
                (1 + (s.region (va.toNat % 2 ^ 57 / 2 ^ 53)).pgsz))
              ((s.region (va.toNat % 2 ^ 57 / 2 ^ 53)).root.toNat * 4096) s
            rw [h] at this
            split
            · exact this
            · split
              · exact this
              · exact this.trans ⟨_, _, _, _, _, rfl⟩

/-! The issue context. -/

/-- The second context differs from the first only in what reaching and reading memory may change. -/
def Reads (a b : Cx) : Prop :=
  ∃ tlb walks orient bbox seq log bytes unverif, b = { a with
    s := { a.s with tlb := tlb, walks := walks, orient := orient, bbox := bbox, bboxSeq := seq },
    st := { a.st with log := log, logBytes := bytes, unverif := unverif } }

theorem Reads.refl (a : Cx) : Reads a a := ⟨_, _, _, _, _, _, _, _, rfl⟩

theorem Reads.trans {a b c : Cx} (h : Reads a b) (k : Reads b c) : Reads a c := by
  obtain ⟨_, _, _, _, _, _, _, _, rfl⟩ := h
  obtain ⟨_, _, _, _, _, _, _, _, rfl⟩ := k
  exact ⟨_, _, _, _, _, _, _, _, rfl⟩

/-- A change of the package alone. -/
theorem Touches.reads {s : State} (a : Cx) (h : Touches a.s s) : Reads a { a with s := s } := by
  obtain ⟨_, _, _, _, _, rfl⟩ := h
  exact ⟨_, _, _, _, _, _, _, _, rfl⟩

variable {a b : Cx}

theorem Reads.sp (h : Reads a b) : b.sp = a.sp := by obtain ⟨_, _, _, _, _, _, _, _, rfl⟩ := h; rfl
theorem Reads.id (h : Reads a b) : b.id = a.id := by obtain ⟨_, _, _, _, _, _, _, _, rfl⟩ := h; rfl
theorem Reads.la (h : Reads a b) : b.la = a.la := by obtain ⟨_, _, _, _, _, _, _, _, rfl⟩ := h; rfl
theorem Reads.part (h : Reads a b) : b.part = a.part := by obtain ⟨_, _, _, _, _, _, _, _, rfl⟩ := h; rfl
theorem Reads.vis (h : Reads a b) : b.st.vis = a.st.vis := by obtain ⟨_, _, _, _, _, _, _, _, rfl⟩ := h; rfl
theorem Reads.buffer (h : Reads a b) : b.st.buffer = a.st.buffer := by obtain ⟨_, _, _, _, _, _, _, _, rfl⟩ := h; rfl
theorem Reads.isReplay (h : Reads a b) : b.st.isReplay = a.st.isReplay := by
  obtain ⟨_, _, _, _, _, _, _, _, rfl⟩ := h; rfl
theorem Reads.recomputing (h : Reads a b) : b.st.recomputing = a.st.recomputing := by
  obtain ⟨_, _, _, _, _, _, _, _, rfl⟩ := h; rfl
theorem Reads.scalar (h : Reads a b) (n : Nat) : b.scalar n = a.scalar n := by
  obtain ⟨_, _, _, _, _, _, _, _, rfl⟩ := h; rfl
theorem Reads.vec (h : Reads a b) (i l : Nat) : b.vec i l = a.vec i l := by
  obtain ⟨_, _, _, _, _, _, _, _, rfl⟩ := h; rfl
theorem Reads.mem (h : Reads a b) : b.s.mem = a.s.mem := by obtain ⟨_, _, _, _, _, _, _, _, rfl⟩ := h; rfl
theorem Reads.streams (h : Reads a b) : b.s.streams = a.s.streams := by obtain ⟨_, _, _, _, _, _, _, _, rfl⟩ := h; rfl
theorem Reads.launches (h : Reads a b) : b.s.launches = a.s.launches := by
  obtain ⟨_, _, _, _, _, _, _, _, rfl⟩ := h; rfl
theorem Reads.clusters (h : Reads a b) : b.s.clusters = a.s.clusters := by
  obtain ⟨_, _, _, _, _, _, _, _, rfl⟩ := h; rfl
theorem Reads.ops (h : Reads a b) : b.s.ops = a.s.ops := by obtain ⟨_, _, _, _, _, _, _, _, rfl⟩ := h; rfl
theorem Reads.nextId (h : Reads a b) : b.s.nextId = a.s.nextId := by obtain ⟨_, _, _, _, _, _, _, _, rfl⟩ := h; rfl

/-- Where an access's bytes are (R143, R162). -/
theorem locate_reads (cx : Cx) (acc : Acc) (n lane : Nat) (x : Addr) : Reads cx (cx.locate acc n lane x).2 := by
  unfold Cx.locate
  split
  · have ht := translate_touches cx.s (cx.s.whoOf cx.st) x acc (!cx.st.privileged)
    split
    · rename_i h; rw [h] at ht; exact ht.reads cx
    · rename_i h; rw [h] at ht
      split
      · exact ht.reads cx
      · exact ht.reads cx
  · exact Reads.refl _

/-- The access at its place (R143, R157, R266, R267, R271). -/
theorem touch_reads (cx : Cx) (acc : Acc) (rd : Bool) (n : Nat) (o : Orient) (x : Addr) (p : Place) (policy : Nat) :
    Reads cx (cx.touch acc rd n o x p policy).2 := by
  unfold Cx.touch
  split
  · split
    · exact Reads.refl _
    · simp only
      split
      · split
        · exact (busCheck_touches ..).reads cx
        · exact (busCheck_touches ..).reads cx
      · split
        · exact ((turn_touches ..).trans (busCheck_touches ..)).reads cx
        · exact ((turn_touches ..).trans (busCheck_touches ..)).reads cx
  · split
    · exact Reads.refl _
    · exact Reads.refl _

/-- An access, whether it passes its checks or not (R143). -/
theorem reach_reads (cx : Cx) (acc : Acc) (rd : Bool) (n : Nat) (o : Orient) (lane : Nat) (x : Addr) :
    Reads cx (cx.reach acc rd n o lane x).2 := by
  have h := locate_reads cx acc n lane x
  unfold Cx.reach
  split
  · rename_i e; rw [e] at h; exact h
  · rename_i e; rw [e] at h; exact h.trans (touch_reads ..)

/-- Accesses in order. -/
theorem reachAll_reads (cx : Cx) (acc : Acc) (rd : Bool) (n : Nat) (o : Orient) (as : List (Nat × Addr)) :
    Reads cx (cx.reachAll acc rd n o as).1 := by
  unfold Cx.reachAll
  suffices h : ∀ (r : Cx × List Reached × List (Nat × Exn)), Reads cx r.1 →
      Reads cx (as.foldl (fun r e =>
        match r.1.reach acc rd n o e.1 e.2 with
        | (.ok p, cx) => (cx, r.2.1 ++ [{ lane := e.1, addr := e.2, place := p }], r.2.2)
        | (.error x, cx) => (cx, r.2.1, r.2.2 ++ [(e.1, x)])) r).1 from h _ (Reads.refl _)
  induction as with
  | nil => exact fun _ h => h
  | cons e t ih =>
    intro r h
    rw [List.foldl_cons]
    apply ih
    have hr := reach_reads r.1 acc rd n o e.1 e.2
    split
    · rename_i k; rw [k] at hr; exact h.trans hr
    · rename_i k; rw [k] at hr; exact h.trans hr

/-- The next entry of a log, taken (R203). -/
theorem takeEntry_ok {cx c : Cx} {k : Nat} {e : LogEntry} (h : cx.takeEntry k = .ok (e, c)) :
    ∃ t, cx.st.log = e :: t ∧ c = { cx with st := { cx.st with log := t } } := by
  unfold Cx.takeEntry at h
  split at h
  · split at h
    · cases h; exact ⟨_, ‹_›, rfl⟩
    · cases h
  · cases h

/-- Its value, taken. -/
theorem takeLog_ok {cx c : Cx} {k : Nat} {v : BitVec 64} (h : cx.takeLog k = .ok (v, c)) :
    ∃ t, c = { cx with st := { cx.st with log := t } } := by
  unfold Cx.takeLog at h
  cases h' : cx.takeEntry k with
  | error e => rw [h'] at h; cases h
  | ok r =>
    rw [h'] at h; cases h
    obtain ⟨t, -, ht⟩ := takeEntry_ok (e := r.1) (c := r.2) h'
    exact ⟨t, ht⟩

/-- The read of a wave (R178, R201, R203). -/
theorem readAt_reads {cx c : Cx} {x : Addr} {p : Place} {n v : Nat} (h : cx.readAt x p n = .ok (v, c)) : Reads cx c := by
  unfold Cx.readAt at h
  split at h
  · cases h' : cx.takeLog 0 with
    | error e => rw [h'] at h; cases h
    | ok r =>
      rw [h'] at h; cases h
      obtain ⟨t, ht⟩ := takeLog_ok (v := r.1) (c := r.2) h'
      rw [ht]; exact ⟨_, _, _, _, _, _, _, _, rfl⟩
  · simp only [Except.ok.injEq, Prod.mk.injEq] at h
    obtain ⟨-, rfl⟩ := h
    unfold Stream.logInput
    repeat' split
    all_goals exact ⟨_, _, _, _, _, _, _, _, rfl⟩

/-- The reads of every reached access. -/
theorem readAll_reads {n : Nat} : ∀ {rs : List Reached} {cx c : Cx} {vs : List (Nat × Nat)},
    cx.readAll n rs = .ok (vs, c) → Reads cx c
  | [], cx, c, vs, h => by cases h; exact Reads.refl _
  | r :: t, cx, c, vs, h => by
    unfold Cx.readAll at h
    cases h1 : cx.readAt r.addr r.place n with
    | error e => rw [h1] at h; cases h
    | ok q =>
      rw [h1] at h
      cases h2 : q.2.readAll n t with
      | error e => simp only [bind, Except.bind, h2] at h; cases h
      | ok w =>
        simp only [bind, Except.bind, h2] at h
        cases h
        exact (readAt_reads (by rw [h1])).trans (readAll_reads h2)

end Sys2Proof.Laws
end

