-- ==== Sys2Proof/Laws/Graphics.lean ====
section
/-! SUPPORT. The reads of the texture, ray, image and copy units, said once: what they do to the issue context is what
reaching and reading memory does. -/

namespace Sys2Proof.Laws

open Sys2Proof.Machine

/-- The parts of a bind that succeeds. -/
theorem bind_ok {α β : Type} {x : Except Stop α} {f : α → Except Stop β} {b : β} (h : (x >>= f) = .ok b) :
    ∃ a, x = .ok a ∧ f a = .ok b := by
  cases x with
  | error e => cases h
  | ok a => exact ⟨a, rfl, h⟩

/-- A condition that holds lets an instruction go on. -/
theorem must_ok {c : Bool} {f : FaultCode} {u : Unit} (h : must c f = .ok u) : c = true := by
  cases c
  · cases h
  · rfl

/-- The context after an access at its place. -/
theorem touch_ok {cx c : Cx} {acc : Acc} {rd : Bool} {n pol : Nat} {o : Orient} {x : Addr} {p : Place} {r : Except Exn Place}
    (h : cx.touch acc rd n o x p pol = (r, c)) : Reads cx c := by
  have k := touch_reads cx acc rd n o x p pol
  rw [h] at k
  exact k

/-- The context after an access. -/
theorem reach_ok {cx c : Cx} {acc : Acc} {rd : Bool} {n lane : Nat} {o : Orient} {x : Addr} {r : Except Exn Place}
    (h : cx.reach acc rd n o lane x = (r, c)) : Reads cx c := by
  have k := reach_reads cx acc rd n o lane x
  rw [h] at k
  exact k

/-! Copies and shapes. -/

theorem translatePages_reads {acc : Acc} : ∀ {ps : List (Nat × Addr)} {cx c : Cx} {m : List (Nat × Nat)},
    cx.translatePages acc ps = .ok (m, c) → Reads cx c
  | [], cx, c, m, h => by cases h; exact Reads.refl _
  | p :: t, cx, c, m, h => by
    unfold Cx.translatePages at h
    have k := locate_reads cx acc 1 noLane p.2
    split at h
    · cases h
    · rename_i h1
      rw [h1] at k
      revert h
      generalize h2 : Cx.translatePages _ acc t = r
      intro h
      cases r with
      | error e => cases h
      | ok q => cases h; exact k.trans (translatePages_reads h2)

theorem handle_reads {cx c : Cx} {h : Word} {s : Shape} (e : cx.handle h = .ok (s, c)) : Reads cx c := by
  unfold Cx.handle at e
  obtain ⟨_, -, e⟩ := bind_ok e
  simp only at e
  split at e
  · obtain ⟨_, k, -⟩ := bind_ok e; cases k
  split at e
  · obtain ⟨_, k, -⟩ := bind_ok e; cases k
  have ht := translate_touches cx.s (cx.s.whoOf cx.st) (cx.s.shapeBase + BitVec.ofNat 64 (64 * (h.toNat % 2 ^ 20))) .read false
  split at e
  · cases e
  · rename_i h1
    rw [h1] at ht
    split at e
    · cases e
    · rename_i h2
      obtain ⟨_, -, e⟩ := bind_ok e
      split at e
      · cases e
      · cases e
        exact (ht.reads cx).trans (touch_ok h2)

theorem texture_reads {cx c : Cx} {h : Word} {s : Shape} (e : cx.texture h = .ok (s, c)) : Reads cx c := by
  unfold Cx.texture at e
  obtain ⟨q, e1, e⟩ := bind_ok e
  obtain ⟨_, -, e⟩ := bind_ok e
  cases e
  exact handle_reads e1

/-! The reads of lanes. -/

theorem gather_reads (n l : Nat) : ∀ (as : List Addr) (cx : Cx), Reads cx (cx.gather n l as).2
  | [], cx => Reads.refl _
  | a :: t, cx => by
    unfold Cx.gather
    split
    · rename_i h; exact reach_ok h
    · rename_i h; exact (reach_ok h).trans (gather_reads n l t _)

theorem gatherLanes_reads (cx : Cx) (n : Nat) (as : List (Nat × List Addr)) : Reads cx (cx.gatherLanes n as).1 := by
  unfold Cx.gatherLanes
  suffices h : ∀ (r : Cx × List (Nat × List (Addr × Place)) × List (Nat × Exn)), Reads cx r.1 →
      Reads cx (as.foldl (fun r e =>
        match r.1.gather n e.1 e.2 with
        | (.ok ps, cx) => (cx, r.2.1 ++ [(e.1, ps)], r.2.2)
        | (.error x, cx) => (cx, r.2.1, r.2.2 ++ [(e.1, x)])) r).1 from h _ (Reads.refl _)
  induction as with
  | nil => exact fun _ h => h
  | cons e t ih =>
    intro r h
    rw [List.foldl_cons]
    apply ih
    have k := gather_reads n e.1 e.2 r.1
    split
    · rename_i hr; rw [hr] at k; exact h.trans k
    · rename_i hr; rw [hr] at k; exact h.trans k

theorem readList_reads {n : Nat} : ∀ {ps : List (Addr × Place)} {cx c : Cx} {vs : List Nat},
    cx.readList n ps = .ok (vs, c) → Reads cx c
  | [], cx, c, vs, h => by cases h; exact Reads.refl _
  | p :: t, cx, c, vs, h => by
    unfold Cx.readList at h
    obtain ⟨q, h1, h⟩ := bind_ok h
    obtain ⟨r, h2, h⟩ := bind_ok h
    cases h
    exact (readAt_reads h1).trans (readList_reads h2)

theorem readLists_reads {n : Nat} : ∀ {ps : List (Nat × List (Addr × Place))} {cx c : Cx} {vs : List (Nat × List Nat)},
    cx.readLists n ps = .ok (vs, c) → Reads cx c
  | [], cx, c, vs, h => by cases h; exact Reads.refl _
  | p :: t, cx, c, vs, h => by
    unfold Cx.readLists at h
    obtain ⟨q, h1, h⟩ := bind_ok h
    obtain ⟨r, h2, h⟩ := bind_ok h
    cases h
    exact (readList_reads h1).trans (readLists_reads h2)

theorem readWords_reads {x : Addr} {p : Place} {n : Nat} {cx c : Cx} {ws : List Nat}
    (h : cx.readWords x p n = .ok (ws, c)) : Reads cx c := by
  induction n generalizing cx c ws x p with
  | zero => cases h; exact Reads.refl _
  | succ n ih =>
    unfold Cx.readWords at h
    obtain ⟨q, h1, h⟩ := bind_ok h
    obtain ⟨r, h2, h⟩ := bind_ok h
    cases h
    exact (readAt_reads h1).trans (ih h2)

/-! Splats. -/

theorem splatList_reads {cx c : Cx} {off : Nat} {l : SplatList} (h : cx.splatList off = .ok (l, c)) : Reads cx c := by
  unfold Cx.splatList at h
  obtain ⟨_, -, h⟩ := bind_ok h
  obtain ⟨_, -, h⟩ := bind_ok h
  simp only at h
  split at h
  · obtain ⟨_, k, -⟩ := bind_ok h; cases k
  obtain ⟨q, h1, h⟩ := bind_ok h
  obtain ⟨_, -, h⟩ := bind_ok h
  obtain ⟨_, -, h⟩ := bind_ok h
  obtain ⟨_, -, h⟩ := bind_ok h
  cases h
  exact readWords_reads h1

theorem splatRecs_reads {base n : Nat} {cx c : Cx} {rs : List SplatRec} (h : cx.splatRecs base n = .ok (rs, c)) :
    Reads cx c := by
  induction n generalizing cx c rs base with
  | zero => cases h; exact Reads.refl _
  | succ n ih =>
    unfold Cx.splatRecs at h
    obtain ⟨q, h1, h⟩ := bind_ok h
    obtain ⟨r, h2, h⟩ := bind_ok h
    cases h
    exact (readWords_reads h1).trans (ih h2)

theorem stopWords_reads {l : SplatList} {px : Nat → Nat} : ∀ {ls : List Nat} {cx c : Cx} {vs : List (Nat × Nat)},
    cx.stopWords l px ls = .ok (vs, c) → Reads cx c
  | [], cx, c, vs, h => by cases h; exact Reads.refl _
  | p :: t, cx, c, vs, h => by
    unfold Cx.stopWords at h
    obtain ⟨q, h1, h⟩ := bind_ok h
    obtain ⟨r, h2, h⟩ := bind_ok h
    cases h
    exact (readAt_reads h1).trans (stopWords_reads h2)

/-! Raster. -/

theorem reachFrags_reads (acc : Acc) (obj : Option (Spot × Nat)) (l : Nat) : ∀ (fs : List (Addr × BitVec 64)) (cx : Cx),
    Reads cx (cx.reachFrags acc obj l fs).2
  | [], cx => Reads.refl _
  | f :: t, cx => by
    unfold Cx.reachFrags
    split
    · rename_i h
      split
      · exact (reach_ok h).trans (reachFrags_reads acc obj l t _)
      · exact reach_ok h
    · rename_i h; exact (reach_ok h).trans (reachFrags_reads acc obj l t _)

theorem reachTriangle_reads (cx : Cx) (mode obj l : Nat) (fs : List (Addr × BitVec 64)) :
    Reads cx (cx.reachTriangle mode obj l fs).2 := by
  unfold Cx.reachTriangle
  simp only
  split
  · exact Reads.refl _
  · split
    · exact reachFrags_reads ..
    · split
      · rename_i h
        split
        · exact reach_ok h
        · exact reach_ok h
      · rename_i h; exact (reach_ok h).trans (reachFrags_reads ..)

/-! Rays. -/

/-- What a walk leaves, whether it goes on or faults, differs from a context only in what reads change. -/
def Leaves {β : Type} (cx : Cx) (f : β → Cx) : Except (Exn × Cx) β → Prop
  | .ok b => Reads cx (f b)
  | .error e => Reads cx e.2

theorem Leaves.after {β : Type} {a b : Cx} {f : β → Cx} {r : Except (Exn × Cx) β} (h : Reads a b) (k : Leaves b f r) :
    Leaves a f r := by
  cases r with
  | ok x => exact h.trans k
  | error e => exact h.trans k

theorem nodeAt_leaves (cx : Cx) (l x : Nat) : Leaves cx (·.2) (cx.nodeAt l x) := by
  unfold Cx.nodeAt
  simp only
  split
  · exact Reads.refl _
  split
  · rename_i h1; exact reach_ok h1
  · rename_i h1
    refine (reach_ok h1).trans ?_
    simp only
    split
    all_goals exact ⟨_, _, _, _, _, _, _, _, rfl⟩

/-- The context after a node that was read. -/
theorem nodeAt_ok {cx c : Cx} {l x n : Nat} (h : cx.nodeAt l x = .ok (n, c)) : Reads cx c := by
  have k := nodeAt_leaves cx l x
  rw [h] at k
  exact k

/-- The context after a node that could not be read. -/
theorem nodeAt_error {cx : Cx} {l x : Nat} {e : Exn × Cx} (h : cx.nodeAt l x = .error e) : Reads cx e.2 := by
  have k := nodeAt_leaves cx l x
  rw [h] at k
  exact k

theorem ascend_leaves (l fuel : Nat) : ∀ (w : Walk) (cx : Cx), Leaves cx (·.2.2) (Cx.ascend l fuel w cx) := by
  induction fuel with
  | zero => exact fun _ _ => Reads.refl _
  | succ n ih =>
    intro w cx
    unfold Cx.ascend
    split
    · exact Reads.refl _
    · split
      · rename_i h1; exact nodeAt_error h1
      · rename_i h1
        have r1 := nodeAt_ok h1
        split
        · exact r1
        · split
          · split
            · exact r1
            · exact (ih _ _).after r1
          · split
            · exact (ih _ _).after r1
            · simp only
              split
              · rename_i h2; exact r1.trans (nodeAt_error h2)
              · rename_i h2
                have r2 := r1.trans (nodeAt_ok h2)
                split
                · exact r2
                · split
                  · exact r2
                  · exact (ih _ _).after r2

theorem visitInternal_leaves (l n : Nat) (w : Walk) (cx : Cx) : Leaves cx (·.2.2) (Cx.visitInternal l n w cx) := by
  unfold Cx.visitInternal
  simp only
  repeat' split
  all_goals first
    | exact ascend_leaves ..
    | exact Reads.refl _

theorem visitInstance_leaves (l n : Nat) (w : Walk) (cx : Cx) : Leaves cx (·.2.2) (Cx.visitInstance l n w cx) := by
  unfold Cx.visitInstance
  simp only
  repeat' split
  all_goals first
    | exact ascend_leaves ..
    | exact Reads.refl _

theorem visitTriangle_leaves (l n x : Nat) (w : Walk) (cx : Cx) : Leaves cx (·.2.2) (Cx.visitTriangle l n x w cx) := by
  unfold Cx.visitTriangle
  split
  · exact ascend_leaves ..
  · rename_i w' _
    have h := ascend_leaves l 65 w' cx
    split
    all_goals
      rename_i e
      rw [e] at h
      exact h

theorem walk_leaves (l x fuel : Nat) : ∀ (w : Walk) (cx : Cx), Leaves cx (·.2) (Cx.walk l x fuel w cx) := by
  induction fuel with
  | zero => exact fun _ _ => Reads.refl _
  | succ n ih =>
    intro w cx
    unfold Cx.walk
    split
    · rename_i h1; exact nodeAt_error h1
    · rename_i m c1 h1
      have r1 := nodeAt_ok h1
      split
      · exact r1
      · have v : ∀ {r : Except (Exn × Cx) (Walk × Flow × Cx)}, (match w.kind with
            | 1 => Cx.visitTriangle l m (x + 2 * n) w c1
            | 2 => Cx.visitInstance l m w c1
            | _ => Cx.visitInternal l m w c1) = r → Leaves c1 (·.2.2) r := by
          rintro _ rfl
          split
          · exact visitTriangle_leaves ..
          · exact visitInstance_leaves ..
          · exact visitInternal_leaves ..
        simp only
        split
        all_goals
          rename_i e
          first
            | exact r1.trans (v e)
            | exact (ih _ _).after (r1.trans (v e))

theorem retrace_leaves (l k : Nat) : ∀ (lvl x kind : Nat) (w : Walk) (cx : Cx),
    Leaves cx (·.2) (Cx.retrace l k lvl x kind w cx) := by
  induction k with
  | zero => exact fun _ _ _ _ _ => Reads.refl _
  | succ n ih =>
    intro lvl x kind w cx
    unfold Cx.retrace
    split
    · rename_i h1; exact nodeAt_error h1
    · rename_i h1
      have r1 := nodeAt_ok h1
      split
      · exact r1
      · split
        · exact (ih _ _ _ _ _).after r1
        · exact (ih _ _ _ _ _).after r1
        · exact r1

/-- A lane's walk (R218). -/
theorem stepRay_leaves (cx : Cx) (l x n root : Nat) (g : Nat → Nat) : Leaves cx (·.2) (cx.stepRay l x n root g) := by
  unfold Cx.stepRay
  simp only
  split
  · exact Reads.refl _
  · split
    · exact Reads.refl _
    · generalize hw : (if (Walk.ofWords g).level = 0 then
        { Walk.ofWords g with node := root, kind := 0, level := 1, trail := 0 } else Walk.ofWords g) = w
      have h := retrace_leaves l (w.level - 1) 1 root 0 w cx
      split
      · rename_i e; rw [e] at h; exact h
      · rename_i e; rw [e] at h; exact h
      · rename_i w2 c2 e
        rw [e] at h
        have k := walk_leaves l x n w2 c2
        split
        · rename_i e2; rw [e2] at k; exact h.trans k
        · rename_i e2; rw [e2] at k; exact h.trans k

/-- The walks of the lanes, one after another (R218). -/
theorem stepRays_reads {x : Nat → Nat} {n root : Nat} {g : Nat → Nat → Nat} (ls : List Nat) :
    ∀ r : Cx × List (Nat × List Word) × List (Nat × Exn), Reads r.1 (ls.foldl (fun r l =>
      match Cx.stepRay r.1 l (x l) n root (g l) with
      | .ok (ws, c) => (c, r.2.1 ++ [(l, ws)], r.2.2)
      | .error (e, c) => (c, r.2.1, r.2.2 ++ [(l, e)])) r).1 := by
  induction ls with
  | nil => exact fun _ => Reads.refl _
  | cons e t ih =>
    intro r
    rw [List.foldl_cons]
    refine Reads.trans ?_ (ih _)
    have k := stepRay_leaves r.1 e (x e) n root (g e)
    split
    · rename_i hr; rw [hr] at k; exact k
    · rename_i hr; rw [hr] at k; exact k

end Sys2Proof.Laws
end

