-- ==== Sys2Proof/Laws/Issue.lean ====
section
/-! SUPPORT. What the issue of an instruction can do, said once: an instruction that passes its checks and whose effect
succeeds completes; one whose effect stops goes where the stop says; and none of them stops the machine. -/

namespace Sys2Proof.Laws

open Sys2Proof.Machine Sys2Proof.Safety

/-- The checks of R100 pass for an instruction that is clear. -/
theorem check_of_clear {cx : Cx} {d : Desc} (h : Clear cx d) : cx.check d = .ok { cx with perLane := d.perLane } := by
  obtain ⟨h1, h2, h3, ⟨h4, h5⟩, ⟨h6, h7⟩, ⟨h8, h9⟩, h10⟩ := h
  have a1 : d.opnds.any (Opnd.bad cx.st) = false := by simpa [List.any_eq_false] using h5
  have a2 : d.opnds.all (Opnd.inWindow cx.st) = true := by simpa [List.all_eq_true] using h7
  have a3 : d.opnds.any (Opnd.isPending cx) = false := by simpa [List.any_eq_false] using h9
  have a4 : d.opnds.any (Opnd.badPort cx.st) = false := by simpa [List.any_eq_false] using h10
  have a5 : (!d.priv || cx.st.privileged) = true := by
    cases hp : d.priv
    · rfl
    · simpa [hp] using h3
  unfold Cx.check
  simp only [h1, h2, h4, h6, h8, a1, a2, a3, a4, a5, must]
  rfl

/-- An instruction that passes its checks and whose effect succeeds completes. -/
theorem issue_done {s : State} {d : Desc} {cx cx' : Cx} {body : Cx -> Except Stop Cx} (h : Issues s d cx)
    (hb : body cx = .ok cx') : issue s d body = .next cx'.finish := by
  obtain ⟨c, hl, hc, rfl, hs⟩ := h
  unfold issue
  rw [hl]
  simp only [check_of_clear hc, hs, hb]

/-- An instruction that passes its checks and whose effect stops. -/
theorem issue_stops {s : State} {d : Desc} {cx : Cx} {st : Stop} {body : Cx -> Except Stop Cx} (h : Issues s d cx)
    (hb : body cx = .error st) : issue s d body = .next (cx.onStop st) := by
  obtain ⟨c, hl, hc, rfl, hs⟩ := h
  unfold issue
  rw [hl]
  simp only [check_of_clear hc, hs, hb]

/-- An instruction that a split issues always takes a next state. -/
theorem issue_next {s : State} {cx : Cx} (h : Cx.load s = some cx) (d : Desc) (body : Cx -> Except Stop Cx) :
    ∃ t, issue s d body = .next t := by
  unfold issue
  rw [h]
  simp only
  split
  · exact ⟨_, rfl⟩
  · split
    · exact ⟨_, rfl⟩
    · split <;> exact ⟨_, rfl⟩

/-- The context of an issue is that of the issuing stream. -/
theorem load_stream {s : State} {cx : Cx} (h : Cx.load s = some cx) : s.stream? cx.id = some cx.st ∧ cx.s = s := by
  unfold Cx.load at h
  split at h
  · cases h
  · split at h
    · cases h
    · cases h
      exact ⟨by assumption, rfl⟩

end Sys2Proof.Laws
end

