-- ==== Sys2Proof/Laws/Operands.lean ====
section
/-! SUPPORT. What reading and writing operands can do to the issue context, said once (R23, R39-R43, R92). -/

namespace Sys2Proof.Laws

open Sys2Proof.Machine

/-! Reading. -/

/-- The second context differs from the first only in what a pop of a queue port may change (R40, R164, R201): the bays of its
launch, the entries kept and delivered again, and the input log. -/
def Pops (a b : Cx) : Prop :=
  ∃ ls log bytes unverif pops again kept, kept.map Kept.sregs = a.sp.kept.map Kept.sregs ∧ b = { a with
    s := { a.s with launches := ls },
    st := { a.st with log := log, logBytes := bytes, unverif := unverif, pops := pops, redeliver := again },
    sp := { a.sp with kept := kept } }

theorem Pops.refl (a : Cx) : Pops a a := ⟨_, _, _, _, _, _, _, rfl, rfl⟩

theorem Pops.trans {a b c : Cx} (h : Pops a b) (k : Pops b c) : Pops a c := by
  obtain ⟨_, _, _, _, _, _, _, h1, rfl⟩ := h
  obtain ⟨_, _, _, _, _, _, _, k1, rfl⟩ := k
  exact ⟨_, _, _, _, _, _, _, k1.trans h1, rfl⟩

variable {a b : Cx}

theorem Pops.id (h : Pops a b) : b.id = a.id := by obtain ⟨_, _, _, _, _, _, _, _, rfl⟩ := h; rfl
theorem Pops.la (h : Pops a b) : b.la = a.la := by obtain ⟨_, _, _, _, _, _, _, _, rfl⟩ := h; rfl
theorem Pops.part (h : Pops a b) : b.part = a.part := by obtain ⟨_, _, _, _, _, _, _, _, rfl⟩ := h; rfl
theorem Pops.vis (h : Pops a b) : b.st.vis = a.st.vis := by obtain ⟨_, _, _, _, _, _, _, _, rfl⟩ := h; rfl
theorem Pops.buffer (h : Pops a b) : b.st.buffer = a.st.buffer := by obtain ⟨_, _, _, _, _, _, _, _, rfl⟩ := h; rfl
theorem Pops.isReplay (h : Pops a b) : b.st.isReplay = a.st.isReplay := by
  obtain ⟨_, _, _, _, _, _, _, _, rfl⟩ := h; rfl
theorem Pops.recomputing (h : Pops a b) : b.st.recomputing = a.st.recomputing := by
  obtain ⟨_, _, _, _, _, _, _, _, rfl⟩ := h; rfl
theorem Pops.vec (h : Pops a b) (i l : Nat) : b.vec i l = a.vec i l := by
  obtain ⟨_, _, _, _, _, _, _, _, rfl⟩ := h; rfl
theorem Pops.scalar (h : Pops a b) (n : Nat) : b.scalar n = a.scalar n := by
  obtain ⟨_, _, _, _, _, _, kept, h1, rfl⟩ := h
  unfold Cx.scalar Cx.sreg
  cases kept with
  | none =>
    cases h2 : a.sp.kept with
    | none => rfl
    | some k => rw [h2] at h1; cases h1
  | some q =>
    cases h2 : a.sp.kept with
    | none => rw [h2] at h1; cases h1
    | some k =>
      rw [h2] at h1
      simp only [Option.map_some, Option.some.injEq] at h1
      simp only [h1]
theorem Pops.mem (h : Pops a b) : b.s.mem = a.s.mem := by obtain ⟨_, _, _, _, _, _, _, _, rfl⟩ := h; rfl
theorem Pops.ops (h : Pops a b) : b.s.ops = a.s.ops := by obtain ⟨_, _, _, _, _, _, _, _, rfl⟩ := h; rfl
theorem Pops.streams (h : Pops a b) : b.s.streams = a.s.streams := by obtain ⟨_, _, _, _, _, _, _, _, rfl⟩ := h; rfl
theorem Pops.clusters (h : Pops a b) : b.s.clusters = a.s.clusters := by
  obtain ⟨_, _, _, _, _, _, _, _, rfl⟩ := h; rfl

/-- An input logged or not (R201). -/
theorem logInput_keeps (st : Stream) (kind bytes : Nat) (v : BitVec 64) : ∃ log n unverif,
    st.logInput kind bytes v = { st with log := log, logBytes := n, unverif := unverif } := by
  unfold Stream.logInput
  repeat' split
  all_goals exact ⟨_, _, _, rfl⟩

/-- A pop from a log, a kept entry or a queue (R40, R42, R203). -/
theorem popQueue_pops {cx c : Cx} {q : Nat} {v : Word} (h : cx.popQueue q = .ok (v, c)) : Pops cx c := by
  unfold Cx.popQueue at h
  split at h
  · cases h' : cx.takeLog 1 with
    | error e => rw [h'] at h; cases h
    | ok r =>
      rw [h'] at h; cases h
      obtain ⟨t, ht⟩ := takeLog_ok (v := r.1) (c := r.2) h'
      rw [ht]; exact ⟨_, _, _, _, _, _, _, rfl, rfl⟩
  · split at h
    · rename_i w t _
      simp only [Except.ok.injEq, Prod.mk.injEq] at h
      obtain ⟨-, rfl⟩ := h
      obtain ⟨_, _, _, hl⟩ := logInput_keeps cx.st 1 4 (w.setWidth 64)
      rw [hl]
      exact ⟨_, _, _, _, _, _, _, rfl, rfl⟩
    · simp only at h
      split at h
      · cases h
      · rename_i w t _
        simp only [Except.ok.injEq, Prod.mk.injEq] at h
        obtain ⟨-, rfl⟩ := h
        obtain ⟨_, _, _, hl⟩ := logInput_keeps cx.st 1 4 (w.setWidth 64)
        rw [hl]
        unfold State.putBay
        split <;> exact ⟨_, _, _, _, _, _, _, rfl, rfl⟩

/-- A read of a port (R40, R164). -/
theorem pop_pops {cx c : Cx} {q : Nat} {v : Word} (h : cx.pop q = .ok (v, c)) : Pops cx c := by
  unfold Cx.pop at h
  split at h
  · exact popQueue_pops h
  · rename_i k hk
    split at h
    · cases h; exact ⟨_, _, _, _, _, _, _, by rw [hk]; rfl, rfl⟩
    · exact popQueue_pops h

/-- A scalar source (R40, R92). -/
theorem readS_pops {cx c : Cx} {n : Nat} {v : Word} (h : cx.readS n = .ok (v, c)) : Pops cx c := by
  unfold Cx.readS at h
  split at h
  · exact pop_pops h
  · cases h; exact Pops.refl _

/-- A scalar source with no port reads its register. -/
theorem readS_plain {cx : Cx} {n : Nat} (h : cx.st.port n = none) : cx.readS n = .ok (cx.scalar n, cx) := by
  unfold Cx.readS; rw [h]

/-- A source field (R92). -/
theorem source_pops {cx c : Cx} {k : BitVec 7} {v : Word} (h : cx.source k = .ok (v, c)) : Pops cx c := by
  unfold Cx.source at h
  split at h
  · cases h; exact Pops.refl _
  · exact readS_pops h

/-- A vector source changes nothing. -/
theorem source_vec {cx : Cx} {k : BitVec 7} (h : isVec k = true) : cx.source k = .ok (0, cx) := by
  unfold Cx.source; rw [if_pos h]

/-! Writing. -/

/-- The second context differs from the first only in what holding items in the release buffer may change (R246, R202). -/
def Holds (a b : Cx) : Prop :=
  ∃ buf stamp serial, b = { a with st := { a.st with buffer := buf, stamp := stamp }, sp := { a.sp with serial := serial } }

theorem Holds.refl (a : Cx) : Holds a a := ⟨_, _, _, rfl⟩

/-- Items held in the release buffer (R246, R242). -/
theorem buffer_holds {cx c : Cx} {items : List BufItem} (h : cx.buffer items = .ok c) : Holds cx c := by
  unfold Cx.buffer at h
  cases h1 : cx.bufferRoom (items.map (·.size)).sum with
  | error e => rw [h1] at h; cases h
  | ok u =>
    rw [h1] at h
    simp only [bind, Except.bind, Except.ok.injEq] at h
    subst h
    split
    · exact Holds.refl _
    · unfold Stream.hold
      exact ⟨_, _, _, rfl⟩

/-- A push (R40, R42). -/
theorem push_holds {cx c : Cx} {q : Nat} {v : Word} (h : cx.push q v = .ok c) : Holds cx c := by
  unfold Cx.push at h
  split at h
  · cases h
  · exact buffer_holds h

/-- A scalar destination (R23, R42, R92). -/
theorem writeS_ok {cx c : Cx} {n : Nat} {v : Word} (h : cx.writeS n v = .ok c) : ∃ sregs dirty buf stamp mask serial,
    c = { cx with
      st := { cx.st with vis := { cx.st.vis with sregs := sregs }, dirtyS := dirty, buffer := buf, stamp := stamp },
      sp := { cx.sp with mask := mask, serial := serial } } := by
  unfold Cx.writeS at h
  split at h
  · obtain ⟨_, _, _, rfl⟩ := push_holds h
    exact ⟨_, _, _, _, _, _, rfl⟩
  · split at h
    · cases h; exact ⟨_, _, _, _, _, _, rfl⟩
    · split at h
      all_goals cases h; exact ⟨_, _, _, _, _, _, rfl⟩

/-- An ordinary scalar destination with no port. -/
theorem writeS_plain {cx : Cx} {n : Nat} (v : Word) (h : cx.st.port n = none) (hn : n < 60) :
    cx.writeS n v = .ok { cx with st := cx.st.setSreg n v } := by
  unfold Cx.writeS
  rw [h]
  simp only
  rw [if_neg (by omega), if_pos hn]

/-- Vector writes (R43, R380). -/
def Lanes (a b : Cx) : Prop :=
  ∃ vregs dirty flags, b = { a with
    st := { a.st with vis := { a.st.vis with vregs := vregs }, dirtyV := dirty }, sp := { a.sp with fpstat := flags } }

theorem Lanes.refl (a : Cx) : Lanes a a := ⟨_, _, _, rfl⟩

theorem Lanes.trans {a b c : Cx} (h : Lanes a b) (k : Lanes b c) : Lanes a c := by
  obtain ⟨_, _, _, rfl⟩ := h
  obtain ⟨_, _, _, rfl⟩ := k
  exact ⟨_, _, _, rfl⟩

theorem setVec_lanes (cx : Cx) (i l : Nat) (v : Word) : Lanes cx (cx.setVec i l v) := ⟨_, _, _, rfl⟩
theorem raiseFlags_lanes (cx : Cx) (f : BitVec 6) : Lanes cx (cx.raiseFlags f) := ⟨_, _, _, rfl⟩

theorem setVecs_lanes (ws : List Word) : ∀ (cx : Cx) (d l : Nat), Lanes cx (cx.setVecs d l ws) := by
  induction ws with
  | nil => exact fun cx _ _ => Lanes.refl cx
  | cons v t ih => exact fun cx d l => (setVec_lanes cx d l v).trans (ih _ _ _)

/-- The results of the lanes that take part (R24, R380). -/
theorem writeLanes_lanes (cx : Cx) (d : Nat) (f : Nat → List Word × BitVec 6) : Lanes cx (cx.writeLanes d f) := by
  unfold Cx.writeLanes
  suffices h : ∀ (ls : List Nat) (c : Cx), Lanes cx c →
      Lanes cx (ls.foldl (fun c l => (c.setVecs d l (f l).1).raiseFlags (f l).2) c) from h _ _ (Lanes.refl _)
  intro ls
  induction ls with
  | nil => exact fun _ h => h
  | cons l t ih =>
    exact fun c h => ih _ ((h.trans (setVecs_lanes _ _ _ _)).trans (raiseFlags_lanes _ _))

/-! Operations in flight. -/

/-- A long-latency operation starts (R88). -/
theorem launchOp_ok {cx c : Cx} {flag : Option Nat} {o : Op} (h : cx.launchOp flag o = .ok c) : ∃ flags,
    c = { cx with s := { cx.s with nextId := cx.s.nextId + 1, ops := Tab.put cx.s.ops cx.s.nextId { o with flag := flag } },
                  st := { cx.st with flags := flags } } := by
  unfold Cx.launchOp at h
  simp only at h
  split at h
  · cases h; exact ⟨_, rfl⟩
  · split at h
    · cases h
    · cases h; exact ⟨_, rfl⟩

/-- A long-latency access whose lanes all passed, of an instruction that issues for the first time (R88). -/
theorem longAccess_first {cx : Cx} {flag : Option Nat} {o : Op} {oks : List Reached} (h : cx.sp.retryOp = none) :
    cx.longAccess flag o oks none = cx.launchOp flag { o with waiting := false } := by
  unfold Cx.longAccess
  rw [h]
  rfl

/-- The same of an engine (R266). -/
theorem engineAccess_first {cx : Cx} {flag : Option Nat} {o : Op} {oks : List Reached} (h : cx.sp.retryOp = none) :
    cx.engineAccess flag o oks [] = cx.launchOp flag { o with waiting := false } := longAccess_first (oks := oks) h

/-- No lane failed. -/
theorem laneFault_nil (oks : List Reached) : laneFault oks [] = none := rfl

end Sys2Proof.Laws
end

