-- ==== Sys2Proof/Laws/Keeps.lean ====
section
/-! SUPPORT. What the shared operations do to physical memory, said once: most leave it, and the others keep its canonical
form; and how the effect of an instruction is put together from parts that do. -/

namespace Sys2Proof.Laws

open Sys2Proof.Machine

/-! Operations that leave memory. -/

@[simp] theorem onStream_mem (s : State) (sid : Nat) (f : Stream → Stream) : (s.onStream sid f).mem = s.mem := by
  unfold State.onStream; split <;> rfl

@[simp] theorem onLaunch_mem (s : State) (l : Nat) (f : Launch → Launch) : (s.onLaunch l f).mem = s.mem := by
  unfold State.onLaunch; split <;> rfl

@[simp] theorem moveOps_mem (s : State) (sid a b : Nat) : (s.moveOps sid a b).mem = s.mem := rfl

/-- A fold of operations that leave memory leaves memory. -/
theorem foldl_mem {α : Type} (f : State → α → State) (h : ∀ s x, (f s x).mem = s.mem) (xs : List α) (s : State) :
    (xs.foldl f s).mem = s.mem := by
  induction xs generalizing s with
  | nil => rfl
  | cons x t ih => rw [List.foldl_cons, ih, h]

/-- A fold of operations that keep memory canonical keeps it. -/
theorem foldl_wf {α : Type} (f : State → α → State) (h : ∀ s x, Memory.wf s.mem → Memory.wf (f s x).mem) (xs : List α)
    (s : State) (hs : Memory.wf s.mem) : Memory.wf (xs.foldl f s).mem := by
  induction xs generalizing s with
  | nil => exact hs
  | cons x t ih => exact ih _ (h _ _ hs)

@[simp] theorem settleStream_mem (s : State) (sid : Nat) : (s.settleStream sid).mem = s.mem := by
  unfold State.settleStream; simp

@[simp] theorem settle_mem (s : State) : s.settle.mem = s.mem := by
  unfold State.settle; exact foldl_mem _ settleStream_mem _ _

@[simp] theorem recheckBarriers_mem (s : State) (sid : Nat) : (s.recheckBarriers sid).mem = s.mem := by
  unfold State.recheckBarriers
  split
  · rfl
  · split <;> simp

@[simp] theorem endTurn_mem (s : State) (sid : Nat) : (s.endTurn sid).mem = s.mem := by
  unfold State.endTurn
  split
  · rfl
  · simp only
    split <;> simp [foldl_mem _ (fun s (m : Nat × Nat) => moveOps_mem s sid m.1 m.2)]

@[simp] theorem promote_mem (s : State) (cl core part : Nat) : (s.promote cl core part).mem = s.mem := by
  unfold State.promote
  simp only
  split
  · split <;> simp
  · rfl

@[simp] theorem endStream_mem (s : State) (sid : Nat) : (s.endStream sid).mem = s.mem := by
  unfold State.endStream
  split
  · rfl
  · simp only [settle_mem, promote_mem, putStream_mem, putCluster_mem]
    split <;> simp

@[simp] theorem mergeGroups_mem (s : State) (sid : Nat) : (s.mergeGroups sid).mem = s.mem := by
  unfold State.mergeGroups
  split
  · rfl
  · simp only
    split
    · rw [recheckBarriers_mem, onStream_mem]
      refine foldl_mem _ (fun s g => foldl_mem _ (fun s k => moveOps_mem s sid k _) _ _) _ _
    · rfl

@[simp] theorem endSplit_mem (s : State) (sid k : Nat) : (s.endSplit sid k).mem = s.mem := by
  unfold State.endSplit
  split
  · rfl
  · simp only
    repeat' split
    all_goals simp

@[simp] theorem markSave_mem (s : State) (l cl : Nat) : (s.markSave l cl).mem = s.mem := by
  unfold State.markSave; split <;> rfl

@[simp] theorem voidParked_mem (s : State) (sid : Nat) : (s.voidParked sid).mem = s.mem := rfl

@[simp] theorem wakeAcquires_mem (s : State) : s.wakeAcquires.mem = s.mem := rfl

@[simp] theorem killNow_mem (s : State) (sid : Nat) : (s.killNow sid).mem = s.mem := by
  unfold State.killNow
  split
  · rfl
  · simp only
    split
    · repeat' split
      all_goals simp
    · rw [promote_mem]
      repeat' split
      all_goals simp

@[simp] theorem requestKill_mem (s : State) (sid : Nat) (k : KillKind) : (s.requestKill sid k).mem = s.mem := by
  unfold State.requestKill; simp

@[simp] theorem flush_mem (cx : Cx) : cx.flush.mem = cx.s.mem := rfl

@[simp] theorem reload_mem (cx : Cx) (s : State) : (cx.reload s).s.mem = s.mem := by
  unfold Cx.reload
  split
  · rfl
  · split <;> rfl

@[simp] theorem onState_mem (cx : Cx) (f : State → State) : (cx.onState f).s.mem = (f cx.flush).mem := by
  unfold Cx.onState; simp

@[simp] theorem finish_mem (cx : Cx) : cx.finish.mem = cx.s.mem := by
  unfold Cx.finish
  simp only
  repeat' split
  all_goals simp

@[simp] theorem linkBox_mem (s : State) (w : Who) (pa c : Nat) : (s.linkBox w pa c).mem = s.mem := rfl

@[simp] theorem note_mem (s : State) (w : Who) (wr : Bool) (pa : Nat) : (s.note w wr pa).mem = s.mem := by
  unfold State.note; split <;> simp

@[simp] theorem errorEvent_mem (cx : Cx) (e : Exn) : (cx.errorEvent e).s.mem = cx.s.mem := by
  unfold Cx.errorEvent
  simp only
  repeat' split
  all_goals simp

@[simp] theorem failReplay_mem (cx : Cx) : cx.failReplay.mem = cx.s.mem := rfl

@[simp] theorem raiseFlags_mem (cx : Cx) (f : BitVec 6) : (cx.raiseFlags f).s.mem = cx.s.mem := rfl

@[simp] theorem writePred_mem (cx : Cx) (p : Nat) (f : Nat → Bool) : (cx.writePred p f).s.mem = cx.s.mem := rfl

theorem Lanes.mem {a b : Cx} (h : Lanes a b) : b.s.mem = a.s.mem := by obtain ⟨_, _, _, rfl⟩ := h; rfl

@[simp] theorem writeLanes_mem (cx : Cx) (d : Nat) (f : Nat → List Word × BitVec 6) :
    (cx.writeLanes d f).s.mem = cx.s.mem := (writeLanes_lanes cx d f).mem

/-! Operations that write memory. -/

/-- A contribution that enters the Arcade, or its scatter log (R228, R229). -/
theorem scatter_wf (s : State) (launch wid : Nat) (c : Contrib) (h : Memory.wf s.mem) : Memory.wf (s.scatter launch wid c).mem := by
  unfold State.scatter
  simp only
  split
  · exact h
  · exact foldl_wf _ (fun s _ hs => writePhys_wf s _ _ hs) _ _ (by simpa using h)

/-- What a buffered item does when it commits (R178). -/
theorem commitItem_wf (launch sid wid cl : Nat) (replay : Bool) (s : State) (b : BufItem) (h : Memory.wf s.mem) :
    Memory.wf (State.commitItem launch sid wid cl replay s b).mem := by
  unfold State.commitItem
  split
  · refine foldl_wf _ (fun s x hs => ?_) _ _ h
    split
    · exact hs
    · exact writePlace_wf _ _ _ _ _ (by simpa using hs)
  all_goals first
    | exact h
    | (split <;> first | exact h | exact scatter_wf _ _ _ _ h | simpa using h)

/-- An entry of the host fault queue (R270). -/
theorem faultEntry_wf (s : State) (st : Stream) (sid k : Nat) (fr : FaultRec) (second : Addr) (parked : Bool)
    (h : Memory.wf s.mem) : Memory.wf (s.faultEntry st sid k fr second parked).mem := by
  unfold State.faultEntry
  simp only
  split
  · exact writePhysN_wf _ _ _ _ (writePhysN_wf _ _ _ _ (writePhysN_wf _ _ _ _ (writePhysN_wf _ _ _ _
      (writePhysN_wf _ _ _ _ (writePhysN_wf _ _ _ _ (writePhysN_wf _ _ _ _ (writePhysN_wf _ _ _ _
      (writePhysN_wf _ _ _ _ (by simpa using h)))))))))
  · exact h

/-- An error that a unit meets (R266). -/
theorem unitError_wf (s : State) (st : Stream) (sid k : Nat) (pc : Addr) (e : Exn) (h : Memory.wf s.mem) :
    Memory.wf (s.unitError st sid k pc e).mem := by
  unfold State.unitError
  simp only
  apply faultEntry_wf
  split <;> simpa using h

/-- The errors that a commit meets (R266). -/
theorem commitErrors_wf (s : State) (sid : Nat) (st : Stream) (bs : List BufItem) (h : Memory.wf s.mem) :
    Memory.wf (s.commitErrors sid st bs).mem := by
  unfold State.commitErrors
  extract_lets hit pc list u t
  have hu : Memory.wf u.mem := by
    simp only [u]
    split
    · exact h
    · exact foldl_wf _ (fun s _ hs => unitError_wf s _ _ _ _ _ hs) _ _ h
  clear_value u
  have ht : Memory.wf t.mem := by
    simp only [t]
    split
    · exact hu
    · exact unitError_wf _ _ _ _ _ _ hu
  clear_value t
  split
  · exact unitError_wf _ _ _ _ _ _ ht
  · exact ht

@[simp] theorem noteStls_mem (s : State) (sid : Nat) (st : Stream) (bs : List BufItem) (after : List (Nat × Nat × Nat)) :
    (s.noteStls sid st bs after).mem = s.mem := rfl

/-- A commit of some items (R178). -/
theorem commitItems_wf (s : State) (sid : Nat) (bs rest : List BufItem) (h : Memory.wf s.mem) :
    Memory.wf (s.commitItems sid bs rest).mem := by
  unfold State.commitItems
  split
  · exact h
  · rename_i st _
    have := foldl_wf (State.commitItem st.launch sid st.wid st.cl st.isReplay)
      (fun s b hs => commitItem_wf _ _ _ _ _ s b hs) bs _ (commitErrors_wf s sid st bs h)
    simp only
    split
    · split <;> simpa using this
    · simpa using this

/-- A commit (R178). -/
theorem commit_wf (s : State) (sid : Nat) (h : Memory.wf s.mem) : Memory.wf (s.commit sid).mem := by
  unfold State.commit
  split
  · exact h
  · exact commitItems_wf _ _ _ _ h

/-- The writes of a forked thread (R173, R179). -/
theorem engineWrite_wf (s : State) (launch sid mark : Nat) (bs : List (Place × Byte)) (h : Memory.wf s.mem) :
    Memory.wf (s.engineWrite launch sid mark bs).mem :=
  foldl_wf _ (fun s _ hs => writePlace_wf s _ _ _ _ hs) _ _ (by simpa using h)

/-- A kill without replay (R256, R262). -/
theorem killFault_wf (cx : Cx) (fr : FaultRec) (second : Option Addr) (h : Memory.wf cx.s.mem) :
    Memory.wf (cx.killFault fr second).mem := by
  unfold Cx.killFault
  exact faultEntry_wf _ _ _ _ _ _ _ h

@[simp] theorem holdAt_mem (cx : Cx) (k : Hold) : (cx.holdAt k).mem = cx.s.mem := by
  unfold Cx.holdAt; simp

/-- Taking a fault (R254-R263). -/
theorem takeFault_wf (cx : Cx) (e : Exn) (h : Memory.wf cx.s.mem) : Memory.wf (cx.takeFault e).mem := by
  have hl : Memory.wf (cx.errorEvent e).s.mem := by simpa using h
  unfold Cx.takeFault
  generalize cx.errorEvent e = c at hl
  simp only
  split
  · exact hl
  split
  · exact killFault_wf _ _ _ hl
  split
  · simpa using hl
  split
  · rw [endTurn_mem]
    exact faultEntry_wf _ _ _ _ _ _ _ hl
  split
  · exact killFault_wf _ _ _ hl
  split
  · split
    · exact hl
    · exact killFault_wf _ _ _ hl
  · rw [endTurn_mem]; exact hl

/-! The effect of an instruction. -/

/-- The context that a stop carries has canonical memory. -/
def StopOk : Stop → Prop
  | .fault _ | .hold _ => True
  | .faultOn cx _ | .after cx _ | .wait cx _ | .endRun cx => Memory.wf cx.s.mem

/-- The result of an effect keeps memory canonical. -/
def Keeps (r : Except Stop Cx) : Prop := (∀ c, r = .ok c → Memory.wf c.s.mem) ∧ ∀ e, r = .error e → StopOk e

/-- The result of a part of an effect keeps memory canonical. -/
def KeepsWith {α : Type} (r : Except Stop (α × Cx)) : Prop :=
  (∀ v c, r = .ok (v, c) → Memory.wf c.s.mem) ∧ ∀ e, r = .error e → StopOk e

/-- A part that only checks. -/
def Checks {α : Type} (r : Except Stop α) : Prop := ∀ e, r = .error e → StopOk e

theorem Keeps.ok {c : Cx} (h : Memory.wf c.s.mem) : Keeps (.ok c) :=
  ⟨fun _ e => by cases e; exact h, fun _ e => by cases e⟩

theorem Keeps.error {e : Stop} (h : StopOk e) : Keeps (.error e) :=
  ⟨fun _ k => (by cases k), fun _ k => by cases k; exact h⟩

theorem KeepsWith.ok {α : Type} {v : α} {c : Cx} (h : Memory.wf c.s.mem) : KeepsWith (.ok (v, c)) :=
  ⟨fun _ _ e => by cases e; exact h, fun _ e => by cases e⟩

theorem KeepsWith.error {α : Type} {e : Stop} (h : StopOk e) : KeepsWith (.error e : Except Stop (α × Cx)) :=
  ⟨fun _ _ k => (by cases k), fun _ k => by cases k; exact h⟩

/-- A part, and what follows it. -/
theorem Keeps.bind {x : Except Stop Cx} {f : Cx → Except Stop Cx} (h : Keeps x)
    (hf : ∀ c, Memory.wf c.s.mem → Keeps (f c)) : Keeps (x >>= f) := by
  cases x with
  | error e => exact Keeps.error (h.2 e rfl)
  | ok c => exact hf c (h.1 c rfl)

/-- A part with a value, and what follows it. -/
theorem KeepsWith.bind {α : Type} {x : Except Stop (α × Cx)} {f : α × Cx → Except Stop Cx} (h : KeepsWith x)
    (hf : ∀ v c, Memory.wf c.s.mem → Keeps (f (v, c))) : Keeps (x >>= f) := by
  cases x with
  | error e => exact Keeps.error (h.2 e rfl)
  | ok p => exact hf p.1 p.2 (h.1 p.1 p.2 rfl)

/-- A part with a value, and a part with a value that follows it. -/
theorem KeepsWith.bindWith {α β : Type} {x : Except Stop (α × Cx)} {f : α × Cx → Except Stop (β × Cx)} (h : KeepsWith x)
    (hf : ∀ v c, Memory.wf c.s.mem → KeepsWith (f (v, c))) : KeepsWith (x >>= f) := by
  cases x with
  | error e => exact KeepsWith.error (h.2 e rfl)
  | ok p => exact hf p.1 p.2 (h.1 p.1 p.2 rfl)

/-- A check, and what follows it. -/
theorem Checks.bind {α : Type} {x : Except Stop α} {f : α → Except Stop Cx} (h : Checks x) (hf : ∀ a, Keeps (f a)) :
    Keeps (x >>= f) := by
  cases x with
  | error e => exact Keeps.error (h e rfl)
  | ok a => exact hf a

/-- A check, and a part with a value that follows it. -/
theorem Checks.bindWith {α β : Type} {x : Except Stop α} {f : α → Except Stop (β × Cx)} (h : Checks x)
    (hf : ∀ a, KeepsWith (f a)) : KeepsWith (x >>= f) := by
  cases x with
  | error e => exact KeepsWith.error (h e rfl)
  | ok a => exact hf a

theorem checks_must (c : Bool) (f : FaultCode) : Checks (must c f) := by
  intro e h
  cases c
  · cases h; trivial
  · cases h

theorem checks_stopAt {α : Type} (f : FaultCode) : Checks (stopAt f : Except Stop α) := by
  intro e h; cases h; trivial

theorem checks_stop {α : Type} (cx : Cx) (x : Exn) (hc : Memory.wf cx.s.mem) : Checks (cx.stop x : Except Stop α) := by
  intro e h; cases h; exact hc

theorem checks_need (cx : Cx) (c : Bool) (f : FaultCode) (hc : Memory.wf cx.s.mem) : Checks (cx.need c f) := by
  intro e h
  cases c
  · cases h; exact hc
  · cases h

/-- A stop, whatever follows it. -/
theorem stop_bind {α β : Type} (cx : Cx) (x : Exn) (f : α → Except Stop (β × Cx)) (hc : Memory.wf cx.s.mem) :
    KeepsWith (cx.stop x >>= f) := KeepsWith.error hc

/-- A check that stops only with the context. -/
theorem checks_unless (cx : Cx) (x : Exn) (p : Prop) [Decidable p] (hc : Memory.wf cx.s.mem) :
    Checks (if p then .ok () else cx.stop x : Except Stop Unit) := by
  split
  · intro e h; cases h
  · exact checks_stop _ _ hc

theorem checks_staticLanes (cx : Cx) (n : Nat) (w : Bool) (deny : List Nat) (as : List (Nat × Addr))
    (hc : Memory.wf cx.s.mem) : Checks (cx.staticLanes n w deny as) := by
  intro e h
  unfold Cx.staticLanes at h
  simp only at h
  split at h
  · cases h
  · cases h; exact hc

theorem checks_flagRoom (cx : Cx) (f : Option Nat) : Checks (cx.flagRoom f) := by
  intro e h
  unfold Cx.flagRoom at h
  repeat' split at h
  all_goals cases h
  trivial

theorem checks_bufferRoom (cx : Cx) (n : Nat) (hc : Memory.wf cx.s.mem) : Checks (cx.bufferRoom n) := checks_need _ _ _ hc

theorem keeps_buffer (cx : Cx) (items : List BufItem) (h : Memory.wf cx.s.mem) : Keeps (cx.buffer items) := by
  refine (checks_bufferRoom cx _ h).bind fun _ => Keeps.ok ?_
  split <;> exact h

theorem KeepsWith.map {α β : Type} {x : Except Stop (α × Cx)} {f : α → β} (h : KeepsWith x) :
    KeepsWith (x.map fun r => (f r.1, r.2)) := by
  cases x with
  | error e => exact KeepsWith.error (h.2 e rfl)
  | ok p => exact KeepsWith.ok (h.1 p.1 p.2 rfl)

theorem keepsWith_takeEntry (cx : Cx) (k : Nat) (h : Memory.wf cx.s.mem) : KeepsWith (cx.takeEntry k) := by
  unfold Cx.takeEntry
  repeat' split
  · exact KeepsWith.ok h
  · exact KeepsWith.error h
  · exact KeepsWith.error h

theorem keepsWith_takeLog (cx : Cx) (k : Nat) (h : Memory.wf cx.s.mem) : KeepsWith (cx.takeLog k) := by
  unfold Cx.takeLog
  exact (keepsWith_takeEntry cx k h).map (f := fun e => e.value)

/-- A part after a commit that its faults leave standing (R178). -/
theorem keeps_afterCommit {cx : Cx} {x : Except Stop Cx} (hc : Memory.wf cx.s.mem) (h : Keeps x) : Keeps (afterCommit cx x) := by
  unfold afterCommit
  split
  · exact h
  · split
    · exact Keeps.error hc
    · rename_i c x; exact Keeps.error (h.2 (.faultOn c x) rfl : Memory.wf c.s.mem)
    · exact Keeps.error (h.2 _ rfl)
    · exact h

@[simp] theorem acquire_mem (cx : Cx) (ps : List Place) : (cx.acquire ps).s.mem = cx.s.mem := by
  unfold Cx.acquire
  simp only
  split <;> rfl

/-- A pop (R40). -/
theorem keepsWith_popQueue (cx : Cx) (q : Nat) (h : Memory.wf cx.s.mem) : KeepsWith (cx.popQueue q) := by
  unfold Cx.popQueue
  split
  · exact (keepsWith_takeLog cx 1 h).map
  · split
    · exact KeepsWith.ok h
    · simp only
      split
      · exact KeepsWith.error trivial
      · exact KeepsWith.ok (by simpa using h)

/-- The read of a port (R40, R164). -/
theorem keepsWith_pop (cx : Cx) (q : Nat) (h : Memory.wf cx.s.mem) : KeepsWith (cx.pop q) := by
  unfold Cx.pop
  split
  · exact keepsWith_popQueue cx q h
  · split
    · exact KeepsWith.ok h
    · exact keepsWith_popQueue cx q h

theorem keepsWith_readS (cx : Cx) (n : Nat) (h : Memory.wf cx.s.mem) : KeepsWith (cx.readS n) := by
  unfold Cx.readS
  split
  · exact keepsWith_pop cx _ h
  · exact KeepsWith.ok h

theorem keepsWith_source (cx : Cx) (k : BitVec 7) (h : Memory.wf cx.s.mem) : KeepsWith (cx.source k) := by
  unfold Cx.source
  split
  · exact KeepsWith.ok h
  · exact keepsWith_readS cx _ h

theorem keeps_writeS (cx : Cx) (n : Nat) (v : Word) (h : Memory.wf cx.s.mem) : Keeps (cx.writeS n v) := by
  unfold Cx.writeS
  split
  · unfold Cx.push
    split
    · exact Keeps.error trivial
    · exact keeps_buffer _ _ h
  · repeat' split
    all_goals exact Keeps.ok h

theorem keeps_writeS64 (cx : Cx) (n : Nat) (v : BitVec 64) (h : Memory.wf cx.s.mem) : Keeps (cx.writeS64 n v) :=
  (keeps_writeS cx n _ h).bind fun c hc => keeps_writeS c _ _ hc

/-- A commit point (R178). -/
theorem keeps_commit (cx : Cx) (h : Memory.wf cx.s.mem) : Keeps cx.commit := by
  unfold Cx.commit
  repeat' split
  all_goals first
    | exact Keeps.error trivial
    | skip
  refine Keeps.ok ?_
  simp only [onState_mem, onStream_mem]
  exact commit_wf _ _ h

theorem keepsWith_readAt (cx : Cx) (x : Addr) (p : Place) (n : Nat) (h : Memory.wf cx.s.mem) :
    KeepsWith (cx.readAt x p n) := by
  unfold Cx.readAt
  split
  · cases e : cx.takeLog 0 with
    | error st => exact KeepsWith.error ((keepsWith_takeLog cx 0 h).2 _ e)
    | ok q => exact KeepsWith.ok ((keepsWith_takeLog cx 0 h).1 q.1 q.2 e)
  · exact KeepsWith.ok h

theorem keepsWith_readAll (n : Nat) : ∀ (rs : List Reached) (cx : Cx), Memory.wf cx.s.mem → KeepsWith (cx.readAll n rs)
  | [], _, h => KeepsWith.ok h
  | r :: t, cx, h => by
    unfold Cx.readAll
    exact (keepsWith_readAt cx _ _ _ h).bindWith fun v c hc =>
      (keepsWith_readAll n t c hc).bindWith fun vs c hc => KeepsWith.ok hc

theorem keeps_mapWs (cx : Cx) (as : List Addr) (h : Memory.wf cx.s.mem) : Keeps (cx.mapWs as) := by
  unfold Cx.mapWs
  simp only
  split
  · exact Keeps.error trivial
  · refine Keeps.ok ?_
    simpa using h

theorem keeps_launchOp (cx : Cx) (f : Option Nat) (o : Op) (h : Memory.wf cx.s.mem) : Keeps (cx.launchOp f o) := by
  unfold Cx.launchOp
  simp only
  repeat' split
  all_goals first
    | exact Keeps.error trivial
    | exact Keeps.ok h

theorem keeps_faultAfter (cx : Cx) (oks : List Reached) (err : Option Exn) (h : Memory.wf cx.s.mem) :
    Keeps (cx.faultAfter oks err) := by
  unfold Cx.faultAfter
  repeat' split
  all_goals first
    | exact Keeps.ok h
    | exact Keeps.error trivial
    | exact Keeps.error h

/-- A long-latency access (R88, R90, R164). -/
theorem keeps_longAccess (cx : Cx) (f : Option Nat) (o : Op) (oks : List Reached) (err : Option Exn)
    (h : Memory.wf cx.s.mem) : Keeps (cx.longAccess f o oks err) := by
  unfold Cx.longAccess
  extract_lets prior o done put
  have hp : ∀ (o : Op), Keeps (put o) := by
    intro o
    simp only [put]
    cases prior with
    | some p => exact Keeps.ok h
    | none => exact keeps_launchOp cx f o h
  clear_value put o prior done
  split
  · exact hp _
  split
  · exact Keeps.error trivial
  split
  · exact (hp _).bind fun c hc => Keeps.error hc
  split
  · exact Keeps.error h
  · exact (hp _).bind fun c hc => Keeps.error hc

/-- A long-latency operation of an engine (R266). -/
theorem keeps_engineAccess (cx : Cx) (f : Option Nat) (o : Op) (oks : List Reached) (errs : List (Nat × Exn))
    (h : Memory.wf cx.s.mem) : Keeps (cx.engineAccess f o oks errs) := by
  unfold Cx.engineAccess
  simp only
  split
  · exact keeps_longAccess _ _ _ _ _ h
  · exact keeps_longAccess _ _ _ _ _ h

theorem stopped_mem (cx r : Cx) (e : Exn) : (cx.stopped r e).s.mem = r.s.mem := by
  unfold Cx.stopped; split <;> rfl

/-- What follows a stop (R254-R263, R407). -/
theorem onStop_wf (cx : Cx) (st : Stop) (h : Memory.wf cx.s.mem) (hs : StopOk st) : Memory.wf (cx.onStop st).mem := by
  unfold Cx.onStop
  split
  · exact takeFault_wf cx _ h
  · split
    · simpa using h
    split
    · exact takeFault_wf _ _ (by rw [stopped_mem]; exact hs)
    · exact takeFault_wf _ _ h
  · rename_i r e
    have := takeFault_wf (cx.stopped r e) e (by rw [stopped_mem]; exact hs)
    simp only
    split
    · rw [onStream_mem]; exact this
    · exact this
  · simp only [holdAt_mem]
    split
    · unfold Cx.logHold
      exact faultEntry_wf _ _ _ _ _ _ _ h
    · exact h
  · simp only [endTurn_mem]
    split
    · rw [onStream_mem]; exact hs
    · exact hs
  · rw [endStream_mem]; exact hs

theorem keeps_check (cx : Cx) (d : Desc) (h : Memory.wf cx.s.mem) : Keeps (cx.check d) := by
  unfold Cx.check
  exact (checks_must _ _).bind fun _ => (checks_must _ _).bind fun _ => (checks_must _ _).bind fun _ =>
    (checks_must _ _).bind fun _ => (checks_must _ _).bind fun _ => (checks_must _ _).bind fun _ =>
    (checks_must _ _).bind fun _ => Keeps.ok h

/-- The issue of an instruction whose effect keeps memory canonical keeps it. -/
theorem issue_wf {s t : State} {d : Desc} {body : Cx → Except Stop Cx} (h : Memory.wf s.mem)
    (hb : ∀ cx, Memory.wf cx.s.mem → Keeps (body cx)) (ht : issue s d body = .next t) : Memory.wf t.mem := by
  unfold issue at ht
  split at ht
  · cases ht
  · rename_i cx hl
    have hc : Memory.wf cx.s.mem := by rw [(load_stream hl).2]; exact h
    split at ht
    · rename_i e he
      cases ht
      exact onStop_wf _ _ hc ((keeps_check cx d hc).2 _ he)
    · rename_i c he
      have hk := (keeps_check cx d hc).1 _ he
      split at ht
      · cases ht
        exact takeFault_wf _ _ hk
      · have kb := hb c hk
        split at ht
        · rename_i e he2
          cases ht
          exact onStop_wf _ _ hk (kb.2 _ he2)
        · rename_i c2 he2
          cases ht
          rw [finish_mem]
          exact kb.1 _ he2

/-! The parts that reach and read memory, and the shared forms of instructions. -/

/-- The slot of a handle (R166). -/
theorem keepsWith_handle (cx : Cx) (w : Word) (h : Memory.wf cx.s.mem) : KeepsWith (cx.handle w) := by
  refine ⟨fun s c e => by rw [(handle_reads e).mem]; exact h, ?_⟩
  unfold Cx.handle
  refine (Checks.bindWith (β := Shape) (checks_need cx _ _ h) fun _ => ?_).2
  simp only
  split
  · exact stop_bind _ _ _ h
  split
  · exact stop_bind _ _ _ h
  have ht := translate_touches cx.s (cx.s.whoOf cx.st) (cx.s.shapeBase + BitVec.ofNat 64 (64 * (w.toNat % 2 ^ 20))) .read false
  split
  · rename_i h1
    rw [h1] at ht
    exact KeepsWith.error (by show Memory.wf _; rw [ht.mem]; exact h)
  · rename_i policy s h1
    rw [h1] at ht
    have hs : Memory.wf s.mem := by rw [ht.mem]; exact h
    split
    · rename_i c h2
      exact KeepsWith.error (by show Memory.wf _; rw [(touch_ok h2).mem]; exact hs)
    · rename_i c h2
      have hc : Memory.wf c.s.mem := by rw [(touch_ok h2).mem]; exact hs
      refine (checks_need _ _ _ hc).bindWith fun _ => ?_
      split
      · exact KeepsWith.error hc
      · exact KeepsWith.ok hc

theorem keepsWith_texture (cx : Cx) (w : Word) (h : Memory.wf cx.s.mem) : KeepsWith (cx.texture w) :=
  (keepsWith_handle cx w h).bindWith fun _ _ hc => (checks_need _ _ _ hc).bindWith fun _ => KeepsWith.ok hc

theorem keepsWith_readList (n : Nat) : ∀ (ps : List (Addr × Place)) (cx : Cx), Memory.wf cx.s.mem →
    KeepsWith (cx.readList n ps)
  | [], _, h => KeepsWith.ok h
  | p :: t, cx, h => by
    unfold Cx.readList
    exact (keepsWith_readAt cx _ _ _ h).bindWith fun _ c hc =>
      (keepsWith_readList n t c hc).bindWith fun _ _ hc => KeepsWith.ok hc

theorem keepsWith_readLists (n : Nat) : ∀ (ps : List (Nat × List (Addr × Place))) (cx : Cx), Memory.wf cx.s.mem →
    KeepsWith (cx.readLists n ps)
  | [], _, h => KeepsWith.ok h
  | p :: t, cx, h => by
    unfold Cx.readLists
    exact (keepsWith_readList n p.2 cx h).bindWith fun _ c hc =>
      (keepsWith_readLists n t c hc).bindWith fun _ _ hc => KeepsWith.ok hc

theorem keepsWith_readWords (n : Nat) : ∀ (cx : Cx) (x : Addr) (p : Place), Memory.wf cx.s.mem →
    KeepsWith (cx.readWords x p n) := by
  induction n with
  | zero => exact fun _ _ _ h => KeepsWith.ok h
  | succ n ih =>
    intro cx x p h
    unfold Cx.readWords
    exact (keepsWith_readAt cx _ _ _ h).bindWith fun _ c hc => (ih c _ _ hc).bindWith fun _ _ hc => KeepsWith.ok hc

theorem keepsWith_splatList (cx : Cx) (off : Nat) (h : Memory.wf cx.s.mem) : KeepsWith (cx.splatList off) := by
  unfold Cx.splatList
  simp only
  refine (checks_need _ _ _ h).bindWith fun _ => (checks_unless _ _ _ h).bindWith fun _ => ?_
  have go : ∀ (x : Except Stop (List Nat × Cx)) (f : List Nat × Cx → Except Stop (SplatList × Cx)), KeepsWith x →
      (∀ v c, Memory.wf c.s.mem → KeepsWith (f (v, c))) → KeepsWith (x >>= f) := fun _ _ hx hf => hx.bindWith hf
  split
  · exact stop_bind _ _ _ h
  · refine go _ _ (keepsWith_readWords 4 cx _ _ h) fun _ _ hc => (checks_need _ _ _ hc).bindWith fun _ =>
      (checks_unless _ _ _ hc).bindWith fun _ => (checks_unless _ _ _ hc).bindWith fun _ => KeepsWith.ok hc

theorem keepsWith_splatRecs (n : Nat) : ∀ (cx : Cx) (base : Nat), Memory.wf cx.s.mem →
    KeepsWith (cx.splatRecs base n) := by
  induction n with
  | zero => exact fun _ _ h => KeepsWith.ok h
  | succ n ih =>
    intro cx base h
    unfold Cx.splatRecs
    exact (keepsWith_readWords 6 cx _ _ h).bindWith fun _ c hc => (ih c _ hc).bindWith fun _ _ hc => KeepsWith.ok hc

theorem keepsWith_stopWords (l : SplatList) (px : Nat → Nat) : ∀ (ls : List Nat) (cx : Cx), Memory.wf cx.s.mem →
    KeepsWith (cx.stopWords l px ls)
  | [], _, h => KeepsWith.ok h
  | p :: t, cx, h => by
    unfold Cx.stopWords
    exact (keepsWith_readAt cx _ _ _ h).bindWith fun _ c hc =>
      (keepsWith_stopWords l px t c hc).bindWith fun _ _ hc => KeepsWith.ok hc

/-- A load (R332, R333, R363). -/
theorem keeps_loadLanes (cx : Cx) (flag : Option Nat) (d a : BitVec 7) (off : Int) (n : Nat) (once : Bool)
    (deny : List Nat) (o : Orient) (acq : Option Nat) (h : Memory.wf cx.s.mem) :
    Keeps (cx.loadLanes flag d a off n once deny o acq) := by
  unfold Cx.loadLanes
  refine (checks_staticLanes _ _ _ _ _ h).bind fun _ => (checks_flagRoom _ _).bind fun _ =>
    (keeps_mapWs cx _ h).bind fun c hc => ?_
  have hr : Memory.wf (c.reachAll .read true n o (cx.laneAddrs once a off)).1.s.mem := by
    rw [(reachAll_reads c .read true n o (cx.laneAddrs once a off)).mem]; exact hc
  simp only
  split
  · exact Keeps.error trivial
  · refine (keepsWith_readAll n _ _ hr).bind fun _ c hc => keeps_longAccess _ _ _ _ _ ?_
    split
    · simpa using hc
    · exact hc

/-- A store (R363, R368, R369). -/
theorem keeps_storeLanes (cx : Cx) (a : BitVec 7) (off : Int) (n : Nat) (once : Bool) (deny : List Nat)
    (rel : Option Nat) (data : Nat → Nat) (h : Memory.wf cx.s.mem) :
    Keeps (cx.storeLanes a off n once deny rel data) := by
  unfold Cx.storeLanes
  refine (checks_staticLanes _ _ _ _ _ h).bind fun _ => (checks_bufferRoom _ _ h).bind fun _ => ?_
  have hr : Memory.wf (cx.reachAll .write false n .row (cx.laneAddrs once a off)).1.s.mem := by
    rw [(reachAll_reads cx .write false n .row (cx.laneAddrs once a off)).mem]; exact h
  exact (keeps_buffer _ _ hr).bind fun _ hc => keeps_faultAfter _ _ _ hc

/-- The contributions of a lane, formed or not (R225, R230). -/
theorem formLane_mem (l : Nat) : ∀ (es : Emits) (j : Nat) (cx : Cx),
    match cx.formLane l j es with
    | .ok r => r.2.2.s.mem = cx.s.mem
    | .error e => e.2.s.mem = cx.s.mem
  | [], _, _ => rfl
  | e :: t, j, cx => by
    have hr := reach_reads cx .write false 4 .row l e.1
    unfold Cx.formLane
    generalize cx.reach .write false 4 .row l e.1 = r at hr
    obtain ⟨r | p, c⟩ := r
    · exact hr.mem
    · have ih := formLane_mem l t (j + 1) c
      simp only
      generalize c.formLane l (j + 1) t = q at ih
      cases q with
      | error x => exact ih.trans hr.mem
      | ok x => exact ih.trans hr.mem

theorem formLanes_mem (cx : Cx) (es : List (Nat × Emits)) : (cx.formLanes es).1.s.mem = cx.s.mem := by
  unfold Cx.formLanes
  generalize hr : (cx, ([] : List BufItem), ([] : List Nat), ([] : List (Nat × Exn))) = r
  have hm : r.1.s.mem = cx.s.mem := by subst hr; rfl
  clear hr
  induction es generalizing r with
  | nil => exact hm
  | cons e t ih =>
    rw [List.foldl_cons]
    apply ih
    have := formLane_mem e.1 e.2 0 r.1
    generalize r.1.formLane e.1 0 e.2 = q at this
    cases q with
    | error x => exact this.trans hm
    | ok x => exact this.trans hm

theorem checks_checkEmits (cx : Cx) (es : List (Nat × Emits)) (h : Memory.wf cx.s.mem) : Checks (cx.checkEmits es) := by
  intro e k
  unfold Cx.checkEmits at k
  cases h1 : cx.staticLanes 4 true [1, 2] (es.flatMap fun e => e.2.map fun c => (e.1, c.1)) with
  | error x => simp only [bind, Except.bind, h1] at k; cases k; exact checks_staticLanes _ _ _ _ _ h _ h1
  | ok _ => simp only [bind, Except.bind, h1] at k; exact checks_need _ _ _ h _ k

theorem keeps_reopen (cx : Cx) (h : Memory.wf cx.s.mem) : Keeps cx.reopen := by
  unfold Cx.reopen
  simp only
  repeat' split
  all_goals first
    | exact Keeps.error trivial
    | skip
  refine Keeps.ok ?_
  simp only [onState_mem, onStream_mem]
  exact commitItems_wf _ _ _ _ h

theorem keeps_openRegion (cx : Cx) (h : Memory.wf cx.s.mem) : Keeps cx.openRegion := by
  unfold Cx.openRegion
  split
  · exact Keeps.ok h
  · split
    · exact keeps_reopen cx h
    · exact keeps_commit cx h

theorem logHold_wf (cx : Cx) (h : Memory.wf cx.s.mem) : Memory.wf cx.logHold.s.mem := by
  unfold Cx.logHold
  exact faultEntry_wf _ _ _ _ _ _ _ h

/-- A short adjoint (R230, R350). -/
theorem keeps_shortAdjoint (cx : Cx) (es : List (Nat × Emits)) (after : Cx → List Nat → Cx) (h : Memory.wf cx.s.mem)
    (ha : ∀ c g, (after c g).s.mem = c.s.mem) : Keeps (cx.shortAdjoint es after) := by
  unfold Cx.shortAdjoint
  refine (checks_checkEmits _ _ h).bind fun _ => (keeps_openRegion cx h).bind fun c hc => keeps_afterCommit hc ?_
  have hm : Memory.wf (c.formLanes es).1.s.mem := by rw [formLanes_mem]; exact hc
  refine (keeps_buffer _ _ hm).bind fun c2 hc2 => ?_
  refine (keeps_faultAfter _ _ _ (by simpa [ha] using hc2)).bind fun c3 hc3 => ?_
  split
  · exact Keeps.ok hc3
  · split
    · exact Keeps.error (logHold_wf c hc)
    · exact keeps_commit _ hc3

/-- A long adjoint (R230, R231). -/
theorem keeps_longAdjoint (cx : Cx) (flag : Option Nat) (kind : OpKind) (es : List (Nat × Emits))
    (errs : List (Nat × Exn)) (h : Memory.wf cx.s.mem) : Keeps (cx.longAdjoint flag kind es errs) := by
  unfold Cx.longAdjoint
  have hm := formLanes_mem cx es
  generalize cx.formLanes es = r at hm
  obtain ⟨c, items, good, more⟩ := r
  have hc : Memory.wf c.s.mem := by rw [hm]; exact h
  simp only
  split <;> exact keeps_engineAccess _ _ _ _ _ hc

/-- The per-element forms (R380, R382, R390). -/
theorem elemOp_wf {s t : State} {d a b : BitVec 7} {readD : Bool} {ok : Ty → Bool}
    {f : Ty → Rounding → Nat → Nat → Nat → Flagged} (h : Memory.wf s.mem)
    (ht : elemOp s d a b readD ok f = .next t) : Memory.wf t.mem := by
  unfold elemOp at ht
  refine issue_wf h (fun cx hc => ?_) ht
  exact (checks_must _ _).bind fun _ => (keepsWith_source cx a hc).bind fun _ c hc =>
    (keepsWith_source c b hc).bind fun _ c hc => Keeps.ok (by simpa using hc)

theorem elemOp1_wf {s t : State} {d a : BitVec 7} {ok : Ty → Bool} {f : Ty → Rounding → Nat → Flagged}
    (h : Memory.wf s.mem) (ht : elemOp1 s d a ok f = .next t) : Memory.wf t.mem := by
  unfold elemOp1 at ht
  refine issue_wf h (fun cx hc => ?_) ht
  exact (checks_must _ _).bind fun _ => (keepsWith_source cx a hc).bind fun _ c hc => Keeps.ok (by simpa using hc)

theorem rawOp_wf {s t : State} {d a b : BitVec 7} {readD : Bool} {f : Word → Word → Word → Word} (h : Memory.wf s.mem)
    (ht : rawOp s d a b readD f = .next t) : Memory.wf t.mem := by
  unfold rawOp at ht
  refine issue_wf h (fun cx hc => ?_) ht
  exact (keepsWith_source cx a hc).bind fun _ c hc =>
    (keepsWith_source c b hc).bind fun _ c hc => Keeps.ok (by simpa using hc)

/-- A fold of contexts that leaves memory. -/
theorem foldl_cx_mem {α : Type} (f : Cx → α → Cx) (h : ∀ c x, (f c x).s.mem = c.s.mem) (xs : List α) (c : Cx) :
    (xs.foldl f c).s.mem = c.s.mem := by
  induction xs generalizing c with
  | nil => rfl
  | cons x t ih => rw [List.foldl_cons, ih, h]

theorem compareOp_wf {s t : State} {p : BitVec 3} {a b : BitVec 7} {legal : Bool} {ok : Ty → Bool}
    {f : Ty → Bool → Nat → Nat → Bool × BitVec 6} (h : Memory.wf s.mem)
    (ht : compareOp s p a b legal ok f = .next t) : Memory.wf t.mem := by
  unfold compareOp at ht
  refine issue_wf h (fun cx hc => ?_) ht
  refine (checks_must _ _).bind fun _ => (keepsWith_source cx a hc).bind fun _ c hc =>
    (keepsWith_source c b hc).bind fun _ c hc => Keeps.ok ?_
  rw [writePred_mem, foldl_cx_mem _ (fun c x => foldl_cx_mem _ (fun c r => raiseFlags_mem c _) _ _)]
  exact hc

end Sys2Proof.Laws
end

