-- ==== Sys2Proof/Laws/PerInstr.lean ====
section
/-! SUPPORT. Decoding undoes encoding, one lemma per instruction: every operand at every value, for every row that has a
word. -/

namespace Sys2Proof.Laws

/-- A field is what stands at its weight. -/
theorem fld_of {w n q : Nat} {x : BitVec w} (h : n / q % 2 ^ w = x.toNat) : fld n q w = x := by
  apply BitVec.eq_of_toNat_eq; simpa [fld] using h

/-- A row accepts a word whose fixed bits are right. -/
theorem want_of {c : Bool} {i : Instr} (h : c = true) : want c i = some i := by rw [want, if_pos h]

/-- Fixed bits that are right. -/
theorem fixedAt_of {n q m v : Nat} (h : n / q % m = v) : fixedAt n q m v = true := beq_iff_eq.mpr h

/-- Decoding an encoded instruction, from its bits. -/
theorem decode_of_bits {i : Instr} {m : Nat} (he : encodeNat i = m)
    (h : ∀ n, n = m % 2 ^ 32 → decodeNat n = some i) : decodeWord (encode i) = some i := by
  rw [decodeWord, encode, BitVec.toNat_ofNat, he]; exact h _ rfl

/-- The words of class 0x0. -/
theorem decodeNat_0 {n : Nat} (h : n / 268435456 % 16 = 0) : decodeNat n = decode0 n := by
  unfold decodeNat; rw [h]; rfl

/-- The words of class 0x1. -/
theorem decodeNat_1 {n : Nat} (h : n / 268435456 % 16 = 1) : decodeNat n = decode1 n := by
  unfold decodeNat; rw [h]; rfl

/-- The words of class 0x2. -/
theorem decodeNat_2 {n : Nat} (h : n / 268435456 % 16 = 2) : decodeNat n = decode2 n := by
  unfold decodeNat; rw [h]; rfl

/-- The words of class 0x3. -/
theorem decodeNat_3 {n : Nat} (h : n / 268435456 % 16 = 3) : decodeNat n = decode3 n := by
  unfold decodeNat; rw [h]; rfl

/-- The words of class 0x4. -/
theorem decodeNat_4 {n : Nat} (h : n / 268435456 % 16 = 4) : decodeNat n = decode4 n := by
  unfold decodeNat; rw [h]; rfl

/-- The words of class 0x5. -/
theorem decodeNat_5 {n : Nat} (h : n / 268435456 % 16 = 5) : decodeNat n = decode5 n := by
  unfold decodeNat; rw [h]; rfl

/-- The words of class 0x6. -/
theorem decodeNat_6 {n : Nat} (h : n / 268435456 % 16 = 6) : decodeNat n = decode6 n := by
  unfold decodeNat; rw [h]; rfl

/-- The words of class 0x7. -/
theorem decodeNat_7 {n : Nat} (h : n / 268435456 % 16 = 7) : decodeNat n = decode7 n := by
  unfold decodeNat; rw [h]; rfl

/-- The words of class 0x8. -/
theorem decodeNat_8 {n : Nat} (h : n / 268435456 % 16 = 8) : decodeNat n = decode8 n := by
  unfold decodeNat; rw [h]; rfl

/-- The words of class 0x9. -/
theorem decodeNat_9 {n : Nat} (h : n / 268435456 % 16 = 9) : decodeNat n = decode9 n := by
  unfold decodeNat; rw [h]; rfl

/-- The words of class 0xA. -/
theorem decodeNat_A {n : Nat} (h : n / 268435456 % 16 = 10) : decodeNat n = decodeA n := by
  unfold decodeNat; rw [h]; rfl

/-- The words of class 0xB. -/
theorem decodeNat_B {n : Nat} (h : n / 268435456 % 16 = 11) : decodeNat n = decodeB n := by
  unfold decodeNat; rw [h]; rfl

/-- The bits of BRA. -/
theorem bits_bra {k x0 n : Nat} (hk : k < 1024) (h0 : x0 < 4194304)
    (hn : n = (k * 4194304 + x0) % 2 ^ 32) :
    n / 4194304 % 64 = k % 64 ∧ n / 268435456 % 16 = k / 64 ∧ n / 1 % 4194304 = x0 := by
  refine ⟨?_, ?_, ?_⟩ <;> omega

/-- The bits of the rows laid out as BRS. -/
theorem bits_brs {k x0 x1 n : Nat} (hk : k < 1024) (h0 : x0 < 64) (h1 : x1 < 65536)
    (hn : n = (k * 4194304 + x0 * 65536 + x1) % 2 ^ 32) :
    n / 4194304 % 64 = k % 64 ∧ n / 268435456 % 16 = k / 64 ∧ n / 65536 % 64 = x0 ∧ n / 1 % 65536 = x1 := by
  refine ⟨?_, ?_, ?_, ?_⟩ <;> omega

/-- The bits of BRV. -/
theorem bits_brv {k x0 x1 x2 n : Nat} (hk : k < 1024) (h0 : x0 < 8) (h1 : x1 < 2) (h2 : x2 < 262144)
    (hn : n = (k * 4194304 + x0 * 524288 + x1 * 262144 + x2) % 2 ^ 32) :
    n / 4194304 % 64 = k % 64 ∧ n / 268435456 % 16 = k / 64 ∧ n / 524288 % 8 = x0 ∧ n / 262144 % 2 = x1 ∧ n / 1 % 262144 = x2 := by
  refine ⟨?_, ?_, ?_, ?_, ?_⟩ <;> omega

/-- The bits of CALL. -/
theorem bits_call {k x0 x1 n : Nat} (hk : k < 1024) (h0 : x0 < 8) (h1 : x1 < 524288)
    (hn : n = (k * 4194304 + x0 * 524288 + x1) % 2 ^ 32) :
    n / 4194304 % 64 = k % 64 ∧ n / 268435456 % 16 = k / 64 ∧ n / 524288 % 8 = x0 ∧ n / 1 % 524288 = x1 := by
  refine ⟨?_, ?_, ?_, ?_⟩ <;> omega

/-- The bits of the rows laid out as ENDSPLIT. -/
theorem bits_endSplit {k n : Nat} (hk : k < 1024) 
    (hn : n = (k * 4194304) % 2 ^ 32) :
    n / 4194304 % 64 = k % 64 ∧ n / 268435456 % 16 = k / 64 ∧ n / 1 % 4194304 = 0 := by
  refine ⟨?_, ?_, ?_⟩ <;> omega

/-- The bits of MODE. -/
theorem bits_mode {k x0 x1 x2 x3 x4 x5 x6 n : Nat} (hk : k < 1024) (h0 : x0 < 64) (h1 : x1 < 8) (h2 : x2 < 2) (h3 : x3 < 8) (h4 : x4 < 4) (h5 : x5 < 2) (h6 : x6 < 64)
    (hn : n = (k * 4194304 + x0 * 65536 + x1 * 8192 + x2 * 4096 + x3 * 512 + x4 * 128 + x5 * 64 + x6) % 2 ^ 32) :
    n / 4194304 % 64 = k % 64 ∧ n / 268435456 % 16 = k / 64 ∧ n / 65536 % 64 = x0 ∧ n / 8192 % 8 = x1 ∧ n / 4096 % 2 = x2 ∧ n / 512 % 8 = x3 ∧ n / 128 % 4 = x4 ∧ n / 64 % 2 = x5 ∧ n / 1 % 64 = x6 := by
  refine ⟨?_, ?_, ?_, ?_, ?_, ?_, ?_, ?_, ?_⟩ <;> omega

/-- The bits of WAITF. -/
theorem bits_waitf {k x0 n : Nat} (hk : k < 1024) (h0 : x0 < 64)
    (hn : n = (k * 4194304 + x0 * 65536) % 2 ^ 32) :
    n / 4194304 % 64 = k % 64 ∧ n / 268435456 % 16 = k / 64 ∧ n / 65536 % 64 = x0 ∧ n / 1 % 65536 = 0 := by
  refine ⟨?_, ?_, ?_, ?_⟩ <;> omega

/-- The bits of CLAUSE. -/
theorem bits_clause {k x0 x1 x2 x3 x4 x5 n : Nat} (hk : k = 1008) (h0 : x0 < 4096) (h1 : x1 < 2) (h2 : x2 < 16) (h3 : x3 < 2) (h4 : x4 < 16) (h5 : x5 < 16)
    (hn : n = (k * 4194304 + x0 * 16384 + x1 * 8192 + x2 * 512 + x3 * 256 + x4 * 16 + x5) % 2 ^ 32) :
    n / 4294967296 = 0 ∧ n / 268435456 % 16 = 15 ∧ n / 16384 % 4096 = x0 ∧ n / 8192 % 2 = x1 ∧ n / 512 % 16 = x2 ∧ n / 256 % 2 = x3 ∧ n / 16 % 16 = x4 ∧ n / 1 % 16 = x5 ∧ n / 67108864 % 4 = 3 := by
  refine ⟨?_, ?_, ?_, ?_, ?_, ?_, ?_, ?_, ?_⟩ <;> omega

/-- The bits of the rows laid out as SADD. -/
theorem bits_sadd {k x0 x1 x2 n : Nat} (hk : k < 1024) (h0 : x0 < 128) (h1 : x1 < 128) (h2 : x2 < 128)
    (hn : n = (k * 4194304 + x0 * 32768 + x1 * 256 + x2 * 2) % 2 ^ 32) :
    n / 4194304 % 64 = k % 64 ∧ n / 268435456 % 16 = k / 64 ∧ n / 32768 % 128 = x0 ∧ n / 256 % 128 = x1 ∧ n / 2 % 128 = x2 ∧ n / 1 % 2 = 0 := by
  refine ⟨?_, ?_, ?_, ?_, ?_, ?_⟩ <;> omega

/-- The bits of the rows laid out as SBFX. -/
theorem bits_sbfx {k x0 x1 x2 x3 n : Nat} (hk : k < 1024) (h0 : x0 < 128) (h1 : x1 < 128) (h2 : x2 < 128) (h3 : x3 < 2)
    (hn : n = (k * 4194304 + x0 * 32768 + x1 * 256 + x2 * 2 + x3) % 2 ^ 32) :
    n / 4194304 % 64 = k % 64 ∧ n / 268435456 % 16 = k / 64 ∧ n / 32768 % 128 = x0 ∧ n / 256 % 128 = x1 ∧ n / 2 % 128 = x2 ∧ n / 1 % 2 = x3 := by
  refine ⟨?_, ?_, ?_, ?_, ?_, ?_⟩ <;> omega

/-- The bits of the rows laid out as SCLZ. -/
theorem bits_sclz {k x0 x1 n : Nat} (hk : k < 1024) (h0 : x0 < 128) (h1 : x1 < 128)
    (hn : n = (k * 4194304 + x0 * 32768 + x1 * 256) % 2 ^ 32) :
    n / 4194304 % 64 = k % 64 ∧ n / 268435456 % 16 = k / 64 ∧ n / 32768 % 128 = x0 ∧ n / 256 % 128 = x1 ∧ n / 1 % 256 = 0 := by
  refine ⟨?_, ?_, ?_, ?_, ?_⟩ <;> omega

/-- The bits of the rows laid out as VADDI. -/
theorem bits_vaddi {k x0 x1 x2 n : Nat} (hk : k < 1024) (h0 : x0 < 128) (h1 : x1 < 128) (h2 : x2 < 256)
    (hn : n = (k * 4194304 + x0 * 32768 + x1 * 256 + x2) % 2 ^ 32) :
    n / 4194304 % 64 = k % 64 ∧ n / 268435456 % 16 = k / 64 ∧ n / 32768 % 128 = x0 ∧ n / 256 % 128 = x1 ∧ n / 1 % 256 = x2 := by
  refine ⟨?_, ?_, ?_, ?_, ?_⟩ <;> omega

/-- The bits of the rows laid out as VCMP. -/
theorem bits_vcmp {k x0 x1 x2 x3 n : Nat} (hk : k < 1024) (h0 : x0 < 8) (h1 : x1 < 16) (h2 : x2 < 128) (h3 : x3 < 128)
    (hn : n = (k * 4194304 + x0 * 524288 + x1 * 32768 + x2 * 256 + x3 * 2) % 2 ^ 32) :
    n / 4194304 % 64 = k % 64 ∧ n / 268435456 % 16 = k / 64 ∧ n / 524288 % 8 = x0 ∧ n / 32768 % 16 = x1 ∧ n / 256 % 128 = x2 ∧ n / 2 % 128 = x3 ∧ n / 1 % 2 = 0 := by
  refine ⟨?_, ?_, ?_, ?_, ?_, ?_, ?_⟩ <;> omega

/-- The bits of VCVT. -/
theorem bits_vcvt {k x0 x1 x2 x3 n : Nat} (hk : k < 1024) (h0 : x0 < 128) (h1 : x1 < 128) (h2 : x2 < 64) (h3 : x3 < 2)
    (hn : n = (k * 4194304 + x0 * 32768 + x1 * 256 + x2 * 2 + x3) % 2 ^ 32) :
    n / 4194304 % 64 = k % 64 ∧ n / 268435456 % 16 = k / 64 ∧ n / 32768 % 128 = x0 ∧ n / 256 % 128 = x1 ∧ n / 2 % 64 = x2 ∧ n / 1 % 2 = x3 ∧ n / 128 % 2 = 0 := by
  refine ⟨?_, ?_, ?_, ?_, ?_, ?_, ?_⟩ <;> omega

/-- The bits of VMOVFRM. -/
theorem bits_vmovFrm {k x0 x1 n : Nat} (hk : k < 1024) (h0 : x0 < 128) (h1 : x1 < 128)
    (hn : n = (k * 4194304 + 1 + x0 * 32768 + x1 * 256) % 2 ^ 32) :
    n / 4194304 % 64 = k % 64 ∧ n / 268435456 % 16 = k / 64 ∧ n / 32768 % 128 = x0 ∧ n / 256 % 128 = x1 ∧ n / 1 % 256 = 1 := by
  refine ⟨?_, ?_, ?_, ?_, ?_⟩ <;> omega

/-- The bits of VMOVTO. -/
theorem bits_vmovTo {k x0 x1 n : Nat} (hk : k < 1024) (h0 : x0 < 128) (h1 : x1 < 128)
    (hn : n = (k * 4194304 + 3 + x0 * 32768 + x1 * 256) % 2 ^ 32) :
    n / 4194304 % 64 = k % 64 ∧ n / 268435456 % 16 = k / 64 ∧ n / 32768 % 128 = x0 ∧ n / 256 % 128 = x1 ∧ n / 1 % 256 = 3 := by
  refine ⟨?_, ?_, ?_, ?_, ?_⟩ <;> omega

/-- The bits of PLOG. -/
theorem bits_plog {k x0 x1 x2 x3 n : Nat} (hk : k < 1024) (h0 : x0 < 8) (h1 : x1 < 16) (h2 : x2 < 8) (h3 : x3 < 8)
    (hn : n = (k * 4194304 + x0 * 524288 + x1 * 32768 + x2 * 256 + x3 * 2) % 2 ^ 32) :
    n / 4194304 % 64 = k % 64 ∧ n / 268435456 % 16 = k / 64 ∧ n / 524288 % 8 = x0 ∧ n / 32768 % 16 = x1 ∧ n / 256 % 8 = x2 ∧ n / 2 % 8 = x3 ∧ n / 1 % 2 = 0 ∧ n / 16 % 16 = 0 ∧ n / 2048 % 16 = 0 := by
  refine ⟨?_, ?_, ?_, ?_, ?_, ?_, ?_, ?_, ?_⟩ <;> omega

/-- The bits of the rows laid out as SRACC. -/
theorem bits_sracc {k x0 x1 n : Nat} (hk : k < 1024) (h0 : x0 < 128) (h1 : x1 < 4)
    (hn : n = (k * 4194304 + x0 * 256 + x1) % 2 ^ 32) :
    n / 4194304 % 64 = k % 64 ∧ n / 268435456 % 16 = k / 64 ∧ n / 256 % 128 = x0 ∧ n / 1 % 4 = x1 ∧ n / 4 % 64 = 0 ∧ n / 32768 % 128 = 0 := by
  refine ⟨?_, ?_, ?_, ?_, ?_, ?_⟩ <;> omega

/-- The bits of SRACW. -/
theorem bits_sracw {k x0 x1 x2 n : Nat} (hk : k < 1024) (h0 : x0 < 128) (h1 : x1 < 128) (h2 : x2 < 4)
    (hn : n = (k * 4194304 + x0 * 32768 + x1 * 256 + x2) % 2 ^ 32) :
    n / 4194304 % 64 = k % 64 ∧ n / 268435456 % 16 = k / 64 ∧ n / 32768 % 128 = x0 ∧ n / 256 % 128 = x1 ∧ n / 1 % 4 = x2 ∧ n / 4 % 64 = 0 := by
  refine ⟨?_, ?_, ?_, ?_, ?_, ?_⟩ <;> omega

/-- The bits of the rows laid out as SRDRN. -/
theorem bits_srdrn {k x0 x1 x2 x3 n : Nat} (hk : k < 1024) (h0 : x0 < 128) (h1 : x1 < 128) (h2 : x2 < 16) (h3 : x3 < 4)
    (hn : n = (k * 4194304 + x0 * 32768 + x1 * 256 + x2 * 16 + x3) % 2 ^ 32) :
    n / 4194304 % 64 = k % 64 ∧ n / 268435456 % 16 = k / 64 ∧ n / 32768 % 128 = x0 ∧ n / 256 % 128 = x1 ∧ n / 16 % 16 = x2 ∧ n / 1 % 4 = x3 ∧ n / 4 % 4 = 0 := by
  refine ⟨?_, ?_, ?_, ?_, ?_, ?_, ?_⟩ <;> omega

/-- The bits of SRINI. -/
theorem bits_srini {k x0 n : Nat} (hk : k < 1024) (h0 : x0 < 4)
    (hn : n = (k * 4194304 + x0) % 2 ^ 32) :
    n / 4194304 % 64 = k % 64 ∧ n / 268435456 % 16 = k / 64 ∧ n / 1 % 4 = x0 ∧ n / 4 % 1048576 = 0 := by
  refine ⟨?_, ?_, ?_, ?_⟩ <;> omega

/-- The bits of SRINILD. -/
theorem bits_sriniLd {k x0 x1 n : Nat} (hk : k < 1024) (h0 : x0 < 128) (h1 : x1 < 4)
    (hn : n = (k * 4194304 + 16 + x0 * 256 + x1) % 2 ^ 32) :
    n / 4194304 % 64 = k % 64 ∧ n / 268435456 % 16 = k / 64 ∧ n / 256 % 128 = x0 ∧ n / 1 % 4 = x1 ∧ n / 4 % 64 = 4 ∧ n / 32768 % 128 = 0 := by
  refine ⟨?_, ?_, ?_, ?_, ?_, ?_⟩ <;> omega

/-- The bits of SRMRG. -/
theorem bits_srmrg {k x0 x1 n : Nat} (hk : k < 1024) (h0 : x0 < 4) (h1 : x1 < 4)
    (hn : n = (k * 4194304 + x0 * 16 + x1) % 2 ^ 32) :
    n / 4194304 % 64 = k % 64 ∧ n / 268435456 % 16 = k / 64 ∧ n / 16 % 4 = x0 ∧ n / 1 % 4 = x1 ∧ n / 4 % 4 = 0 ∧ n / 64 % 65536 = 0 := by
  refine ⟨?_, ?_, ?_, ?_, ?_, ?_⟩ <;> omega

/-- The bits of VVOTE. -/
theorem bits_vvote {k x0 x1 x2 n : Nat} (hk : k < 1024) (h0 : x0 < 128) (h1 : x1 < 4) (h2 : x2 < 8)
    (hn : n = (k * 4194304 + x0 * 32768 + x1 * 8 + x2) % 2 ^ 32) :
    n / 4194304 % 64 = k % 64 ∧ n / 268435456 % 16 = k / 64 ∧ n / 32768 % 128 = x0 ∧ n / 8 % 4 = x1 ∧ n / 1 % 8 = x2 ∧ n / 32 % 1024 = 0 := by
  refine ⟨?_, ?_, ?_, ?_, ?_, ?_⟩ <;> omega

/-- The bits of XRACC. -/
theorem bits_xracc {k x0 x1 x2 x3 x4 n : Nat} (hk : k < 1024) (h0 : x0 < 128) (h1 : x1 < 128) (h2 : x2 < 2) (h3 : x3 < 2) (h4 : x4 < 4)
    (hn : n = (k * 4194304 + x0 * 32768 + x1 * 256 + x2 * 32 + x3 * 16 + x4) % 2 ^ 32) :
    n / 4194304 % 64 = k % 64 ∧ n / 268435456 % 16 = k / 64 ∧ n / 32768 % 128 = x0 ∧ n / 256 % 128 = x1 ∧ n / 32 % 2 = x2 ∧ n / 16 % 2 = x3 ∧ n / 1 % 4 = x4 ∧ n / 4 % 4 = 0 ∧ n / 64 % 4 = 0 := by
  refine ⟨?_, ?_, ?_, ?_, ?_, ?_, ?_, ?_, ?_⟩ <;> omega

/-- The bits of ATOM. -/
theorem bits_atom {k x0 x1 x2 x3 n : Nat} (hk : k < 1024) (h0 : x0 < 128) (h1 : x1 < 128) (h2 : x2 < 16) (h3 : x3 < 16)
    (hn : n = (k * 4194304 + x0 * 32768 + x1 * 256 + x2 * 16 + x3) % 2 ^ 32) :
    n / 4194304 % 64 = k % 64 ∧ n / 268435456 % 16 = k / 64 ∧ n / 32768 % 128 = x0 ∧ n / 256 % 128 = x1 ∧ n / 16 % 16 = x2 ∧ n / 1 % 16 = x3 := by
  refine ⟨?_, ?_, ?_, ?_, ?_, ?_⟩ <;> omega

/-- The bits of FENCE. -/
theorem bits_fence {k x0 x1 n : Nat} (hk : k < 1024) (h0 : x0 < 16) (h1 : x1 < 16)
    (hn : n = (k * 4194304 + x0 * 16 + x1) % 2 ^ 32) :
    n / 4194304 % 64 = k % 64 ∧ n / 268435456 % 16 = k / 64 ∧ n / 16 % 16 = x0 ∧ n / 1 % 16 = x1 ∧ n / 256 % 16384 = 0 := by
  refine ⟨?_, ?_, ?_, ?_, ?_⟩ <;> omega

/-- The bits of the rows laid out as LD. -/
theorem bits_ld {k x0 x1 x2 x3 x4 n : Nat} (hk : k < 1024) (h0 : x0 < 128) (h1 : x1 < 128) (h2 : x2 < 32) (h3 : x3 < 4) (h4 : x4 < 2)
    (hn : n = (k * 4194304 + x0 * 32768 + x1 * 256 + x2 * 8 + x3 * 2 + x4) % 2 ^ 32) :
    n / 4194304 % 64 = k % 64 ∧ n / 268435456 % 16 = k / 64 ∧ n / 32768 % 128 = x0 ∧ n / 256 % 128 = x1 ∧ n / 8 % 32 = x2 ∧ n / 2 % 4 = x3 ∧ n / 1 % 2 = x4 := by
  refine ⟨?_, ?_, ?_, ?_, ?_, ?_, ?_⟩ <;> omega

/-- The bits of LDA. -/
theorem bits_lda {k x0 x1 x2 x3 x4 x5 n : Nat} (hk : k < 1024) (h0 : x0 < 128) (h1 : x1 < 128) (h2 : x2 < 4) (h3 : x3 < 2) (h4 : x4 < 2) (h5 : x5 < 16)
    (hn : n = (k * 4194304 + x0 * 32768 + x1 * 256 + x2 * 64 + x3 * 32 + x4 * 16 + x5) % 2 ^ 32) :
    n / 4194304 % 64 = k % 64 ∧ n / 268435456 % 16 = k / 64 ∧ n / 32768 % 128 = x0 ∧ n / 256 % 128 = x1 ∧ n / 64 % 4 = x2 ∧ n / 32 % 2 = x3 ∧ n / 16 % 2 = x4 ∧ n / 1 % 16 = x5 := by
  refine ⟨?_, ?_, ?_, ?_, ?_, ?_, ?_, ?_⟩ <;> omega

/-- The bits of the rows laid out as SCAT. -/
theorem bits_scat {k x0 x1 x2 x3 n : Nat} (hk : k < 1024) (h0 : x0 < 128) (h1 : x1 < 128) (h2 : x2 < 32) (h3 : x3 < 4)
    (hn : n = (k * 4194304 + x0 * 32768 + x1 * 256 + x2 * 8 + x3 * 2) % 2 ^ 32) :
    n / 4194304 % 64 = k % 64 ∧ n / 268435456 % 16 = k / 64 ∧ n / 32768 % 128 = x0 ∧ n / 256 % 128 = x1 ∧ n / 8 % 32 = x2 ∧ n / 2 % 4 = x3 ∧ n / 1 % 2 = 0 := by
  refine ⟨?_, ?_, ?_, ?_, ?_, ?_, ?_⟩ <;> omega

/-- The bits of STL. -/
theorem bits_stl {k x0 x1 x2 x3 n : Nat} (hk : k < 1024) (h0 : x0 < 128) (h1 : x1 < 128) (h2 : x2 < 4) (h3 : x3 < 16)
    (hn : n = (k * 4194304 + x0 * 32768 + x1 * 256 + x2 * 64 + x3) % 2 ^ 32) :
    n / 4194304 % 64 = k % 64 ∧ n / 268435456 % 16 = k / 64 ∧ n / 32768 % 128 = x0 ∧ n / 256 % 128 = x1 ∧ n / 64 % 4 = x2 ∧ n / 1 % 16 = x3 ∧ n / 16 % 4 = 0 := by
  refine ⟨?_, ?_, ?_, ?_, ?_, ?_, ?_⟩ <;> omega

/-- The bits of CPY. -/
theorem bits_cpy {k x0 x1 x2 x3 n : Nat} (hk : k < 1024) (h0 : x0 < 128) (h1 : x1 < 128) (h2 : x2 < 8) (h3 : x3 < 2)
    (hn : n = (k * 4194304 + x0 * 32768 + x1 * 256 + x2 * 32 + x3 * 16) % 2 ^ 32) :
    n / 4194304 % 64 = k % 64 ∧ n / 268435456 % 16 = k / 64 ∧ n / 32768 % 128 = x0 ∧ n / 256 % 128 = x1 ∧ n / 32 % 8 = x2 ∧ n / 16 % 2 = x3 ∧ n / 1 % 16 = 0 := by
  refine ⟨?_, ?_, ?_, ?_, ?_, ?_, ?_⟩ <;> omega

/-- The bits of the rows laid out as CQBAR. -/
theorem bits_cqbar {k x0 n : Nat} (hk : k < 1024) (h0 : x0 < 128)
    (hn : n = (k * 4194304 + x0 * 256) % 2 ^ 32) :
    n / 4194304 % 64 = k % 64 ∧ n / 268435456 % 16 = k / 64 ∧ n / 256 % 128 = x0 ∧ n / 1 % 256 = 0 ∧ n / 32768 % 128 = 0 := by
  refine ⟨?_, ?_, ?_, ?_, ?_⟩ <;> omega

/-- The bits of TDSC. -/
theorem bits_tdsc {k x0 x1 n : Nat} (hk : k < 1024) (h0 : x0 < 32) (h1 : x1 < 128)
    (hn : n = (k * 4194304 + x0 * 32768 + x1 * 256) % 2 ^ 32) :
    n / 4194304 % 64 = k % 64 ∧ n / 268435456 % 16 = k / 64 ∧ n / 32768 % 32 = x0 ∧ n / 256 % 128 = x1 ∧ n / 1 % 256 = 0 ∧ n / 1048576 % 4 = 0 := by
  refine ⟨?_, ?_, ?_, ?_, ?_, ?_⟩ <;> omega

/-- The bits of the rows laid out as TFREE. -/
theorem bits_tfree {k x0 n : Nat} (hk : k < 1024) (h0 : x0 < 32)
    (hn : n = (k * 4194304 + x0 * 32768) % 2 ^ 32) :
    n / 4194304 % 64 = k % 64 ∧ n / 268435456 % 16 = k / 64 ∧ n / 32768 % 32 = x0 ∧ n / 1 % 32768 = 0 ∧ n / 1048576 % 4 = 0 := by
  refine ⟨?_, ?_, ?_, ?_, ?_⟩ <;> omega

/-- The bits of TLD. -/
theorem bits_tld {k x0 x1 x2 x3 n : Nat} (hk : k < 1024) (h0 : x0 < 32) (h1 : x1 < 128) (h2 : x2 < 2) (h3 : x3 < 2)
    (hn : n = (k * 4194304 + x0 * 32768 + x1 * 256 + x2 * 32 + x3 * 16) % 2 ^ 32) :
    n / 4194304 % 64 = k % 64 ∧ n / 268435456 % 16 = k / 64 ∧ n / 32768 % 32 = x0 ∧ n / 256 % 128 = x1 ∧ n / 32 % 2 = x2 ∧ n / 16 % 2 = x3 ∧ n / 1 % 16 = 0 ∧ n / 64 % 4 = 0 ∧ n / 1048576 % 4 = 0 := by
  refine ⟨?_, ?_, ?_, ?_, ?_, ?_, ?_, ?_, ?_⟩ <;> omega

/-- The bits of TST. -/
theorem bits_tst {k x0 x1 x2 n : Nat} (hk : k < 1024) (h0 : x0 < 32) (h1 : x1 < 128) (h2 : x2 < 2)
    (hn : n = (k * 4194304 + x0 * 32768 + x1 * 256 + x2 * 16) % 2 ^ 32) :
    n / 4194304 % 64 = k % 64 ∧ n / 268435456 % 16 = k / 64 ∧ n / 32768 % 32 = x0 ∧ n / 256 % 128 = x1 ∧ n / 16 % 2 = x2 ∧ n / 1 % 16 = 0 ∧ n / 32 % 8 = 0 ∧ n / 1048576 % 4 = 0 := by
  refine ⟨?_, ?_, ?_, ?_, ?_, ?_, ?_, ?_⟩ <;> omega

/-- The bits of TSTAT. -/
theorem bits_tstat {k x0 x1 n : Nat} (hk : k < 1024) (h0 : x0 < 128) (h1 : x1 < 32)
    (hn : n = (k * 4194304 + x0 * 32768 + x1 * 256) % 2 ^ 32) :
    n / 4194304 % 64 = k % 64 ∧ n / 268435456 % 16 = k / 64 ∧ n / 32768 % 128 = x0 ∧ n / 256 % 32 = x1 ∧ n / 1 % 256 = 0 ∧ n / 8192 % 4 = 0 := by
  refine ⟨?_, ?_, ?_, ?_, ?_, ?_⟩ <;> omega

/-- The bits of ACLR. -/
theorem bits_aclr {k x0 n : Nat} (hk : k < 1024) (h0 : x0 < 16)
    (hn : n = (k * 4194304 + x0 * 32768) % 2 ^ 32) :
    n / 4194304 % 64 = k % 64 ∧ n / 268435456 % 16 = k / 64 ∧ n / 32768 % 16 = x0 ∧ n / 1 % 32768 = 0 ∧ n / 524288 % 8 = 0 := by
  refine ⟨?_, ?_, ?_, ?_, ?_⟩ <;> omega

/-- The bits of ADRN. -/
theorem bits_adrn {k x0 x1 n : Nat} (hk : k < 1024) (h0 : x0 < 32) (h1 : x1 < 16)
    (hn : n = (k * 4194304 + x0 * 32768 + x1 * 256) % 2 ^ 32) :
    n / 4194304 % 64 = k % 64 ∧ n / 268435456 % 16 = k / 64 ∧ n / 32768 % 32 = x0 ∧ n / 256 % 16 = x1 ∧ n / 1 % 256 = 0 ∧ n / 4096 % 8 = 0 ∧ n / 1048576 % 4 = 0 := by
  refine ⟨?_, ?_, ?_, ?_, ?_, ?_, ?_⟩ <;> omega

/-- The bits of the rows laid out as MMA. -/
theorem bits_mma {k x0 x1 x2 n : Nat} (hk : k < 1024) (h0 : x0 < 16) (h1 : x1 < 32) (h2 : x2 < 32)
    (hn : n = (k * 4194304 + x0 * 32768 + x1 * 256 + x2 * 8) % 2 ^ 32) :
    n / 4194304 % 64 = k % 64 ∧ n / 268435456 % 16 = k / 64 ∧ n / 32768 % 16 = x0 ∧ n / 256 % 32 = x1 ∧ n / 8 % 32 = x2 ∧ n / 1 % 8 = 0 ∧ n / 8192 % 4 = 0 ∧ n / 524288 % 8 = 0 := by
  refine ⟨?_, ?_, ?_, ?_, ?_, ?_, ?_, ?_⟩ <;> omega

/-- The bits of the rows laid out as BARA. -/
theorem bits_bara {k x0 x1 n : Nat} (hk : k < 1024) (h0 : x0 < 128) (h1 : x1 < 128)
    (hn : n = (k * 4194304 + x0 * 256 + x1) % 2 ^ 32) :
    n / 4194304 % 64 = k % 64 ∧ n / 268435456 % 16 = k / 64 ∧ n / 256 % 128 = x0 ∧ n / 1 % 128 = x1 ∧ n / 128 % 2 = 0 ∧ n / 32768 % 128 = 0 := by
  refine ⟨?_, ?_, ?_, ?_, ?_, ?_⟩ <;> omega

/-- The bits of COLL. -/
theorem bits_coll {k x0 x1 x2 x3 x4 n : Nat} (hk : k < 1024) (h0 : x0 < 128) (h1 : x1 < 128) (h2 : x2 < 8) (h3 : x3 < 2) (h4 : x4 < 16)
    (hn : n = (k * 4194304 + x0 * 32768 + x1 * 256 + x2 * 32 + x3 * 16 + x4) % 2 ^ 32) :
    n / 4194304 % 64 = k % 64 ∧ n / 268435456 % 16 = k / 64 ∧ n / 32768 % 128 = x0 ∧ n / 256 % 128 = x1 ∧ n / 32 % 8 = x2 ∧ n / 16 % 2 = x3 ∧ n / 1 % 16 = x4 := by
  refine ⟨?_, ?_, ?_, ?_, ?_, ?_, ?_⟩ <;> omega

/-- The bits of the rows laid out as JOIN. -/
theorem bits_join {k x0 n : Nat} (hk : k < 1024) (h0 : x0 < 16)
    (hn : n = (k * 4194304 + x0) % 2 ^ 32) :
    n / 4194304 % 64 = k % 64 ∧ n / 268435456 % 16 = k / 64 ∧ n / 1 % 16 = x0 ∧ n / 16 % 262144 = 0 := by
  refine ⟨?_, ?_, ?_, ?_⟩ <;> omega

/-- The bits of OCCQ. -/
theorem bits_occq {k x0 x1 x2 x3 n : Nat} (hk : k < 1024) (h0 : x0 < 128) (h1 : x1 < 128) (h2 : x2 < 2) (h3 : x3 < 16)
    (hn : n = (k * 4194304 + x0 * 32768 + x1 * 256 + x2 * 16 + x3) % 2 ^ 32) :
    n / 4194304 % 64 = k % 64 ∧ n / 268435456 % 16 = k / 64 ∧ n / 32768 % 128 = x0 ∧ n / 256 % 128 = x1 ∧ n / 16 % 2 = x2 ∧ n / 1 % 16 = x3 ∧ n / 32 % 8 = 0 := by
  refine ⟨?_, ?_, ?_, ?_, ?_, ?_, ?_⟩ <;> omega

/-- The bits of POST. -/
theorem bits_post {k x0 x1 x2 n : Nat} (hk : k < 1024) (h0 : x0 < 128) (h1 : x1 < 128) (h2 : x2 < 16)
    (hn : n = (k * 4194304 + x0 * 32768 + x1 * 256 + x2 * 16) % 2 ^ 32) :
    n / 4194304 % 64 = k % 64 ∧ n / 268435456 % 16 = k / 64 ∧ n / 32768 % 128 = x0 ∧ n / 256 % 128 = x1 ∧ n / 16 % 16 = x2 ∧ n / 1 % 16 = 0 := by
  refine ⟨?_, ?_, ?_, ?_, ?_, ?_⟩ <;> omega

/-- The bits of the rows laid out as EDGS. -/
theorem bits_edgs {k x0 x1 x2 n : Nat} (hk : k < 1024) (h0 : x0 < 128) (h1 : x1 < 128) (h2 : x2 < 2)
    (hn : n = (k * 4194304 + x0 * 32768 + x1 * 256 + x2 * 16) % 2 ^ 32) :
    n / 4194304 % 64 = k % 64 ∧ n / 268435456 % 16 = k / 64 ∧ n / 32768 % 128 = x0 ∧ n / 256 % 128 = x1 ∧ n / 16 % 2 = x2 ∧ n / 1 % 16 = 0 ∧ n / 32 % 8 = 0 := by
  refine ⟨?_, ?_, ?_, ?_, ?_, ?_, ?_⟩ <;> omega

/-- The bits of PRIM. -/
theorem bits_prim {k x0 x1 x2 n : Nat} (hk : k < 1024) (h0 : x0 < 128) (h1 : x1 < 128) (h2 : x2 < 4)
    (hn : n = (k * 4194304 + x0 * 32768 + x1 * 256 + x2 * 16) % 2 ^ 32) :
    n / 4194304 % 64 = k % 64 ∧ n / 268435456 % 16 = k / 64 ∧ n / 32768 % 128 = x0 ∧ n / 256 % 128 = x1 ∧ n / 16 % 4 = x2 ∧ n / 1 % 16 = 0 ∧ n / 64 % 4 = 0 := by
  refine ⟨?_, ?_, ?_, ?_, ?_, ?_, ?_⟩ <;> omega

/-- The bits of the rows laid out as TEX. -/
theorem bits_tex {k x0 x1 x2 x3 x4 n : Nat} (hk : k < 1024) (h0 : x0 < 128) (h1 : x1 < 128) (h2 : x2 < 8) (h3 : x3 < 2) (h4 : x4 < 4)
    (hn : n = (k * 4194304 + x0 * 32768 + x1 * 256 + x2 * 32 + x3 * 16 + x4) % 2 ^ 32) :
    n / 4194304 % 64 = k % 64 ∧ n / 268435456 % 16 = k / 64 ∧ n / 32768 % 128 = x0 ∧ n / 256 % 128 = x1 ∧ n / 32 % 8 = x2 ∧ n / 16 % 2 = x3 ∧ n / 1 % 4 = x4 ∧ n / 4 % 4 = 0 := by
  refine ⟨?_, ?_, ?_, ?_, ?_, ?_, ?_, ?_⟩ <;> omega

/-- The bits of TSPAN. -/
theorem bits_tspan {k x0 x1 x2 n : Nat} (hk : k < 1024) (h0 : x0 < 128) (h1 : x1 < 16) (h2 : x2 < 2)
    (hn : n = (k * 4194304 + x0 * 32768 + x1 * 16 + x2) % 2 ^ 32) :
    n / 4194304 % 64 = k % 64 ∧ n / 268435456 % 16 = k / 64 ∧ n / 32768 % 128 = x0 ∧ n / 16 % 16 = x1 ∧ n / 1 % 2 = x2 ∧ n / 2 % 8 = 0 ∧ n / 256 % 128 = 0 := by
  refine ⟨?_, ?_, ?_, ?_, ?_, ?_, ?_⟩ <;> omega

/-- The bits of the rows laid out as GROW. -/
theorem bits_grow {k x0 n : Nat} (hk : k < 1024) (h0 : x0 < 256)
    (hn : n = (k * 4194304 + x0) % 2 ^ 32) :
    n / 4194304 % 64 = k % 64 ∧ n / 268435456 % 16 = k / 64 ∧ n / 1 % 256 = x0 ∧ n / 256 % 16384 = 0 := by
  refine ⟨?_, ?_, ?_, ?_⟩ <;> omega

/-- The bits of TRET. -/
theorem bits_tret {k x0 n : Nat} (hk : k < 1024) (h0 : x0 < 2)
    (hn : n = (k * 4194304 + x0) % 2 ^ 32) :
    n / 4194304 % 64 = k % 64 ∧ n / 268435456 % 16 = k / 64 ∧ n / 1 % 2 = x0 ∧ n / 2 % 2097152 = 0 := by
  refine ⟨?_, ?_, ?_, ?_⟩ <;> omega

/-- The bits of XRD. -/
theorem bits_xrd {k x0 x1 n : Nat} (hk : k < 1024) (h0 : x0 < 128) (h1 : x1 < 256)
    (hn : n = (k * 4194304 + x0 * 32768 + x1) % 2 ^ 32) :
    n / 4194304 % 64 = k % 64 ∧ n / 268435456 % 16 = k / 64 ∧ n / 32768 % 128 = x0 ∧ n / 1 % 256 = x1 ∧ n / 256 % 128 = 0 := by
  refine ⟨?_, ?_, ?_, ?_, ?_⟩ <;> omega

/-- The bits of XWR. -/
theorem bits_xwr {k x0 x1 n : Nat} (hk : k < 1024) (h0 : x0 < 128) (h1 : x1 < 256)
    (hn : n = (k * 4194304 + x0 * 256 + x1) % 2 ^ 32) :
    n / 4194304 % 64 = k % 64 ∧ n / 268435456 % 16 = k / 64 ∧ n / 256 % 128 = x0 ∧ n / 1 % 256 = x1 ∧ n / 32768 % 128 = 0 := by
  refine ⟨?_, ?_, ?_, ?_, ?_⟩ <;> omega

/-- A word-carrying instruction decodes from its word, whatever its operands. -/
def RoundTrip.Statement (i : Instr) : Prop := i.isWord = true → decodeWord (encode i) = some i

theorem RoundTrip.bra (o : BitVec 22) : RoundTrip.Statement (.bra o) := fun _ =>
  decode_of_bits (m := (0 * 4194304 + o.toNat)) rfl fun bs hn => by
    have ⟨ho, hc, e0⟩ := bits_bra (k := 0) (by decide) o.isLt hn
    rw [decodeNat_0 hc, decode0, ho]
    show some (Instr.bra _) = _
    rw [fld_of e0]

theorem RoundTrip.brs (s : BitVec 6) (i : BitVec 16) : RoundTrip.Statement (.brs s i) := fun _ =>
  decode_of_bits (m := (1 * 4194304 + s.toNat * 65536 + i.toNat)) rfl fun bs hn => by
    have ⟨ho, hc, e0, e1⟩ := bits_brs (k := 1) (by decide) s.isLt i.isLt hn
    rw [decodeNat_0 hc, decode0, ho]
    show some (Instr.brs _ _) = _
    rw [fld_of e0, fld_of e1]

theorem RoundTrip.brv (p : BitVec 3) (n : BitVec 1) (o : BitVec 18) : RoundTrip.Statement (.brv p n o) := fun _ =>
  decode_of_bits (m := (2 * 4194304 + p.toNat * 524288 + n.toNat * 262144 + o.toNat)) rfl fun bs hn => by
    have ⟨ho, hc, e0, e1, e2⟩ := bits_brv (k := 2) (by decide) p.isLt n.isLt o.isLt hn
    rw [decodeNat_0 hc, decode0, ho]
    show some (Instr.brv _ _ _) = _
    rw [fld_of e0, fld_of e1, fld_of e2]

theorem RoundTrip.call (f : BitVec 3) (o : BitVec 19) : RoundTrip.Statement (.call f o) := fun _ =>
  decode_of_bits (m := (3 * 4194304 + f.toNat * 524288 + o.toNat)) rfl fun bs hn => by
    have ⟨ho, hc, e0, e1⟩ := bits_call (k := 3) (by decide) f.isLt o.isLt hn
    rw [decodeNat_0 hc, decode0, ho]
    show some (Instr.call _ _) = _
    rw [fld_of e0, fld_of e1]

theorem RoundTrip.endSplit : RoundTrip.Statement (.endSplit) := fun _ =>
  decode_of_bits (m := (4 * 4194304)) rfl fun bs hn => by
    have ⟨ho, hc, g0⟩ := bits_endSplit (k := 4) (by decide) hn
    rw [decodeNat_0 hc, decode0, ho]
    exact (want_of (fixedAt_of g0)).trans rfl

theorem RoundTrip.exit : RoundTrip.Statement (.exit) := fun _ =>
  decode_of_bits (m := (5 * 4194304)) rfl fun bs hn => by
    have ⟨ho, hc, g0⟩ := bits_endSplit (k := 5) (by decide) hn
    rw [decodeNat_0 hc, decode0, ho]
    exact (want_of (fixedAt_of g0)).trans rfl

theorem RoundTrip.jmpi (s : BitVec 6) (i : BitVec 16) : RoundTrip.Statement (.jmpi s i) := fun _ =>
  decode_of_bits (m := (6 * 4194304 + s.toNat * 65536 + i.toNat)) rfl fun bs hn => by
    have ⟨ho, hc, e0, e1⟩ := bits_brs (k := 6) (by decide) s.isLt i.isLt hn
    rw [decodeNat_0 hc, decode0, ho]
    show some (Instr.jmpi _ _) = _
    rw [fld_of e0, fld_of e1]

theorem RoundTrip.merge : RoundTrip.Statement (.merge) := fun _ =>
  decode_of_bits (m := (7 * 4194304)) rfl fun bs hn => by
    have ⟨ho, hc, g0⟩ := bits_endSplit (k := 7) (by decide) hn
    rw [decodeNat_0 hc, decode0, ho]
    exact (want_of (fixedAt_of g0)).trans rfl

theorem RoundTrip.mode (e : BitVec 6) (g : BitVec 3) (v : BitVec 1) (r : BitVec 3) (t : BitVec 2) (z : BitVec 1) (x : BitVec 6) : RoundTrip.Statement (.mode e g v r t z x) := fun _ =>
  decode_of_bits (m := (8 * 4194304 + e.toNat * 65536 + g.toNat * 8192 + v.toNat * 4096 + r.toNat * 512 + t.toNat * 128 + z.toNat * 64 + x.toNat)) rfl fun bs hn => by
    have ⟨ho, hc, e0, e1, e2, e3, e4, e5, e6⟩ := bits_mode (k := 8) (by decide) e.isLt g.isLt v.isLt r.isLt t.isLt z.isLt x.isLt hn
    rw [decodeNat_0 hc, decode0, ho]
    show some (Instr.mode _ _ _ _ _ _ _) = _
    rw [fld_of e0, fld_of e1, fld_of e2, fld_of e3, fld_of e4, fld_of e5, fld_of e6]

theorem RoundTrip.nop : RoundTrip.Statement (.nop) := fun _ =>
  decode_of_bits (m := (9 * 4194304)) rfl fun bs hn => by
    have ⟨ho, hc, g0⟩ := bits_endSplit (k := 9) (by decide) hn
    rw [decodeNat_0 hc, decode0, ho]
    exact (want_of (fixedAt_of g0)).trans rfl

theorem RoundTrip.region : RoundTrip.Statement (.region) := fun _ =>
  decode_of_bits (m := (10 * 4194304)) rfl fun bs hn => by
    have ⟨ho, hc, g0⟩ := bits_endSplit (k := 10) (by decide) hn
    rw [decodeNat_0 hc, decode0, ho]
    exact (want_of (fixedAt_of g0)).trans rfl

theorem RoundTrip.ret : RoundTrip.Statement (.ret) := fun _ =>
  decode_of_bits (m := (11 * 4194304)) rfl fun bs hn => by
    have ⟨ho, hc, g0⟩ := bits_endSplit (k := 11) (by decide) hn
    rw [decodeNat_0 hc, decode0, ho]
    exact (want_of (fixedAt_of g0)).trans rfl

theorem RoundTrip.waitf (s : BitVec 6) : RoundTrip.Statement (.waitf s) := fun _ =>
  decode_of_bits (m := (12 * 4194304 + s.toNat * 65536)) rfl fun bs hn => by
    have ⟨ho, hc, e0, g0⟩ := bits_waitf (k := 12) (by decide) s.isLt hn
    rw [decodeNat_0 hc, decode0, ho]
    exact (want_of (fixedAt_of g0)).trans (by rw [fld_of e0])

theorem RoundTrip.yield : RoundTrip.Statement (.yield) := fun _ =>
  decode_of_bits (m := (13 * 4194304)) rfl fun bs hn => by
    have ⟨ho, hc, g0⟩ := bits_endSplit (k := 13) (by decide) hn
    rw [decodeNat_0 hc, decode0, ho]
    exact (want_of (fixedAt_of g0)).trans rfl

theorem RoundTrip.clause (w : BitVec 12) (a : BitVec 1) (f : BitVec 4) (b : BitVec 1) (g : BitVec 4) (l : BitVec 4) : RoundTrip.Statement (.clause w a f b g l) := fun _ =>
  decode_of_bits (m := (1008 * 4194304 + w.toNat * 16384 + a.toNat * 8192 + f.toNat * 512 + b.toNat * 256 + g.toNat * 16 + l.toNat)) rfl fun bs hn => by
    have ⟨ho, hc, e0, e1, e2, e3, e4, e5, g0⟩ := bits_clause (k := 1008) (by decide) w.isLt a.isLt f.isLt b.isLt g.isLt l.isLt hn
    unfold decodeNat; rw [hc]
    exact (want_of (fixedAt_of g0)).trans (by rw [fld_of e0, fld_of e1, fld_of e2, fld_of e3, fld_of e4, fld_of e5])

theorem RoundTrip.sadd (d : BitVec 7) (a : BitVec 7) (b : BitVec 7) : RoundTrip.Statement (.sadd d a b) := fun _ =>
  decode_of_bits (m := (64 * 4194304 + d.toNat * 32768 + a.toNat * 256 + b.toNat * 2)) rfl fun bs hn => by
    have ⟨ho, hc, e0, e1, e2, g0⟩ := bits_sadd (k := 64) (by decide) d.isLt a.isLt b.isLt hn
    rw [decodeNat_1 hc, decode1, ho]
    exact (want_of (fixedAt_of g0)).trans (by rw [fld_of e0, fld_of e1, fld_of e2])

theorem RoundTrip.saddi (s : BitVec 6) (i : BitVec 16) : RoundTrip.Statement (.saddi s i) := fun _ =>
  decode_of_bits (m := (65 * 4194304 + s.toNat * 65536 + i.toNat)) rfl fun bs hn => by
    have ⟨ho, hc, e0, e1⟩ := bits_brs (k := 65) (by decide) s.isLt i.isLt hn
    rw [decodeNat_1 hc, decode1, ho]
    show some (Instr.saddi _ _) = _
    rw [fld_of e0, fld_of e1]

theorem RoundTrip.saddx (d : BitVec 7) (a : BitVec 7) (b : BitVec 7) : RoundTrip.Statement (.saddx d a b) := fun _ =>
  decode_of_bits (m := (66 * 4194304 + d.toNat * 32768 + a.toNat * 256 + b.toNat * 2)) rfl fun bs hn => by
    have ⟨ho, hc, e0, e1, e2, g0⟩ := bits_sadd (k := 66) (by decide) d.isLt a.isLt b.isLt hn
    rw [decodeNat_1 hc, decode1, ho]
    exact (want_of (fixedAt_of g0)).trans (by rw [fld_of e0, fld_of e1, fld_of e2])

theorem RoundTrip.sand (d : BitVec 7) (a : BitVec 7) (b : BitVec 7) : RoundTrip.Statement (.sand d a b) := fun _ =>
  decode_of_bits (m := (67 * 4194304 + d.toNat * 32768 + a.toNat * 256 + b.toNat * 2)) rfl fun bs hn => by
    have ⟨ho, hc, e0, e1, e2, g0⟩ := bits_sadd (k := 67) (by decide) d.isLt a.isLt b.isLt hn
    rw [decodeNat_1 hc, decode1, ho]
    exact (want_of (fixedAt_of g0)).trans (by rw [fld_of e0, fld_of e1, fld_of e2])

theorem RoundTrip.sbfx (d : BitVec 7) (a : BitVec 7) (b : BitVec 7) (x : BitVec 1) : RoundTrip.Statement (.sbfx d a b x) := fun _ =>
  decode_of_bits (m := (68 * 4194304 + d.toNat * 32768 + a.toNat * 256 + b.toNat * 2 + x.toNat)) rfl fun bs hn => by
    have ⟨ho, hc, e0, e1, e2, e3⟩ := bits_sbfx (k := 68) (by decide) d.isLt a.isLt b.isLt x.isLt hn
    rw [decodeNat_1 hc, decode1, ho]
    show some (Instr.sbfx _ _ _ _) = _
    rw [fld_of e0, fld_of e1, fld_of e2, fld_of e3]

theorem RoundTrip.sclz (d : BitVec 7) (a : BitVec 7) : RoundTrip.Statement (.sclz d a) := fun _ =>
  decode_of_bits (m := (69 * 4194304 + d.toNat * 32768 + a.toNat * 256)) rfl fun bs hn => by
    have ⟨ho, hc, e0, e1, g0⟩ := bits_sclz (k := 69) (by decide) d.isLt a.isLt hn
    rw [decodeNat_1 hc, decode1, ho]
    exact (want_of (fixedAt_of g0)).trans (by rw [fld_of e0, fld_of e1])

theorem RoundTrip.scmp (d : BitVec 7) (a : BitVec 7) (b : BitVec 7) (x : BitVec 1) : RoundTrip.Statement (.scmp d a b x) := fun _ =>
  decode_of_bits (m := (70 * 4194304 + d.toNat * 32768 + a.toNat * 256 + b.toNat * 2 + x.toNat)) rfl fun bs hn => by
    have ⟨ho, hc, e0, e1, e2, e3⟩ := bits_sbfx (k := 70) (by decide) d.isLt a.isLt b.isLt x.isLt hn
    rw [decodeNat_1 hc, decode1, ho]
    show some (Instr.scmp _ _ _ _) = _
    rw [fld_of e0, fld_of e1, fld_of e2, fld_of e3]

theorem RoundTrip.slih (s : BitVec 6) (i : BitVec 16) : RoundTrip.Statement (.slih s i) := fun _ =>
  decode_of_bits (m := (71 * 4194304 + s.toNat * 65536 + i.toNat)) rfl fun bs hn => by
    have ⟨ho, hc, e0, e1⟩ := bits_brs (k := 71) (by decide) s.isLt i.isLt hn
    rw [decodeNat_1 hc, decode1, ho]
    show some (Instr.slih _ _) = _
    rw [fld_of e0, fld_of e1]

theorem RoundTrip.slil (s : BitVec 6) (i : BitVec 16) : RoundTrip.Statement (.slil s i) := fun _ =>
  decode_of_bits (m := (72 * 4194304 + s.toNat * 65536 + i.toNat)) rfl fun bs hn => by
    have ⟨ho, hc, e0, e1⟩ := bits_brs (k := 72) (by decide) s.isLt i.isLt hn
    rw [decodeNat_1 hc, decode1, ho]
    show some (Instr.slil _ _) = _
    rw [fld_of e0, fld_of e1]

theorem RoundTrip.smax (d : BitVec 7) (a : BitVec 7) (b : BitVec 7) (x : BitVec 1) : RoundTrip.Statement (.smax d a b x) := fun _ =>
  decode_of_bits (m := (73 * 4194304 + d.toNat * 32768 + a.toNat * 256 + b.toNat * 2 + x.toNat)) rfl fun bs hn => by
    have ⟨ho, hc, e0, e1, e2, e3⟩ := bits_sbfx (k := 73) (by decide) d.isLt a.isLt b.isLt x.isLt hn
    rw [decodeNat_1 hc, decode1, ho]
    show some (Instr.smax _ _ _ _) = _
    rw [fld_of e0, fld_of e1, fld_of e2, fld_of e3]

theorem RoundTrip.smin (d : BitVec 7) (a : BitVec 7) (b : BitVec 7) (x : BitVec 1) : RoundTrip.Statement (.smin d a b x) := fun _ =>
  decode_of_bits (m := (74 * 4194304 + d.toNat * 32768 + a.toNat * 256 + b.toNat * 2 + x.toNat)) rfl fun bs hn => by
    have ⟨ho, hc, e0, e1, e2, e3⟩ := bits_sbfx (k := 74) (by decide) d.isLt a.isLt b.isLt x.isLt hn
    rw [decodeNat_1 hc, decode1, ho]
    show some (Instr.smin _ _ _ _) = _
    rw [fld_of e0, fld_of e1, fld_of e2, fld_of e3]

theorem RoundTrip.smov (d : BitVec 7) (a : BitVec 7) : RoundTrip.Statement (.smov d a) := fun _ =>
  decode_of_bits (m := (75 * 4194304 + d.toNat * 32768 + a.toNat * 256)) rfl fun bs hn => by
    have ⟨ho, hc, e0, e1, g0⟩ := bits_sclz (k := 75) (by decide) d.isLt a.isLt hn
    rw [decodeNat_1 hc, decode1, ho]
    exact (want_of (fixedAt_of g0)).trans (by rw [fld_of e0, fld_of e1])

theorem RoundTrip.smul (d : BitVec 7) (a : BitVec 7) (b : BitVec 7) : RoundTrip.Statement (.smul d a b) := fun _ =>
  decode_of_bits (m := (76 * 4194304 + d.toNat * 32768 + a.toNat * 256 + b.toNat * 2)) rfl fun bs hn => by
    have ⟨ho, hc, e0, e1, e2, g0⟩ := bits_sadd (k := 76) (by decide) d.isLt a.isLt b.isLt hn
    rw [decodeNat_1 hc, decode1, ho]
    exact (want_of (fixedAt_of g0)).trans (by rw [fld_of e0, fld_of e1, fld_of e2])

theorem RoundTrip.smulh (d : BitVec 7) (a : BitVec 7) (b : BitVec 7) (x : BitVec 1) : RoundTrip.Statement (.smulh d a b x) := fun _ =>
  decode_of_bits (m := (77 * 4194304 + d.toNat * 32768 + a.toNat * 256 + b.toNat * 2 + x.toNat)) rfl fun bs hn => by
    have ⟨ho, hc, e0, e1, e2, e3⟩ := bits_sbfx (k := 77) (by decide) d.isLt a.isLt b.isLt x.isLt hn
    rw [decodeNat_1 hc, decode1, ho]
    show some (Instr.smulh _ _ _ _) = _
    rw [fld_of e0, fld_of e1, fld_of e2, fld_of e3]

theorem RoundTrip.sor (d : BitVec 7) (a : BitVec 7) (b : BitVec 7) : RoundTrip.Statement (.sor d a b) := fun _ =>
  decode_of_bits (m := (78 * 4194304 + d.toNat * 32768 + a.toNat * 256 + b.toNat * 2)) rfl fun bs hn => by
    have ⟨ho, hc, e0, e1, e2, g0⟩ := bits_sadd (k := 78) (by decide) d.isLt a.isLt b.isLt hn
    rw [decodeNat_1 hc, decode1, ho]
    exact (want_of (fixedAt_of g0)).trans (by rw [fld_of e0, fld_of e1, fld_of e2])

theorem RoundTrip.spopc (d : BitVec 7) (a : BitVec 7) : RoundTrip.Statement (.spopc d a) := fun _ =>
  decode_of_bits (m := (79 * 4194304 + d.toNat * 32768 + a.toNat * 256)) rfl fun bs hn => by
    have ⟨ho, hc, e0, e1, g0⟩ := bits_sclz (k := 79) (by decide) d.isLt a.isLt hn
    rw [decodeNat_1 hc, decode1, ho]
    exact (want_of (fixedAt_of g0)).trans (by rw [fld_of e0, fld_of e1])

theorem RoundTrip.ssel (d : BitVec 7) (a : BitVec 7) (b : BitVec 7) : RoundTrip.Statement (.ssel d a b) := fun _ =>
  decode_of_bits (m := (80 * 4194304 + d.toNat * 32768 + a.toNat * 256 + b.toNat * 2)) rfl fun bs hn => by
    have ⟨ho, hc, e0, e1, e2, g0⟩ := bits_sadd (k := 80) (by decide) d.isLt a.isLt b.isLt hn
    rw [decodeNat_1 hc, decode1, ho]
    exact (want_of (fixedAt_of g0)).trans (by rw [fld_of e0, fld_of e1, fld_of e2])

theorem RoundTrip.sshl (d : BitVec 7) (a : BitVec 7) (b : BitVec 7) : RoundTrip.Statement (.sshl d a b) := fun _ =>
  decode_of_bits (m := (81 * 4194304 + d.toNat * 32768 + a.toNat * 256 + b.toNat * 2)) rfl fun bs hn => by
    have ⟨ho, hc, e0, e1, e2, g0⟩ := bits_sadd (k := 81) (by decide) d.isLt a.isLt b.isLt hn
    rw [decodeNat_1 hc, decode1, ho]
    exact (want_of (fixedAt_of g0)).trans (by rw [fld_of e0, fld_of e1, fld_of e2])

theorem RoundTrip.sshr (d : BitVec 7) (a : BitVec 7) (b : BitVec 7) : RoundTrip.Statement (.sshr d a b) := fun _ =>
  decode_of_bits (m := (82 * 4194304 + d.toNat * 32768 + a.toNat * 256 + b.toNat * 2)) rfl fun bs hn => by
    have ⟨ho, hc, e0, e1, e2, g0⟩ := bits_sadd (k := 82) (by decide) d.isLt a.isLt b.isLt hn
    rw [decodeNat_1 hc, decode1, ho]
    exact (want_of (fixedAt_of g0)).trans (by rw [fld_of e0, fld_of e1, fld_of e2])

theorem RoundTrip.ssra (d : BitVec 7) (a : BitVec 7) (b : BitVec 7) : RoundTrip.Statement (.ssra d a b) := fun _ =>
  decode_of_bits (m := (83 * 4194304 + d.toNat * 32768 + a.toNat * 256 + b.toNat * 2)) rfl fun bs hn => by
    have ⟨ho, hc, e0, e1, e2, g0⟩ := bits_sadd (k := 83) (by decide) d.isLt a.isLt b.isLt hn
    rw [decodeNat_1 hc, decode1, ho]
    exact (want_of (fixedAt_of g0)).trans (by rw [fld_of e0, fld_of e1, fld_of e2])

theorem RoundTrip.ssub (d : BitVec 7) (a : BitVec 7) (b : BitVec 7) : RoundTrip.Statement (.ssub d a b) := fun _ =>
  decode_of_bits (m := (84 * 4194304 + d.toNat * 32768 + a.toNat * 256 + b.toNat * 2)) rfl fun bs hn => by
    have ⟨ho, hc, e0, e1, e2, g0⟩ := bits_sadd (k := 84) (by decide) d.isLt a.isLt b.isLt hn
    rw [decodeNat_1 hc, decode1, ho]
    exact (want_of (fixedAt_of g0)).trans (by rw [fld_of e0, fld_of e1, fld_of e2])

theorem RoundTrip.sxor (d : BitVec 7) (a : BitVec 7) (b : BitVec 7) : RoundTrip.Statement (.sxor d a b) := fun _ =>
  decode_of_bits (m := (85 * 4194304 + d.toNat * 32768 + a.toNat * 256 + b.toNat * 2)) rfl fun bs hn => by
    have ⟨ho, hc, e0, e1, e2, g0⟩ := bits_sadd (k := 85) (by decide) d.isLt a.isLt b.isLt hn
    rw [decodeNat_1 hc, decode1, ho]
    exact (want_of (fixedAt_of g0)).trans (by rw [fld_of e0, fld_of e1, fld_of e2])

theorem RoundTrip.vabs (d : BitVec 7) (a : BitVec 7) : RoundTrip.Statement (.vabs d a) := fun _ =>
  decode_of_bits (m := (128 * 4194304 + d.toNat * 32768 + a.toNat * 256)) rfl fun bs hn => by
    have ⟨ho, hc, e0, e1, g0⟩ := bits_sclz (k := 128) (by decide) d.isLt a.isLt hn
    rw [decodeNat_2 hc, decode2, ho]
    exact (want_of (fixedAt_of g0)).trans (by rw [fld_of e0, fld_of e1])

theorem RoundTrip.vadd (d : BitVec 7) (a : BitVec 7) (b : BitVec 7) : RoundTrip.Statement (.vadd d a b) := fun _ =>
  decode_of_bits (m := (129 * 4194304 + d.toNat * 32768 + a.toNat * 256 + b.toNat * 2)) rfl fun bs hn => by
    have ⟨ho, hc, e0, e1, e2, g0⟩ := bits_sadd (k := 129) (by decide) d.isLt a.isLt b.isLt hn
    rw [decodeNat_2 hc, decode2, ho]
    exact (want_of (fixedAt_of g0)).trans (by rw [fld_of e0, fld_of e1, fld_of e2])

theorem RoundTrip.vaddi (d : BitVec 7) (a : BitVec 7) (i : BitVec 8) : RoundTrip.Statement (.vaddi d a i) := fun _ =>
  decode_of_bits (m := (130 * 4194304 + d.toNat * 32768 + a.toNat * 256 + i.toNat)) rfl fun bs hn => by
    have ⟨ho, hc, e0, e1, e2⟩ := bits_vaddi (k := 130) (by decide) d.isLt a.isLt i.isLt hn
    rw [decodeNat_2 hc, decode2, ho]
    show some (Instr.vaddi _ _ _) = _
    rw [fld_of e0, fld_of e1, fld_of e2]

theorem RoundTrip.vand (d : BitVec 7) (a : BitVec 7) (b : BitVec 7) : RoundTrip.Statement (.vand d a b) := fun _ =>
  decode_of_bits (m := (131 * 4194304 + d.toNat * 32768 + a.toNat * 256 + b.toNat * 2)) rfl fun bs hn => by
    have ⟨ho, hc, e0, e1, e2, g0⟩ := bits_sadd (k := 131) (by decide) d.isLt a.isLt b.isLt hn
    rw [decodeNat_2 hc, decode2, ho]
    exact (want_of (fixedAt_of g0)).trans (by rw [fld_of e0, fld_of e1, fld_of e2])

theorem RoundTrip.vbfx (d : BitVec 7) (a : BitVec 7) (b : BitVec 7) (x : BitVec 1) : RoundTrip.Statement (.vbfx d a b x) := fun _ =>
  decode_of_bits (m := (132 * 4194304 + d.toNat * 32768 + a.toNat * 256 + b.toNat * 2 + x.toNat)) rfl fun bs hn => by
    have ⟨ho, hc, e0, e1, e2, e3⟩ := bits_sbfx (k := 132) (by decide) d.isLt a.isLt b.isLt x.isLt hn
    rw [decodeNat_2 hc, decode2, ho]
    show some (Instr.vbfx _ _ _ _) = _
    rw [fld_of e0, fld_of e1, fld_of e2, fld_of e3]

theorem RoundTrip.vclz (d : BitVec 7) (a : BitVec 7) : RoundTrip.Statement (.vclz d a) := fun _ =>
  decode_of_bits (m := (133 * 4194304 + d.toNat * 32768 + a.toNat * 256)) rfl fun bs hn => by
    have ⟨ho, hc, e0, e1, g0⟩ := bits_sclz (k := 133) (by decide) d.isLt a.isLt hn
    rw [decodeNat_2 hc, decode2, ho]
    exact (want_of (fixedAt_of g0)).trans (by rw [fld_of e0, fld_of e1])

theorem RoundTrip.vcmp (p : BitVec 3) (c : BitVec 4) (a : BitVec 7) (b : BitVec 7) : RoundTrip.Statement (.vcmp p c a b) := fun _ =>
  decode_of_bits (m := (134 * 4194304 + p.toNat * 524288 + c.toNat * 32768 + a.toNat * 256 + b.toNat * 2)) rfl fun bs hn => by
    have ⟨ho, hc, e0, e1, e2, e3, g0⟩ := bits_vcmp (k := 134) (by decide) p.isLt c.isLt a.isLt b.isLt hn
    rw [decodeNat_2 hc, decode2, ho]
    exact (want_of (fixedAt_of g0)).trans (by rw [fld_of e0, fld_of e1, fld_of e2, fld_of e3])

theorem RoundTrip.vcvt (d : BitVec 7) (a : BitVec 7) (e : BitVec 6) (x : BitVec 1) : RoundTrip.Statement (.vcvt d a e x) := fun _ =>
  decode_of_bits (m := (135 * 4194304 + d.toNat * 32768 + a.toNat * 256 + e.toNat * 2 + x.toNat)) rfl fun bs hn => by
    have ⟨ho, hc, e0, e1, e2, e3, g0⟩ := bits_vcvt (k := 135) (by decide) d.isLt a.isLt e.isLt x.isLt hn
    rw [decodeNat_2 hc, decode2, ho]
    exact (want_of (fixedAt_of g0)).trans (by rw [fld_of e0, fld_of e1, fld_of e2, fld_of e3])

theorem RoundTrip.vlane (d : BitVec 7) (a : BitVec 7) (i : BitVec 8) : RoundTrip.Statement (.vlane d a i) := fun _ =>
  decode_of_bits (m := (136 * 4194304 + d.toNat * 32768 + a.toNat * 256 + i.toNat)) rfl fun bs hn => by
    have ⟨ho, hc, e0, e1, e2⟩ := bits_vaddi (k := 136) (by decide) d.isLt a.isLt i.isLt hn
    rw [decodeNat_2 hc, decode2, ho]
    show some (Instr.vlane _ _ _) = _
    rw [fld_of e0, fld_of e1, fld_of e2]

theorem RoundTrip.vmad (d : BitVec 7) (a : BitVec 7) (b : BitVec 7) : RoundTrip.Statement (.vmad d a b) := fun _ =>
  decode_of_bits (m := (137 * 4194304 + d.toNat * 32768 + a.toNat * 256 + b.toNat * 2)) rfl fun bs hn => by
    have ⟨ho, hc, e0, e1, e2, g0⟩ := bits_sadd (k := 137) (by decide) d.isLt a.isLt b.isLt hn
    rw [decodeNat_2 hc, decode2, ho]
    exact (want_of (fixedAt_of g0)).trans (by rw [fld_of e0, fld_of e1, fld_of e2])

theorem RoundTrip.vmax (d : BitVec 7) (a : BitVec 7) (b : BitVec 7) : RoundTrip.Statement (.vmax d a b) := fun _ =>
  decode_of_bits (m := (138 * 4194304 + d.toNat * 32768 + a.toNat * 256 + b.toNat * 2)) rfl fun bs hn => by
    have ⟨ho, hc, e0, e1, e2, g0⟩ := bits_sadd (k := 138) (by decide) d.isLt a.isLt b.isLt hn
    rw [decodeNat_2 hc, decode2, ho]
    exact (want_of (fixedAt_of g0)).trans (by rw [fld_of e0, fld_of e1, fld_of e2])

theorem RoundTrip.vmin (d : BitVec 7) (a : BitVec 7) (b : BitVec 7) : RoundTrip.Statement (.vmin d a b) := fun _ =>
  decode_of_bits (m := (139 * 4194304 + d.toNat * 32768 + a.toNat * 256 + b.toNat * 2)) rfl fun bs hn => by
    have ⟨ho, hc, e0, e1, e2, g0⟩ := bits_sadd (k := 139) (by decide) d.isLt a.isLt b.isLt hn
    rw [decodeNat_2 hc, decode2, ho]
    exact (want_of (fixedAt_of g0)).trans (by rw [fld_of e0, fld_of e1, fld_of e2])

theorem RoundTrip.vmov (d : BitVec 7) (a : BitVec 7) : RoundTrip.Statement (.vmov d a) := fun _ =>
  decode_of_bits (m := (140 * 4194304 + d.toNat * 32768 + a.toNat * 256)) rfl fun bs hn => by
    have ⟨ho, hc, e0, e1, g0⟩ := bits_sclz (k := 140) (by decide) d.isLt a.isLt hn
    rw [decodeNat_2 hc, decode2, ho]
    have a0 : fixedAt bs 1 256 0 = true := fixedAt_of g0
    rw [if_pos a0, fld_of (x := d) e0, fld_of (x := a) e1]
    rfl

theorem RoundTrip.vmovFrm (d : BitVec 7) (a : BitVec 7) : RoundTrip.Statement (.vmovFrm d a) := fun _ =>
  decode_of_bits (m := (140 * 4194304 + 1 + d.toNat * 32768 + a.toNat * 256)) rfl fun bs hn => by
    have ⟨ho, hc, e0, e1, g0⟩ := bits_vmovFrm (k := 140) (by decide) d.isLt a.isLt hn
    rw [decodeNat_2 hc, decode2, ho]
    have a0 : ¬fixedAt bs 1 256 0 = true := (by rw [fixedAt, g0]; decide)
    have a1 : fixedAt bs 1 256 1 = true := fixedAt_of g0
    rw [if_neg a0, if_pos a1, fld_of (x := d) e0, fld_of (x := a) e1]
    rfl

theorem RoundTrip.vmovTo (d : BitVec 7) (a : BitVec 7) : RoundTrip.Statement (.vmovTo d a) := fun _ =>
  decode_of_bits (m := (140 * 4194304 + 3 + d.toNat * 32768 + a.toNat * 256)) rfl fun bs hn => by
    have ⟨ho, hc, e0, e1, g0⟩ := bits_vmovTo (k := 140) (by decide) d.isLt a.isLt hn
    rw [decodeNat_2 hc, decode2, ho]
    have a0 : ¬fixedAt bs 1 256 0 = true := (by rw [fixedAt, g0]; decide)
    have a1 : ¬fixedAt bs 1 256 1 = true := (by rw [fixedAt, g0]; decide)
    rw [if_neg a0, if_neg a1]
    exact (want_of (fixedAt_of g0)).trans (by rw [fld_of (x := d) e0, fld_of (x := a) e1])

theorem RoundTrip.vmul (d : BitVec 7) (a : BitVec 7) (b : BitVec 7) : RoundTrip.Statement (.vmul d a b) := fun _ =>
  decode_of_bits (m := (141 * 4194304 + d.toNat * 32768 + a.toNat * 256 + b.toNat * 2)) rfl fun bs hn => by
    have ⟨ho, hc, e0, e1, e2, g0⟩ := bits_sadd (k := 141) (by decide) d.isLt a.isLt b.isLt hn
    rw [decodeNat_2 hc, decode2, ho]
    exact (want_of (fixedAt_of g0)).trans (by rw [fld_of e0, fld_of e1, fld_of e2])

theorem RoundTrip.vmulh (d : BitVec 7) (a : BitVec 7) (b : BitVec 7) : RoundTrip.Statement (.vmulh d a b) := fun _ =>
  decode_of_bits (m := (142 * 4194304 + d.toNat * 32768 + a.toNat * 256 + b.toNat * 2)) rfl fun bs hn => by
    have ⟨ho, hc, e0, e1, e2, g0⟩ := bits_sadd (k := 142) (by decide) d.isLt a.isLt b.isLt hn
    rw [decodeNat_2 hc, decode2, ho]
    exact (want_of (fixedAt_of g0)).trans (by rw [fld_of e0, fld_of e1, fld_of e2])

theorem RoundTrip.vor (d : BitVec 7) (a : BitVec 7) (b : BitVec 7) : RoundTrip.Statement (.vor d a b) := fun _ =>
  decode_of_bits (m := (143 * 4194304 + d.toNat * 32768 + a.toNat * 256 + b.toNat * 2)) rfl fun bs hn => by
    have ⟨ho, hc, e0, e1, e2, g0⟩ := bits_sadd (k := 143) (by decide) d.isLt a.isLt b.isLt hn
    rw [decodeNat_2 hc, decode2, ho]
    exact (want_of (fixedAt_of g0)).trans (by rw [fld_of e0, fld_of e1, fld_of e2])

theorem RoundTrip.vpopc (d : BitVec 7) (a : BitVec 7) : RoundTrip.Statement (.vpopc d a) := fun _ =>
  decode_of_bits (m := (144 * 4194304 + d.toNat * 32768 + a.toNat * 256)) rfl fun bs hn => by
    have ⟨ho, hc, e0, e1, g0⟩ := bits_sclz (k := 144) (by decide) d.isLt a.isLt hn
    rw [decodeNat_2 hc, decode2, ho]
    exact (want_of (fixedAt_of g0)).trans (by rw [fld_of e0, fld_of e1])

theorem RoundTrip.vsel (d : BitVec 7) (a : BitVec 7) (b : BitVec 7) : RoundTrip.Statement (.vsel d a b) := fun _ =>
  decode_of_bits (m := (145 * 4194304 + d.toNat * 32768 + a.toNat * 256 + b.toNat * 2)) rfl fun bs hn => by
    have ⟨ho, hc, e0, e1, e2, g0⟩ := bits_sadd (k := 145) (by decide) d.isLt a.isLt b.isLt hn
    rw [decodeNat_2 hc, decode2, ho]
    exact (want_of (fixedAt_of g0)).trans (by rw [fld_of e0, fld_of e1, fld_of e2])

theorem RoundTrip.vshl (d : BitVec 7) (a : BitVec 7) (b : BitVec 7) : RoundTrip.Statement (.vshl d a b) := fun _ =>
  decode_of_bits (m := (146 * 4194304 + d.toNat * 32768 + a.toNat * 256 + b.toNat * 2)) rfl fun bs hn => by
    have ⟨ho, hc, e0, e1, e2, g0⟩ := bits_sadd (k := 146) (by decide) d.isLt a.isLt b.isLt hn
    rw [decodeNat_2 hc, decode2, ho]
    exact (want_of (fixedAt_of g0)).trans (by rw [fld_of e0, fld_of e1, fld_of e2])

theorem RoundTrip.vshr (d : BitVec 7) (a : BitVec 7) (b : BitVec 7) : RoundTrip.Statement (.vshr d a b) := fun _ =>
  decode_of_bits (m := (147 * 4194304 + d.toNat * 32768 + a.toNat * 256 + b.toNat * 2)) rfl fun bs hn => by
    have ⟨ho, hc, e0, e1, e2, g0⟩ := bits_sadd (k := 147) (by decide) d.isLt a.isLt b.isLt hn
    rw [decodeNat_2 hc, decode2, ho]
    exact (want_of (fixedAt_of g0)).trans (by rw [fld_of e0, fld_of e1, fld_of e2])

theorem RoundTrip.vsra (d : BitVec 7) (a : BitVec 7) (b : BitVec 7) : RoundTrip.Statement (.vsra d a b) := fun _ =>
  decode_of_bits (m := (148 * 4194304 + d.toNat * 32768 + a.toNat * 256 + b.toNat * 2)) rfl fun bs hn => by
    have ⟨ho, hc, e0, e1, e2, g0⟩ := bits_sadd (k := 148) (by decide) d.isLt a.isLt b.isLt hn
    rw [decodeNat_2 hc, decode2, ho]
    exact (want_of (fixedAt_of g0)).trans (by rw [fld_of e0, fld_of e1, fld_of e2])

theorem RoundTrip.vsub (d : BitVec 7) (a : BitVec 7) (b : BitVec 7) : RoundTrip.Statement (.vsub d a b) := fun _ =>
  decode_of_bits (m := (149 * 4194304 + d.toNat * 32768 + a.toNat * 256 + b.toNat * 2)) rfl fun bs hn => by
    have ⟨ho, hc, e0, e1, e2, g0⟩ := bits_sadd (k := 149) (by decide) d.isLt a.isLt b.isLt hn
    rw [decodeNat_2 hc, decode2, ho]
    exact (want_of (fixedAt_of g0)).trans (by rw [fld_of e0, fld_of e1, fld_of e2])

theorem RoundTrip.vxor (d : BitVec 7) (a : BitVec 7) (b : BitVec 7) : RoundTrip.Statement (.vxor d a b) := fun _ =>
  decode_of_bits (m := (150 * 4194304 + d.toNat * 32768 + a.toNat * 256 + b.toNat * 2)) rfl fun bs hn => by
    have ⟨ho, hc, e0, e1, e2, g0⟩ := bits_sadd (k := 150) (by decide) d.isLt a.isLt b.isLt hn
    rw [decodeNat_2 hc, decode2, ho]
    exact (want_of (fixedAt_of g0)).trans (by rw [fld_of e0, fld_of e1, fld_of e2])

theorem RoundTrip.lcv (d : BitVec 7) (a : BitVec 7) : RoundTrip.Statement (.lcv d a) := fun _ =>
  decode_of_bits (m := (192 * 4194304 + d.toNat * 32768 + a.toNat * 256)) rfl fun bs hn => by
    have ⟨ho, hc, e0, e1, g0⟩ := bits_sclz (k := 192) (by decide) d.isLt a.isLt hn
    rw [decodeNat_3 hc, decode3, ho]
    exact (want_of (fixedAt_of g0)).trans (by rw [fld_of e0, fld_of e1])

theorem RoundTrip.ldiv (d : BitVec 7) (a : BitVec 7) (b : BitVec 7) : RoundTrip.Statement (.ldiv d a b) := fun _ =>
  decode_of_bits (m := (193 * 4194304 + d.toNat * 32768 + a.toNat * 256 + b.toNat * 2)) rfl fun bs hn => by
    have ⟨ho, hc, e0, e1, e2, g0⟩ := bits_sadd (k := 193) (by decide) d.isLt a.isLt b.isLt hn
    rw [decodeNat_3 hc, decode3, ho]
    exact (want_of (fixedAt_of g0)).trans (by rw [fld_of e0, fld_of e1, fld_of e2])

theorem RoundTrip.lex (d : BitVec 7) (a : BitVec 7) : RoundTrip.Statement (.lex d a) := fun _ =>
  decode_of_bits (m := (194 * 4194304 + d.toNat * 32768 + a.toNat * 256)) rfl fun bs hn => by
    have ⟨ho, hc, e0, e1, g0⟩ := bits_sclz (k := 194) (by decide) d.isLt a.isLt hn
    rw [decodeNat_3 hc, decode3, ho]
    exact (want_of (fixedAt_of g0)).trans (by rw [fld_of e0, fld_of e1])

theorem RoundTrip.lmul (d : BitVec 7) (a : BitVec 7) (b : BitVec 7) : RoundTrip.Statement (.lmul d a b) := fun _ =>
  decode_of_bits (m := (195 * 4194304 + d.toNat * 32768 + a.toNat * 256 + b.toNat * 2)) rfl fun bs hn => by
    have ⟨ho, hc, e0, e1, e2, g0⟩ := bits_sadd (k := 195) (by decide) d.isLt a.isLt b.isLt hn
    rw [decodeNat_3 hc, decode3, ho]
    exact (want_of (fixedAt_of g0)).trans (by rw [fld_of e0, fld_of e1, fld_of e2])

theorem RoundTrip.lpow (d : BitVec 7) (a : BitVec 7) (b : BitVec 7) : RoundTrip.Statement (.lpow d a b) := fun _ =>
  decode_of_bits (m := (196 * 4194304 + d.toNat * 32768 + a.toNat * 256 + b.toNat * 2)) rfl fun bs hn => by
    have ⟨ho, hc, e0, e1, e2, g0⟩ := bits_sadd (k := 196) (by decide) d.isLt a.isLt b.isLt hn
    rw [decodeNat_3 hc, decode3, ho]
    exact (want_of (fixedAt_of g0)).trans (by rw [fld_of e0, fld_of e1, fld_of e2])

theorem RoundTrip.vdotb (d : BitVec 7) (a : BitVec 7) (b : BitVec 7) (x : BitVec 1) : RoundTrip.Statement (.vdotb d a b x) := fun _ =>
  decode_of_bits (m := (197 * 4194304 + d.toNat * 32768 + a.toNat * 256 + b.toNat * 2 + x.toNat)) rfl fun bs hn => by
    have ⟨ho, hc, e0, e1, e2, e3⟩ := bits_sbfx (k := 197) (by decide) d.isLt a.isLt b.isLt x.isLt hn
    rw [decodeNat_3 hc, decode3, ho]
    show some (Instr.vdotb _ _ _ _) = _
    rw [fld_of e0, fld_of e1, fld_of e2, fld_of e3]

theorem RoundTrip.vdqnt (d : BitVec 7) (a : BitVec 7) (b : BitVec 7) : RoundTrip.Statement (.vdqnt d a b) := fun _ =>
  decode_of_bits (m := (198 * 4194304 + d.toNat * 32768 + a.toNat * 256 + b.toNat * 2)) rfl fun bs hn => by
    have ⟨ho, hc, e0, e1, e2, g0⟩ := bits_sadd (k := 198) (by decide) d.isLt a.isLt b.isLt hn
    rw [decodeNat_3 hc, decode3, ho]
    exact (want_of (fixedAt_of g0)).trans (by rw [fld_of e0, fld_of e1, fld_of e2])

theorem RoundTrip.vfabs (d : BitVec 7) (a : BitVec 7) : RoundTrip.Statement (.vfabs d a) := fun _ =>
  decode_of_bits (m := (199 * 4194304 + d.toNat * 32768 + a.toNat * 256)) rfl fun bs hn => by
    have ⟨ho, hc, e0, e1, g0⟩ := bits_sclz (k := 199) (by decide) d.isLt a.isLt hn
    rw [decodeNat_3 hc, decode3, ho]
    exact (want_of (fixedAt_of g0)).trans (by rw [fld_of e0, fld_of e1])

theorem RoundTrip.vfadd (d : BitVec 7) (a : BitVec 7) (b : BitVec 7) : RoundTrip.Statement (.vfadd d a b) := fun _ =>
  decode_of_bits (m := (200 * 4194304 + d.toNat * 32768 + a.toNat * 256 + b.toNat * 2)) rfl fun bs hn => by
    have ⟨ho, hc, e0, e1, e2, g0⟩ := bits_sadd (k := 200) (by decide) d.isLt a.isLt b.isLt hn
    rw [decodeNat_3 hc, decode3, ho]
    exact (want_of (fixedAt_of g0)).trans (by rw [fld_of e0, fld_of e1, fld_of e2])

theorem RoundTrip.vfcls (d : BitVec 7) (a : BitVec 7) : RoundTrip.Statement (.vfcls d a) := fun _ =>
  decode_of_bits (m := (201 * 4194304 + d.toNat * 32768 + a.toNat * 256)) rfl fun bs hn => by
    have ⟨ho, hc, e0, e1, g0⟩ := bits_sclz (k := 201) (by decide) d.isLt a.isLt hn
    rw [decodeNat_3 hc, decode3, ho]
    exact (want_of (fixedAt_of g0)).trans (by rw [fld_of e0, fld_of e1])

theorem RoundTrip.vfcmp (p : BitVec 3) (c : BitVec 4) (a : BitVec 7) (b : BitVec 7) : RoundTrip.Statement (.vfcmp p c a b) := fun _ =>
  decode_of_bits (m := (202 * 4194304 + p.toNat * 524288 + c.toNat * 32768 + a.toNat * 256 + b.toNat * 2)) rfl fun bs hn => by
    have ⟨ho, hc, e0, e1, e2, e3, g0⟩ := bits_vcmp (k := 202) (by decide) p.isLt c.isLt a.isLt b.isLt hn
    rw [decodeNat_3 hc, decode3, ho]
    exact (want_of (fixedAt_of g0)).trans (by rw [fld_of e0, fld_of e1, fld_of e2, fld_of e3])

theorem RoundTrip.vfdot2 (d : BitVec 7) (a : BitVec 7) (b : BitVec 7) : RoundTrip.Statement (.vfdot2 d a b) := fun _ =>
  decode_of_bits (m := (203 * 4194304 + d.toNat * 32768 + a.toNat * 256 + b.toNat * 2)) rfl fun bs hn => by
    have ⟨ho, hc, e0, e1, e2, g0⟩ := bits_sadd (k := 203) (by decide) d.isLt a.isLt b.isLt hn
    rw [decodeNat_3 hc, decode3, ho]
    exact (want_of (fixedAt_of g0)).trans (by rw [fld_of e0, fld_of e1, fld_of e2])

theorem RoundTrip.vfma (d : BitVec 7) (a : BitVec 7) (b : BitVec 7) : RoundTrip.Statement (.vfma d a b) := fun _ =>
  decode_of_bits (m := (204 * 4194304 + d.toNat * 32768 + a.toNat * 256 + b.toNat * 2)) rfl fun bs hn => by
    have ⟨ho, hc, e0, e1, e2, g0⟩ := bits_sadd (k := 204) (by decide) d.isLt a.isLt b.isLt hn
    rw [decodeNat_3 hc, decode3, ho]
    exact (want_of (fixedAt_of g0)).trans (by rw [fld_of e0, fld_of e1, fld_of e2])

theorem RoundTrip.vfmax (d : BitVec 7) (a : BitVec 7) (b : BitVec 7) : RoundTrip.Statement (.vfmax d a b) := fun _ =>
  decode_of_bits (m := (205 * 4194304 + d.toNat * 32768 + a.toNat * 256 + b.toNat * 2)) rfl fun bs hn => by
    have ⟨ho, hc, e0, e1, e2, g0⟩ := bits_sadd (k := 205) (by decide) d.isLt a.isLt b.isLt hn
    rw [decodeNat_3 hc, decode3, ho]
    exact (want_of (fixedAt_of g0)).trans (by rw [fld_of e0, fld_of e1, fld_of e2])

theorem RoundTrip.vfmin (d : BitVec 7) (a : BitVec 7) (b : BitVec 7) : RoundTrip.Statement (.vfmin d a b) := fun _ =>
  decode_of_bits (m := (206 * 4194304 + d.toNat * 32768 + a.toNat * 256 + b.toNat * 2)) rfl fun bs hn => by
    have ⟨ho, hc, e0, e1, e2, g0⟩ := bits_sadd (k := 206) (by decide) d.isLt a.isLt b.isLt hn
    rw [decodeNat_3 hc, decode3, ho]
    exact (want_of (fixedAt_of g0)).trans (by rw [fld_of e0, fld_of e1, fld_of e2])

theorem RoundTrip.vfmul (d : BitVec 7) (a : BitVec 7) (b : BitVec 7) : RoundTrip.Statement (.vfmul d a b) := fun _ =>
  decode_of_bits (m := (207 * 4194304 + d.toNat * 32768 + a.toNat * 256 + b.toNat * 2)) rfl fun bs hn => by
    have ⟨ho, hc, e0, e1, e2, g0⟩ := bits_sadd (k := 207) (by decide) d.isLt a.isLt b.isLt hn
    rw [decodeNat_3 hc, decode3, ho]
    exact (want_of (fixedAt_of g0)).trans (by rw [fld_of e0, fld_of e1, fld_of e2])

theorem RoundTrip.vfrnd (d : BitVec 7) (a : BitVec 7) : RoundTrip.Statement (.vfrnd d a) := fun _ =>
  decode_of_bits (m := (208 * 4194304 + d.toNat * 32768 + a.toNat * 256)) rfl fun bs hn => by
    have ⟨ho, hc, e0, e1, g0⟩ := bits_sclz (k := 208) (by decide) d.isLt a.isLt hn
    rw [decodeNat_3 hc, decode3, ho]
    exact (want_of (fixedAt_of g0)).trans (by rw [fld_of e0, fld_of e1])

theorem RoundTrip.vfsub (d : BitVec 7) (a : BitVec 7) (b : BitVec 7) : RoundTrip.Statement (.vfsub d a b) := fun _ =>
  decode_of_bits (m := (209 * 4194304 + d.toNat * 32768 + a.toNat * 256 + b.toNat * 2)) rfl fun bs hn => by
    have ⟨ho, hc, e0, e1, e2, g0⟩ := bits_sadd (k := 209) (by decide) d.isLt a.isLt b.isLt hn
    rw [decodeNat_3 hc, decode3, ho]
    exact (want_of (fixedAt_of g0)).trans (by rw [fld_of e0, fld_of e1, fld_of e2])

theorem RoundTrip.vqnt (d : BitVec 7) (a : BitVec 7) (b : BitVec 7) : RoundTrip.Statement (.vqnt d a b) := fun _ =>
  decode_of_bits (m := (210 * 4194304 + d.toNat * 32768 + a.toNat * 256 + b.toNat * 2)) rfl fun bs hn => by
    have ⟨ho, hc, e0, e1, e2, g0⟩ := bits_sadd (k := 210) (by decide) d.isLt a.isLt b.isLt hn
    rw [decodeNat_3 hc, decode3, ho]
    exact (want_of (fixedAt_of g0)).trans (by rw [fld_of e0, fld_of e1, fld_of e2])

theorem RoundTrip.vxf64 (d : BitVec 7) (a : BitVec 7) (b : BitVec 7) : RoundTrip.Statement (.vxf64 d a b) := fun _ =>
  decode_of_bits (m := (211 * 4194304 + d.toNat * 32768 + a.toNat * 256 + b.toNat * 2)) rfl fun bs hn => by
    have ⟨ho, hc, e0, e1, e2, g0⟩ := bits_sadd (k := 211) (by decide) d.isLt a.isLt b.isLt hn
    rw [decodeNat_3 hc, decode3, ho]
    exact (want_of (fixedAt_of g0)).trans (by rw [fld_of e0, fld_of e1, fld_of e2])

theorem RoundTrip.plog (d : BitVec 3) (f : BitVec 4) (a : BitVec 3) (b : BitVec 3) : RoundTrip.Statement (.plog d f a b) := fun _ =>
  decode_of_bits (m := (256 * 4194304 + d.toNat * 524288 + f.toNat * 32768 + a.toNat * 256 + b.toNat * 2)) rfl fun bs hn => by
    have ⟨ho, hc, e0, e1, e2, e3, g0, g1, g2⟩ := bits_plog (k := 256) (by decide) d.isLt f.isLt a.isLt b.isLt hn
    rw [decodeNat_4 hc, decode4, ho]
    exact (want_of (Bool.and_eq_true_iff.mpr ⟨Bool.and_eq_true_iff.mpr ⟨fixedAt_of g0, fixedAt_of g1⟩, fixedAt_of g2⟩)).trans (by rw [fld_of e0, fld_of e1, fld_of e2, fld_of e3])

theorem RoundTrip.sracc (a : BitVec 7) (k : BitVec 2) : RoundTrip.Statement (.sracc a k) := fun _ =>
  decode_of_bits (m := (257 * 4194304 + a.toNat * 256 + k.toNat)) rfl fun bs hn => by
    have ⟨ho, hc, e0, e1, g0, g1⟩ := bits_sracc (k := 257) (by decide) a.isLt k.isLt hn
    rw [decodeNat_4 hc, decode4, ho]
    exact (want_of (Bool.and_eq_true_iff.mpr ⟨fixedAt_of g0, fixedAt_of g1⟩)).trans (by rw [fld_of e0, fld_of e1])

theorem RoundTrip.sracw (d : BitVec 7) (a : BitVec 7) (k : BitVec 2) : RoundTrip.Statement (.sracw d a k) := fun _ =>
  decode_of_bits (m := (258 * 4194304 + d.toNat * 32768 + a.toNat * 256 + k.toNat)) rfl fun bs hn => by
    have ⟨ho, hc, e0, e1, e2, g0⟩ := bits_sracw (k := 258) (by decide) d.isLt a.isLt k.isLt hn
    rw [decodeNat_4 hc, decode4, ho]
    exact (want_of (fixedAt_of g0)).trans (by rw [fld_of e0, fld_of e1, fld_of e2])

theorem RoundTrip.srdrn (d : BitVec 7) (a : BitVec 7) (s : BitVec 4) (k : BitVec 2) : RoundTrip.Statement (.srdrn d a s k) := fun _ =>
  decode_of_bits (m := (259 * 4194304 + d.toNat * 32768 + a.toNat * 256 + s.toNat * 16 + k.toNat)) rfl fun bs hn => by
    have ⟨ho, hc, e0, e1, e2, e3, g0⟩ := bits_srdrn (k := 259) (by decide) d.isLt a.isLt s.isLt k.isLt hn
    rw [decodeNat_4 hc, decode4, ho]
    exact (want_of (fixedAt_of g0)).trans (by rw [fld_of e0, fld_of e1, fld_of e2, fld_of e3])

theorem RoundTrip.srget (d : BitVec 7) (a : BitVec 7) (s : BitVec 4) (k : BitVec 2) : RoundTrip.Statement (.srget d a s k) := fun _ =>
  decode_of_bits (m := (260 * 4194304 + d.toNat * 32768 + a.toNat * 256 + s.toNat * 16 + k.toNat)) rfl fun bs hn => by
    have ⟨ho, hc, e0, e1, e2, e3, g0⟩ := bits_srdrn (k := 260) (by decide) d.isLt a.isLt s.isLt k.isLt hn
    rw [decodeNat_4 hc, decode4, ho]
    exact (want_of (fixedAt_of g0)).trans (by rw [fld_of e0, fld_of e1, fld_of e2, fld_of e3])

theorem RoundTrip.srini (k : BitVec 2) : RoundTrip.Statement (.srini k) := fun _ =>
  decode_of_bits (m := (261 * 4194304 + k.toNat)) rfl fun bs hn => by
    have ⟨ho, hc, e0, g0⟩ := bits_srini (k := 261) (by decide) k.isLt hn
    rw [decodeNat_4 hc, decode4, ho]
    have a0 : fixedAt bs 4 1048576 0 = true := fixedAt_of g0
    rw [if_pos a0, fld_of (x := k) e0]
    rfl

theorem RoundTrip.sriniLd (a : BitVec 7) (k : BitVec 2) : RoundTrip.Statement (.sriniLd a k) := fun _ =>
  decode_of_bits (m := (261 * 4194304 + 16 + a.toNat * 256 + k.toNat)) rfl fun bs hn => by
    have ⟨ho, hc, e0, e1, g0, g1⟩ := bits_sriniLd (k := 261) (by decide) a.isLt k.isLt hn
    rw [decodeNat_4 hc, decode4, ho]
    have h4 : bs / 4 % 1048576 ≠ 0 := by omega
    have a0 : ¬fixedAt bs 4 1048576 0 = true := by simpa [fixedAt] using h4
    rw [if_neg a0]
    exact (want_of (Bool.and_eq_true_iff.mpr ⟨fixedAt_of g0, fixedAt_of g1⟩)).trans (by rw [fld_of e0, fld_of e1])

theorem RoundTrip.srmrg (j : BitVec 2) (k : BitVec 2) : RoundTrip.Statement (.srmrg j k) := fun _ =>
  decode_of_bits (m := (262 * 4194304 + j.toNat * 16 + k.toNat)) rfl fun bs hn => by
    have ⟨ho, hc, e0, e1, g0, g1⟩ := bits_srmrg (k := 262) (by decide) j.isLt k.isLt hn
    rw [decodeNat_4 hc, decode4, ho]
    exact (want_of (Bool.and_eq_true_iff.mpr ⟨fixedAt_of g0, fixedAt_of g1⟩)).trans (by rw [fld_of e0, fld_of e1])

theorem RoundTrip.srst (a : BitVec 7) (k : BitVec 2) : RoundTrip.Statement (.srst a k) := fun _ =>
  decode_of_bits (m := (263 * 4194304 + a.toNat * 256 + k.toNat)) rfl fun bs hn => by
    have ⟨ho, hc, e0, e1, g0, g1⟩ := bits_sracc (k := 263) (by decide) a.isLt k.isLt hn
    rw [decodeNat_4 hc, decode4, ho]
    exact (want_of (Bool.and_eq_true_iff.mpr ⟨fixedAt_of g0, fixedAt_of g1⟩)).trans (by rw [fld_of e0, fld_of e1])

theorem RoundTrip.vperm (d : BitVec 7) (a : BitVec 7) (b : BitVec 7) : RoundTrip.Statement (.vperm d a b) := fun _ =>
  decode_of_bits (m := (264 * 4194304 + d.toNat * 32768 + a.toNat * 256 + b.toNat * 2)) rfl fun bs hn => by
    have ⟨ho, hc, e0, e1, e2, g0⟩ := bits_sadd (k := 264) (by decide) d.isLt a.isLt b.isLt hn
    rw [decodeNat_4 hc, decode4, ho]
    exact (want_of (fixedAt_of g0)).trans (by rw [fld_of e0, fld_of e1, fld_of e2])

theorem RoundTrip.vswz (d : BitVec 7) (a : BitVec 7) (i : BitVec 8) : RoundTrip.Statement (.vswz d a i) := fun _ =>
  decode_of_bits (m := (265 * 4194304 + d.toNat * 32768 + a.toNat * 256 + i.toNat)) rfl fun bs hn => by
    have ⟨ho, hc, e0, e1, e2⟩ := bits_vaddi (k := 265) (by decide) d.isLt a.isLt i.isLt hn
    rw [decodeNat_4 hc, decode4, ho]
    show some (Instr.vswz _ _ _) = _
    rw [fld_of e0, fld_of e1, fld_of e2]

theorem RoundTrip.vvote (d : BitVec 7) (v : BitVec 2) (p : BitVec 3) : RoundTrip.Statement (.vvote d v p) := fun _ =>
  decode_of_bits (m := (266 * 4194304 + d.toNat * 32768 + v.toNat * 8 + p.toNat)) rfl fun bs hn => by
    have ⟨ho, hc, e0, e1, e2, g0⟩ := bits_vvote (k := 266) (by decide) d.isLt v.isLt p.isLt hn
    rw [decodeNat_4 hc, decode4, ho]
    exact (want_of (fixedAt_of g0)).trans (by rw [fld_of e0, fld_of e1, fld_of e2])

theorem RoundTrip.xracc (d : BitVec 7) (a : BitVec 7) (n : BitVec 1) (m : BitVec 1) (k : BitVec 2) : RoundTrip.Statement (.xracc d a n m k) := fun _ =>
  decode_of_bits (m := (267 * 4194304 + d.toNat * 32768 + a.toNat * 256 + n.toNat * 32 + m.toNat * 16 + k.toNat)) rfl fun bs hn => by
    have ⟨ho, hc, e0, e1, e2, e3, e4, g0, g1⟩ := bits_xracc (k := 267) (by decide) d.isLt a.isLt n.isLt m.isLt k.isLt hn
    rw [decodeNat_4 hc, decode4, ho]
    exact (want_of (Bool.and_eq_true_iff.mpr ⟨fixedAt_of g0, fixedAt_of g1⟩)).trans (by rw [fld_of e0, fld_of e1, fld_of e2, fld_of e3, fld_of e4])

theorem RoundTrip.atom (d : BitVec 7) (a : BitVec 7) (s : BitVec 4) (c : BitVec 4) : RoundTrip.Statement (.atom d a s c) := fun _ =>
  decode_of_bits (m := (320 * 4194304 + d.toNat * 32768 + a.toNat * 256 + s.toNat * 16 + c.toNat)) rfl fun bs hn => by
    have ⟨ho, hc, e0, e1, e2, e3⟩ := bits_atom (k := 320) (by decide) d.isLt a.isLt s.isLt c.isLt hn
    rw [decodeNat_5 hc, decode5, ho]
    show some (Instr.atom _ _ _ _) = _
    rw [fld_of e0, fld_of e1, fld_of e2, fld_of e3]

theorem RoundTrip.fence (s : BitVec 4) (c : BitVec 4) : RoundTrip.Statement (.fence s c) := fun _ =>
  decode_of_bits (m := (321 * 4194304 + s.toNat * 16 + c.toNat)) rfl fun bs hn => by
    have ⟨ho, hc, e0, e1, g0⟩ := bits_fence (k := 321) (by decide) s.isLt c.isLt hn
    rw [decodeNat_5 hc, decode5, ho]
    exact (want_of (fixedAt_of g0)).trans (by rw [fld_of e0, fld_of e1])

theorem RoundTrip.ld (d : BitVec 7) (a : BitVec 7) (o : BitVec 5) (z : BitVec 2) (f : BitVec 1) : RoundTrip.Statement (.ld d a o z f) := fun _ =>
  decode_of_bits (m := (322 * 4194304 + d.toNat * 32768 + a.toNat * 256 + o.toNat * 8 + z.toNat * 2 + f.toNat)) rfl fun bs hn => by
    have ⟨ho, hc, e0, e1, e2, e3, e4⟩ := bits_ld (k := 322) (by decide) d.isLt a.isLt o.isLt z.isLt f.isLt hn
    rw [decodeNat_5 hc, decode5, ho]
    show some (Instr.ld _ _ _ _ _) = _
    rw [fld_of e0, fld_of e1, fld_of e2, fld_of e3, fld_of e4]

theorem RoundTrip.lda (d : BitVec 7) (a : BitVec 7) (z : BitVec 2) (r : BitVec 1) (f : BitVec 1) (c : BitVec 4) : RoundTrip.Statement (.lda d a z r f c) := fun _ =>
  decode_of_bits (m := (323 * 4194304 + d.toNat * 32768 + a.toNat * 256 + z.toNat * 64 + r.toNat * 32 + f.toNat * 16 + c.toNat)) rfl fun bs hn => by
    have ⟨ho, hc, e0, e1, e2, e3, e4, e5⟩ := bits_lda (k := 323) (by decide) d.isLt a.isLt z.isLt r.isLt f.isLt c.isLt hn
    rw [decodeNat_5 hc, decode5, ho]
    show some (Instr.lda _ _ _ _ _ _) = _
    rw [fld_of e0, fld_of e1, fld_of e2, fld_of e3, fld_of e4, fld_of e5]

theorem RoundTrip.ldc (d : BitVec 7) (a : BitVec 7) (o : BitVec 5) (z : BitVec 2) (f : BitVec 1) : RoundTrip.Statement (.ldc d a o z f) := fun _ =>
  decode_of_bits (m := (324 * 4194304 + d.toNat * 32768 + a.toNat * 256 + o.toNat * 8 + z.toNat * 2 + f.toNat)) rfl fun bs hn => by
    have ⟨ho, hc, e0, e1, e2, e3, e4⟩ := bits_ld (k := 324) (by decide) d.isLt a.isLt o.isLt z.isLt f.isLt hn
    rw [decodeNat_5 hc, decode5, ho]
    show some (Instr.ldc _ _ _ _ _) = _
    rw [fld_of e0, fld_of e1, fld_of e2, fld_of e3, fld_of e4]

theorem RoundTrip.scat (d : BitVec 7) (a : BitVec 7) (o : BitVec 5) (z : BitVec 2) : RoundTrip.Statement (.scat d a o z) := fun _ =>
  decode_of_bits (m := (325 * 4194304 + d.toNat * 32768 + a.toNat * 256 + o.toNat * 8 + z.toNat * 2)) rfl fun bs hn => by
    have ⟨ho, hc, e0, e1, e2, e3, g0⟩ := bits_scat (k := 325) (by decide) d.isLt a.isLt o.isLt z.isLt hn
    rw [decodeNat_5 hc, decode5, ho]
    exact (want_of (fixedAt_of g0)).trans (by rw [fld_of e0, fld_of e1, fld_of e2, fld_of e3])

theorem RoundTrip.scatb : RoundTrip.Statement (.scatb) := fun _ =>
  decode_of_bits (m := (326 * 4194304)) rfl fun bs hn => by
    have ⟨ho, hc, g0⟩ := bits_endSplit (k := 326) (by decide) hn
    rw [decodeNat_5 hc, decode5, ho]
    exact (want_of (fixedAt_of g0)).trans rfl

theorem RoundTrip.sld (d : BitVec 7) (a : BitVec 7) (o : BitVec 5) (z : BitVec 2) (f : BitVec 1) : RoundTrip.Statement (.sld d a o z f) := fun _ =>
  decode_of_bits (m := (327 * 4194304 + d.toNat * 32768 + a.toNat * 256 + o.toNat * 8 + z.toNat * 2 + f.toNat)) rfl fun bs hn => by
    have ⟨ho, hc, e0, e1, e2, e3, e4⟩ := bits_ld (k := 327) (by decide) d.isLt a.isLt o.isLt z.isLt f.isLt hn
    rw [decodeNat_5 hc, decode5, ho]
    show some (Instr.sld _ _ _ _ _) = _
    rw [fld_of e0, fld_of e1, fld_of e2, fld_of e3, fld_of e4]

theorem RoundTrip.sst (d : BitVec 7) (a : BitVec 7) (o : BitVec 5) (z : BitVec 2) : RoundTrip.Statement (.sst d a o z) := fun _ =>
  decode_of_bits (m := (328 * 4194304 + d.toNat * 32768 + a.toNat * 256 + o.toNat * 8 + z.toNat * 2)) rfl fun bs hn => by
    have ⟨ho, hc, e0, e1, e2, e3, g0⟩ := bits_scat (k := 328) (by decide) d.isLt a.isLt o.isLt z.isLt hn
    rw [decodeNat_5 hc, decode5, ho]
    exact (want_of (fixedAt_of g0)).trans (by rw [fld_of e0, fld_of e1, fld_of e2, fld_of e3])

theorem RoundTrip.st (d : BitVec 7) (a : BitVec 7) (o : BitVec 5) (z : BitVec 2) : RoundTrip.Statement (.st d a o z) := fun _ =>
  decode_of_bits (m := (329 * 4194304 + d.toNat * 32768 + a.toNat * 256 + o.toNat * 8 + z.toNat * 2)) rfl fun bs hn => by
    have ⟨ho, hc, e0, e1, e2, e3, g0⟩ := bits_scat (k := 329) (by decide) d.isLt a.isLt o.isLt z.isLt hn
    rw [decodeNat_5 hc, decode5, ho]
    exact (want_of (fixedAt_of g0)).trans (by rw [fld_of e0, fld_of e1, fld_of e2, fld_of e3])

theorem RoundTrip.stl (d : BitVec 7) (a : BitVec 7) (z : BitVec 2) (c : BitVec 4) : RoundTrip.Statement (.stl d a z c) := fun _ =>
  decode_of_bits (m := (330 * 4194304 + d.toNat * 32768 + a.toNat * 256 + z.toNat * 64 + c.toNat)) rfl fun bs hn => by
    have ⟨ho, hc, e0, e1, e2, e3, g0⟩ := bits_stl (k := 330) (by decide) d.isLt a.isLt z.isLt c.isLt hn
    rw [decodeNat_5 hc, decode5, ho]
    exact (want_of (fixedAt_of g0)).trans (by rw [fld_of e0, fld_of e1, fld_of e2, fld_of e3])

theorem RoundTrip.cpy (d : BitVec 7) (a : BitVec 7) (q : BitVec 3) (f : BitVec 1) : RoundTrip.Statement (.cpy d a q f) := fun _ =>
  decode_of_bits (m := (384 * 4194304 + d.toNat * 32768 + a.toNat * 256 + q.toNat * 32 + f.toNat * 16)) rfl fun bs hn => by
    have ⟨ho, hc, e0, e1, e2, e3, g0⟩ := bits_cpy (k := 384) (by decide) d.isLt a.isLt q.isLt f.isLt hn
    rw [decodeNat_6 hc, decode6, ho]
    exact (want_of (fixedAt_of g0)).trans (by rw [fld_of e0, fld_of e1, fld_of e2, fld_of e3])

theorem RoundTrip.cqbar (a : BitVec 7) : RoundTrip.Statement (.cqbar a) := fun _ =>
  decode_of_bits (m := (385 * 4194304 + a.toNat * 256)) rfl fun bs hn => by
    have ⟨ho, hc, e0, g0, g1⟩ := bits_cqbar (k := 385) (by decide) a.isLt hn
    rw [decodeNat_6 hc, decode6, ho]
    exact (want_of (Bool.and_eq_true_iff.mpr ⟨fixedAt_of g0, fixedAt_of g1⟩)).trans (by rw [fld_of e0])

theorem RoundTrip.tdsc (t : BitVec 5) (a : BitVec 7) : RoundTrip.Statement (.tdsc t a) := fun _ =>
  decode_of_bits (m := (386 * 4194304 + t.toNat * 32768 + a.toNat * 256)) rfl fun bs hn => by
    have ⟨ho, hc, e0, e1, g0, g1⟩ := bits_tdsc (k := 386) (by decide) t.isLt a.isLt hn
    rw [decodeNat_6 hc, decode6, ho]
    exact (want_of (Bool.and_eq_true_iff.mpr ⟨fixedAt_of g0, fixedAt_of g1⟩)).trans (by rw [fld_of e0, fld_of e1])

theorem RoundTrip.tfree (t : BitVec 5) : RoundTrip.Statement (.tfree t) := fun _ =>
  decode_of_bits (m := (387 * 4194304 + t.toNat * 32768)) rfl fun bs hn => by
    have ⟨ho, hc, e0, g0, g1⟩ := bits_tfree (k := 387) (by decide) t.isLt hn
    rw [decodeNat_6 hc, decode6, ho]
    exact (want_of (Bool.and_eq_true_iff.mpr ⟨fixedAt_of g0, fixedAt_of g1⟩)).trans (by rw [fld_of e0])

theorem RoundTrip.tld (t : BitVec 5) (a : BitVec 7) (r : BitVec 1) (f : BitVec 1) : RoundTrip.Statement (.tld t a r f) := fun _ =>
  decode_of_bits (m := (388 * 4194304 + t.toNat * 32768 + a.toNat * 256 + r.toNat * 32 + f.toNat * 16)) rfl fun bs hn => by
    have ⟨ho, hc, e0, e1, e2, e3, g0, g1, g2⟩ := bits_tld (k := 388) (by decide) t.isLt a.isLt r.isLt f.isLt hn
    rw [decodeNat_6 hc, decode6, ho]
    exact (want_of (Bool.and_eq_true_iff.mpr ⟨Bool.and_eq_true_iff.mpr ⟨fixedAt_of g0, fixedAt_of g1⟩, fixedAt_of g2⟩)).trans (by rw [fld_of e0, fld_of e1, fld_of e2, fld_of e3])

theorem RoundTrip.tst (t : BitVec 5) (a : BitVec 7) (f : BitVec 1) : RoundTrip.Statement (.tst t a f) := fun _ =>
  decode_of_bits (m := (389 * 4194304 + t.toNat * 32768 + a.toNat * 256 + f.toNat * 16)) rfl fun bs hn => by
    have ⟨ho, hc, e0, e1, e2, g0, g1, g2⟩ := bits_tst (k := 389) (by decide) t.isLt a.isLt f.isLt hn
    rw [decodeNat_6 hc, decode6, ho]
    exact (want_of (Bool.and_eq_true_iff.mpr ⟨Bool.and_eq_true_iff.mpr ⟨fixedAt_of g0, fixedAt_of g1⟩, fixedAt_of g2⟩)).trans (by rw [fld_of e0, fld_of e1, fld_of e2])

theorem RoundTrip.tstat (d : BitVec 7) (t : BitVec 5) : RoundTrip.Statement (.tstat d t) := fun _ =>
  decode_of_bits (m := (390 * 4194304 + d.toNat * 32768 + t.toNat * 256)) rfl fun bs hn => by
    have ⟨ho, hc, e0, e1, g0, g1⟩ := bits_tstat (k := 390) (by decide) d.isLt t.isLt hn
    rw [decodeNat_6 hc, decode6, ho]
    exact (want_of (Bool.and_eq_true_iff.mpr ⟨fixedAt_of g0, fixedAt_of g1⟩)).trans (by rw [fld_of e0, fld_of e1])

theorem RoundTrip.twait (t : BitVec 5) : RoundTrip.Statement (.twait t) := fun _ =>
  decode_of_bits (m := (391 * 4194304 + t.toNat * 32768)) rfl fun bs hn => by
    have ⟨ho, hc, e0, g0, g1⟩ := bits_tfree (k := 391) (by decide) t.isLt hn
    rw [decodeNat_6 hc, decode6, ho]
    exact (want_of (Bool.and_eq_true_iff.mpr ⟨fixedAt_of g0, fixedAt_of g1⟩)).trans (by rw [fld_of e0])

theorem RoundTrip.wsref (d : BitVec 7) (a : BitVec 7) : RoundTrip.Statement (.wsref d a) := fun _ =>
  decode_of_bits (m := (392 * 4194304 + d.toNat * 32768 + a.toNat * 256)) rfl fun bs hn => by
    have ⟨ho, hc, e0, e1, g0⟩ := bits_sclz (k := 392) (by decide) d.isLt a.isLt hn
    rw [decodeNat_6 hc, decode6, ho]
    exact (want_of (fixedAt_of g0)).trans (by rw [fld_of e0, fld_of e1])

theorem RoundTrip.aclr (d : BitVec 4) : RoundTrip.Statement (.aclr d) := fun _ =>
  decode_of_bits (m := (448 * 4194304 + d.toNat * 32768)) rfl fun bs hn => by
    have ⟨ho, hc, e0, g0, g1⟩ := bits_aclr (k := 448) (by decide) d.isLt hn
    rw [decodeNat_7 hc, decode7, ho]
    exact (want_of (Bool.and_eq_true_iff.mpr ⟨fixedAt_of g0, fixedAt_of g1⟩)).trans (by rw [fld_of e0])

theorem RoundTrip.adrn (t : BitVec 5) (a : BitVec 4) : RoundTrip.Statement (.adrn t a) := fun _ =>
  decode_of_bits (m := (449 * 4194304 + t.toNat * 32768 + a.toNat * 256)) rfl fun bs hn => by
    have ⟨ho, hc, e0, e1, g0, g1, g2⟩ := bits_adrn (k := 449) (by decide) t.isLt a.isLt hn
    rw [decodeNat_7 hc, decode7, ho]
    exact (want_of (Bool.and_eq_true_iff.mpr ⟨Bool.and_eq_true_iff.mpr ⟨fixedAt_of g0, fixedAt_of g1⟩, fixedAt_of g2⟩)).trans (by rw [fld_of e0, fld_of e1])

theorem RoundTrip.mlease (d : BitVec 7) (a : BitVec 7) : RoundTrip.Statement (.mlease d a) := fun _ =>
  decode_of_bits (m := (450 * 4194304 + d.toNat * 32768 + a.toNat * 256)) rfl fun bs hn => by
    have ⟨ho, hc, e0, e1, g0⟩ := bits_sclz (k := 450) (by decide) d.isLt a.isLt hn
    rw [decodeNat_7 hc, decode7, ho]
    exact (want_of (fixedAt_of g0)).trans (by rw [fld_of e0, fld_of e1])

theorem RoundTrip.mma (d : BitVec 4) (a : BitVec 5) (b : BitVec 5) : RoundTrip.Statement (.mma d a b) := fun _ =>
  decode_of_bits (m := (451 * 4194304 + d.toNat * 32768 + a.toNat * 256 + b.toNat * 8)) rfl fun bs hn => by
    have ⟨ho, hc, e0, e1, e2, g0, g1, g2⟩ := bits_mma (k := 451) (by decide) d.isLt a.isLt b.isLt hn
    rw [decodeNat_7 hc, decode7, ho]
    exact (want_of (Bool.and_eq_true_iff.mpr ⟨Bool.and_eq_true_iff.mpr ⟨fixedAt_of g0, fixedAt_of g1⟩, fixedAt_of g2⟩)).trans (by rw [fld_of e0, fld_of e1, fld_of e2])

theorem RoundTrip.mmas (d : BitVec 4) (a : BitVec 5) (b : BitVec 5) : RoundTrip.Statement (.mmas d a b) := fun _ =>
  decode_of_bits (m := (452 * 4194304 + d.toNat * 32768 + a.toNat * 256 + b.toNat * 8)) rfl fun bs hn => by
    have ⟨ho, hc, e0, e1, e2, g0, g1, g2⟩ := bits_mma (k := 452) (by decide) d.isLt a.isLt b.isLt hn
    rw [decodeNat_7 hc, decode7, ho]
    exact (want_of (Bool.and_eq_true_iff.mpr ⟨Bool.and_eq_true_iff.mpr ⟨fixedAt_of g0, fixedAt_of g1⟩, fixedAt_of g2⟩)).trans (by rw [fld_of e0, fld_of e1, fld_of e2])

theorem RoundTrip.mrel (a : BitVec 7) : RoundTrip.Statement (.mrel a) := fun _ =>
  decode_of_bits (m := (453 * 4194304 + a.toNat * 256)) rfl fun bs hn => by
    have ⟨ho, hc, e0, g0, g1⟩ := bits_cqbar (k := 453) (by decide) a.isLt hn
    rw [decodeNat_7 hc, decode7, ho]
    exact (want_of (Bool.and_eq_true_iff.mpr ⟨fixedAt_of g0, fixedAt_of g1⟩)).trans (by rw [fld_of e0])

theorem RoundTrip.bara (a : BitVec 7) (b : BitVec 7) : RoundTrip.Statement (.bara a b) := fun _ =>
  decode_of_bits (m := (512 * 4194304 + a.toNat * 256 + b.toNat)) rfl fun bs hn => by
    have ⟨ho, hc, e0, e1, g0, g1⟩ := bits_bara (k := 512) (by decide) a.isLt b.isLt hn
    rw [decodeNat_8 hc, decode8, ho]
    exact (want_of (Bool.and_eq_true_iff.mpr ⟨fixedAt_of g0, fixedAt_of g1⟩)).trans (by rw [fld_of e0, fld_of e1])

theorem RoundTrip.bars (a : BitVec 7) (b : BitVec 7) : RoundTrip.Statement (.bars a b) := fun _ =>
  decode_of_bits (m := (513 * 4194304 + a.toNat * 256 + b.toNat)) rfl fun bs hn => by
    have ⟨ho, hc, e0, e1, g0, g1⟩ := bits_bara (k := 513) (by decide) a.isLt b.isLt hn
    rw [decodeNat_8 hc, decode8, ho]
    exact (want_of (Bool.and_eq_true_iff.mpr ⟨fixedAt_of g0, fixedAt_of g1⟩)).trans (by rw [fld_of e0, fld_of e1])

theorem RoundTrip.barw (a : BitVec 7) (b : BitVec 7) : RoundTrip.Statement (.barw a b) := fun _ =>
  decode_of_bits (m := (514 * 4194304 + a.toNat * 256 + b.toNat)) rfl fun bs hn => by
    have ⟨ho, hc, e0, e1, g0, g1⟩ := bits_bara (k := 514) (by decide) a.isLt b.isLt hn
    rw [decodeNat_8 hc, decode8, ho]
    exact (want_of (Bool.and_eq_true_iff.mpr ⟨fixedAt_of g0, fixedAt_of g1⟩)).trans (by rw [fld_of e0, fld_of e1])

theorem RoundTrip.coll (d : BitVec 7) (a : BitVec 7) (o : BitVec 3) (f : BitVec 1) (c : BitVec 4) : RoundTrip.Statement (.coll d a o f c) := fun _ =>
  decode_of_bits (m := (515 * 4194304 + d.toNat * 32768 + a.toNat * 256 + o.toNat * 32 + f.toNat * 16 + c.toNat)) rfl fun bs hn => by
    have ⟨ho, hc, e0, e1, e2, e3, e4⟩ := bits_coll (k := 515) (by decide) d.isLt a.isLt o.isLt f.isLt c.isLt hn
    rw [decodeNat_8 hc, decode8, ho]
    show some (Instr.coll _ _ _ _ _) = _
    rw [fld_of e0, fld_of e1, fld_of e2, fld_of e3, fld_of e4]

theorem RoundTrip.join (q : BitVec 4) : RoundTrip.Statement (.join q) := fun _ =>
  decode_of_bits (m := (516 * 4194304 + q.toNat)) rfl fun bs hn => by
    have ⟨ho, hc, e0, g0⟩ := bits_join (k := 516) (by decide) q.isLt hn
    rw [decodeNat_8 hc, decode8, ho]
    exact (want_of (fixedAt_of g0)).trans (by rw [fld_of e0])

theorem RoundTrip.leave (q : BitVec 4) : RoundTrip.Statement (.leave q) := fun _ =>
  decode_of_bits (m := (517 * 4194304 + q.toNat)) rfl fun bs hn => by
    have ⟨ho, hc, e0, g0⟩ := bits_join (k := 517) (by decide) q.isLt hn
    rw [decodeNat_8 hc, decode8, ho]
    exact (want_of (fixedAt_of g0)).trans (by rw [fld_of e0])

theorem RoundTrip.occq (d : BitVec 7) (a : BitVec 7) (f : BitVec 1) (c : BitVec 4) : RoundTrip.Statement (.occq d a f c) := fun _ =>
  decode_of_bits (m := (518 * 4194304 + d.toNat * 32768 + a.toNat * 256 + f.toNat * 16 + c.toNat)) rfl fun bs hn => by
    have ⟨ho, hc, e0, e1, e2, e3, g0⟩ := bits_occq (k := 518) (by decide) d.isLt a.isLt f.isLt c.isLt hn
    rw [decodeNat_8 hc, decode8, ho]
    exact (want_of (fixedAt_of g0)).trans (by rw [fld_of e0, fld_of e1, fld_of e2, fld_of e3])

theorem RoundTrip.post (d : BitVec 7) (a : BitVec 7) (s : BitVec 4) : RoundTrip.Statement (.post d a s) := fun _ =>
  decode_of_bits (m := (519 * 4194304 + d.toNat * 32768 + a.toNat * 256 + s.toNat * 16)) rfl fun bs hn => by
    have ⟨ho, hc, e0, e1, e2, g0⟩ := bits_post (k := 519) (by decide) d.isLt a.isLt s.isLt hn
    rw [decodeNat_8 hc, decode8, ho]
    exact (want_of (fixedAt_of g0)).trans (by rw [fld_of e0, fld_of e1, fld_of e2])

theorem RoundTrip.qcfg (d : BitVec 7) (a : BitVec 7) : RoundTrip.Statement (.qcfg d a) := fun _ =>
  decode_of_bits (m := (520 * 4194304 + d.toNat * 32768 + a.toNat * 256)) rfl fun bs hn => by
    have ⟨ho, hc, e0, e1, g0⟩ := bits_sclz (k := 520) (by decide) d.isLt a.isLt hn
    rw [decodeNat_8 hc, decode8, ho]
    exact (want_of (fixedAt_of g0)).trans (by rw [fld_of e0, fld_of e1])

theorem RoundTrip.edgs (d : BitVec 7) (a : BitVec 7) (f : BitVec 1) : RoundTrip.Statement (.edgs d a f) := fun _ =>
  decode_of_bits (m := (576 * 4194304 + d.toNat * 32768 + a.toNat * 256 + f.toNat * 16)) rfl fun bs hn => by
    have ⟨ho, hc, e0, e1, e2, g0, g1⟩ := bits_edgs (k := 576) (by decide) d.isLt a.isLt f.isLt hn
    rw [decodeNat_9 hc, decode9, ho]
    exact (want_of (Bool.and_eq_true_iff.mpr ⟨fixedAt_of g0, fixedAt_of g1⟩)).trans (by rw [fld_of e0, fld_of e1, fld_of e2])

theorem RoundTrip.prim (d : BitVec 7) (a : BitVec 7) (m : BitVec 2) : RoundTrip.Statement (.prim d a m) := fun _ =>
  decode_of_bits (m := (577 * 4194304 + d.toNat * 32768 + a.toNat * 256 + m.toNat * 16)) rfl fun bs hn => by
    have ⟨ho, hc, e0, e1, e2, g0, g1⟩ := bits_prim (k := 577) (by decide) d.isLt a.isLt m.isLt hn
    rw [decodeNat_9 hc, decode9, ho]
    exact (want_of (Bool.and_eq_true_iff.mpr ⟨fixedAt_of g0, fixedAt_of g1⟩)).trans (by rw [fld_of e0, fld_of e1, fld_of e2])

theorem RoundTrip.rasadj (d : BitVec 7) (a : BitVec 7) : RoundTrip.Statement (.rasadj d a) := fun _ =>
  decode_of_bits (m := (578 * 4194304 + d.toNat * 32768 + a.toNat * 256)) rfl fun bs hn => by
    have ⟨ho, hc, e0, e1, g0⟩ := bits_sclz (k := 578) (by decide) d.isLt a.isLt hn
    rw [decodeNat_9 hc, decode9, ho]
    exact (want_of (fixedAt_of g0)).trans (by rw [fld_of e0, fld_of e1])

theorem RoundTrip.rtadj (d : BitVec 7) (a : BitVec 7) : RoundTrip.Statement (.rtadj d a) := fun _ =>
  decode_of_bits (m := (579 * 4194304 + d.toNat * 32768 + a.toNat * 256)) rfl fun bs hn => by
    have ⟨ho, hc, e0, e1, g0⟩ := bits_sclz (k := 579) (by decide) d.isLt a.isLt hn
    rw [decodeNat_9 hc, decode9, ho]
    exact (want_of (fixedAt_of g0)).trans (by rw [fld_of e0, fld_of e1])

theorem RoundTrip.rtini (d : BitVec 7) (a : BitVec 7) : RoundTrip.Statement (.rtini d a) := fun _ =>
  decode_of_bits (m := (580 * 4194304 + d.toNat * 32768 + a.toNat * 256)) rfl fun bs hn => by
    have ⟨ho, hc, e0, e1, g0⟩ := bits_sclz (k := 580) (by decide) d.isLt a.isLt hn
    rw [decodeNat_9 hc, decode9, ho]
    exact (want_of (fixedAt_of g0)).trans (by rw [fld_of e0, fld_of e1])

theorem RoundTrip.rtstep (d : BitVec 7) (a : BitVec 7) (f : BitVec 1) : RoundTrip.Statement (.rtstep d a f) := fun _ =>
  decode_of_bits (m := (581 * 4194304 + d.toNat * 32768 + a.toNat * 256 + f.toNat * 16)) rfl fun bs hn => by
    have ⟨ho, hc, e0, e1, e2, g0, g1⟩ := bits_edgs (k := 581) (by decide) d.isLt a.isLt f.isLt hn
    rw [decodeNat_9 hc, decode9, ho]
    exact (want_of (Bool.and_eq_true_iff.mpr ⟨fixedAt_of g0, fixedAt_of g1⟩)).trans (by rw [fld_of e0, fld_of e1, fld_of e2])

theorem RoundTrip.spladj (d : BitVec 7) (a : BitVec 7) (f : BitVec 1) : RoundTrip.Statement (.spladj d a f) := fun _ =>
  decode_of_bits (m := (582 * 4194304 + d.toNat * 32768 + a.toNat * 256 + f.toNat * 16)) rfl fun bs hn => by
    have ⟨ho, hc, e0, e1, e2, g0, g1⟩ := bits_edgs (k := 582) (by decide) d.isLt a.isLt f.isLt hn
    rw [decodeNat_9 hc, decode9, ho]
    exact (want_of (Bool.and_eq_true_iff.mpr ⟨fixedAt_of g0, fixedAt_of g1⟩)).trans (by rw [fld_of e0, fld_of e1, fld_of e2])

theorem RoundTrip.splc (d : BitVec 7) (a : BitVec 7) (f : BitVec 1) : RoundTrip.Statement (.splc d a f) := fun _ =>
  decode_of_bits (m := (583 * 4194304 + d.toNat * 32768 + a.toNat * 256 + f.toNat * 16)) rfl fun bs hn => by
    have ⟨ho, hc, e0, e1, e2, g0, g1⟩ := bits_edgs (k := 583) (by decide) d.isLt a.isLt f.isLt hn
    rw [decodeNat_9 hc, decode9, ho]
    exact (want_of (Bool.and_eq_true_iff.mpr ⟨fixedAt_of g0, fixedAt_of g1⟩)).trans (by rw [fld_of e0, fld_of e1, fld_of e2])

theorem RoundTrip.spls (d : BitVec 7) (a : BitVec 7) (f : BitVec 1) : RoundTrip.Statement (.spls d a f) := fun _ =>
  decode_of_bits (m := (584 * 4194304 + d.toNat * 32768 + a.toNat * 256 + f.toNat * 16)) rfl fun bs hn => by
    have ⟨ho, hc, e0, e1, e2, g0, g1⟩ := bits_edgs (k := 584) (by decide) d.isLt a.isLt f.isLt hn
    rw [decodeNat_9 hc, decode9, ho]
    exact (want_of (Bool.and_eq_true_iff.mpr ⟨fixedAt_of g0, fixedAt_of g1⟩)).trans (by rw [fld_of e0, fld_of e1, fld_of e2])

theorem RoundTrip.tex (d : BitVec 7) (a : BitVec 7) (t : BitVec 3) (f : BitVec 1) (m : BitVec 2) : RoundTrip.Statement (.tex d a t f m) := fun _ =>
  decode_of_bits (m := (585 * 4194304 + d.toNat * 32768 + a.toNat * 256 + t.toNat * 32 + f.toNat * 16 + m.toNat)) rfl fun bs hn => by
    have ⟨ho, hc, e0, e1, e2, e3, e4, g0⟩ := bits_tex (k := 585) (by decide) d.isLt a.isLt t.isLt f.isLt m.isLt hn
    rw [decodeNat_9 hc, decode9, ho]
    exact (want_of (fixedAt_of g0)).trans (by rw [fld_of e0, fld_of e1, fld_of e2, fld_of e3, fld_of e4])

theorem RoundTrip.texadj (d : BitVec 7) (a : BitVec 7) (t : BitVec 3) (f : BitVec 1) (m : BitVec 2) : RoundTrip.Statement (.texadj d a t f m) := fun _ =>
  decode_of_bits (m := (586 * 4194304 + d.toNat * 32768 + a.toNat * 256 + t.toNat * 32 + f.toNat * 16 + m.toNat)) rfl fun bs hn => by
    have ⟨ho, hc, e0, e1, e2, e3, e4, g0⟩ := bits_tex (k := 586) (by decide) d.isLt a.isLt t.isLt f.isLt m.isLt hn
    rw [decodeNat_9 hc, decode9, ho]
    exact (want_of (fixedAt_of g0)).trans (by rw [fld_of e0, fld_of e1, fld_of e2, fld_of e3, fld_of e4])

theorem RoundTrip.tcls : RoundTrip.Statement (.tcls) := fun _ =>
  decode_of_bits (m := (640 * 4194304)) rfl fun bs hn => by
    have ⟨ho, hc, g0⟩ := bits_endSplit (k := 640) (by decide) hn
    rw [decodeNat_A hc, decodeA, ho]
    exact (want_of (fixedAt_of g0)).trans rfl

theorem RoundTrip.tmark : RoundTrip.Statement (.tmark) := fun _ =>
  decode_of_bits (m := (641 * 4194304)) rfl fun bs hn => by
    have ⟨ho, hc, g0⟩ := bits_endSplit (k := 641) (by decide) hn
    rw [decodeNat_A hc, decodeA, ho]
    exact (want_of (fixedAt_of g0)).trans rfl

theorem RoundTrip.tpop (d : BitVec 7) (a : BitVec 7) (f : BitVec 1) : RoundTrip.Statement (.tpop d a f) := fun _ =>
  decode_of_bits (m := (642 * 4194304 + d.toNat * 32768 + a.toNat * 256 + f.toNat * 16)) rfl fun bs hn => by
    have ⟨ho, hc, e0, e1, e2, g0, g1⟩ := bits_edgs (k := 642) (by decide) d.isLt a.isLt f.isLt hn
    rw [decodeNat_A hc, decodeA, ho]
    exact (want_of (Bool.and_eq_true_iff.mpr ⟨fixedAt_of g0, fixedAt_of g1⟩)).trans (by rw [fld_of e0, fld_of e1, fld_of e2])

theorem RoundTrip.trec (d : BitVec 7) (a : BitVec 7) : RoundTrip.Statement (.trec d a) := fun _ =>
  decode_of_bits (m := (643 * 4194304 + d.toNat * 32768 + a.toNat * 256)) rfl fun bs hn => by
    have ⟨ho, hc, e0, e1, g0⟩ := bits_sclz (k := 643) (by decide) d.isLt a.isLt hn
    rw [decodeNat_A hc, decodeA, ho]
    exact (want_of (fixedAt_of g0)).trans (by rw [fld_of e0, fld_of e1])

theorem RoundTrip.tspan (d : BitVec 7) (n : BitVec 4) (r : BitVec 1) : RoundTrip.Statement (.tspan d n r) := fun _ =>
  decode_of_bits (m := (644 * 4194304 + d.toNat * 32768 + n.toNat * 16 + r.toNat)) rfl fun bs hn => by
    have ⟨ho, hc, e0, e1, e2, g0, g1⟩ := bits_tspan (k := 644) (by decide) d.isLt n.isLt r.isLt hn
    rw [decodeNat_A hc, decodeA, ho]
    exact (want_of (Bool.and_eq_true_iff.mpr ⟨fixedAt_of g0, fixedAt_of g1⟩)).trans (by rw [fld_of e0, fld_of e1, fld_of e2])

theorem RoundTrip.grow (n : BitVec 8) : RoundTrip.Statement (.grow n) := fun _ =>
  decode_of_bits (m := (704 * 4194304 + n.toNat)) rfl fun bs hn => by
    have ⟨ho, hc, e0, g0⟩ := bits_grow (k := 704) (by decide) n.isLt hn
    rw [decodeNat_B hc, decodeB, ho]
    exact (want_of (fixedAt_of g0)).trans (by rw [fld_of e0])

theorem RoundTrip.shrink (n : BitVec 8) : RoundTrip.Statement (.shrink n) := fun _ =>
  decode_of_bits (m := (705 * 4194304 + n.toNat)) rfl fun bs hn => by
    have ⟨ho, hc, e0, g0⟩ := bits_grow (k := 705) (by decide) n.isLt hn
    rw [decodeNat_B hc, decodeB, ho]
    exact (want_of (fixedAt_of g0)).trans (by rw [fld_of e0])

theorem RoundTrip.trap (c : BitVec 8) : RoundTrip.Statement (.trap c) := fun _ =>
  decode_of_bits (m := (706 * 4194304 + c.toNat)) rfl fun bs hn => by
    have ⟨ho, hc, e0, g0⟩ := bits_grow (k := 706) (by decide) c.isLt hn
    rw [decodeNat_B hc, decodeB, ho]
    exact (want_of (fixedAt_of g0)).trans (by rw [fld_of e0])

theorem RoundTrip.tret (n : BitVec 1) : RoundTrip.Statement (.tret n) := fun _ =>
  decode_of_bits (m := (707 * 4194304 + n.toNat)) rfl fun bs hn => by
    have ⟨ho, hc, e0, g0⟩ := bits_tret (k := 707) (by decide) n.isLt hn
    rw [decodeNat_B hc, decodeB, ho]
    exact (want_of (fixedAt_of g0)).trans (by rw [fld_of e0])

theorem RoundTrip.xrd (d : BitVec 7) (i : BitVec 8) : RoundTrip.Statement (.xrd d i) := fun _ =>
  decode_of_bits (m := (708 * 4194304 + d.toNat * 32768 + i.toNat)) rfl fun bs hn => by
    have ⟨ho, hc, e0, e1, g0⟩ := bits_xrd (k := 708) (by decide) d.isLt i.isLt hn
    rw [decodeNat_B hc, decodeB, ho]
    exact (want_of (fixedAt_of g0)).trans (by rw [fld_of e0, fld_of e1])

theorem RoundTrip.xwr (a : BitVec 7) (i : BitVec 8) : RoundTrip.Statement (.xwr a i) := fun _ =>
  decode_of_bits (m := (709 * 4194304 + a.toNat * 256 + i.toNat)) rfl fun bs hn => by
    have ⟨ho, hc, e0, e1, g0⟩ := bits_xwr (k := 709) (by decide) a.isLt i.isLt hn
    rw [decodeNat_B hc, decodeB, ho]
    exact (want_of (fixedAt_of g0)).trans (by rw [fld_of e0, fld_of e1])

theorem RoundTrip.rafInvalidate (r : BitVec 4) : RoundTrip.Statement (.rafInvalidate r) := fun h => by cases h

theorem RoundTrip.doorbell (q : BitVec 6) (tail : BitVec 64) : RoundTrip.Statement (.doorbell q tail) := fun h => by cases h

theorem RoundTrip.fqhead (v : BitVec 64) : RoundTrip.Statement (.fqhead v) := fun h => by cases h

theorem RoundTrip.registerWrite (off : Nat) (v : Word) : RoundTrip.Statement (.registerWrite off v) := fun h => by cases h

theorem RoundTrip.queueConfig : RoundTrip.Statement (.queueConfig) := fun h => by cases h

theorem RoundTrip.contextArea : RoundTrip.Statement (.contextArea) := fun h => by cases h

theorem RoundTrip.scatterLog : RoundTrip.Statement (.scatterLog) := fun h => by cases h

theorem RoundTrip.faultQueue : RoundTrip.Statement (.faultQueue) := fun h => by cases h

theorem RoundTrip.resume : RoundTrip.Statement (.resume) := fun h => by cases h

theorem RoundTrip.kill : RoundTrip.Statement (.kill) := fun h => by cases h

theorem RoundTrip.podConfig : RoundTrip.Statement (.podConfig) := fun h => by cases h

theorem RoundTrip.clusterMap : RoundTrip.Statement (.clusterMap) := fun h => by cases h

theorem RoundTrip.blackboxRead : RoundTrip.Statement (.blackboxRead) := fun h => by cases h

theorem RoundTrip.selftestResult : RoundTrip.Statement (.selftestResult) := fun h => by cases h

theorem RoundTrip.firmwareUpdate (ok : Bool) : RoundTrip.Statement (.firmwareUpdate ok) := fun h => by cases h

theorem RoundTrip.attest (report : Addr) : RoundTrip.Statement (.attest report) := fun h => by cases h

theorem RoundTrip.launchStart (q : BitVec 6) : RoundTrip.Statement (.launchStart q) := fun h => by cases h

theorem RoundTrip.queueBarrier (q : BitVec 6) : RoundTrip.Statement (.queueBarrier q) := fun h => by cases h

theorem RoundTrip.queueBarrierComplete (q : BitVec 6) : RoundTrip.Statement (.queueBarrierComplete q) := fun h => by cases h

theorem RoundTrip.waveAdmission (l : Nat) (place : Nat) : RoundTrip.Statement (.waveAdmission l place) := fun h => by cases h

theorem RoundTrip.mccStreamStart (l : Nat) (cl : Nat) : RoundTrip.Statement (.mccStreamStart l cl) := fun h => by cases h

theorem RoundTrip.stageWaveDispatch (l : Nat) (stage : Nat) (cl : Nat) (place : Nat) : RoundTrip.Statement (.stageWaveDispatch l stage cl place) := fun h => by cases h

theorem RoundTrip.launchComplete (l : Nat) : RoundTrip.Statement (.launchComplete l) := fun h => by cases h

theorem RoundTrip.waveExchange (sid : Nat) : RoundTrip.Statement (.waveExchange sid) := fun h => by cases h

theorem RoundTrip.timesliceExchange (sid : Nat) : RoundTrip.Statement (.timesliceExchange sid) := fun h => by cases h

theorem RoundTrip.flagWaitRelease (sid : Nat) (k : Nat) : RoundTrip.Statement (.flagWaitRelease sid k) := fun h => by cases h

theorem RoundTrip.queueStallRelease (sid : Nat) (k : Nat) : RoundTrip.Statement (.queueStallRelease sid k) := fun h => by cases h

theorem RoundTrip.growGrant (sid : Nat) (k : Nat) : RoundTrip.Statement (.growGrant sid k) := fun h => by cases h

theorem RoundTrip.tileReadyRelease (sid : Nat) (k : Nat) : RoundTrip.Statement (.tileReadyRelease sid k) := fun h => by cases h

theorem RoundTrip.leaseGrant (cl : Nat) : RoundTrip.Statement (.leaseGrant cl) := fun h => by cases h

theorem RoundTrip.postPartitionGrant (sid : Nat) (k : Nat) : RoundTrip.Statement (.postPartitionGrant sid k) := fun h => by cases h

theorem RoundTrip.memoryLoadComplete (op : Nat) : RoundTrip.Statement (.memoryLoadComplete op) := fun h => by cases h

theorem RoundTrip.atomComplete (op : Nat) : RoundTrip.Statement (.atomComplete op) := fun h => by cases h

theorem RoundTrip.copyComplete (op : Nat) : RoundTrip.Statement (.copyComplete op) := fun h => by cases h

theorem RoundTrip.tileFillComplete (op : Nat) : RoundTrip.Statement (.tileFillComplete op) := fun h => by cases h

theorem RoundTrip.tileDrainComplete (op : Nat) : RoundTrip.Statement (.tileDrainComplete op) := fun h => by cases h

theorem RoundTrip.collMatch (op : Nat) (remote : List RemoteRank) : RoundTrip.Statement (.collMatch op remote) := fun h => by cases h

theorem RoundTrip.collChunkComplete (op : Nat) : RoundTrip.Statement (.collChunkComplete op) := fun h => by cases h

theorem RoundTrip.collComplete (op : Nat) : RoundTrip.Statement (.collComplete op) := fun h => by cases h

theorem RoundTrip.occqComplete (op : Nat) : RoundTrip.Statement (.occqComplete op) := fun h => by cases h

theorem RoundTrip.texComplete (op : Nat) : RoundTrip.Statement (.texComplete op) := fun h => by cases h

theorem RoundTrip.texadjComplete (op : Nat) : RoundTrip.Statement (.texadjComplete op) := fun h => by cases h

theorem RoundTrip.rtstepComplete (op : Nat) : RoundTrip.Statement (.rtstepComplete op) := fun h => by cases h

theorem RoundTrip.splatOpComplete (op : Nat) : RoundTrip.Statement (.splatOpComplete op) := fun h => by cases h

theorem RoundTrip.edgsComplete (op : Nat) : RoundTrip.Statement (.edgsComplete op) := fun h => by cases h

theorem RoundTrip.tpopComplete (op : Nat) : RoundTrip.Statement (.tpopComplete op) := fun h => by cases h

theorem RoundTrip.mmaChunkComplete (op : Nat) : RoundTrip.Statement (.mmaChunkComplete op) := fun h => by cases h

theorem RoundTrip.mmaComplete (op : Nat) : RoundTrip.Statement (.mmaComplete op) := fun h => by cases h

theorem RoundTrip.rasterThreadComplete (op : Nat) : RoundTrip.Statement (.rasterThreadComplete op) := fun h => by cases h

theorem RoundTrip.handlerLimit (sid : Nat) : RoundTrip.Statement (.handlerLimit sid) := fun h => by cases h

theorem RoundTrip.waveKill (sid : Nat) : RoundTrip.Statement (.waveKill sid) := fun h => by cases h

theorem RoundTrip.epochClose (l : Nat) : RoundTrip.Statement (.epochClose l) := fun h => by cases h

theorem RoundTrip.verifyReplay (l : Nat) (g : Nat) (cl : Nat) : RoundTrip.Statement (.verifyReplay l g cl) := fun h => by cases h

theorem RoundTrip.arbitration (l : Nat) (g : Nat) (cl : Nat) : RoundTrip.Statement (.arbitration l g cl) := fun h => by cases h

theorem RoundTrip.clusterCordon (phys : Nat) : RoundTrip.Statement (.clusterCordon phys) := fun h => by cases h

theorem RoundTrip.scoreDecay (phys : Nat) : RoundTrip.Statement (.scoreDecay phys) := fun h => by cases h

theorem RoundTrip.mccSave (sid : Nat) : RoundTrip.Statement (.mccSave sid) := fun h => by cases h

theorem RoundTrip.mccRestore (sid : Nat) : RoundTrip.Statement (.mccRestore sid) := fun h => by cases h

theorem RoundTrip.wsRefreshPhase (die : Nat) : RoundTrip.Statement (.wsRefreshPhase die) := fun h => by cases h

theorem RoundTrip.coldReset : RoundTrip.Statement (.coldReset) := fun h => by cases h

theorem RoundTrip.warmReset : RoundTrip.Statement (.warmReset) := fun h => by cases h

theorem RoundTrip.resetRelease : RoundTrip.Statement (.resetRelease) := fun h => by cases h

theorem RoundTrip.bootCheckComplete (ok : Bool) : RoundTrip.Statement (.bootCheckComplete ok) := fun h => by cases h

theorem RoundTrip.clusterSelftestResult (phys : Nat) (ok : Bool) : RoundTrip.Statement (.clusterSelftestResult phys ok) := fun h => by cases h

theorem RoundTrip.selftestFinish (part : Nat × Bool) : RoundTrip.Statement (.selftestFinish part) := fun h => by cases h

theorem RoundTrip.clusterClockRise (phys : Nat) : RoundTrip.Statement (.clusterClockRise phys) := fun h => by cases h

theorem RoundTrip.thermalResponse (die : Nat) (mhz : Nat) : RoundTrip.Statement (.thermalResponse die mhz) := fun h => by cases h

theorem RoundTrip.hostMemoryAccess (acc : OutsideAccess) : RoundTrip.Statement (.hostMemoryAccess acc) := fun h => by cases h

theorem RoundTrip.podRemoteAccess (acc : OutsideAccess) : RoundTrip.Statement (.podRemoteAccess acc) := fun h => by cases h

theorem RoundTrip.ualinkFlitRetry : RoundTrip.Statement (.ualinkFlitRetry) := fun h => by cases h

theorem RoundTrip.unassignedOp (w : Word) : RoundTrip.Statement (.unassignedOp w) := fun h => by cases h

theorem RoundTrip.unknownCommand (w : Word) : RoundTrip.Statement (.unknownCommand w) := fun h => by cases h

theorem RoundTrip.commandCompletion : RoundTrip.Statement (.commandCompletion) := fun h => by cases h

theorem RoundTrip.launchSuspend (l : Nat) : RoundTrip.Statement (.launchSuspend l) := fun h => by cases h

theorem RoundTrip.launchSuspendEnd (l : Nat) : RoundTrip.Statement (.launchSuspendEnd l) := fun h => by cases h

theorem RoundTrip.thermalResponseEnd (die : Nat) : RoundTrip.Statement (.thermalResponseEnd die) := fun h => by cases h

theorem RoundTrip.coreClockStop (core : Nat) : RoundTrip.Statement (.coreClockStop core) := fun h => by cases h

theorem RoundTrip.coreClockStart (core : Nat) : RoundTrip.Statement (.coreClockStart core) := fun h => by cases h

end Sys2Proof.Laws
end

