-- ==== Sys2Proof/Tests/Slice0.lean ====
section
/-! SUPPORT. The author's own tests: words decode to what the spec's encodings say, ill-formed terms are refused, single
steps on a small state, and for each statement with hypotheses a state and operands that meet them. Expected values are
the spec's own numbers or worked out by hand from its rules. -/

namespace Sys2Proof.Tests

set_option Elab.async false

open Sys2Proof.Machine Sys2Proof.Safety

/-! ## Small states -/

/-- A launch of one wave of two lanes. -/
def launch2 : Launch := { fetchLaunch with record := { fetchLaunch.record with threads := 2 } }

/-- A package in service with region 0 of the RAF on the first GiB. -/
def package : State :=
  let s := State.reset.writePhysN 0x1000 0x2001 8
  let s := s.writePhysN 0x2000 0x2F 8
  { s with raf := [(0, { root := 1, attr := 0xFD })], bring := .service, issuer := 2, nextId := 3 }

/-- A stream, whose split has words left in its clause and both flags chosen, in that package. -/
def with_ (la : Launch) (st : Stream) : State :=
  (package.putLaunch 1 la).putStream 2 { st.mapSplits fun p => { p with left := 1, hdr := { fa := some 0, fb := some 1 } } with
    active := true }

/-- A wave changed by `f`, of a launch changed by `g`. -/
def waveOf (g : Launch → Launch) (f : Stream → Stream) : State := with_ (g launch2) (f (Stream.launchWave 1 (g launch2) 0 0 0 0))
/-- The plain wave. -/
def wave : State := waveOf id id
/-- An MCC stream changed by `f`. -/
def mccOf (g : Launch → Launch) (f : Stream → Stream) : State := with_ (g launch2) (f (Stream.mccStream 1 (g launch2) 0))

/-- Whether the issuing split stands at an instruction that `d` describes and that passes every check, with `f` of its
context. -/
def at_ (s : State) (d : Desc) (f : Cx → Bool) : Bool :=
  match Cx.load s with
  | some c =>
    !c.illegal d && !d.badMode && (!d.priv || c.st.privileged) && d.ok && d.opnds.all (fun o => !o.bad c.st) && d.regOk &&
    d.opnds.all (fun o => o.inWindow c.st) && d.free && d.opnds.all (fun o => !o.isPending c) &&
    d.opnds.all (fun o => !o.badPort c.st) && Cx.struck { c with perLane := d.perLane } d == none &&
    f { c with perLane := d.perLane }
  | none => false

/-- What `at_` says. -/
theorem at_issues {s : State} {d : Desc} {f : Cx → Bool} (h : at_ s d f = true) : ∃ cx, Issues s d cx ∧ f cx = true := by
  unfold at_ at h
  split at h
  · rename_i c hc
    simp only [Bool.and_eq_true, Bool.or_eq_true, Bool.not_eq_true', List.all_eq_true] at h
    obtain ⟨⟨⟨⟨⟨⟨⟨⟨⟨⟨⟨h1, h2⟩, h3⟩, h4⟩, h5⟩, h6⟩, h7⟩, h8⟩, h9⟩, h10⟩, hs⟩, h11⟩ := h
    refine ⟨_, ⟨c, hc, ⟨h1, h2, fun hp => ?_, ⟨h4, h5⟩, ⟨h6, h7⟩, ⟨h8, h9⟩, h10⟩, rfl, beq_iff_eq.mp hs⟩, h11⟩
    rcases h3 with h3 | h3
    · rw [h3] at hp; cases hp
    · exact h3
  · cases h

/-- A result that is there, with a test of it. -/
def good {ε α : Type} (x : Except ε α) (f : α → Bool) : Bool :=
  match x with
  | .ok a => f a
  | .error _ => false

/-- The context of the issuing split, with a test of it. -/
def cxOf (s : State) (f : Cx → Bool) : Bool :=
  match Cx.load s with
  | some c => f c
  | none => false

/-- A value that is there, with a test of it. -/
def some_ {α : Type} (x : Option α) (f : α → Bool) : Bool :=
  match x with
  | some a => f a
  | none => false

/-- Whether an outcome is a next state that passes a test. -/
def next (o : Host.Outcome State Fault Refusal) (f : State → Bool) : Bool :=
  match o with
  | .next t => f t
  | .fault _ => false
  | .refused _ => false

/-- Changes the issuing split of a stream. -/
def split0 (f : Split → Split) (st : Stream) : Stream := st.mapSplits f
/-- Sets scalars. -/
def sregs (l : List (Nat × Word)) (st : Stream) : Stream := l.foldl (fun st e => st.setSreg e.1 e.2) st
/-- Sets v registers: number, lane, value. -/
def vregs (l : List (Nat × Nat × Word)) (st : Stream) : Stream := l.foldl (fun st e => st.setVreg e.1 e.2.1 e.2.2) st
/-- Sets ETYPE. -/
def typed (e : BitVec 6) (st : Stream) : Stream := split0 (fun p => { p with mode := { p.mode with etype := e } }) st
/-- Changes the cluster of the stream. -/
def onCluster (s : State) (f : Cluster → Cluster) : State := s.putCluster 0 (f (s.cluster 0))
/-- Changes the bay of the stream's launch on its cluster. -/
def onBay (s : State) (f : Bay → Bay) : State := s.putBay 1 0 (f (s.bay 1 0))

/-! ## Witnesses of the statements about the machine, memory and registers -/

theorem witness_step_runs_the_decoded_instruction :
    (let s := State.reset.withFetchWord 32 0x02400000
     some_ (State.select { s.stampReady with agenda := [] } (State.reset.nextId + 1)) fun s1 => cxOf s1 fun cx =>
       good cx.fetch.1 fun w => decide (decodeWord w = some .nop) && cx.fetch.2.mem == s.mem) = true := by decide +kernel

theorem witness_step_takes_turns :
    ({ State.reset with agenda := [.event .coldReset] } : State).agenda = .event .coldReset :: [] ∧
    issuesWord .coldReset = false ∧ issuesWord .nop = true ∧ State.reset.agenda = [] ∧ State.reset.stampReady.pickEvent = none ∧
    State.reset.stampReady.pickIssuer = none ∧
    ({ State.reset with mbox := { State.reset.mbox with pending := some (0, []), status := 1 } } : State).stampReady.pickEvent =
      some .commandCompletion ∧ (let s := waveOf (fun la => { la with mccStart := [0], next := 1 }) id
       s.stampReady.pickEvent = none ∧ s.stampReady.pickIssuer = some 2) ∧ wave.pickIssuer = some 2 ∧
    ({ with_ launch2 (Stream.launchWave 1 launch2 0 0 0 0) with issuer := 1 } : State).pickIssuer = some 2 ∧
    some_ (wave.stream? 2) (fun st => st.life == .resident && st.readyAt == none &&
      st.vis.splits.any fun p => !p.stalled) = true ∧
    some_ ((waveOf id fun st => { split0 (fun p => { p with hold := some .own }) st with readyAt := some 1, turns := 9 }).stream? 2)
      (fun st => st.vis.splits.all Split.stalled) = true := by decide +kernel

theorem witness_decode_undoes_encode : Instr.isWord (.sadd 64 65 66) = true := by decide

theorem witness_unassigned_words_are_illegal :
    (0x00E ≤ (0x03800000 : Word).toNat / 4194304 ∧ (0x03800000 : Word).toNat / 4194304 ≤ 0x03F) ∧
    ((0xFBC00000 : Word).toNat / 4194304 = 0x3EF) ∧ cxOf wave (fun cx => cx.sp.left != 0) = true := by decide +kernel

theorem witness_machine_goes_on : cxOf wave (fun _ => true) = true ∧ (State.reset.agenda = []) := by decide +kernel

theorem witness_steps_keep_memory_canonical : next (step State.reset) (fun _ => true) = true ∧
    Memory.wf State.reset.mem := by decide +kernel

theorem witness_physical_memory : backed (State.reset.canon 0) = true ∧ backed (State.reset.canon (2 ^ 49)) = false ∧
    State.reset.canon 1 ≠ State.reset.canon 0 ∧ State.reset.linkFault 0 = false ∧
    (let s := { State.reset with podSize := 2, linkDown := [1] }
     s.linkFault (2 ^ 50 + 2 ^ 40) = true ∧ s.linkFault (2 ^ 50) = false) ∧
    ((∀ i, i < 8 → backed (State.reset.canon i) = true ∧ State.reset.linkFault i = false) ∧
     (∀ i, i < 8 → ∀ j, j < 8 → i < j → State.reset.canon i ≠ State.reset.canon j) ∧
     ∀ i, i < 8 → State.reset.canon 8 ≠ State.reset.canon i) := by decide +kernel

theorem witness_registers : cxOf wave (fun cx => (cx.st.port 60 == none) && (cx.st.port 62 == none) &&
    (cx.st.port 0 == none) && (cx.st.port 59 == none) && (cx.st.port 63 == none) &&
    cx.sp.kept == none && !inMask cx.part 2 && inMask cx.part 1) = true := by decide +kernel

/-- A stream whose port q0 (s48) maps to queue 3. -/
def ported (st : Stream) : Stream :=
  { st with vis := { st.vis with ports := [(0, { queue := 3, pop := true, push := true })] } }

theorem witness_queue_ports :
    cxOf (waveOf id ported) (fun cx => (cx.st.port 48).isSome && !cx.st.isReplay && !cx.st.recomputing &&
      cx.sp.kept == none && cx.sp.retry == none &&
      takeKept 3 cx.st.redeliver == none && Sp.get [] (cx.s.bay 1 0).hwq 3 == [] && !cx.queueFull 3 &&
      decide ((cx.st.buffer.map (·.size)).sum + 8 ≤ Config.releaseBytes)) = true ∧
    cxOf (onBay (waveOf id ported) fun c => { c with hwq := [(3, [7, 8])] })
      (fun cx => Sp.get [] (cx.s.bay 1 0).hwq 3 == [7, 8]) = true ∧
    cxOf (onBay (waveOf id ported) fun c => { c with hwq := [(3, List.replicate Config.queueEntries 1)] })
      (fun cx => cx.queueFull 3) = true ∧
    cxOf (waveOf id fun st => { ported st with redeliver := [(3, 5)] }) (fun cx =>
      takeKept 3 cx.st.redeliver == some (5, [])) = true ∧
    cxOf (waveOf id (split0 (fun p => { p with kept := some { sregs := [(5, 1)], pops := [(3, 9)] } }) ∘ ported)) (fun cx =>
      cx.st.port 5 == none && some_ cx.sp.kept fun k => takeKept 3 k.pops == some (9, [])) = true := by decide +kernel

theorem witness_completion_moves_on :
    cxOf (waveOf id id |>.onStream 2 (split0 fun p => { p with left := 2 })) (fun cx => !cx.endTurn && cx.count &&
      cx.left == none && cx.keep && !cx.ckpt && !cx.later && decide (1 < cx.sp.left)) = true := by decide +kernel

theorem witness_faults_come_in_order : cxOf wave (fun cx =>
    let d := Desc.split []
    let pend : Desc := { d with free := false }
    cx.illegal { d with legal := false } && !cx.illegal d && !cx.illegal { d with badMode := true } &&
    !cx.illegal { d with priv := true } && !cx.st.privileged && !cx.illegal { d with ok := false } &&
    !cx.illegal { d with regOk := false } && !cx.illegal pend) = true ∧
    cxOf (waveOf id fun st => { st with vis := { st.vis with ports := [(0, { queue := 3, pop := true, push := false })] } })
      (fun cx => let d := Desc.split [.dstS 112]
        Opnd.badPort cx.st (.dstS 112) && !cx.illegal d && !Opnd.bad cx.st (.dstS 112) && Opnd.inWindow cx.st (.dstS 112) &&
        !Opnd.isPending cx (.dstS 112)) = true ∧ at_ wave (Desc.split []) (fun _ => true) = true := by decide +kernel

/-- A stream with a handler address. -/
def handled (st : Stream) : Stream := { st with vis := { st.vis with tba := 0x20000 } }

/-- What every fault statement supposes of its context and fault. -/
def faultable (cx : Cx) (e : Exn) : Bool := !cx.st.isMcc && !cx.st.isReplay && e.link == none && cx.sp.trap == none &&
  !cx.st.faulting cx.sp.num && cx.keep

theorem witness_faults :
    cxOf (waveOf id handled) (fun cx => let e := Exn.plain .illegalOperand
      faultable cx e && !e.parks && cx.st.vis.tba != 0 &&
      (spillCount cx.st.vis.allot cx.la.psize ((Linkage.trap (windowOf cx.st.vis.allot) ::
        cx.sp.linkage).reverse.map Linkage.size) cx.sp.spilled).isSome) = true ∧
    cxOf wave (fun cx => let e := Exn.plain .illegalOperand
      faultable cx e && !e.parks && cx.st.vis.tba == 0) = true ∧
    cxOf wave (fun cx => let e := { Exn.plain .translation with sub := 1 }
      faultable cx e && decide (e.code = .translation ∧ e.sub = 1)) = true ∧
    cxOf (waveOf id fun st => { st with role := .replay 1 0 }) (fun cx => let e := Exn.plain .illegalOperand
      cx.st.isReplay && cx.sp.trap == none && cx.st.vis.tba == 0 && cx.keep && !e.parks) = true ∧
    ((Exn.ecc 1 0).link = none ∧ (Exn.ecc 1 0).place ≠ 0 ∧ (Exn.plain .alignment).place = 0 ∧
      ({ Exn.plain .eccUncorrectable with link := some (0, 1) } : Exn).link = some (0, 1)) := by decide +kernel

theorem witness_faults_on_values_read :
    cxOf wave (fun cx => cx.sp.kept == none && !cx.st.faulting cx.sp.num && !(Exn.plain .staleHandle).parks) = true ∧
    cxOf ((waveOf id id).onStream 2 fun st =>
        let more := st.vis.splits.map fun p => { p with num := 1, status := .parked }
        { st with vis := { st.vis with splits := st.vis.splits ++ more } })
      (fun cx => cx.sp.kept == none && cx.st.faulting cx.sp.num && !cx.sp.inTrap) = true := by decide +kernel

/-- A handler's frame. -/
def frame0 : TrapFrame :=
  { mode := Mode.initial, mask := 3, hdr := { fa := none, fb := none }, left := 1, retry := 3, pc := 0x10000, count := 0,
    depth := 0, late := [] }

theorem witness_second_faults :
    cxOf (waveOf id (split0 fun p => { p with trap := some frame0, linkage := [.trap 64] }))
      (fun cx => cx.sp.trap.isSome && !cx.st.isReplay && cx.keep) = true ∧
    cxOf ((waveOf id id).onStream 2 fun st =>
        let more := st.vis.splits.map fun p => { p with num := 1, status := .parked }
        { st with vis := { st.vis with splits := st.vis.splits ++ more } })
      (fun cx => cx.sp.trap == none && cx.st.faulting cx.sp.num) = true := by decide +kernel

/-! ## Witnesses: control -/

/-- A stack entry. -/
def pend0 : MaskEntry := .pending 0x10004 2 3 1
/-- A wave whose p1 holds lane 0 alone. -/
def halved (st : Stream) : Stream := { st with vis := { st.vis with preds := [(1, 1)] } }

theorem witness_branches :
    at_ wave Desc.control (fun cx => decide (legalTarget (cx.sp.pc + BitVec.ofInt 64 (4 * (4 : BitVec 22).toInt))) &&
      decide (2 ^ 57 ≤ (cx.sp.pc + BitVec.ofInt 64 (4 * (-0x8000 : BitVec 22).toInt)).toNat)) = true ∧
    at_ (waveOf id (split0 fun p => { p with pc := 0x10002 })) Desc.control (fun cx =>
      decide ((cx.sp.pc + BitVec.ofInt 64 4).toNat < 2 ^ 57 ∧ (cx.sp.pc + BitVec.ofInt 64 4).toNat % 4 ≠ 0)) = true ∧
    at_ wave { Desc.control with opnds := [.srcS (scalarCode 5)] } (fun cx => good (cx.readS 5) fun r => r.1 == 0) = true ∧
    at_ (waveOf id (sregs [(4, 0x10000)])) { Desc.control with opnds := [(Opnd.srcS (scalarCode 4)).pair] } (fun cx =>
      decide (legalTarget (cx.scalar64 4 + 0))) = true ∧
    at_ (waveOf id (sregs [(5, 0x02000000)])) { Desc.control with opnds := [(Opnd.srcS (scalarCode 4)).pair] } (fun cx =>
      decide (2 ^ 57 ≤ (cx.scalar64 4).toNat)) = true := by decide +kernel

theorem witness_divergent_branch :
    (let d := { Desc.control with mcc := false, perLane := true, preds := [(1 : BitVec 3).toNat] }
     let room := fun (cx : Cx) => decide (cx.st.vis.splits.length < 4) && cx.sp.stack == [] && !cx.sp.inTrap &&
       !cx.st.recomputing
     let some := fun (cx : Cx) => (cx.part &&& cx.st.pred 1 == 1) && cx.sp.mask == 3
     at_ wave d (fun cx => decide (2 ^ 57 ≤ (cx.sp.pc + BitVec.ofInt 64 (4 * (-0x8000 : BitVec 17).toInt)).toNat)) &&
     at_ (waveOf id (split0 fun p => { p with pc := 0x10002 })) d (fun cx =>
       decide ((cx.sp.pc + BitVec.ofInt 64 4).toNat < 2 ^ 57 ∧ (cx.sp.pc + BitVec.ofInt 64 4).toNat % 4 ≠ 0)) &&
     at_ wave d (fun cx => cx.part &&& cx.st.pred 1 == 0) &&
     at_ wave { d with preds := [(7 : BitVec 3).toNat] } (fun cx => cx.part &&& cx.st.pred 7 == cx.sp.mask && cx.sp.mask != 0) &&
     at_ (waveOf id halved) d (fun cx => some cx && room cx) &&
     at_ (waveOf id (split0 (fun p => { p with stack := [pend0] }) ∘ halved)) d
       (fun cx => some cx && !room cx && decide (cx.sp.stack.length < 16)) &&
     at_ (waveOf id (split0 (fun p => { p with stack := List.replicate 16 pend0 }) ∘ halved)) d
       (fun cx => some cx && decide (16 ≤ cx.sp.stack.length))) = true := by decide +kernel

/-- Two splits that wait at one MERGE. -/
def parting (st : Stream) : Stream :=
  let one := fun (p : Split) (k : Nat) (m : LaneMask) => { p with num := k, status := .merge 0x10000, members := m, mask := m }
  { st with vis := { st.vis with splits := st.vis.splits.flatMap fun p => [one p 0 1, one p 1 2] } }

theorem witness_merge :
    (let d := { Desc.control with mcc := false }
     at_ (waveOf id (split0 fun p => { p with stack := [pend0] })) d (fun _ => true) &&
     at_ (waveOf id (split0 fun p => { p with stack := [.rejoin 0x10000 3 1] })) d
       (fun cx => cx.sp.stack == [.rejoin cx.sp.pc 3 1]) &&
     at_ (waveOf id (split0 fun p => { p with stack := [.rejoin 0x20000 3 1] })) d (fun cx => cx.sp.pc != 0x20000) &&
     at_ (waveOf id (split0 fun p => { p with trap := some frame0 })) d (fun cx => cx.sp.stack == [] && cx.sp.inTrap) &&
     at_ wave d (fun cx => cx.sp.stack == [] && !cx.sp.inTrap && !cx.st.recomputing) &&
     some_ (wave.stream? 2) (fun st => st.vis.splits.any fun p => p.status == .run) &&
     some_ ((waveOf id parting).stream? 2) (fun st => match st.vis.splits with
       | [p, q] => decide (p.num < q.num) && p.status == .merge 0x10000 && q.status == .merge 0x10000 &&
           p.winbase == q.winbase
       | _ => false)) = true := by decide +kernel

theorem witness_call_and_return :
    (let d := { Desc.control with ok := (1 : BitVec 3) != 0 }
     let fits := fun (cx : Cx) => spillCount cx.st.vis.allot cx.la.psize
       ((Linkage.call (cx.sp.pc + 4) 8 :: cx.sp.linkage).reverse.map Linkage.size) cx.sp.spilled
     at_ wave d (fun cx => !cx.st.isMcc && (fits cx).isSome && decide (legalTarget (cx.sp.pc + 16))) &&
     at_ (waveOf (fun la => { la with psize := 1 }) (split0 fun p => { p with linkage := List.replicate 8 (.call 0x10000 56) })) d
       (fun cx => !cx.st.isMcc && fits cx == none) &&
     at_ (mccOf id id) d (fun cx => cx.st.isMcc && decide (cx.sp.linkage.length < 64)) &&
     at_ (mccOf id (split0 fun p => { p with linkage := List.replicate 64 (.call 0x10000 8) })) d
       (fun cx => cx.st.isMcc && decide (64 ≤ cx.sp.linkage.length)) &&
     at_ (waveOf id (split0 fun p => { p with linkage := [.call 0x20000 8] })) Desc.control
       (fun cx => cx.sp.linkage == [.call 0x20000 8]) &&
     at_ wave Desc.control (fun cx => cx.sp.linkage == [])) = true := by decide +kernel

/-- A wave or MCC stream with a load in flight on flag 0. -/
def loadingOf (s : State) : State :=
  match Cx.load s with
  | some cx => s.putOp 9 { Op.blank cx .load with flag := some 0 }
  | none => s
/-- The same, whose load brings an error. -/
def failingOf (s : State) : State :=
  match Cx.load s with
  | some cx => s.putOp 9 { Op.blank cx .load with flag := some 0, fault := some (Exn.ecc 1 0) }
  | none => s
/-- Two splits that run, of one lane each. -/
def forked (st : Stream) : Stream :=
  let one := fun (p : Split) (k : Nat) (m : LaneMask) => { p with num := k, members := m, mask := m }
  { st with vis := { st.vis with splits := st.vis.splits.flatMap fun p => [one p 0 1, one p 1 2] } }

theorem witness_end_and_exit :
    (let d := { Desc.control with mcc := false, recomp := false, perLane := true }
     let e := { Desc.control with recomp := false }
     let sound := fun (cx : Cx) => cx.s.ops.all fun o => o.2.stream != cx.id || o.2.owner != cx.sp.num || !o.2.failing cx.s
     let ends := fun (busy : Bool) (cx : Cx) => sound cx && cx.sp.late == [] && good cx.commit fun c1 => c1.s.ownBusy c1.id c1.sp.num == busy
     at_ (waveOf id (split0 fun p => { p with mask := 1 })) d (fun cx => cx.sp.members &&& ~~~cx.part != 0) &&
     at_ wave d (fun cx => cx.sp.members &&& ~~~cx.part == 0 && ends false cx) &&
     at_ (loadingOf wave) d (fun cx => cx.sp.members &&& ~~~cx.part == 0 && ends true cx) &&
     at_ (loadingOf (mccOf id id)) e (fun cx => cx.st.isMcc && cx.s.ownBusy cx.id cx.sp.num) &&
     at_ (mccOf id id) e (fun cx => cx.st.isMcc && !cx.s.ownBusy cx.id cx.sp.num && ends false cx) &&
     at_ wave e (ends false) && at_ (loadingOf wave) e (ends true) &&
     at_ (failingOf wave) e (fun cx => !sound cx) &&
     at_ (failingOf wave) d (fun cx => !sound cx && cx.sp.members &&& ~~~cx.part == 0)) = true ∧
    (let has := fun (s : State) (f : Stream → Bool) => some_ (s.stream? 2) fun st => (st.split? 0).isSome && f st
     has wave (fun st => st.vis.splits.all (fun q => q.num == 0) && !st.isReplay) &&
     has (waveOf id forked) (fun st => st.vis.splits.any fun q => q.num != 0 && q.status == .run) &&
     has (waveOf id parting) (fun st => st.vis.splits.any fun q => q.num != 0)) = true := by decide +kernel

theorem witness_commit_point :
    cxOf (wave.onStream 2 fun st => { st with buffer := [storeItem 0 none { space := .phys, key := 0x20000 } 0x20000 1 4] }) (fun cx =>
      !cx.s.rasterBusy cx.id cx.st && !cx.s.adjointOpen cx.id && !cx.s.logFull cx.st && !cx.stlHeld && cx.s.errors == [] &&
      !cx.st.buffer.isEmpty && cx.st.buffer.all fun b => (cx.flush.storeError b).isNone) = true ∧
    at_ wave { Desc.split [] with commits := true, recomp := false } (fun _ => true) = true ∧
    ((wave.launch? 1).isSome && (wave.stream? 2).isSome) = true := by decide +kernel

/-- A wave that holds an STL to a place of which it has read what another stream's held STL will overwrite (R175). -/
def following : State :=
  let stl := fun (i : Nat) => { storeItem 0 (some 8) { space := .phys, key := 0x20FF8 } 0x20FF8 1 4 with issue := i }
  match wave.stream? 2 with
  | some st => (wave.onStream 2 fun st => { st with buffer := [stl 1], after := [(3, 1, 0)], stamp := 2 }).putStream 3
      { st with active := false, buffer := [stl 0], stamp := 1 }
  | none => wave

theorem witness_commit_held : at_ following { Desc.split [] with commits := true, recomp := false } (fun cx =>
    !cx.s.rasterBusy cx.id cx.st && !cx.s.adjointOpen cx.id && !cx.s.logFull cx.st && cx.stlHeld) = true := by decide +kernel

theorem witness_sets_mode :
    (let bad := (Ty.ofCode 0).isNone || decide ((5 : BitVec 3).toNat > 5) || decide ((1 : BitVec 2).toNat > 1)
     at_ wave { Desc.split [] with badMode := bad || (0 : BitVec 6) != 0 } (fun _ => true)) = true ∧
    cxOf wave (fun cx => !cx.illegal { Desc.split [] with badMode := true } && Ty.ofCode 5 == none) = true := by decide +kernel

theorem witness_nop : at_ wave (Desc.split []) (fun _ => true) = true := by decide +kernel

/-- A wave beside which a ready wave stands in the pending set. -/
def crowded : State :=
  match wave.stream? 2 with
  | some st => wave.putStream 3 { st with active := false }
  | none => wave

theorem witness_waits_on_flags :
    (let d := Desc.split [.srcS (scalarCode 4)]
     let h := fun (w : BitVec 12) => fun (cx : Cx) => cx.st.flagsClear w && cx.sp.late.all (fun e => !w.getLsbD e.1)
     let held := (waveOf id fun st => sregs [(4, 1)] { st with flags := [(0, 1)] })
     at_ wave (Desc.split []) (fun cx => !cx.st.isMcc) && at_ (mccOf id id) (Desc.split []) (fun cx => cx.st.isMcc) &&
     at_ (waveOf id (sregs [(4, 0xFFF)])) d (fun cx => good (cx.readS 4) fun r => r.1 == 0xFFF && h 0xFFF cx) &&
     at_ held d (fun cx => good (cx.readS 4) fun r => r.1 == 1 && !cx.st.flagsClear 1) &&
     at_ (waveOf id (sregs [(4, 0x1000)])) d (fun cx => good (cx.readS 4) fun r => decide (4096 ≤ r.1.toNat))) = true ∧
    (let h := fun (w : BitVec 12) => fun (cx : Cx) => cx.st.flagsClear w && cx.sp.late.all (fun e => !w.getLsbD e.1)
     let head := waveOf id id |>.onStream 2 (split0 fun p => { p with left := 0 })
     let ok := (if (1 : BitVec 1) = 1 then decide ((11 : BitVec 4).toNat < 12) else false) && (0 : BitVec 4) == 0
     let busy := fun st => split0 (fun p => { p with left := 0 }) { st with flags := [(0, 1)] }
     at_ head { Desc.split [] with header := true, legal := ok } (h 0xFFF) &&
     at_ (wave.onStream 2 busy) { Desc.split [] with header := true, legal := ok } (fun cx => !cx.st.flagsClear 0xFFF)) = true :=
  by decide +kernel

theorem witness_yield :
    (let mark := fun (st : Stream) => split0 (fun p => { p with left := 0 }) { st with yielded := true }
     let at0 := fun (s : State) (f : Stream → Bool) => some_ (s.stream? 2) fun st =>
       st.active && !st.isMcc && !st.isReplay && st.yielded && some_ (st.split? st.turnOf) (fun p => p.left == 0) && f st
     let busy := crowded.onStream 2 mark
     let alone := wave.onStream 2 mark
     at0 busy (fun st => busy.pendingReady st) && at0 alone (fun st => !alone.pendingReady st && (alone.select 2).isSome)) = true := by
  decide +kernel

/-! ## Witnesses: scalar and vector instructions -/

theorem witness_scalar_arithmetic :
    at_ wave (Desc.split [.srcS 68, .srcS 69, .dstS 127]) (fun cx =>
      good (cx.readS 4) fun x => good (x.2.readS 5) fun y => good (y.2.writeS 63 7) fun _ => true) = true := by decide +kernel

theorem witness_scalar_moves :
    (let s := waveOf id (sregs [(4, 0x80000000), (5, 0x0104)])
     let two := fun (f : Word → Word → Bool) => fun (cx : Cx) => good (cx.readS 4) fun x => good (x.2.readS 5) fun y =>
       f x.1 y.1 && good (y.2.writeS 6 1) fun _ => true
     at_ s (Desc.split [.srcS 68, .dstS 70]) (two fun _ _ => true) &&
     at_ s (Desc.split [(Opnd.srcS (scalarCode 4)).both]) (two fun _ _ => true) &&
     at_ s (Desc.split [.dstS (scalarCode 4)]) (two fun _ _ => true) &&
     at_ s (Desc.split [(Opnd.srcS 68).pair, (Opnd.srcS 68).pair, (Opnd.dstS 70).pair]) (fun cx =>
       good (cx.writeS64 6 1) fun _ => true) &&
     at_ s (Desc.split [.srcS 68, .srcS 69, (Opnd.dstS 70).both.pending]) (two fun _ _ => true) &&
     at_ s (Desc.split [.srcS 68, .srcS 69, .dstS 70]) (two fun x y => (fieldOf true x y).isSome && fieldOf true x 0x2000 == none)) =
    true := by decide +kernel

theorem witness_integer_values :
    (0 : Nat) < 8 ∧ ((-128 : Int) ≤ 5 ∧ (5 : Int) ≤ 127) ∧ (127 : Int) < 128 ∧ (-129 : Int) < -128 ∧
    ((31 : Nat) < 32 ∧ 1 ≤ 1 ∧ 31 + 1 ≤ 32) := by decide

theorem witness_lane_results : ∀ l : Nat, ((fun (_ : Nat) => ([7], (0 : BitVec 6))) l : List Word × BitVec 6).1 = [(7 : Word)] :=
  fun _ => rfl

/-- Values of each kind that the float statements speak of, in fp32 and in a binary8 variant without infinities. -/
theorem witness_floats :
    (FloatTy .f32 ∧ FloatTy (.b8 4 true false)) ∧
    ((0x7F7FFFFF : Nat) ≤ Ty.f32.maxCode ∧ 0x7F7FFFFF ≠ Ty.f32.nanCode ∧ 0x7F800000 = Ty.f32.maxCode + 1 ∧ Ty.f32.hasInf = true ∧
      Ty.f32.maxCode + 1 < 0x7F800001) ∧
    ((valueOf .f32 0x7F800001).isSig = true ∧ (valueOf .f32 0x7FC00000).isNan = true ∧ (valueOf .f32 1).isNan = false ∧
      (Machine.Num.fin true 0 0).isZero = true ∧ (unpack .f32 1).1 = .subnormal) ∧
    ((Ty.b8 4 true false).hasSign = false ∧ (Machine.Num.fin true 1 0).neg = true ∧ (Machine.Num.fin true 1 0).isZero = false) := by
  refine ⟨⟨⟨rfl, 0, rfl⟩, ⟨rfl, ?_⟩⟩, ?_, ?_, ?_⟩
  · decide +kernel
  all_goals decide +kernel

/-- A tie, a value above it and one below, and the values at which a result overflows, is tiny and is exact. -/
theorem witness_rounding :
    (3 % 2 ≠ 0 ∧ 2 * (3 % 2) = 2) ∧ (2 * (5 % 4) < 4) ∧ (4 < 2 * (7 % 4)) ∧ (4 % 2 = 0) ∧
    ((1 : Nat) ≤ 32 ∧ 3 * 2 ^ 1 % 2 = 0 ∧ ∀ j, j < 1 → 3 * 2 ^ j % 2 ≠ 0) ∧
    (let f := fun (m : Nat) (k : Int) => (2 : ℚ) ^ k ≤ m * (2 : ℚ) ^ k ∧ m * (2 : ℚ) ^ k < (2 : ℚ) ^ (k + 1)
     f 1 128 ∧ f 1 0 ∧ f 1 (-200)) := by
  refine ⟨by decide, by decide, by decide, by decide, by decide, ?_, ?_, ?_⟩ <;> norm_num

theorem witness_logs :
    Lns.ofWord 0x00D49A78 = .fin false 0xD49A78 ∧ Lns.ofWord 0x80400000 = .fin true 0x400000 ∧ Lns.ofWord 0x40000000 = .zero false ∧
    Lns.ofWord 0xFFFFFFFF = .inf true ∧ Lns.ofWord 0x40000001 = .nan ∧ ((0x00800000 : Word).toInt % 2 ^ 23 = 0) ∧
    ((0x00400000 : Word).toInt % 2 ^ 23 ≠ 0) ∧ (-2 ^ 29 ≤ (5 : Int) ∧ (5 : Int) < 2 ^ 29) ∧
    valueOf .f32 0x40000000 = .fin false (2 ^ 23) (-22) ∧ Lns.ofWord 0x00800000 = .fin false (2 * 2 ^ 22) := by decide +kernel

theorem witness_vector :
    (let s := waveOf id (typed 12)
     let f := waveOf id (typed 0)
     let two := fun (cx : Cx) => good (cx.source 1) fun x => good (x.2.source 68) fun _ => true
     let d := fun (t : Ty) (rd : Bool) => Desc.lane [(Opnd.src 1).under t, (Opnd.src 68).under t,
       if rd then ((Opnd.dstV 2).under t).both else (Opnd.dstV 2).under t]
     cxOf s (fun cx => cx.ty.isInt && !cx.ty.isFloat) && cxOf f (fun cx => cx.ty.isFloat && !cx.ty.isInt) &&
     at_ s (d (.int 32 true) false) two && at_ s (d (.int 32 true) true) two && at_ f (d .f32 false) two && at_ f (d .f32 true) two &&
     at_ f (Desc.lane [(Opnd.src 1).under .f32, (Opnd.dstV 2).under .f32]) two &&
     at_ f (Desc.lane [.src 1, .src 68, .dstV 2]) two && at_ f (Desc.lane [.src 1, .src 68, (Opnd.dstV 2).both]) two &&
     at_ f (Desc.lane [.src 1, .dstV 2]) two) = true := by decide +kernel

theorem witness_compares :
    (let s := waveOf id (typed 12)
     let f := waveOf id (typed 0)
     let two := fun (cx : Cx) => good (cx.source 1) fun x => good (x.2.source 68) fun _ => true
     let d := fun (t : Ty) (legal : Bool) => { Desc.lane [(Opnd.src 1).under t, (Opnd.src 68).under t] with
       legal := legal, ok := (6 : BitVec 3) != 7 }
     at_ s (d (.int 32 true) (decide ((5 : BitVec 4).toNat < 6))) (fun cx => two cx && cx.ty.isInt && !cx.ty.isFloat) &&
     at_ f (d .f32 (decide ((7 : BitVec 4).toNat < 8))) (fun cx => two cx && cx.ty.isFloat && !cx.ty.isInt) &&
     cxOf f (fun cx => two cx && !cx.illegal { d .f32 (decide ((5 : BitVec 4).toNat < 6)) with ok := false } &&
       !cx.illegal { d .f32 (decide ((7 : BitVec 4).toNat < 8)) with ok := false })) = true := by
  decide +kernel

/-- A wave in a handler. -/
def inHandler (st : Stream) : Stream :=
  split0 (fun p => { p with trap := some frame0, linkage := [.trap 64], winbase := 64 }) st

theorem witness_lane_moves :
    (let two := fun (cx : Cx) => good (cx.writeS 4 1) fun _ => true
     let h := waveOf id inHandler
     let room := fun (s : State) (o : Opnd) (a : BitVec 7) (legal : Bool) (d : Desc) =>
       at_ s { d with
         opnds := [o], legal := legal, ok := isVec a, regOk := s.inWindow a,
         free := s.issueHas fun cx => !cx.pendingV (cx.frameBase + a.toNat) cx.part } (fun _ => true)
     at_ wave { Desc.split [.dstS 68] with
       mcc := false, legal := decide ((95 : BitVec 8).toNat < 96), ok := isVec 3, regOk := wave.inWindow 3,
       free := wave.issueHas fun cx => !cx.pendingV (cx.sp.winbase + 3) (maskOf fun l => l == 95) } two &&
     room h (.dstV 1) 2 (h.issueHas fun cx => cx.sp.inTrap) (Desc.lane []) &&
     room h (.srcV 1) 2 (h.issueHas fun cx => cx.sp.inTrap) (Desc.lane []) &&
     at_ wave (Desc.lane [.srcV 1, .src 68, .dstV 2]) (fun cx => good (cx.source 68) fun x =>
       !x.2.pendingV (x.2.sp.winbase + 1) (maskOf fun l => (lanesOf x.2.part).any fun m => (x.2.laneOf 68 x.1 m).toNat == l)) &&
     at_ wave { Desc.lane [.srcV 1, .dstV 2] with legal := decide ((95 : BitVec 8).toNat < 96) } (fun cx =>
       !cx.pendingV (cx.sp.winbase + 1) (maskOf fun l => (lanesOf cx.part).any fun m =>
         32 * (m / 32) + (m % 32 + 95 % 32) % 32 == l)) &&
     at_ wave { Desc.split [.dstS 68] with mcc := false, legal := (2 : BitVec 2) != 3, preds := [(7 : BitVec 3).toNat] } two &&
     at_ wave { Desc.lane [] with ok := (6 : BitVec 3) != 7, preds := [(1 : BitVec 3).toNat, (7 : BitVec 3).toNat] } (fun _ => true) &&
     -- no error, and one in the lane that VLANE reads
     at_ wave (Desc.lane []) (fun cx => good (cx.sound (cx.badEntry 1)) fun _ => true) &&
     at_ { wave with errors := [.vreg 2 3 1] } { Desc.split [.dstS 68] with
       mcc := false, legal := decide ((1 : BitVec 8).toNat < 96), ok := isVec 3, regOk := wave.inWindow 3,
       free := wave.issueHas fun cx => !cx.pendingV (cx.sp.winbase + 3) (maskOf fun l => l == 1) } (fun cx =>
         cx.badEntry (cx.sp.winbase + 3) 1 && inMask cx.part 1)) = true ∧
    (let s := waveOf id (typed 13 ∘ sregs [(4, 0x0104), (5, 0x0120)])
     at_ s (Desc.lane [.src 1, .src 68, .dstV 2]) (fun cx => cx.ty.isInt && good (cx.source 1) fun x => good (x.2.source 68) fun y =>
       (List.range 96).all fun l => !inMask y.2.part l || (fieldOf true (y.2.laneOf 1 x.1 l) (y.2.laneOf 68 y.1 l)).isSome) &&
     at_ s (Desc.lane [.src 1, .src 69, .dstV 2]) (fun cx => good (cx.source 69) fun y =>
       inMask y.2.part 0 && fieldOf true (y.2.laneOf 1 0 0) (y.2.laneOf 69 y.1 0) == none)) = true := by decide +kernel

theorem witness_lane_conversions :
    (let two := fun (cx : Cx) => good (cx.source 1) fun x => good (x.2.source 68) fun _ => true
     let ty := fun (e : BitVec 6) => waveOf id (typed e)
     at_ (ty 1) { Desc.lane [(Opnd.src 1).under .f32, ((Opnd.dstV 2).under .f16).both] with
       legal := (1 : BitVec 1) == 0 || decide (16 ≠ 32 ∧ 16 < 64 ∧ 32 < 64) } (fun cx => cx.ty == .f16 && two cx) &&
     at_ (ty 0) { Desc.lane [(Opnd.src 1).under .f16, (Opnd.dstV 2).under .f32] with
       legal := (1 : BitVec 1) == 0 || decide (32 ≠ 16 ∧ 32 < 64 ∧ 16 < 64) } (fun cx => cx.ty == .f32 && two cx) &&
     at_ (ty 8) (Desc.lane [.src 1, .src 68, (Opnd.dstV 2).many 4]) (fun cx => cx.ty.narrow && cx.ty.count == 4 && two cx) &&
     at_ (ty 0x20) (Desc.lane [(Opnd.srcV 4).many 4, .src 68, .dstV 2]) (fun cx =>
       cx.ty.narrow && !cx.ty.isInt && cx.ty.count == 4 && two cx) &&
     at_ (ty 3) (Desc.lane [(Opnd.src 4).under .f64, .dstV 2]) (fun cx => cx.ty == .f64 && cx.ty.isFloat && two cx) &&
     at_ (ty 2) (Desc.lane [.src 1, .src 68, (Opnd.dstV 2).both]) (fun cx => cx.ty == .bf16 && two cx) &&
     at_ (ty 0x20) { Desc.lane [(Opnd.srcV 62).many 2, .srcV 1, (Opnd.dstV 2).both] with ok := decide (62 ≤ 62) }
       (fun cx => cx.ty.isB8) &&
     at_ wave { Desc.lane [(Opnd.srcV 4).evenMany 6, (Opnd.srcS 82).evenMany 30, (Opnd.dstV 1).many 3] with
       ok := decide (regNo 82 ≤ 18) } (fun _ => true) &&
     at_ (ty 8) (Desc.lane [(Opnd.srcV 4).many 4, .src 68, .dstV 2]) (fun cx => cx.ty.narrow && cx.ty == .int 8 true && two cx) &&
     at_ (ty 3) (Desc.lane [(Opnd.src 4).under .f16, (Opnd.dstV 2).under .f64]) (fun cx => decide (2 * 16 < cx.ty.width)) &&
     at_ (ty 8) (Desc.lane [(Opnd.src 4).under .f32, ((Opnd.dstV 2).under (.int 8 true)).both]) (fun cx => decide (2 * cx.ty.width < 32)) &&
     at_ wave (Desc.lane [(Opnd.src 4).under .lns, (Opnd.dstV 2).under .f32]) (fun _ => true)) = true := by decide +kernel

theorem witness_float_to_integer : (0 : Nat) < 8 ∧
    (let k := fun (m : Nat) => ((roundMag { rnd := 0, h := 0, sat := false, ftz := false } false (scaled m 1 0)).1 : Int)
     (127 : Int) < k 128 ∧ (-128 : Int) ≤ k 5 ∧ k 5 ≤ 127 ∧ -(k 129) < -128) := by decide +kernel

/-- A stream with a value in k0. -/
def kset (r : KReg) (st : Stream) : Stream := st.setKreg 0 r

theorem witness_statistics_registers :
    (let det := waveOf (fun la => { la with record := { la.record with attr := 9 } }) (split0 (fun p => { p with mask := 1, stack := [pend0] }))
     let free := fun (cx : Cx) => cx.la.det = false
     let once := { Desc.split [] with mcc := false }
     at_ wave once (fun cx => free cx && ((cx.st.kreg 0).combine (cx.st.kreg 1)).isSome) &&
     at_ det once (fun cx => cx.la.det && cx.divergent) &&
     at_ (waveOf id (kset { KReg.initial with st := .ext })) once (fun cx => (cx.st.kreg 0).combine { KReg.initial with st := .one } == none) &&
     at_ wave (Desc.lane [(Opnd.src 1).under .f32]) (fun cx => free cx && cx.ty.statOk && cx.ty == .f32 && (cx.st.kreg 0).st != .ext &&
       good (cx.source 1) fun _ => true) &&
     at_ wave (Desc.lane [(Opnd.src 1).under .f32, (Opnd.src 68).under .f32]) (fun cx => good (cx.source 1) fun x =>
       good (x.2.source 68) fun _ => true) &&
     at_ wave (Desc.lane [(Opnd.src 1).under .f32, .src 68]) (fun cx => free cx && cx.ty.extOk && (cx.st.kreg 0).st == .empty &&
       good (cx.source 1) fun x => good (x.2.source 68) fun _ => true)) = true ∧
    (let s := waveOf id (kset { KReg.initial with seq := 5 } ∘ sregs [(4, 5), (5, 6)])
     let wide := ((KReg.initial).field 0).2
     at_ s { Desc.split [.srcS 68, if wide then (Opnd.dstS 70).pair else (Opnd.dstS 70).pending] with
       mcc := false, legal := decide ((0 : BitVec 4).toNat < 4) } (fun cx => good (cx.readS 4) fun x => good (cx.readS 5) fun y =>
         x.1.toNat == (cx.st.kreg 0).seq.toNat && y.1.toNat != (cx.st.kreg 0).seq.toNat &&
         good (x.2.writeS64 6 1) fun c => good (c.writeS 6 1) fun _ => true) &&
     at_ wave { Desc.lane ((Opnd.dstV 2).many 2 :: [(Opnd.srcS 68).pair]) with
       legal := decide ((4 : BitVec 4).toNat < 5) && (true || (68 : BitVec 7) == 0) } (fun cx => (cx.st.kreg 0).st != .ext) &&
     at_ wave { Desc.lane ((Opnd.dstS 70).evenMany 3 :: []) with
       legal := decide ((0 : BitVec 4).toNat < 5) && (false || (0 : BitVec 7) == 0), perLane := false,
       ok := decide (regNo 70 + 2 ≤ 59) } (fun cx => good (cx.writeS 6 1) fun c => good (c.writeS 7 1) fun c =>
         good (c.writeS 8 1) fun _ => true)) = true := by decide +kernel

/-- What the memory statements suppose of an access list of `n` bytes. -/
def reached (cx : Cx) (as : List (Nat × Addr)) (n : Nat) (acc : Acc) (long : Bool) (deny : List Nat) (o : Orient)
    (f : Cx → List Reached → Bool) : Bool :=
  good (cx.staticLanes n (acc == .write) deny as) fun _ => good (cx.mapWs (as.map (·.2))) fun c1 =>
    let r := c1.reachAll acc long n o as
    r.2.2.isEmpty && f r.1 r.2.1

theorem witness_statistics_faults :
    (let det := fun (f : Stream → Stream) => waveOf (fun la => { la with record := { la.record with attr := 9 } })
       (split0 (fun p => { p with mask := 1, stack := [pend0] }) ∘ f)
     let tied := fun (cx : Cx) => cx.la.det && cx.divergent
     let ext := kset { KReg.initial with st := .ext, etype := 3 }
     let one := fun (t : Ty) => Desc.lane [(Opnd.src 4).under t]
     let two := fun (t : Ty) => Desc.lane [(Opnd.src 4).under t, (Opnd.src 6).under t]
     let idx := fun (t : Ty) => Desc.lane [(Opnd.src 4).under t, .src 6]
     at_ (waveOf id (typed 0x20)) (one (.b8 1 false false)) (fun cx => !cx.ty.statOk) &&
     at_ (det id) (one .f32) (fun cx => cx.ty.statOk && tied cx) &&
     at_ (waveOf id ext) (one .f32) (fun cx => cx.ty.statOk && !cx.la.det && (cx.st.kreg 0).st == .ext) &&
     at_ (waveOf id (typed 0x20)) (two (.b8 1 false false)) (fun cx => !cx.ty.statOk) &&
     at_ (det id) (two .f32) (fun cx => cx.ty.statOk && tied cx) &&
     at_ (waveOf id ext) (two .f32) (fun cx => cx.ty.statOk && !cx.la.det && (cx.st.kreg 0).st == .ext) &&
     at_ (waveOf id (typed 3)) (idx .f64) (fun cx => !cx.ty.extOk) && at_ (det id) (idx .f32) (fun cx => cx.ty.extOk && tied cx) &&
     at_ (waveOf id ext) (idx .f32) (fun cx => cx.ty.extOk && !cx.la.det && (cx.st.kreg 0).st == .ext &&
       (cx.st.kreg 0).etype != cx.sp.mode.etype) &&
     at_ (waveOf id ext) { Desc.lane ((Opnd.dstV 2).many 2 :: [(Opnd.srcS 68).pair]) with
       legal := decide ((4 : BitVec 4).toNat < 5) && (true || (68 : BitVec 7) == 0) } (fun cx => (cx.st.kreg 0).st == .ext)) = true := by
  decide +kernel

theorem witness_statistics_records :
    (let d := { Desc.split [(Opnd.srcS 68).pair] with mcc := false }
     let as := fun (cx : Cx) => (List.range 4).map fun i => (noLane, cx.scalar64 4 + BitVec.ofNat 64 (8 * i))
     let fine := fun (cx : Cx) => !apertureBad cx.la (cx.scalar64 4) && tagOf (cx.scalar64 4) != 2 && !cx.la.det
     at_ ((waveOf id (sregs [(4, 0x20000), (5, 0)])).writePhysN 0x20018 0x10000 8) d (fun cx => fine cx && (cx.scalar64 4).toNat % 32 == 0 &&
       reached cx (as cx) 8 .read true [2] .row (fun c2 oks => good (c2.readAll 8 oks) fun v =>
         (kregOfRecord (fun i => (nth (0, 0) v.1 i).2)).isSome) &&
       good (cx.staticLanes 8 true [2] (as cx)) fun _ => good (cx.bufferRoom 32) fun _ =>
         let r := cx.reachAll .write false 8 .row (as cx)
         r.2.2.isEmpty && good (r.1.buffer [{ size := 32, item := .store [], recs := [], issue := 0, lane := 0, rel := none, cached := false, own := true }]) fun _ => true) &&
     at_ (waveOf id (sregs [(4, 0x20010), (5, 0)])) d (fun cx => fine cx && (cx.scalar64 4).toNat % 32 != 0) &&
     at_ ((waveOf id (sregs [(4, 0x20000), (5, 0)]))) d (fun cx => fine cx &&
       reached cx (as cx) 8 .read true [2] .row (fun c2 oks => good (c2.readAll 8 oks) fun v =>
         kregOfRecord (fun i => (nth (0, 0) v.1 i).2) == none))) = true := by decide +kernel

/-- Two numbers, a NaN and a number, and a signalling NaN, as the conditions read them. -/
theorem witness_conditions :
    (inputOf .f32 false 0x3F800000).isNan = false ∧ (inputOf .f32 false 0x7FC00000).isNan = true ∧
    (inputOf .f32 false 0x7F800001).isSig = true ∧ (inputOf .f32 false 0x80000000).isNan = false := by decide +kernel

/-- The triples that Combine tells apart, the elements of an accumulation and of an extremum, and the values of a drain. -/
theorem witness_statistics_formulas :
    (let t := fun (w mu : Nat) => ({ st := .one, w := w, mu := mu, m2 := 0 } : Triple)
     let one := 0x3FF0000000000000
     Triple.empty.st = .empty ∧ (t one 0).st ≠ .empty ∧ (combineF (t one 0, 0) (t one one, 0)).1.st = .many ∧
     Ty.statOk .f32 = true ∧ Ty.statOk (.int 32 true) = true ∧
     ((valueOf .f64 (roundTo .f64 .rne (elemValue .f32 false 0xBF800000)).1).neg = true) ∧
     ((valueOf .f64 (roundTo .f64 .rne (elemValue .f32 false 0)).1).isZero = true) ∧
     ((valueOf .f64 (roundTo .f64 .rne (elemValue .f32 false 0x7FC00000)).1).isNan = true) ∧
     Ty.extOk .f32 = true ∧ Ty.extOk (.int 8 true) = true ∧ (valueOf .f32 0x7FC00000).isNan = true ∧ (3 : BitVec 2).getLsbD 1 = true ∧
     -- W of a NaN, of 1 and of 2
     (valueOf .f64 0x7FF8000000000000).isNan = true ∧ (valueOf .f64 one).isNan = false ∧ numQ (valueOf .f64 one) ≤ numQ (valueOf .f64 one) ∧
     -- v of 1, of 0, and one whose log is SPECIAL
     (valueOf .f32 0x3F800000).isZero = false ∧ (∃ l, Lns.ofWord (lcv 0x3F800000).1 = .fin false l) ∧ (valueOf .f32 0).neg = false ∧
     Lns.ofWord (lcv 1).1 = .zero false ∧ (valueOf .f32 1).isZero = false ∧ Lns.ofWord (lcv 0x7F800000).1 = .inf false) := by
  refine ⟨by decide +kernel, by decide +kernel, by decide +kernel, by decide +kernel, by decide +kernel, by decide +kernel,
    by decide +kernel, by decide +kernel, by decide +kernel, by decide +kernel, by decide +kernel, by decide, by decide +kernel,
    by decide +kernel, le_refl _, by decide +kernel, ⟨0, by decide +kernel⟩, by decide +kernel, by decide +kernel, by decide +kernel,
    by decide +kernel⟩

/-! ## Witnesses: memory instructions -/

/-- The hypotheses of `LoadRuns` for a load whose accesses are all reached. -/
def loads (cx : Cx) (flag : Option Nat) (d : BitVec 7) (as : List (Nat × Addr)) (n : Nat) (deny : List Nat) (o : Orient) : Bool :=
  cx.sp.retryOp == none && good (cx.flagRoom flag) fun _ => reached cx as n .read true deny o fun c2 oks =>
    good (c2.readAll n oks) fun v =>
      let ws := v.1.map fun e => v.2.writesOf d (if n = 8 then 2 else 1) e.1 e.2
      good (v.2.launchOp flag { Op.blank v.2 .load with
        pendV := v.2.destV d (if n = 8 then 2 else 1), lanes := v.2.part, pendS := destS d (if n = 8 then 2 else 1),
        vres := ws.flatMap (·.1), sres := ws.flatMap (·.2) }) fun _ => true

/-- The hypotheses of `LoadRuns` up to its reads, with a test of the context, the accesses reached and the faults. -/
def loading_ (cx : Cx) (flag : Option Nat) (as : List (Nat × Addr)) (n : Nat) (f : Cx → List Reached → List (Nat × Exn) → Bool) :
    Bool :=
  good (cx.staticLanes n false [] as) fun _ => good (cx.flagRoom flag) fun _ => good (cx.mapWs (as.map (·.2))) fun c1 =>
    let r := c1.reachAll .read true n .row as
    good (r.1.readAll n r.2.1) fun v => f v.2 r.2.1 r.2.2

/-- The hypotheses of `StoreRuns`, with a test of the accesses and the faults. -/
def storing (c0 : Cx) (as : List (Nat × Addr)) (n : Nat) (deny : List Nat) (rel : Option Nat) (data : Nat → Nat)
    (f : List Reached → List (Nat × Exn) → Bool) : Bool :=
  good (c0.staticLanes n true deny as) fun _ => good (c0.bufferRoom (8 * as.length)) fun _ =>
    let r := c0.reachAll .write false n .row as
    good (r.1.buffer (r.2.1.map fun e => storeItem e.lane rel e.place e.addr (data e.lane) n)) fun c =>
      !c.st.faulting c.sp.num && f r.2.1 r.2.2

/-- The same, with every access reached. -/
def stores (c0 : Cx) (as : List (Nat × Addr)) (n : Nat) (deny : List Nat) (data : Nat → Nat) : Bool :=
  storing c0 as n deny none data fun _ errs => errs.isEmpty

/-- A wave whose lanes hold addresses in v4:v5, and whose s4:s5 holds one. -/
def addressed : State := waveOf id (sregs [(4, 0x20000), (5, 0)] ∘ vregs [(4, 0, 0x20000), (4, 1, 0x20FF8)])

theorem witness_loads :
    (let d := fun (n : Nat) => { Desc.lane [((Opnd.dstV 2).sized n).pending, (Opnd.src 4).pair] with
       flag := some false, ok := true }
     let as := fun (n : Nat) (o : BitVec 5) (cx : Cx) =>
       (lanesOf cx.part).map fun l => (l, cx.lane64 4 l + BitVec.ofInt 64 (o.toInt * n))
     at_ addressed (d 8) (fun cx => loads cx (cx.flagOf false) 2 (as 8 (-16) cx) 8 [] .row) &&
     at_ addressed (d 1) (fun cx => loads cx (cx.flagOf false) 2 (as 1 15 cx) 1 [] .row) &&
     at_ addressed (d 4) (fun cx => loads cx (cx.flagOf false) 2 (as 4 0 cx) 4 [] .col4)) = true ∧
    (let once := { Desc.lane [(({ Opnd.dstV 66 with kind := .any } : Opnd).sized 8).pending, (Opnd.src 68).pair] with
       mcc := true, perLane := !(!isVec 66), legal := decide ((11 : BitVec 4).toNat < 12), flag := some true,
       ok := !(!isVec 66 && isVec 68) }
     let lanes := { Desc.lane [(({ Opnd.dstV 2 with kind := .any } : Opnd).sized 4).pending, (Opnd.src 4).pair] with
       mcc := true, perLane := !(!isVec 2), legal := decide ((11 : BitVec 4).toNat < 12), flag := some true,
       ok := !(!isVec 2 && isVec 4) }
     at_ addressed once (fun cx => loads cx (cx.flagOf true) 66 [(noLane, cx.scalar64 4 + 0)] 8 [2] .row) &&
     at_ addressed lanes (fun cx => loads cx (cx.flagOf true) 2 ((lanesOf cx.part).map fun l => (l, cx.lane64 4 l + 0)) 4 [] .row) &&
     at_ addressed { Desc.split [((Opnd.dstS 66).sized 8).pending, (Opnd.srcS 68).pair] with flag := some false } (fun cx =>
       loads cx (cx.flagOf false) 66 [(noLane, cx.scalar64 4 + BitVec.ofInt 64 (15 * 8))] 8 [2] .row)) = true := by decide +kernel

/-- Region 1, which lets no stream in. -/
def shut (s : State) : State := { s with raf := s.raf ++ [(1, { root := 1, attr := 1 })] }
/-- Addresses of which lane 1's is of that region, or of a page that the table does not hold. -/
def oneBad (hi : Word) (lo : Word) : State := shut (waveOf id (vregs [(4, 0, 0x20000), (4, 1, lo), (5, 1, hi)]))
/-- Both lanes' addresses are of that region. -/
def bothBad : State := shut (waveOf id (vregs [(4, 0, 0), (4, 1, 0), (5, 0, 0x00200000), (5, 1, 0x00200000)]))

theorem witness_loads_that_stop :
    (let d := { Desc.lane [((Opnd.dstV 2).sized 4).pending, (Opnd.src 4).pair] with flag := some false, ok := true }
     let as := fun (cx : Cx) => (lanesOf cx.part).map fun l => (l, cx.lane64 4 l + BitVec.ofInt 64 0)
     let fault := fun (s : State) (f : Cx → List Reached → Exn → Bool) => at_ s d fun cx => cx.sp.retryOp == none &&
       loading_ cx (cx.flagOf false) (as cx) 4 fun c4 oks errs => some_ (laneFault oks errs) fun e =>
         !c4.st.faulting c4.sp.num && f c4 oks e && good (c4.launchOp (cx.flagOf false) (Op.blank c4 .load)) fun _ => true
     fault bothBad (fun _ oks e => !e.parks && oks.isEmpty) && fault (oneBad 0x00200000 0) (fun _ oks e => !e.parks && !oks.isEmpty) &&
     fault (oneBad 0 0x40000000) (fun _ _ e => e.parks) &&
     (let again := addressed.onStream 2 (split0 fun p => { p with retryOp := some 9, retry := some 3 })
      let s := match Cx.load again with
        | some cx => again.putOp 9 { Op.blank cx .load with flag := some 0, waiting := true }
        | none => again
      at_ s d fun cx => cx.sp.retryOp == some 9 && loading_ cx (cx.flagOf false) (as cx) 4 fun c4 _ errs =>
        errs.isEmpty && (c4.s.op? 9).isSome)) = true := by decide +kernel

/-- Two streams, each of which holds an STL to a place of which the other has read the older value (R175). -/
def crossing : State :=
  let stl := fun (a : Addr) => { storeItem 0 (some 8) { space := .phys, key := a.toNat } a 1 4 with issue := 0 }
  let read := fun (a : Nat) (st : Stream) => { st with acqs := [({ space := .phys, key := a }, 1)], stamp := 1 }
  let me := fun (st : Stream) => { st with buffer := [stl 0x20FF8], stamp := 1 }
  match addressed.stream? 2 with
  | some st => (addressed.onStream 2 me).putStream 3 (read 0x20FF8 { st with buffer := [stl 0x20000] })
  | none => addressed

theorem witness_acquire_held :
    at_ crossing { Desc.lane [(({ Opnd.dstV 2 with kind := .any } : Opnd).sized 4).pending, (Opnd.src 4).pair] with
       mcc := true, perLane := true, legal := decide ((8 : BitVec 4).toNat < 12), flag := some false, ok := !(!isVec 2 && isVec 4) }
      (fun cx => loading_ cx (cx.flagOf false) ((lanesOf cx.part).map fun l => (l, cx.lane64 4 l + 0)) 4 fun c2 oks errs =>
        errs.isEmpty && c2.acquireHeld 8 (oks.flatMap fun r => r.place.span 4)) = true := by decide +kernel

theorem witness_stores_that_stop :
    (let d := Desc.lane [(Opnd.src 2).sized 4, (Opnd.src 4).pair]
     let fault := fun (s : State) (f : List Reached → List (Nat × Exn) → Bool) => at_ s d fun cx => good (cx.source 2) fun x =>
       storing x.2 ((lanesOf x.2.part).map fun l => (l, x.2.lane64 4 l + BitVec.ofInt 64 0)) 4 [] none (x.2.storeData 2 x.1 4) f
     fault bothBad (fun oks errs => oks.isEmpty && (laneFault oks errs).isSome) &&
     fault (oneBad 0x00200000 0) (fun oks errs => !oks.isEmpty && (laneFault oks errs).isSome)) = true := by decide +kernel

theorem witness_stores :
    (let as := fun (n : Nat) (cx : Cx) => (lanesOf cx.part).map fun l => (l, cx.lane64 4 l + BitVec.ofInt 64 (-16 * n))
     at_ addressed (Desc.lane [(Opnd.src 2).sized 8, (Opnd.src 4).pair]) (fun cx => good (cx.source 2) fun x =>
       stores x.2 (as 8 x.2) 8 [] (x.2.storeData 2 x.1 8)) &&
     at_ addressed (Desc.split [(Opnd.srcS 66).sized 8, (Opnd.srcS 68).pair]) (fun cx => good (cx.source 66) fun x =>
       stores x.2 [(noLane, x.2.scalar64 4 + BitVec.ofInt 64 (15 * 8))] 8 [2] (x.2.storeData 66 x.1 8)) &&
     at_ addressed { Desc.lane [(Opnd.src 66).sized 4, (Opnd.src 68).pair] with
       mcc := true, perLane := !(!isVec 66), legal := decide ((11 : BitVec 4).toNat < 12), ok := !(!isVec 66 && isVec 68) }
       (fun cx => good (cx.source 66) fun x => stores x.2 [(noLane, x.2.scalar64 4 + 0)] 4 [2] (x.2.storeData 66 x.1 4)) &&
     at_ addressed { Desc.lane [(Opnd.src 2).sized 4, (Opnd.src 4).pair] with
       mcc := true, perLane := !(!isVec 2), legal := decide ((11 : BitVec 4).toNat < 12), ok := !(!isVec 2 && isVec 4) }
       (fun cx => good (cx.source 2) fun x => stores x.2 ((lanesOf x.2.part).map fun l => (l, x.2.lane64 4 l + 0)) 4 []
         (x.2.storeData 2 x.1 4))) = true ∧
    ({ space := .phys, key := 5 } : Place) ∉ ({ space := .phys, key := 1 } : Place).span 4 ∧
    (∀ i < 8, State.reset.canon 100 ≠ State.reset.canon (0x20000 + i)) ∧
    (∀ i < 8, ∀ j < 8, i < j → State.reset.canon (0x20000 + i) ≠ State.reset.canon (0x20000 + j)) ∧
    ∀ i < 8, backed (State.reset.canon (0x20000 + i)) = true ∧ State.reset.linkFault (0x20000 + i) = false := by decide +kernel

/-- A wave with a load in flight. -/
def loading : State :=
  match Cx.load wave with
  | some cx => wave.putOp 9 { Op.blank cx .load with flag := some 0 }
  | none => wave
/-- A launch whose ATTR holds these bits. -/
def attr (a : Word) (la : Launch) : Launch := { la with record := { la.record with attr := a } }

theorem witness_atomics_and_contributions :
    (let fence := fun (sub : BitVec 4) => { Desc.split [] with
       legal := decide (sub.toNat < 3) && decide ((11 : BitVec 4).toNat < 12), commits := sub != 0, recomp := sub == 0 }
     let scatb := { Desc.split [] with mcc := false, commits := true, recomp := false }
     let reads := fun (cx : Cx) => cx.s.ops.any fun o => o.2.stream == cx.id && o.2.owner == cx.sp.num && o.2.kind == .load
     at_ wave (fence 0) (fun cx => !reads cx) && at_ loading (fence 0) reads && at_ loading (fence 2) reads &&
     at_ wave (fence 2) (fun cx => !reads cx && good cx.commit fun _ => true) &&
     at_ loading (fence 1) (fun cx => good cx.commit fun _ => true) &&
     at_ wave scatb (fun cx => !cx.la.routed && !cx.la.det && !cx.adjointsBusy && good cx.commit fun _ => true) &&
     at_ (waveOf (attr 9) id) scatb (fun cx => !cx.la.routed && cx.la.det && !cx.divergent && !cx.adjointsBusy && !cx.st.isReplay &&
       decide (cx.la.closed ≤ cx.sp.scatbs) && good cx.commit fun _ => true) &&
     at_ (waveOf (attr 12) id) scatb (fun cx => cx.la.routed) &&
     at_ (waveOf (attr 9) (split0 fun p => { p with mask := 1, stack := [pend0] })) scatb (fun cx =>
       !cx.la.routed && cx.la.det && cx.divergent)) = true ∧
    (let as := fun (o : BitVec 5) (cx : Cx) => (lanesOf cx.part).map fun l => (l, cx.lane64 4 l + BitVec.ofInt 64 (o.toInt * 4))
     at_ addressed { Desc.lane [.src 2, (Opnd.src 4).pair] with ok := (2 : BitVec 2) == 2 } (fun cx => good (cx.source 2) fun x =>
       good (x.2.staticLanes 4 true [1, 2] (as 1 x.2)) fun _ => good (x.2.bufferRoom (8 * (as 1 x.2).length)) fun _ =>
         let r := x.2.reachAll .write false 4 .row (as 1 x.2)
         r.2.2.isEmpty && good (r.1.buffer ((r.2.1.map fun e =>
           r.1.contribution e.place e.addr (r.1.laneOf 2 x.1 e.lane).toNat e.lane 0).map (·.1))) fun _ => true)) = true := by
  decide +kernel

/-- A wave with an ATOM in flight whose first lane adds 5 to the word at 0x20000. -/
def adding : State :=
  let q : Rmw := { place := { space := .phys, key := 0x20000 }, n := 4, sub := 0, etype := 13, opd := 5, new := 0, vdst := [192],
                   sdst := [], addr := 0x20000, cached := false }
  match Cx.load wave with
  | some cx => wave.putOp 9 (Op.blank cx (.atom [q]))
  | none => wave

theorem witness_rmw : some_ (adding.op? 9) (fun o => match o.kind with
    | .atom (q :: _) => some_ (adding.stream? o.stream) (fun st => st.buffer.isEmpty) && q.place.space == .phys &&
        (Ty.ofCode q.etype).bind (atomTy q.sub) == some (.int 32 false) &&
        (adding.rmwError o q).isNone &&
        (State.rmwError { adding with errors := [.word 0 { space := .phys, key := 0x20000 }] } o q).isSome &&
        (List.range 4).all fun i => backed (adding.canon (q.place.key + i)) && !adding.linkFault (q.place.key + i) &&
          (List.range 4).all fun j => i == j || adding.canon (q.place.key + i) != adding.canon (q.place.key + j)
    | _ => false) = true ∧ ((200 : Nat) < 2 ^ 8 ∧ (100 : Nat) < 2 ^ 8 ∧ 0 < 8) := by decide +kernel

theorem witness_atom :
    (let dd : Opnd := { Opnd.dstV 2 with kind := .any, rd := true, long := true, even := decide (1 > 1), n := 1 }
     let d := fun (sub : BitVec 4) => { Desc.lane [dd, (Opnd.src 4).pair] with
       mcc := true, perLane := !(!isVec 2), legal := decide (sub.toNat < 10) && decide ((11 : BitVec 4).toNat < 12),
       commits := true, recomp := false, flag := some false, ok := !(!isVec 2 && isVec 4) && ((1 : Nat) != 4 || (2 : BitVec 7).toNat % 4 == 0) }
     let as := fun (cx : Cx) => (lanesOf cx.part).map fun l => (l, cx.lane64 4 l + 0)
     at_ ((addressed).onStream 2 (typed 13)) (d 0) (fun cx => atomTy 0 cx.ty == some (.int 32 false) && !cx.la.det &&
       cx.sp.retryOp == none && good (cx.staticLanes 4 true [] (as cx)) fun _ => good (cx.flagRoom (cx.flagOf false)) fun _ =>
       good cx.commit fun c1 =>
         let r := c1.reachAll .write true 4 .row (as cx)
         r.2.2.isEmpty && good (r.1.launchOp (cx.flagOf false) { Op.blank r.1 (.atom []) with
           pendV := r.1.destV 2 1, lanes := r.1.part, pendS := destS 2 1 }) fun _ => true) &&
     at_ (waveOf (attr 9) (typed 13)) (d 3) (fun cx => cx.la.det && atomTy 3 cx.ty == some (.int 32 false) && atomTy 5 cx.ty == some (.int 32 false)) &&
     at_ (waveOf (attr 9) (typed 0)) (d 0) (fun cx => cx.la.det && atomTy 0 cx.ty == some .f32 && Ty.isFloat .f32)) = true := by
  decide +kernel

/-! ## Witnesses: tiles, copies, matrix units -/

/-- A shape record at slot `n` of a table at 0x30000: base, element type, dimensions and the strides that follow. -/
def slot (n base e : Nat) (dims strides : List Nat) (s : State) : State :=
  let a := 0x30000 + 64 * n
  let s := (((s.writePhysN a base 8).writePhysN (a + 8) 0 2).writePhysN (a + 0x0A) e 1).writePhysN (a + 0x0B) dims.length 1
  let s := (dims.zipIdx).foldl (fun s d => s.writePhysN (a + 0x0C + 4 * d.2) d.1 4) s
  let s := (strides.zipIdx).foldl (fun s d => s.writePhysN (a + 0x20 + 8 * d.2) d.1 8) s
  { s with shapeBase := 0x30000, shapeCnt := 16 }

/-- Shapes: 0, 1 of eight fp32, 2, 3 textures, 4 of four fp32, 5 of eight u64. -/
def shaped (s : State) : State :=
  slot 0 0x20000 0 [2] [] (slot 1 0x40000 0 [2] [] (slot 2 0x50000 0 [2, 2, 1] [8, 16] (slot 3 0x60000 0 [2, 2, 1] [8, 16]
    (slot 4 0x48000 0 [1] [] (slot 5 0x70000 15 [4] [] s)))))

/-- An fp32 tile of one row and eight columns at the start of the Plaza. -/
def tile8 : Tile := { Tile.initial with etype := 0, rows := 1, cols := 8, pitch := 32 }
/-- A state whose tile 3 is `t`. -/
def tiled (s : State) (t : Tile) : State := onCluster s fun c => { c with tiles := [(3, t)] }

/-- The stream as a replay whose input log holds `l`. -/
def replaying (l : List LogEntry) (s : State) : State := s.onStream 2 fun st => { st with role := .replay 1 0, log := l }
/-- What the log retains of a tile, and of a granule. -/
def kept (t : Tile) : LogEntry := { kind := 3, value := 0, tile := some t }
/-- A granule of a log. -/
def grain : LogEntry := { kind := 0, value := 5, tile := none }

/-- What finds a tile: a wave, a selected one, a replay whose log holds one and a replay whose log holds something else. -/
theorem witness_finds_tile :
    cxOf wave (fun cx => !cx.st.isReplay && !cx.st.selected && good (cx.findTile 3) fun r => r.2.st.log == []) = true ∧
    cxOf (waveOf id fun st => { st with selected := true }) (fun cx => cx.st.selected && !cx.st.unverif &&
      good (cx.findTile 3) fun r => r.2.st.log == [kept (cx.tile 3)]) = true ∧
    cxOf (replaying [kept tile8] wave) (fun cx => cx.st.isReplay && good (cx.findTile 3) fun r => r.1 == tile8 && r.2.st.log == []) =
      true ∧
    cxOf (replaying [grain] wave) (fun cx => cx.st.isReplay && (cx.st.log.head?.map (·.kind)) == some 0) = true ∧
    cxOf wave (fun cx => good cx.commit fun _ => true) = true := by decide +kernel

theorem witness_tile_table :
    (let tdsc := fun (s : State) (f : Cx → Bool) => at_ s { Desc.split [(Opnd.srcS 68).many 4] with
       recomp := false, ok := (68 : BitVec 7).toNat % 4 == 0 && decide (regNo 68 ≤ 60) } f
     let w := waveOf id (sregs [(4, 0x00070000), (5, 0), (6, 32), (7, 0)])
     let tfree := { Desc.split [] with commits := true, recomp := false }
     let mine := fun (cx : Cx) => !cx.st.isReplay && !(cx.tile 3).foreign cx.st.launch
     let big := waveOf id (sregs [(4, 0x00070000), (5, 0x3FFFE0), (6, 32), (7, 0)])
     tdsc (tiled w { tile8 with owner := some 7 }) (fun cx => (cx.tile 3).foreign cx.st.launch) &&
     tdsc (waveOf id (sregs [(4, 0x40000000)])) (fun cx => mine cx && descriptor (cx.word 68) (cx.tile 3) == none) &&
     tdsc w (fun cx => mine cx && some_ (descriptor (cx.word 68) (cx.tile 3)) fun v => decide (v.top ≤ cx.la.record.plaza) &&
       (cx.tile 3).st == .empty) &&
     tdsc (tiled w { tile8 with st := .ready }) (fun cx => mine cx && (cx.tile 3).st != .empty) &&
     tdsc big (fun cx => mine cx && some_ (descriptor (cx.word 68) (cx.tile 3)) fun v => decide (v.top > cx.la.record.plaza)) &&
     let frees := fun (cx : Cx) (busy : Bool) => mine cx && cx.sp.serial == none && good cx.commit fun c1 =>
       c1.tile 3 == cx.tile 3 && (((cx.tile 3).st == .filling && !(cx.tile 3).part) || c1.s.tileInUse 0 3) == busy
     let again := waveOf id (split0 fun p => { p with serial := some 0 })
     at_ (tiled wave { tile8 with st := .ready }) tfree (frees · false) &&
     at_ (tiled wave { tile8 with st := .filling, part := true }) tfree (frees · false) &&
     at_ (tiled wave { tile8 with st := .filling }) tfree (frees · true) &&
     at_ (tiled again { tile8 with st := .ready }) tfree (fun cx => mine cx && cx.sp.serial != none && !cx.s.tileInUse 0 3) &&
     at_ (tiled again { tile8 with st := .filling }) tfree (fun cx => mine cx && cx.sp.serial != none && !(cx.tile 3).part) &&
     at_ (tiled wave { tile8 with st := .draining }) tfree mine && at_ wave tfree mine) = true ∧
    (let mine := fun (cx : Cx) => !cx.st.isReplay && !(cx.tile 3).foreign cx.st.launch
     at_ wave (Desc.split [(Opnd.dstS 68).pending]) (fun cx => mine cx && good (cx.writeS 4 1) fun _ => true) &&
     at_ wave (Desc.split []) (fun cx => mine cx && (cx.tile 3).st == .empty) &&
     at_ (tiled wave { tile8 with st := .draining }) (Desc.split []) (fun cx => mine cx && (cx.tile 3).st == .draining) &&
     at_ (waveOf id (sregs [(4, 0x00000400), (5, 0x30000000)])) (Desc.split [(Opnd.srcS 68).pair, (Opnd.dstS 70).pending])
       (fun cx => let x := (cx.scalar64 4).toNat
         decide (x / 2 ^ 60 = 3 ∧ x / 2 ^ 54 % 64 = 0 ∧ x / 2 ^ 28 % 2 ^ 24 = 0) && !cx.la.det && good (cx.writeS 6 1) fun _ => true) &&
     at_ (waveOf (attr 9) (sregs [(4, 0x00000400), (5, 0x30000000)])) (Desc.split [(Opnd.srcS 68).pair, (Opnd.dstS 70).pending])
       (fun cx => cx.la.det && good (cx.writeS 6 1) fun _ => true)) = true := by decide +kernel

theorem witness_tile_transfers :
    (let w := waveOf id (sregs [(4, 0x20000), (5, 0), (6, 0x400)])
     let fine := fun (cx : Cx) => !cx.st.isReplay && !cx.st.selected && !(cx.tile 3).foreign cx.st.launch &&
       good (cx.flagRoom (cx.flagOf false)) fun _ => cx.s.copyRoom cx.st.cl cx.st.core
     let tld := { Desc.split [(Opnd.srcS 68).evenMany 3] with recomp := false, flag := some false, ok := decide (regNo 68 ≤ 60) }
     let fills := fun (f : Cx → List (Nat × Place) → List (Nat × Exn) → Bool) (cx : Cx) =>
       let v := cx.tile 3
       let done := if v.st == .filling then v.done else 0
       fine cx && good (cx.checkSectors v false false (cx.scalar64 4) 0x400) fun _ => good (cx.mapWs [cx.scalar64 4]) fun c1 =>
         let r := c1.reachSectors v false false (cx.scalar64 4) 0x400 .row
           ((List.range (v.sectors false)).filter fun i => !done.getLsbD i)
         r.1.badSector v false (cx.scalar64 4) 0x400 r.2.1 r.2.2 == none && f r.1 r.2.1 r.2.2 &&
         good (r.1.launchOp (cx.flagOf false) (Op.blank r.1 (.tileFill 3 [] 0))) fun _ => true
     let parted := { tile8 with st := .filling, part := true, addr := 0x20000, stride := 0x400 }
     at_ (tiled w tile8) tld (fun cx => (cx.tile 3).st == .empty && fills (fun _ _ errs => errs.isEmpty) cx) &&
     at_ (tiled w parted) tld (fun cx => (cx.tile 3).part && fills (fun _ ps errs => errs.isEmpty && !ps.isEmpty) cx) &&
     at_ (tiled (waveOf id (sregs [(4, 0x40000000), (5, 0), (6, 0x400)])) tile8) tld
       (fills fun c _ errs => !errs.isEmpty && !c.st.faulting c.sp.num) &&
     at_ (tiled w { tile8 with st := .ready }) { Desc.split [(Opnd.srcS 68).evenMany 3] with
       recomp := false, commits := true, flag := some false, ok := decide (regNo 68 ≤ 60) } (fun cx =>
         let v := cx.tile 3
         fine cx && v.st == .ready && !cx.s.tileInUse 0 3 && good (cx.checkSectors v false true (cx.scalar64 4) 0x400) fun _ =>
           good cx.commit fun c1 =>
             let r := c1.reachSectors v false true (cx.scalar64 4) 0x400 .row (List.range (v.sectors false))
             r.2.2.isEmpty && !r.1.st.selected && r.2.1.all (fun p => (v.sector false p.1).all fun b =>
               !r.1.badAt { space := .plaza, key := r.1.plazaKey b.2 } 1) && good (r.1.launchOp (cx.flagOf false) (Op.blank r.1 (.tileDrain 3 []))) fun _ =>
               true)) = true := by decide +kernel

/-- The handles of a copy, resolved. -/
def both (cx : Cx) (f : Shape → Shape → Cx → Bool) : Bool := good (cx.readS 4) fun h => good (h.2.readS 5) fun g =>
  good (g.2.handle h.1) fun a => good (a.2.handle g.1) fun b => f a.1 b.1 b.2
/-- Two shapes of one type and the same extents. -/
def like (a b : Shape) : Bool := a.etype == b.etype && a.ndim == b.ndim && a.dims == b.dims && (a.ndim != 1 || (a.layout == 0 && b.layout == 0))
/-- A copy's form. -/
def cpyDesc : Desc := { Desc.split [.srcS 68, .srcS 69] with recomp := false, flag := some false }
/-- A copy from shape 0 to shape 1, in a launch changed by `g`. -/
def copyOf (g : Launch → Launch) : State := shaped (waveOf g (sregs [(4, 0), (5, 1)]))
/-- The same to the weight store of die 1, at shape 6. -/
def copyWs (g : Launch → Launch) : State := slot 6 (3 * 2 ^ 60 + 2 ^ 52) 0 [2] [] (shaped (waveOf g (sregs [(4, 0), (5, 6)])))

theorem witness_copies :
    (let passes := fun (a b : Shape) (c : Cx) => like a b && good (c.checkElems a.width a.elems) fun _ =>
       good (c.checkElems a.width b.elems) fun _ => true
     let die := fun (b : Shape) => b.elems.any fun x => tagOf x == 3 && x.toNat / 2 ^ 52 % 4 == 1
     at_ (shaped (waveOf id (sregs [(4, 0), (5, 4)]))) cpyDesc (fun cx => both cx fun a b _ => a.dims != b.dims) &&
     at_ (copyWs fun la => { la with wsMaps := [1] }) cpyDesc (fun cx => both cx fun a b c => passes a b c && die b &&
       c.s.launches.any fun l => l.2.wsMaps.contains 1) &&
     at_ (copyWs (attr 9)) cpyDesc (fun cx => both cx fun a b c => passes a b c && die b && c.la.det && c.s.launches.all fun l => l.2.wsMaps.isEmpty) &&
     at_ (copyOf id) cpyDesc (fun cx => both cx fun a b c => passes a b c && tagOf b.base != 3 &&
       !c.la.det && !c.s.overlapFree c.st.launch c.st.coreNo 0 (extent a.width (b.elems.map c.plain)) c.s.copyq &&
       good (c.flagRoom (c.flagOf false)) fun _ => c.s.copyRoom c.st.cl c.st.core &&
       good (c.translatePages .read (pagesOf a.elems)) fun m => good (m.2.translatePages .write (pagesOf b.elems)) fun n =>
       b.elems.all (fun x => !n.2.s.isSealed x a.width) && good (n.2.mapWs (a.elems.filter fun x => tagOf x == 3)) fun c7 =>
       !c7.st.isReplay && good (c7.launchOp (c7.flagOf false) (Op.blank c7 (.copy 0 a b []))) fun _ => true) &&
     at_ (copyOf fun la => { la with ranges := [(0x40004, 4)] }) cpyDesc (fun cx => both cx fun a b c => passes a b c &&
       good (c.translatePages .read (pagesOf a.elems)) fun m => good (m.2.translatePages .write (pagesOf b.elems)) fun n =>
       b.elems.any fun x => tagOf x == 0 && n.2.s.isSealed x a.width) &&
     at_ (replaying [] (copyOf id)) cpyDesc (fun cx => cx.st.isReplay && both cx fun a b c => passes a b c &&
       good (c.translatePages .read (pagesOf a.elems)) fun m => good (m.2.translatePages .write (pagesOf b.elems)) fun n =>
       good (n.2.mapWs (a.elems.filter fun x => tagOf x == 3)) fun c7 => c7.st.isReplay)) = true ∧
    (let s := waveOf id (sregs [(4, 0), (5, 0xFF), (6, 0x100)])
     let d := fun (a : BitVec 7) => { Desc.split [.srcS a] with recomp := false }
     at_ s (d 68) (fun cx => good (cx.readS 4) fun x => x.1 == 0) &&
     at_ s (d 69) (fun cx => good (cx.readS 5) fun x => x.1 == 255 && !x.2.st.isReplay) &&
     at_ s (d 70) (fun cx => good (cx.readS 6) fun x => x.1 == 256)) = true := by decide +kernel

/-- A copy of the same bytes in another queue. -/
def copying : State :=
  let s := shaped (waveOf id (sregs [(4, 0), (5, 1)]))
  match Cx.load s with
  | none => s
  | some cx =>
    match cx.handle 1 with
    | .ok (b, _) => { s.putOp 9 (Op.blank cx (.copy 1 b b [])) with copyq := [.copy 9 0 1] }
    | .error _ => s

theorem witness_copy_overlap :
    at_ copying { Desc.split [.srcS 68, .srcS 69] with recomp := false, flag := some false } (fun cx =>
      good (cx.handle 0) fun a => good (a.2.handle 1) fun b => like a.1 b.1 &&
        b.2.s.overlapFree b.2.st.launch b.2.st.coreNo 0 (extent a.1.width (b.1.elems.map b.2.plain)) b.2.s.copyq) = true := by decide +kernel

/-- A lease of the stream. -/
def lease2 (left : Nat) : Lease := { stream := 2, token := 0x2001, left := left, taken := true }
/-- An MCC stream that holds the matrix units, with two READY tiles and an EMPTY one of its launch. -/
def leased (f : Stream → Stream) : State := onCluster (mccOf id f) fun c =>
  let t := { tile8 with st := .ready, owner := some 1, etype := 2, rows := 8, cols := 8 }
  { c with lease := some (lease2 1), lastHolder := some 2, tiles := [(3, t), (4, t), (5, { t with st := .empty })] }
/-- The same with an MMA on accumulator 0 unfinished. -/
def multiplying : State :=
  match Cx.load (leased id) with
  | some cx => (leased id).putOp 9 (Op.blank cx (.mma 0 3 4 false 0 1 0 false))
  | none => leased id

theorem witness_matrix_units :
    (let one := Desc.mccOnly []
     at_ (mccOf id id) one (fun cx => cx.lease == none) &&
     at_ multiplying one (fun cx => cx.lease.isSome && cx.s.mxuBusy cx.id (some 0)) &&
     at_ (leased id) one (fun cx => cx.lease == some (lease2 1) && !cx.s.mxuBusy cx.id (some 0)) &&
     cxOf wave (fun cx => !cx.st.isMcc) &&
     (let again := split0 fun p => { p with serial := some 0 }
      at_ (mccOf id again) (Desc.mccOnly [.srcS 68]) (fun cx => cx.sp.serial != none && !cx.s.mxuBusy cx.id none && cx.lease == none) &&
      at_ (leased again) (Desc.mccOnly [.srcS 68]) (fun cx => cx.sp.serial != none && !cx.s.mxuBusy cx.id none && cx.lease != none) &&
      at_ (multiplying.onStream 2 again) (Desc.mccOnly [.srcS 68]) (fun cx => cx.sp.serial != none && cx.s.mxuBusy cx.id none)) &&
     at_ (leased (sregs [(4, 0x2001)])) (Desc.mccOnly [.srcS 68]) (fun cx => good (cx.readS 4) fun x =>
       some_ cx.lease (fun l => l.token == x.1) && !x.2.s.mxuBusy x.2.id none) &&
     at_ (multiplying.onStream 2 (sregs [(4, 0x2001)])) (Desc.mccOnly [.srcS 68]) (fun cx => good (cx.readS 4) fun x =>
       some_ cx.lease (fun l => l.token == x.1) && x.2.s.mxuBusy x.2.id none) &&
     at_ (leased (sregs [(4, 0x2002)])) (Desc.mccOnly [.srcS 68]) (fun cx => good (cx.readS 4) fun x =>
       some_ cx.lease fun l => l.token != x.1) &&
     at_ (onCluster (mccOf id (sregs [(4, 4096)])) fun c => { c with lease := some { lease2 1 with taken := false } })
       (Desc.mccOnly [.srcS 68, .dstS 70]) (fun cx => good (cx.readS 4) fun x => x.1 == 4096 &&
         good ((x.2.setLease (some (lease2 1))).writeS 6 1) fun _ => true) &&
     at_ (mccOf id (sregs [(4, 1)])) (Desc.mccOnly [.srcS 68, .dstS 70]) (fun cx => good (cx.readS 4) fun x => x.1 == 1 &&
       (cx.s.cluster cx.st.cl).lease == none)) = true ∧
    at_ (leased id) (Desc.mccOnly []) (fun cx => some_ cx.lease (fun l => l.left != 0) &&
      !(cx.tile 3).foreign cx.st.launch && !(cx.tile 4).foreign cx.st.launch && cx.mmaOk false (cx.tile 3) (cx.tile 4) &&
      (cx.tile 3).st == .ready && (cx.tile 4).st == .ready &&
      good ((cx.setLease (some (lease2 0))).launchOp none (Op.blank cx (.mma 0 3 4 false 0 1 0 false))) fun _ => true) = true ∧
    at_ (leased id) (Desc.mccOnly []) (fun cx => cx.lease.isSome && (cx.tile 5).st == .empty &&
      (cx.tile 5).owner == some cx.st.launch && (cx.tile 5).kind != 1 && !cx.s.mxuBusy cx.id (some 0)) = true := by
  decide +kernel

/-- The scaled product: two fp8 tiles, each with its scales. -/
def scaled : State := onCluster (leased id) fun c =>
  let t := { tile8 with st := .ready, owner := some 1, etype := 0x20, rows := 8, cols := 8, paired := true, pair := 6 }
  let k := { tile8 with st := .ready, owner := some 1, etype := 9, kind := 1, rows := 8, cols := 1 }
  { c with tiles := [(3, t), (4, { t with pair := 7 }), (6, k), (7, { k with rows := 1, cols := 8 })] }

theorem witness_release : at_ (leased (sregs [(4, 0x2001)])) (Desc.mccOnly [.srcS 68]) (fun cx => cx.sp.serial == none) = true := by
  decide +kernel

theorem witness_scaled_product : at_ scaled (Desc.mccOnly []) (fun cx => cx.lease.isSome &&
    !(cx.tile (cx.tile 3).pair).foreign cx.st.launch && !(cx.tile (cx.tile 4).pair).foreign cx.st.launch &&
    cx.mmaOk true (cx.tile 3) (cx.tile 4) && (cx.tile 3).st == .ready && (cx.tile 4).st == .ready) = true := by decide +kernel

/-- The tile instructions in a replay, which finds its tiles and its granules in its log; TLD of a selected wave that reads outside
the sealed ranges, a read that meets an error, and a TST one of whose sectors does not translate. -/
theorem witness_tile_replays :
    (let w := waveOf id (sregs [(4, 0x20000), (5, 0), (6, 0x400)])
     let tld := { Desc.split [(Opnd.srcS 68).evenMany 3] with recomp := false, flag := some false, ok := decide (regNo 68 ≤ 60) }
     let tst := { Desc.split [(Opnd.srcS 68).evenMany 3] with
       recomp := false, commits := true, flag := some false, ok := decide (regNo 68 ≤ 60) }
     let found := fun (cx : Cx) (f : Tile → Cx → Bool) => good (cx.findTile 3) fun r => !r.1.foreign cx.st.launch && f r.1 r.2
     let fills := fun (cx : Cx) (f : Tile → Cx → List (Nat × Place) → List (Nat × Exn) → Bool) => found cx fun v c0 =>
       good (c0.checkSectors v false false (cx.scalar64 4) 0x400) fun _ => good (c0.flagRoom (cx.flagOf false)) fun _ =>
       cx.s.copyRoom cx.st.cl cx.st.core && good (c0.mapWs [cx.scalar64 4]) fun c1 =>
         let r := c1.reachSectors v false false (cx.scalar64 4) 0x400 .row (List.range (v.sectors false))
         v.st == .empty && f v r.1 r.2.1 r.2.2
     let drains := fun (cx : Cx) (f : Tile → Cx → List (Nat × Place) → List (Nat × Exn) → Bool) => found cx fun v c0 =>
       v.admits false && (cx.st.isReplay || !c0.tileBusy 3) && good (c0.checkSectors v false true (cx.scalar64 4) 0x400) fun _ =>
       good (c0.flagRoom (cx.flagOf false)) fun _ => cx.s.copyRoom cx.st.cl cx.st.core && good (cx.commitTile c0) fun c1 =>
         let r := c1.reachSectors v false true (cx.scalar64 4) 0x400 .row (List.range (v.sectors false))
         f v r.1 r.2.1 r.2.2
     let ready := { tile8 with st := .ready }
     -- the replays
     at_ (replaying [kept ready] w) { Desc.split [] with commits := true, recomp := false } (fun cx => cx.sp.serial == none &&
       found cx fun v c0 => v.st == .ready && cx.st.isReplay && good (cx.commitTile c0) fun _ => true) &&
     at_ (replaying [kept { tile8 with st := .filling }] w) (Desc.split []) (fun cx => cx.st.isReplay && found cx fun v _ => v.st == .filling) &&
     at_ (replaying [kept tile8] w) tld (fun cx => cx.st.isReplay && fills cx fun v c ps errs => errs.isEmpty && ps.length == v.sectors false &&
       good (c.takeGranules []) fun _ => true) &&
     at_ (replaying [kept tile8] (waveOf id (sregs [(4, 0x40000000), (5, 0), (6, 0x400)]))) tld (fun cx => cx.st.isReplay &&
       fills cx fun _ c _ errs => !errs.isEmpty && good (c.takeGranules []) fun _ => true) &&
     at_ (replaying (kept ready :: List.replicate 4 grain) w) tst (fun cx => cx.st.isReplay && drains cx fun v c ps errs => errs.isEmpty &&
       good (c.takeGranules (granules (ps.flatMap fun p => (v.sector false p.1).map fun b =>
         (v.sectorAddr false (cx.scalar64 4) 0x400 p.1 + BitVec.ofNat 64 b.1, (0 : Byte))))) fun r => r.2.st.log == []) &&
     -- a selected wave outside the sealed ranges, a read in error, a sector that does not translate
     at_ (tiled (w.onStream 2 fun st => { st with selected := true }) tile8) tld (fun cx => cx.st.selected && tagOf (cx.scalar64 4) == 0 &&
       fills cx fun v c ps _ => (c.sectorBytes v false (cx.scalar64 4) 0x400 ps).any fun b => !c.la.sealedAt b.1 1) &&
     at_ (tiled { w with errors := [.word 0 { space := .phys, key := 0x20000 }] } tile8) tld (fun cx =>
       fills cx fun v c ps errs => (c.badSector v false (cx.scalar64 4) 0x400 ps errs).isSome) &&
     at_ (tiled (waveOf id (sregs [(4, 0x40000000), (5, 0), (6, 0x400)])) ready) tst (fun cx =>
       drains cx fun _ c _ errs => (errs.find? fun e => e.2.link.isNone).isSome && !c.st.faulting c.sp.num)) = true := by decide +kernel

/-! ## Witnesses: synchronisation -/

/-- A wave whose quarter 0 holds these streams, with a barrier 5. -/
def joined (ids : List Nat) (b : Barrier) (f : Stream → Stream) : State :=
  onBay (waveOf id f) fun c => { c with quarters := [(0, ids)], barriers := [(5, b)] }

theorem witness_barriers :
    (let d := Desc.barrier 68 true
     let x0 := sregs [(4, 0)]
     let bound : Barrier := { Barrier.free with bound := true, expected := 2 }
     let name : BarName := { quarter := 0, decl := 0, key := 5 }
     let member := fun (cx : Cx) => ((cx.s.bay 1 0).members 0).contains cx.id && !cx.st.isReplay
     let go := fun (f : Cx → Barrier → Bool) => fun (cx : Cx) => good (cx.readS 4) fun x => decide (x.1 = 0) && member x.2 &&
       f x.2 ((x.2.barrierAt name).bind name ((x.2.s.bay 1 0).members 0).length)
     let arrived := fun (f : Cx → Barrier → Bool) => go fun c1 full =>
       some_ (full.arrive c1.id c1.sp.num (c1.st.vis.splits.map (·.num))) fun b' => good c1.commit fun c2 =>
         f (c2.putBarrier name b') full
     let waits := fun (c : Cx) (ph : Nat) => match c.waitBarrier name ph with
       | .error (.wait _ _) => true
       | _ => false
     at_ wave { Desc.split [] with recomp := false } (fun cx => !cx.st.isReplay) &&
     at_ (joined [2] .free (sregs [(4, 0x10)])) d (fun cx => good (cx.readS 4) fun x => decide (x.1.toNat / 16 % 16 ≠ 0)) &&
     at_ (joined [3] .free (sregs [(4, 0xFF00)])) d (fun cx => good (cx.readS 4) fun x =>
       decide (x.1.toNat < 65536) && !((cx.s.bay 1 0).members 0).contains 2) &&
     at_ (joined [2] { bound with arrived := [2], early := [2] } x0) d (go fun c1 full =>
       full.arrive c1.id c1.sp.num (c1.st.vis.splits.map (·.num)) == none) &&
     at_ (joined [2] .free x0) d (arrived fun c full => good (c.waitBarrier name (full.phaseOf 2)) fun _ => true) &&
     at_ (joined [2, 9] .free x0) d (arrived fun c full => waits c (full.phaseOf 2)) &&
     at_ (joined [2] .free x0) (Desc.barrier 68 false) (go fun c1 _ => !(c1.barrierAt name).bound) &&
     at_ (joined [2] bound x0) (Desc.barrier 68 false) (go fun c1 _ => (c1.barrierAt name).bound && waits c1 0) &&
     at_ (joined [2] { bound with early := [2] } x0) (Desc.barrier 68 false) (go fun c1 _ => waits c1 1)) = true ∧
    (let b : Barrier := { Barrier.free with bound := true, expected := 1, arrived := [2], waiting := [(2, 0, 0)] }
     b.bound = true ∧ b.arrived.length = b.expected ∧ b.early = [] ∧ b.earlyPart = [] ∧
     (b.waiting.filter fun e => decide (b.phase < e.2.2)) = [] ∧
     ({ b with expected := 2 } : Barrier).arrived.length ≠ 2 ∧
     (let e : Barrier := { b with early := [2], kept := 2, decl := 2 }
      e.early ≠ [] ∧ e.early.length ≠ e.kept)) ∧
    (let bay := (joined [2] { Barrier.free with bound := true } id).bay 1 0
     2 ∈ bay.members 0 ∧ 7 ∉ bay.members 0 ∧ (bay.barrier 5).bound = true ∧ (bay.barrier 5).quarter = 0) := by decide +kernel

/-- What a barrier holds before each kind of arrival of wave 2's splits 0 and 1. -/
theorem witness_arrivals :
    (2 ∉ Barrier.free.arrived ∧ (2, 0) ∉ Barrier.free.partly ∧ (∀ j ∈ [0], (2, j) ∈ Barrier.free.partly ++ [(2, 0)]) ∧
      ¬ ∀ j ∈ [0, 1], (2, j) ∈ Barrier.free.partly ++ [(2, 0)]) ∧
    (let b : Barrier := { Barrier.free with partly := [(2, 0)] }
     2 ∉ b.arrived ∧ (2, 0) ∈ b.partly) ∧
    (let b : Barrier := { Barrier.free with arrived := [2] }
     2 ∈ b.arrived ∧ 2 ∉ b.early ∧ (2, 0) ∉ b.earlyPart ∧ ∀ j ∈ [0], (2, j) ∈ b.earlyPart ++ [(2, 0)]) ∧
    (let b : Barrier := { Barrier.free with arrived := [2], early := [2] }
     2 ∈ b.arrived ∧ 2 ∈ b.early) := by decide

/-- A ROUTED launch of one stage, with the object bits at 0x50000 and a partition for the wave. -/
def routed (a : Word) (la : Launch) : Launch :=
  let la := attr a la
  { la with
    occtab := 0x50000
    stages := [{ entry := 0x10000, ring := 0, ringn := 0, allot := 16, maxw := 1, barrier := false, quota := 2 }]
    parts := [{ stage := 0, cl := 0, prod := 0, size := 2 }] }

theorem witness_ports_cards_collectives :
    (let q := fun (n : Word) (f : Cx → Bool) => at_ (waveOf id (sregs [(4, n)])) { Desc.split [.srcS 68] with recomp := false }
       (fun cx => good (cx.readS 4) fun x => x.1 == n && f x.2)
     q 512 (fun _ => true) && q 0x80 (fun _ => true) && q 0x60 (fun _ => true) && q 0x100 (fun _ => true) &&
     q 0x5F (fun c1 => !c1.la.det) &&
     at_ wave { Desc.split [.srcS 68] with recomp := false } (fun cx => !cx.st.isMcc) &&
     at_ (mccOf id id) { Desc.split [.srcS 68] with recomp := false } (fun _ => true) && cxOf (mccOf id id) (fun cx => cx.st.isMcc) &&
     at_ (waveOf (fun la => { attr 9 la with claims := [(claimKey 0 31 0, 7)] }) (sregs [(4, 0x1F)]))
       { Desc.split [.srcS 68] with recomp := false } (fun cx => cx.la.det && !cx.st.isReplay &&
         Tab.get? cx.la.claims (claimKey cx.st.cl 31 0) == some 7)) = true ∧
    (let post := fun (s : State) (f : Cx → List Word → Bool) => at_ s { Desc.split [(Opnd.srcS 72).many 8, .dstS 70] with
       mcc := false, recomp := false, ok := decide (64 ≤ (72 : BitVec 7).toNat ∧ (72 : BitVec 7).toNat ≤ 104) &&
         (72 : BitVec 7).toNat % 8 == 0 && decide ((0 : BitVec 4).toNat < 4) }
       (fun cx => f cx ((List.range 8).map fun i => cx.scalar (8 + i)))
     let card := sregs [(8, 0xFFFF0000), (9, 0x0000000F), (10, 0), (11, 0)]
     let free := fun (cx : Cx) (ws : List Word) => cx.la.routed && !badCard cx.la cx.st.stageOf ws &&
       cx.s.postTarget cx.st.cl 0 == some 0 && some_ cx.la.stages[(nth 0 ws 0).toNat % 65536]? fun _ => true
     let held := fun (cx : Cx) => good (cx.buffer [{ size := 32, item := .tape, recs := [], issue := 0, lane := 0, rel := none, cached := false, own := true }]) fun c => good (c.writeS 6 1) fun _ => true
     post wave (fun cx _ => !cx.la.routed) &&
     post (waveOf (routed 12) card) (fun cx ws => free cx ws && !cx.la.det && held cx &&
       some_ cx.la.stages[0]? fun stg => decide (cx.flush.cardsOf cx.st.launch cx.la 0 0 < stg.room)) &&
     post (waveOf (routed 13) card) (fun cx ws => free cx ws && cx.la.det && held cx && !cx.st.isReplay &&
       decide (Sp.get 0 (postCounts cx.st.posts cx.st.buffer) 0 < 2) &&
       cx.la.parts.any fun p => p.stage == 0 && p.cl == 0 && p.prod == cx.st.producer) &&
     (let quota := fun (f : Cx → Bool) (cx : Cx) (ws : List Word) => free cx ws && cx.la.det && !cx.st.isReplay && f cx
      let less := fun (cx : Cx) => decide (Sp.get 0 (postCounts cx.st.posts cx.st.buffer) 0 < 2)
      let mine := fun (cx : Cx) => cx.la.parts.any fun p => p.stage == 0 && p.cl == 0 && p.prod == cx.st.producer
      let room := fun (cx : Cx) => some_ cx.la.stages[0]? fun stg => decide (2 ≤ cx.s.freeCards cx.st.launch cx.la 0 0 stg)
      let none_ := fun (la : Launch) => { routed 13 la with parts := [] }
      let others := fun (la : Launch) => { routed 13 la with 
        parts := [{ stage := 0, cl := 0, prod := 99, size := Config.chipCards }],
        cards := [{ stage := 0, cl := 0, prod := 99, seq := 0, rank := 0, words := [] }] }
      post (waveOf none_ card) (quota fun cx => less cx && !mine cx && room cx && held cx) &&
      post (waveOf others card) (quota fun cx => less cx && !mine cx && !room cx) &&
      post (waveOf (routed 13) fun st => { card st with posts := [(0, 2)] }) (quota fun cx => !less cx && good (cx.writeS 6 0) fun _ => true))) =
    true := by decide +kernel

theorem witness_full_stage_queue :
    (let c : Card := { stage := 0, cl := 0, prod := 0, seq := 0, rank := 0, words := [] }
     let s := waveOf (fun la => { routed 12 la with cards := List.replicate Config.chipCards c }) (sregs [(8, 0xFFFF0000), (9, 0xF)])
     at_ s { Desc.split [(Opnd.srcS 72).many 8, .dstS 70] with mcc := false, recomp := false, ok := true } (fun cx =>
       cx.la.routed && !cx.la.det && !cx.st.isReplay &&
       some_ cx.la.stages[0]? (fun stg => decide (stg.room ≤ cx.flush.cardsOf cx.st.launch cx.la 0 0)) &&
       good (cx.writeS 6 0) fun _ => true)) = true := by decide +kernel

theorem witness_occq_and_coll :
    (let d := { Desc.split [.srcS 68, (Opnd.dstS 70).pending] with
       mcc := false, legal := decide ((11 : BitVec 4).toNat < 12), flag := some false }
     at_ (waveOf id (sregs [(4, 0xFFFFF)])) d (fun cx => !cx.la.routed && good (cx.readS 4) fun x => decide (x.1.toNat < 2 ^ 20)) &&
     at_ (waveOf (fun la => { routed 12 la with occtab := 0 }) id) d (fun cx => cx.la.routed && cx.la.occtab == 0) &&
     at_ (waveOf id (sregs [(4, 0x100000)])) d (fun cx => good (cx.readS 4) fun x => decide (2 ^ 20 ≤ x.1.toNat)) &&
     at_ (replaying [{ kind := 2, value := 1, tile := none }] (waveOf (routed 12) id)) d (fun cx => good (cx.readS 4) fun x =>
       x.2.la.routed && x.2.la.occtab != 0 && x.2.st.isReplay && good (x.2.flagRoom (x.2.flagOf false)) fun _ =>
       good (x.2.takeLog 2) fun v => v.1 == 1 && good (v.2.launchOp (x.2.flagOf false) (Op.blank v.2 .occq)) fun _ => true) &&
     at_ (waveOf (routed 12) (sregs [(4, 0xFFFFF)])) d (fun cx => good (cx.readS 4) fun x =>
       let a := x.2.la.occtab + BitVec.ofNat 64 (x.1.toNat / 8)
       x.2.la.routed && x.2.la.occtab != 0 && !x.2.st.isReplay && cx.sp.retryOp == none && good (x.2.flagRoom (x.2.flagOf false)) fun _ =>
       good (x.2.staticLanes 1 false [2] [(noLane, a)]) fun _ =>
         let r := x.2.reachAll .read true 1 .row [(noLane, a)]
         decide (r.2.1.length = 1) && !r.1.acquireHeld 11 (r.2.1.map (·.place)) && r.2.2.isEmpty && good (r.1.launchOp (x.2.flagOf false) (Op.blank r.1 .occq)) fun _ => true)) =
    true ∧
    (let coll := fun (s : State) (f : Cx → Cx → Word → Bool) => at_ s { Desc.split [(Opnd.srcS 68).pair, .srcS 70] with
       legal := decide ((0 : BitVec 3).toNat < 5), ok := (8 : BitVec 4) == 8 || (8 : BitVec 4) == 10, recomp := false, flag := some false }
       (fun cx => good (cx.readS 6) fun h => f cx h.2 h.1)
     cxOf wave (fun cx => !cx.illegal { Desc.split [(Opnd.srcS 68).pair, .srcS 70] with
       legal := decide ((0 : BitVec 3).toNat < 5), recomp := false, flag := some false }) &&
     coll (waveOf id (sregs [(5, 0x10000)])) (fun cx _ _ => decide (65536 ≤ (cx.scalar 5).toNat)) &&
     coll (waveOf id (sregs [(5, 64)])) (fun cx c1 _ => decide (c1.groupSize false ≤ (cx.scalar 5).toNat / 64 % 1024)) &&
     (let passes := fun (s : State) (f : Shape → Cx → Bool) => coll (shaped s) fun cx c1 h =>
        decide ((cx.scalar 5).toNat < 65536 ∧ (cx.scalar 5).toNat / 64 % 1024 < c1.groupSize false) && !c1.la.det &&
        good (c1.handle (cx.scalar 4)) fun a => good (a.2.handle h) fun b => a.1.etype == b.1.etype &&
        collCount 0 (c1.groupSize false) a.1.elems.length b.1.elems.length && a.1.ndim == 1 && a.1.layout == 0 && b.1.ndim == 1 &&
        b.1.layout == 0 && tagOf b.1.base != 3 && good (b.2.checkElems a.1.width a.1.elems) fun _ =>
        good (b.2.checkElems a.1.width b.1.elems) fun _ => good (b.2.flagRoom (b.2.flagOf false)) fun _ =>
        good (b.2.translatePages .read (pagesOf a.1.elems)) fun m => good (m.2.translatePages .write (pagesOf b.1.elems)) fun n =>
        good (n.2.mapWs (a.1.elems.filter fun x => tagOf x == 3)) fun c6 => f b.1 c6
      let at1 := fun (g : Launch → Launch) => waveOf g (sregs [(4, 0), (5, 63), (6, 1)])
      passes (at1 id) (fun b c => !c.st.isReplay && b.elems.all (fun x => !c.s.isSealed x b.width) &&
        good (c.launchOp (c.flagOf false) (Op.blank c .load)) fun _ => true) &&
      passes (at1 fun la => { la with ranges := [(0x40004, 4)] }) (fun b c => b.elems.any fun x => c.s.isSealed x b.width) &&
      passes (replaying [] (at1 id)) (fun _ c => c.st.isReplay))) = true := by decide +kernel

/-! ## Witnesses: graphics and adjoints -/

/-- The first checks of a texture access whose filter is `t`. -/
def texDesc (s : State) (os : List Opnd) (t : BitVec 3) (d : Nat) (ok : Bool) : Desc :=
  { Desc.lane os with
    legal := decide (t.toNat < 6) && (0 : BitVec 2) != 3, flag := some false, ok := ok,
    free := s.issueHas fun cx => decide ¬(t.toNat ≠ 3 ∧ t.toNat ≠ 5) || !(cx.quadPending d || cx.quadPending (d + 1)) }

theorem witness_tex :
    (let s := shaped (waveOf id (sregs [(4, 2)]))
     at_ s (texDesc s [(Opnd.dstV 2).both.many 4, .srcS 68] 0 2 (decide (2 ≤ 60))) (fun cx =>
       good (cx.readS 4) fun h => good (h.2.texture h.1) fun t =>
         let smp := (lanesOf t.2.part).map fun l => (l, t.2.sampleLane t.1 0 0 2 l)
         let as := smp.map fun e => (e.1, t.1.tapAddrs e.2)
         good (t.2.staticLanes t.1.width false [1, 2] (as.flatMap fun e => e.2.map fun a => (e.1, a))) fun _ =>
         good (t.2.flagRoom (t.2.flagOf false)) fun _ => good (t.2.mapWs (as.flatMap (·.2))) fun c3 =>
           let r := c3.gatherLanes t.1.width as
           r.2.2.isEmpty && good (r.1.readLists t.1.width r.2.1) fun v => v.2.sp.retryOp == none &&
             good (v.2.launchOp (v.2.flagOf false) (Op.blank v.2 .tex)) fun _ => true)) = true := by decide +kernel

theorem witness_rays :
    (let step := { Desc.lane [(Opnd.srcS 68).many 4, (Opnd.dstV 2).both.many 16] with
       flag := some false, ok := (68 : BitVec 7).toNat % 4 == 0 && decide (regNo 68 ≤ 60) && decide (2 ≤ 48) }
     let n := fun (v : Word) => waveOf id (sregs [(4, v), (5, 0), (6, 0x20000), (7, 0)])
     at_ wave { Desc.lane [(Opnd.srcV 20).many 9, (Opnd.dstV 2).many 16] with ok := decide (2 ≤ 48) && decide (20 ≤ 55) }
       (fun _ => true) &&
     at_ (n 0) step (fun cx => cx.scalar 4 == 0) && at_ (n 0x10000) step (fun cx => cx.scalar 4 == 0x10000) &&
     at_ (n 1) step (fun cx => cx.scalar 5 == 0 &&
       good (cx.staticLanes 64 false [1, 2, 3] [(noLane, cx.scalar64 6)]) fun _ => good (cx.flagRoom (cx.flagOf false)) fun _ =>
       let r := (lanesOf cx.part).foldl (fun r l =>
         match Cx.stepRay r.1 l (262144 * (cx.s.fresh * 128 + l)) 1 0x20000 (fun i => (cx.vec (2 + i) l).toNat) with
         | .ok (ws, c) => (c, r.2.1 ++ [(l, ws)], r.2.2)
         | .error (e, c) => (c, r.2.1, r.2.2 ++ [(l, e)])) (cx, ([] : List (Nat × List Word)), ([] : List (Nat × Exn)))
       r.2.2.isEmpty && r.1.sp.retryOp == none && good (r.1.launchOp (r.1.flagOf false) (Op.blank r.1 .rtstep)) fun _ => true)) = true := by decide +kernel

/-- A NaN among the coordinates or the derivatives, or among what an adjoint reads. -/
theorem witness_nans :
    isNanS 0x7FC00000 = true ∧ isNanS 0 = false ∧ (7 : Nat) ∈ [0, 1, 2, 3, 7, 8, 9] := by decide

/-- A splat list of no record at the start of the Plaza: capacity 2, stop words at 1024. -/
def splatting (flags : Nat) (f : Stream → Stream) : State :=
  waveOf (fun la => { la with plaza := [(4, 2), (17, 4)] ++ (if flags = 0 then [] else [(20, BitVec.ofNat 8 flags)]) }) f

theorem witness_splats :
    (let list := fun (cx : Cx) (f : SplatList → Cx → Bool) => good (cx.readS 4) fun x => good (x.2.splatList x.1.toNat) fun l =>
       good (l.2.flagRoom (l.2.flagOf false)) fun _ => f l.1 l.2
     let zero := sregs [(4, 0), (5, 0), (6, 0x20000), (7, 0)]
     at_ (splatting 0 zero) { Desc.lane [(Opnd.srcV 2).many 11, .srcS 68] with flag := some false, ok := decide (2 ≤ 53) }
       (fun cx => list cx fun _ c => good (c.buffer [{ size := 96, item := .tape, recs := [], issue := 0, lane := 0, rel := none, cached := false, own := true }]) fun c3 =>
         good (c3.launchOp (c3.flagOf false) (Op.blank c3 (.splat false []))) fun _ => true) &&
     at_ (splatting 0 zero) { Desc.lane [(Opnd.dstV 2).both.many 5, .srcS 68] with
       flag := some false, recomp := false, ok := decide (2 ≤ 59) } (fun cx =>
         list cx fun l c => (c.listErrors l).isEmpty && good (c.splatRecs l.recs l.count) fun r => r.2.sp.retryOp == none && !r.2.st.isReplay &&
           (List.range 96).all (fun ln => !inMask r.2.part ln || decide ((r.2.vec 2 ln).toNat < 256)) &&
           good (r.2.launchOp (r.2.flagOf false) (Op.blank r.2 (.splat false []))) fun _ => true) &&
     at_ (splatting 0 (zero ∘ vregs [(2, 1, 256)])) { Desc.lane [(Opnd.dstV 2).both.many 5, .srcS 68] with
       flag := some false, recomp := false, ok := decide (2 ≤ 59) } (fun cx => good (cx.readS 4) fun x =>
         good (x.2.splatList x.1.toNat) fun l => inMask l.2.part 1 && decide (256 ≤ (l.2.vec 2 1).toNat))) = true := by decide +kernel

theorem witness_prim :
    (let at0 := (waveOf id (sregs [(4, 0x20000), (5, 0)])).writePhysN 0x20000 0x50000 8
     let form := 32 + 2 ^ 32 * 4 + 2 ^ 48 * 4
     let s := at0.writePhysN 0x20008 form 8
     let tri := vregs [(2, 0, 0), (3, 0, 0), (4, 0, 0x3F000000), (5, 0, 0x40000000), (6, 0, 0), (7, 0, 0x3F000000), (8, 0, 0),
       (9, 0, 0x40000000), (10, 0, 0x3F000000)]
     let words := fun (s : State) (f : List Nat → Cx → Bool) =>
       at_ s { Desc.lane [(Opnd.srcV 2).many 10, (Opnd.srcS 68).pair] with
         legal := (0 : BitVec 2) != 3, recomp := false, ok := decide (2 ≤ 53),
         regOk := s.issueHas fun cx => decide (2 + 11 ≤ windowOf cx.st.vis.allot) } (fun cx =>
           good (cx.staticLanes 32 false [1, 2, 3] [(noLane, cx.scalar64 4)]) fun _ =>
             match cx.reach .read true 32 .row noLane (cx.scalar64 4) with
             | (.ok p, c1) => good (c1.readWords (cx.scalar64 4) p 4) fun w => f w.1 w.2
             | _ => false)
     let target := fun (s : State) (f : Target → Cx → Bool) => words s fun w c2 =>
       some_ (parseTarget (nth 0 w 0) (nth 0 w 1) (nth 0 w 2) (nth 0 w 3)) fun t => f t c2
     let run := fun (s : State) (f : Cx → List Fragment → Bool) => target s fun t c2 => decide (t.base.toNat % 8 = 0) &&
       (let r := (lanesOf c2.part).foldl (fun r l =>
          match Cx.reachTriangle r.1 0 0xFFFFF l (t.lane (fun i => (c2.vec (2 + i) l).toNat) 0xFFFFF) with
          | (.ok fr, c) => (c, r.2.1 ++ [(l, fr)], r.2.2)
          | (.error e, c) => (c, r.2.1, r.2.2 ++ [(l, e)]))
          (c2, ([] : List (Nat × List Fragment × List Exn)), ([] : List (Nat × Exn)))
        r.2.2.isEmpty && r.2.1.all (fun e => e.2.2.isEmpty) && f r.1 (r.2.1.flatMap (·.2.1)))
     words at0 (fun w _ => (parseTarget (nth 0 w 0) (nth 0 w 1) (nth 0 w 2) (nth 0 w 3)).isNone) &&
     target ((at0.writePhysN 0x20000 0x50004 8).writePhysN 0x20008 form 8) (fun t _ => decide (t.base.toNat % 8 ≠ 0)) &&
     run s (fun _ fr => fr.isEmpty) &&
     run (s.onStream 2 tri) (fun c fr => !fr.isEmpty && !c.st.isReplay &&
       good (c.launchOp none (Op.blank c (.raster 0 fr))) fun _ => true)) = true := by decide +kernel

/-- The hypotheses of `ShortAdjointCompletes`. -/
def shortAdjoint (cx : Cx) (es : List (Nat × Emits)) (after : Cx → List Nat → Cx) : Bool :=
  good (cx.checkEmits es) fun _ => good cx.openRegion fun c1 =>
    let r := c1.formLanes es
    r.2.2.2.isEmpty && good (r.1.buffer (r.2.1.map fun b => { b with own := true })) fun c3 =>
      let c4 := after c3 r.2.2.1
      c4.st.recomputing || !c4.s.logFull c4.st && good (Cx.commit { c4 with st := c4.st.disown c4.sp.serial }) fun _ => true

/-- The hypotheses of `LongAdjointForms`. -/
def longForms (c1 : Cx) (es : List (Nat × Emits)) (kind : OpKind) : Bool :=
  let r := c1.formLanes es
  let c2 := r.1
  let n := c2.st.stamp
  let c3 : Cx := if c2.st.recomputing then { c2 with ckpt := false, later := false } else { c2 with
    st := { c2.st with stamp := n + 1 }, sp := { c2.sp with serial := some n }, ckpt := false, later := true }
  r.2.2.2.isEmpty && c2.sp.retryOp == none && good (c3.launchOp (c1.flagOf false) { Op.blank c3 kind with lanes := c3.part }) fun _ => true

/-- The hypotheses of `LongAdjointCompletes`. -/
def longAdjoint (cx : Cx) (es : List (Nat × Emits)) (kind : OpKind) : Bool :=
  good (cx.checkEmits es) fun _ => good (cx.flagRoom (cx.flagOf false)) fun _ => good cx.openRegion fun c1 => longForms c1 es kind

theorem witness_short_adjoints :
    (let far := vregs [(2, 0, 0x20000), (2, 1, 0x20000), (38, 0, 0xFFFFFFFF), (38, 1, 0xFFFFFFFF)]
     at_ (waveOf id (sregs [(4, 0x20000), (5, 0)])) { Desc.adjoint [(Opnd.srcV 2).many 12, (Opnd.srcS 68).pair] with ok := decide (2 ≤ 52) }
       (fun cx => shortAdjoint { cx with s := cx.s.bump } ((lanesOf cx.part).map fun l =>
         (l, rasEmits (fun i => (cx.vec (2 + i) l).toNat) (cx.scalar64 4) ((cx.s.fresh * 128 + l) * 8))) fun cx _ => cx) &&
     at_ (waveOf id far) { Desc.adjoint [(Opnd.srcV 2).evenMany 20, (Opnd.srcV 30).many 16] with
         ok := decide (2 ≤ 44) && decide (30 ≤ 48) && decide (2 + 19 < 30 ∨ 30 + 15 < 2 + 14) }
       (fun cx => (cx.vec 38 0 == 0xFFFFFFFF) && shortAdjoint { cx with s := cx.s.bump } ((lanesOf cx.part).map fun l => (l, []))
         fun c g => (lanesOf cx.part).foldl (fun c l => if g.contains l then c.setVecs 16 l (List.replicate 6 0) else c) c)) = true := by
  decide +kernel

theorem witness_texadj :
    (let s := shaped (waveOf id (sregs [(4, 2), (5, 3)]))
     at_ s { texDesc s [(Opnd.srcV 2).many 8, (Opnd.srcS 68).many 2] 0 2 (decide (2 ≤ 56) && decide (regNo 68 ≤ 62)) with commits := true }
       (fun cx => good (cx.texture (cx.scalar 4)) fun a => good (a.2.texture (a.2.scalar 5)) fun b =>
         Ty.ofCode b.1.etype == some .f32 && tagOf b.1.base == 0 && b.1.dims == a.1.dims &&
         longAdjoint { b.2 with s := b.2.s.bump } ((lanesOf b.2.part).map fun l => (l, texEmits a.1 b.1 (b.2.sampleLane a.1 0 0 2 l)
           (fun c => (b.2.vec (6 + c) l).toNat) ((b.2.s.fresh * 128 + l) * 16))) .texadj)) = true := by decide +kernel

theorem witness_edgs :
    (let into := fun (px : Word) => shaped (waveOf id (sregs [(4, 2), (5, 3), (6, 0x20000), (7, 0)] ∘
       vregs [(2, 0, 0x3F800000), (2, 1, 0x3F800000), (6, 0, 0), (6, 1, px)]))
     at_ (into 0x00010002) { Desc.adjoint [(Opnd.srcV 2).many 10, (Opnd.srcS 68).evenMany 4] with
       flag := some false, ok := decide (2 ≤ 54) && decide (regNo 68 ≤ 60) } (fun cx =>
         good (cx.texture (cx.scalar 4)) fun a => good (a.2.texture (a.2.scalar 5)) fun b =>
           Ty.ofCode a.1.etype == some .f32 && Ty.ofCode b.1.etype == some .f32 && inMask b.2.part 1 &&
           !decide ((b.2.vec 6 1).toNat % 65536 < a.1.levelW 0)) &&
     at_ (into 0x00010001) { Desc.adjoint [(Opnd.srcV 2).many 10, (Opnd.srcS 68).evenMany 4] with
       flag := some false, ok := decide (2 ≤ 54) && decide (regNo 68 ≤ 60) } (fun cx =>
         good (cx.texture (cx.scalar 4)) fun a => good (a.2.texture (a.2.scalar 5)) fun b =>
         let w := fun (l i : Nat) => (b.2.vec (2 + i) l).toNat
         let as := (lanesOf b.2.part).map fun l =>
           (l, ((List.range 3).map fun c => a.1.texel 0 (w l 4 % 65536) (w l 4 / 65536) c) ++
             (List.range 3).map fun c => b.1.texel 0 (w l 4 % 65536) (w l 4 / 65536) c)
         Ty.ofCode a.1.etype == some .f32 && Ty.ofCode b.1.etype == some .f32 &&
         (List.range 96).all (fun l => !inMask b.2.part l || (decide (w l 4 % 65536 < a.1.levelW 0 ∧ w l 4 / 65536 < a.1.levelH 0 ∧
           w l 4 % 65536 < b.1.levelW 0 ∧ w l 4 / 65536 < b.1.levelH 0))) &&
         good (b.2.staticLanes 4 false [1, 2] (as.flatMap fun e => e.2.map fun x => (e.1, x))) fun _ =>
         good (b.2.mapWs (as.flatMap (·.2))) fun c3 =>
           let r := c3.gatherLanes 4 as
           r.2.2.isEmpty && good (r.1.readLists 4 r.2.1) fun v =>
             longAdjoint { v.2 with s := v.2.s.bump } (v.1.map fun e => (e.1, edgEmits (w e.1) (fun i => nth 0 e.2 i) (b.2.scalar64 6)
               (hBits v.2.sp.srseed.toNat v.2.sp.dii.toNat e.1 0) ((v.2.s.fresh * 128 + e.1) * 4))) .edgs)) = true := by
  decide +kernel

theorem witness_spladj :
    (let open_ := fun (flags : Nat) (f : Cx → SplatList → Cx → Bool) =>
       at_ (splatting flags (sregs [(4, 0), (5, 0), (6, 0x20000), (7, 0)])) { Desc.adjoint [(Opnd.srcV 2).many 5, (Opnd.srcS 68).evenMany 4] with
         flag := some false, ok := decide (2 ≤ 59) && decide (regNo 68 ≤ 60) } (fun cx =>
         cx.scalar 5 == 0 && good (cx.flagRoom (cx.flagOf false)) fun _ => good cx.openRegion fun c0 => good (c0.splatList (c0.scalar 4).toNat) fun l => f c0 l.1 l.2)
     open_ 0 (fun _ l _ => l.flags % 2 == 0) &&
     open_ 1 (fun c0 l c1 => l.flags % 2 == 1 && !c1.badAt (c1.plazaPlace l.stop) 1024 && (c1.listErrors l).isEmpty &&
       good (c1.splatRecs l.recs l.count) fun r =>
         (List.range 96).all (fun ln => !inMask c1.part ln || decide ((c1.vec 2 ln).toNat < 256)) &&
         good (r.2.stopWords l (fun ln => (c1.vec 2 ln).toNat) (lanesOf r.2.part)) fun st =>
           let es := st.1.map fun e => (e.1, splatEmits (r.1.take e.2) (l.pixel (c1.vec 2 e.1).toNat)
             [(c1.vec 3 e.1).toNat, (c1.vec 4 e.1).toNat, (c1.vec 5 e.1).toNat] (c1.vec 6 e.1).toNat (c0.scalar64 6))
           st.1.all (fun e => decide (e.2 ≤ l.count)) && good (st.2.checkEmits es) fun _ => longForms st.2 es (.splat true []))) =
    true := by decide +kernel

/-! ## Witnesses: what one lane computes -/

/-- A node of words, a link and a parent. -/
def nodeOf (ws : List Nat) (link parent : Nat) : Nat :=
  (ws.zipIdx.foldl (fun a e => a + e.1 * 2 ^ (32 * e.2)) 0) + link * 2 ^ 384 + parent * 2 ^ 448

/-- The words of a box from -1 to 1. -/
def unitBox : List Nat := [0xBF800000, 0xBF800000, 0xBF800000, 0x3F800000, 0x3F800000, 0x3F800000]
/-- The words of a box far away. -/
def farBox : List Nat := [0x41200000, 0x41200000, 0x41200000, 0x41300000, 0x41300000, 0x41300000]
/-- A root whose children are a triangle and an instance. -/
def rootNode : Nat := nodeOf (unitBox ++ unitBox) (0x20040 + 4 + 32) 0
/-- The triangle (-1,-1,0), (1,-1,0), (0,1,0). -/
def triNode (parent : Nat) : Nat :=
  nodeOf [0xBF800000, 0xBF800000, 0, 0x3F800000, 0xBF800000, 0, 0, 0x3F800000, 0, 7] 0 parent
/-- An instance of the root at 0x200C0 by the identity. -/
def instNode (parent : Nat) : Nat :=
  nodeOf [0x3F800000, 0, 0, 0, 0, 0x3F800000, 0, 0, 0, 0, 0x3F800000, 0] (0x200C0 + 5 * 2 ^ 57) parent
/-- A wave beside those nodes; the node at 0x20100 is malformed. -/
def scene : State :=
  ((((wave.writePhysN 0x20000 rootNode 64).writePhysN 0x20040 (triNode 0x20000) 64).writePhysN 0x20080 (instNode 0x20001) 64).writePhysN
    0x200C0 (nodeOf (farBox ++ unitBox) (0x20040 + 4 + 16) 0) 64).writePhysN 0x20100 (nodeOf [] 3 0) 64

/-- A ray from (0,0,-2) along z at a node. -/
def rayAt (node kind level : Nat) : Walk :=
  { o := [0, 0, 0xC0000000], d := [0, 0, 0x3F800000], tmin := 0, tbest := 0x41200000, hit := 0xFFFFFFFF, uv := 0, node := node,
    trail := 0, kind := kind, status := 0, skip := false, level := level, insts := [] }

theorem witness_ray_tests :
    (let w := rayAt 0x20000 0 1
     let away := { w with o := [0x40A00000, 0, 0xC0000000] }
     nodeOk 0 rootNode && nodeOk 1 (triNode 0x20000) && nodeOk 2 (instNode 0x20001) && !nodeOk 0 (nodeOf [] 3 0) && !nodeOk 3 0 &&
     w.box rootNode 0 && !away.box rootNode 0 && !isNanS w.tmin && !isNanS w.tbest &&
     (List.range 3).all (fun c => finS (nodeWord (instNode 1) c) && finS (nth 0 w.o c)) && finS (nodeWord (instNode 1) 3) &&
     (List.range 2).all (fun i => decide (nth 0 w.d i % 2 ^ 31 < nth 0 w.d 2 % 2 ^ 31)) &&
     some_ (w.test (triNode 0) 0) (fun r => ltS w.tmin r.1 && ltS r.1 w.tbest && r.1 == 0x40000000) &&
     (away.test (triNode 0) 0).isNone && (w.tested (triNode 0) 0).isSome &&
     (Walk.tested { w with tbest := 0x3F800000 } (triNode 0) 0).isNone) = true := by decide +kernel

theorem witness_ray_walks :
    (let w := rayAt 0x20000 0 1
     let away := { w with o := [0x40A00000, 0, 0xC0000000] }
     let is := fun (r : Except (Exn × Cx) (Walk × Flow × Cx)) (f : Flow) (st : Nat) => good r fun x => x.2.1 == f && x.1.status == st
     cxOf scene fun cx =>
     -- the three visits
     is (Cx.visitInternal 0 rootNode w cx) .go 0 && is (Cx.visitInternal 0 rootNode { w with level := 64 } cx) .stop stDepth &&
     is (Cx.visitInternal 0 (nodeOf (farBox ++ unitBox) 0x20054 0) w cx) .go 0 && is (Cx.visitInternal 0 rootNode away cx) .ended 0 &&
     is (Cx.visitInstance 0 (instNode 0) (rayAt 0x20080 2 64) cx) .stop stDepth &&
     is (Cx.visitInstance 0 (instNode 0) { rayAt 0x20080 2 64 with skip := true } cx) .go 0 &&
     is (Cx.visitTriangle 0 (triNode 0x20000) 0 (rayAt 0x20040 1 2) cx) .stop stHit &&
     is (Cx.visitTriangle 0 (triNode 0x20000) 0 { rayAt 0x20040 1 2 with trail := 2 } cx) .stop stDone &&
     -- the ways up
     is (Cx.ascend 0 65 { rayAt 0x20100 0 2 with kind := 0 } cx) .stop stInvalid &&
     is (Cx.ascend 0 65 (rayAt 0x20040 1 2) cx) .go 0 && is (Cx.ascend 0 65 { rayAt 0x20040 1 2 with trail := 2 } cx) .ended 0 &&
     is (Cx.ascend 0 65 { away with node := 0x20040, kind := 1, level := 2 } cx) .ended 0 &&
     is (Cx.ascend 0 65 { rayAt 0x200C0 0 3 with trail := 6, insts := [{ level := 2, addr := 0x20080, id := 5, o := [], d := [] }] } cx)
       .ended 0 &&
     -- the walk, the path down and a lane
     good (Cx.walk 0 0 1 w cx) (fun r => r.1.status == stBudget) && good (Cx.walk 0 0 9 w cx) (fun r => r.1.status == stHit) &&
     good (Cx.walk 0 0 9 away cx) (fun r => r.1.status == stDone) && good (Cx.walk 0 0 9 (rayAt 0x20100 0 1) cx) (fun r => r.1.status == stInvalid) &&
     good (Cx.retrace 0 2 1 0x20000 0 { w with trail := 2 } cx) (fun r => some_ r.1 fun v => v.insts.length == 1) &&
     good (Cx.retrace 0 1 1 0x20100 0 w cx) (fun r => r.1.isNone) &&
     (let x := fun (ctl i : Nat) => nth 0 [0, 0, 0xC0000000, 0, 0, 0x3F800000, 0, 0x41200000, 0xFFFFFFFF, 0, 0, 0, 0, 0, ctl] i
      let ends := fun (ctl st : Nat) => good (cx.stepRay 0 0 9 0x20000 (x ctl)) fun r => (Walk.ofWords (fun i => (nth 0 ([0, 0, 0, 0, 0, 0, 0].map
        (BitVec.ofNat 32) ++ r.1 ++ [0]) i).toNat)).status == st
      ends 0 stHit && ends (2 ^ 14) stInvalid && ends (stDone * 256) stDone)) = true := by decide +kernel

theorem witness_samples :
    (let sh : Shape := { base := 0x20000, etype := 0, ndim := 3, layout := 0, dims := [2, 2, 1], strides := [8, 16] }
     let k : Derivs := { ux := 0x3F000000, vx := 0, uy := 0, vy := 0x3E800000 }
     let rx := sh.reachOf k.ux k.vx
     let ry := sh.reachOf k.uy k.vy
     -- a coordinate inside a cell, and one that rounds up to the next
     (splitCoord 0x3F000000 == (0, 128)) && (splitCoord 0x3F7FFFFF == (1, 0)) && finS 0x3F7FFFFF && finS 0 &&
     !(valueOf .f32 0x3F800000).isZero && (match Lns.ofWord (lcv 0x3F800000).1 with | .fin _ _ => true | .nan => false | .zero _ => false | .inf _ => false) &&
     -- footprints whose small side is 0, and not
     finS (divS rx ry) && !(valueOf .f32 ry).isZero && (anisoCount rx ry).isSome && anisoCount rx 0 == some 16 &&
     [k.ux, k.vx, k.uy, k.vy].all (fun x => !isNanS x) && (Ty.ofCode sh.etype == some .f32) && decide (1 ≤ sh.levels) &&
     (List.range 2).all (fun i => finS (addS (intS i) halfS)) &&
     !(sh.component 0x3F800000).isNan && !(sh.component 0x3F800000).isInf) = true := by decide +kernel

theorem witness_raster :
    (let edge := 8 + 2 ^ 32 + 2 ^ 48 * 16384
     let v := fun x y : Nat => snapVertex x y 0x3F000000
     parseTarget 0x20000 edge 2 0 == some { base := 0x20000, pitch := 8, width := 1, height := 16384, cull := 2 } &&
     (parseTarget 0x20000 edge 2 1).isNone && (parseTarget 0x20000 (edge + 2 ^ 48) 0 0).isNone && (parseTarget (2 ^ 57) edge 0 0).isNone &&
     some_ (v 0 0) (fun a => some_ (v 0x40000000 0) fun b => some_ (v 0 0x40000000) fun c =>
       (edgeFn a.at b.at c.at != 0) && (fragDepth a b c 0 0 (edgeFn a.at b.at c.at)).isSome) && (v 0x7FC00000 0).isNone &&
     -- the reach of an entry: one that answers, one of a sector in error, one outside the aperture
     (let s := onCluster wave id
      let at1 := fun (s : State) (a : Addr) (f : Except Exn Place → Bool) => cxOf s fun cx => f (cx.reach .write true 8 .row 0 a).1
      at1 s 0x20000 (fun r => good r fun _ => true) &&
      at1 { s with errors := [.word 0 { space := .phys, key := 0x20000 }] } 0x20000
        (fun r => match r with | .error e => e.code == .eccUncorrectable | .ok _ => false) &&
      at1 s (7 * 2 ^ 40) (fun r => match r with | .error e => e.code != .eccUncorrectable | .ok _ => false) &&
      -- a fragment that is nearer than its entry, and one farther
      (let spot := fun (a : Nat) => ({ place := { space := .phys, key := a }, addr := BitVec.ofNat 64 a, cached := false } : Spot)
       let f := fun (key : BitVec 64) => ({ entry := spot 0x20000, key := key, obj := some (spot 0x20800, 3) } : Fragment)
       let s := s.writePhysN 0x20000 100 8
       (s.stream? 2).isSome && (s.spotError (f 5).entry).isNone && s.engineN 2 0 (f 5).entry.place 8 == 100 &&
       decide ((f 5).key.toNat ≤ 100) && decide (100 < (f 101).key.toNat) &&
       (State.fragment 2 0 1 s (f 5)).engineN 2 0 (f 5).entry.place 8 == 5 &&
       (State.fragment 2 0 1 s (f 101)).engineN 2 0 (f 5).entry.place 8 == 100))) = true := by decide +kernel

/-- A record whose centre is the middle of pixel 0, with the opacity `op`. -/
def blob (qa op : Nat) : SplatRec := [0x3F000000, 0x3F000000, qa, 0, 0x3F800000, op, 0, 0, 0x3F800000, 0, 0, 0]

theorem witness_splat_terms :
    (let px := (0x3FC00000, 0x3F000000)
     (splatTerm (blob 0xBF800000 0x3F000000) px).isNone && some_ (splatTerm (blob 0x3F800000 0x3F000000) px) fun k =>
       (splatTerm (blob 0x3F800000 0x40800000) px).isSome && !ltS k.og 0 && leS 0 k.q && !ltS splatMax k.og) = true := by decide +kernel

/-- A NaN, an area of 0 and one that is not, where a triangle's and a ray's gradients are asked. -/
theorem witness_gradients :
    (let one := 0x3F800000
     let tri := fun i => nth 0 [0, 0, one, 0, 0, one, 0, one, one, 0, 1, 2] i
     let ray := [0, 0, 0, 0, 0, one, 0, 0, one, one, 0, one, 0, one, one]
     (List.range 6).all (fun i => finS (tri i)) && !isNanS (tri 7) && isNanS 0x7FC00000 && (rasEmits (fun _ => 0) 0x20000 0).isEmpty &&
     (rasEmits tri 0x20000 0).length == 6 && ray.all finS && (rayGrads ray [one, one, one] 0).isSome &&
     (rayGrads (List.replicate 15 0) [one, one, one] 0).isNone &&
     -- an edge that crosses its pixel, one that misses it, one that touches its corner, and one of no length
     (let clip := fun (x0 y0 x1 y1 : Int) => clipEdge (Rat2.ofInt x0) (Rat2.ofInt y0) (Rat2.ofInt x1) (Rat2.ofInt y1) 0 0
      (clip (-1) 0 2 1).isSome && (clip 3 3 4 4).isNone && some_ (clip (-1) 0 1 2) (fun e => e.1 == e.2) &&
      (clip 0 0 0 0).isSome) &&
     (let w := fun i => nth 0 [0xBF800000, 0, 0x40000000, one, 0, 0, 1, one, one, one] i
      (edgEmits w (fun i => nth 0 [one, 0, 0, 0, 0, 0] i) 0x20000 0 0).length == 4)) = true := by decide +kernel

/-- An adjoint that issues again for some of its lanes, with nothing of another split that waits. -/
theorem witness_reissue :
    cxOf (waveOf id (split0 fun p => { p with retry := some 1, serial := some 0 })) (fun cx =>
      !cx.st.recomputing && cx.sp.retry.isSome && !cx.s.rasterBusy cx.id cx.st && !cx.s.adjointOpen cx.id &&
      !cx.s.logFull cx.st && good cx.openRegion fun _ => true) = true ∧
    cxOf (waveOf id fun st => { st with saved := some st.vis }) (fun cx => cx.st.recomputing && good cx.openRegion fun _ => true) =
      true := by decide +kernel

/-- The values 0 and 1 in the rationals, and the area of the triangle of `witness_gradients`, which is not 0. -/
theorem witness_area :
    numQ (valueOf .f32 0) = 0 ∧ numQ (valueOf .f32 0x3F800000) = 1 ∧
    (let q : Nat → ℝ := fun i => ((numQ (valueOf .f32 (nth 0 [0, 0, 0x3F800000, 0, 0, 0x3F800000] i)) : ℚ) : ℝ)
     (q 2 - q 0) * (q 5 - q 1) - (q 3 - q 1) * (q 4 - q 0) ≠ 0) := by
  have h0 : valueOf .f32 0 = .fin false 0 0 := by decide
  have h1 : valueOf .f32 0x3F800000 = .fin false (2 ^ 23) (-23) := by decide
  have z0 : numQ (valueOf .f32 0) = 0 := by rw [h0]; simp [numQ]
  have z1 : numQ (valueOf .f32 0x3F800000) = 1 := by rw [h1]; norm_num [numQ]
  refine ⟨z0, z1, ?_⟩
  simp only [show nth 0 [0, 0, 0x3F800000, 0, 0, 0x3F800000] 0 = 0 from rfl, show nth 0 [0, 0, 0x3F800000, 0, 0, 0x3F800000] 1 = 0 from rfl,
    show nth 0 [0, 0, 0x3F800000, 0, 0, 0x3F800000] 2 = 0x3F800000 from rfl, show nth 0 [0, 0, 0x3F800000, 0, 0, 0x3F800000] 3 = 0 from rfl,
    show nth 0 [0, 0, 0x3F800000, 0, 0, 0x3F800000] 4 = 0 from rfl, show nth 0 [0, 0, 0x3F800000, 0, 0, 0x3F800000] 5 = 0x3F800000 from rfl,
    z0, z1]
  norm_num

/-! ## Witnesses: the tape and the system instructions -/

/-- A launch with a tape share. -/
def taped (la : Launch) : Launch := { la with record := { la.record with tape := 256 } }
/-- A span of both lanes, each with one record of tag 5. -/
def span0 (st : SpanState) (rc : Bool) : Span :=
  { st := st, recomputed := false, rc := rc, pc := 0x10004, dii := 1, mode := Mode.initial, srseed := 0, lossexp := 0,
    winbase := 0, mask := 3, lanes := 3, hdr := { fa := none, fb := none }, left := 0, first := 0, inputs := [], head := 8,
    headOut := false, counts := [], popped := [],
    recs := [{ lane := 0, code := .delta, tag := 5, value := 7, size := 3, spilled := false },
             { lane := 1, code := .delta, tag := 5, value := 8, size := 3, spilled := false }] }
/-- A stream with that span. -/
def spanned (st : SpanState) (rc : Bool) (x : Stream) : Stream :=
  { x with tape := { x.tape with spans := [span0 st rc], opened := 1 } }
/-- A split with part of its lanes masked off. -/
def diverged : Stream → Stream := split0 fun p => { p with mask := 1, stack := [pend0] }

theorem witness_tape :
    (let on := fun (s : State) (d : State → Desc) (f : Cx → Bool) => at_ s (d s) f
     let span := fun (s : State) => { Desc.tape s false [(Opnd.srcV 2).many 16] with
       free := !(s.issueHas fun cx => (List.range 16).any fun i => cx.pendingV (cx.sp.winbase + 2 + i) cx.sp.members) }
     let rec_ := fun (s : State) => { Desc.lane [.src 2, .srcS 68] with legal := !s.inHandler }
     let cls := fun (s : State) => Desc.tape s true []
     let mark := fun (s : State) => Desc.tape s false []
     let has := fun (cx : Cx) => cx.la.record.tape != 0
     let tag := sregs [(4, 4095)]
     on wave span (fun cx => !has cx) && on (waveOf taped diverged) span (fun cx => has cx && cx.divergent) &&
     on (waveOf taped (spanned .opened false)) span (fun cx => has cx && (cx.st.tape.open?).isSome) &&
     on (waveOf taped id) span (fun cx => has cx && !cx.divergent && cx.st.tape.open? == none && decide (cx.st.tape.opened < 4096) &&
       (List.range 16).all (fun i => (List.range 96).all fun l => !cx.badEntry (cx.sp.winbase + 2 + i) l) &&
       good (cx.tapeRoom ((lanesOf cx.sp.members).map fun l => (l, 4 + 4 * 16)) none none) fun _ => true) &&
     on wave rec_ (fun cx => !has cx) &&
     on (waveOf taped (spanned .opened false ∘ tag)) rec_ (fun cx => has cx && good (cx.tapeTag 68) fun t => good (t.2.source 2) fun x =>
       x.2.st.tape.open? == some 0 && good (x.2.tapeRoom ((lanesOf x.2.part).map fun l => (l, 2)) none (some 0)) fun c3 =>
         good (c3.buffer [{ size := 4, item := .tape, recs := [], issue := 0, lane := 0, rel := none, cached := false, own := true }]) fun _ => true) &&
     on wave cls (fun cx => !has cx) &&
     on (waveOf taped (spanned .opened false)) cls (fun cx => has cx && cx.st.saved == none && !cx.divergent &&
       cx.st.tape.open? == some 0) &&
     on (waveOf taped id) cls (fun cx => has cx && cx.st.saved == none && cx.st.tape.open? == none) &&
     on (waveOf taped (spanned .opened false ∘ diverged)) cls (fun cx => has cx && cx.st.saved == none && cx.divergent) &&
     on wave mark (fun cx => !has cx) && on (waveOf taped diverged) mark (fun cx => has cx && cx.divergent) &&
     on (waveOf taped (spanned .opened false)) mark (fun cx => has cx && cx.st.tape.spans.all fun p => p.st == .opened) &&
     let newest := fun (cx : Cx) => ((cx.st.tape.spans.zipIdx).filter fun p => p.1.st != .opened).getLast?
     on (waveOf taped (spanned .dropped true)) mark (fun cx => has cx && !cx.divergent && newest cx == some (span0 .dropped true, 0)) &&
     on (waveOf taped (spanned .closed false)) mark (fun cx => newest cx == some (span0 .closed false, 0)) &&
     on (waveOf taped (spanned .closed true)) mark (fun cx => newest cx == some (span0 .closed true, 0))) = true := by decide +kernel

/-- The room that a record asks for: there, made by a spill, in a DET launch too, and not to be made. -/
theorem witness_tape_room :
    (let small := fun (size : Nat) (a : Word) (la : Launch) =>
       { la with record := { la.record with tape := 16, tapeBase := 0x80000, tapeSize := size, attr := a } }
     let past := fun (cx : Cx) (t : Tape) (n : Nat) => decide (cx.la.record.tape < t.share 0 + n)
     let u := fun (cx : Cx) (n : Nat) => cx.st.tape.spillFor cx.la.record.tape [(0, n)] none none
     let on := fun (size : Nat) (a : Word) (f : Cx → Bool) => cxOf (waveOf (small size a) (spanned .closed false)) f
     let fits := fun (cx : Cx) => cx.la.record.tapeBase != 0 && if cx.la.det then decide ((u cx 8).backing ≤ cx.la.tapePart)
       else decide (cx.s.tapeElsewhere cx.id cx.st + (u cx 8).backing ≤ cx.la.record.tapeSize)
     on 0x1000 0 (fun cx => !past cx cx.st.tape 0 && past cx cx.st.tape 8 && !past cx (u cx 8) 8 && !cx.la.det && fits cx) &&
     on 0x10000 9 (fun cx => past cx cx.st.tape 8 && !past cx (u cx 8) 8 && cx.la.det && fits cx) &&
     on 0 0 (fun cx => past cx cx.st.tape 8 && !fits cx) && on 0 9 (fun cx => past cx cx.st.tape 8 && !fits cx) &&
     on 0x1000 0 (fun cx => past cx cx.st.tape 32 && past cx (u cx 32) 32)) = true := by decide +kernel

theorem witness_tpop :
    (let pop := fun (s : State) => { Desc.lane [(Opnd.dstV 2).pending, .srcS 68] with
       recomp := false, legal := !s.inHandler, flag := some false }
     let on := fun (s : State) (f : Cx → Bool) => at_ s (pop s) f
     let has := fun (cx : Cx) => cx.la.record.tape != 0
     on wave (fun cx => !has cx) && on (waveOf taped (spanned .opened false)) (fun cx => has cx && cx.st.tape.open?.isSome) &&
     on (waveOf taped (spanned .closed false ∘ sregs [(4, 5)])) (fun cx => has cx && cx.st.tape.open? == none &&
       good (cx.flagRoom (cx.flagOf false)) fun _ => good (cx.bringLanes (lanesOf cx.part)) fun _ => good (cx.tapeTag 68) fun t =>
       good (t.2.bringLanes (lanesOf cx.part)) fun c2 =>
         let r := c2.st.tape.popLanes t.1 (Sp.get false c2.st.tape.first 5) (Sp.get false c2.st.tape.replay 5) (lanesOf cx.part)
         (lanesOf cx.part).all (fun l => !c2.s.errors.contains (ErrSite.tape c2.id l)) && r.2.isEmpty && r.1.map (fun g => g.2.2.1) == [7, 8] && good (c2.launchOp (cx.flagOf false) (Op.blank c2 .tpop)) fun _ =>
           true)) = true := by decide +kernel

theorem witness_allotment_and_traps :
    (let d := { Desc.split [] with mcc := false, recomp := false }
     let room := fun (b : Nat) (cx : Cx) => decide (cx.s.allotBeside cx.id cx.st.cl cx.st.core cx.st.part + b ≤ Config.allotUnits)
     let full := (waveOf id id).putStream 5 { Stream.launchWave 1 launch2 0 0 0 0 with
       active := true, vis := { (Stream.launchWave 1 launch2 0 0 0 0).vis with allot := Config.allotUnits } }
     at_ wave d (fun cx => decide (16 ≤ cx.st.vis.allot + 8 ∧ cx.st.vis.allot + 8 * 24 = 256) && room 256 cx) &&
     at_ full d (fun cx => !room (cx.st.vis.allot + 8) cx) &&
     at_ wave d (fun cx => decide (cx.st.vis.allot - 8 * 6 = 16) && (spillAll 16 cx.la.psize (putSplit cx.st.vis.splits cx.sp)).isSome) &&
     at_ wave { Desc.control with recomp := false } (fun _ => true) &&
     (let h := waveOf id inHandler
      at_ h { Desc.control with legal := h.inHandler } (fun cx => cx.sp.trap == some frame0 && cx.sp.linkage == [.trap 64]))) = true := by
  decide +kernel

/-- The four codes of a record and their bytes (R239, R295): a head of the code and the tag, then the payload. -/
theorem test_tape_codes :
    tapeCode 0 7 = .zero ∧ tapeCode 7 7 = .same ∧ tapeCode 0xFFFFFFFF 0 = .delta ∧ tapeCode 0x100 0 = .raw ∧ tapeCode 0x80 0 = .raw :=
  by decide

theorem witness_system_registers :
    (let r := fun (s : State) (i : BitVec 8) (f : Cx → Bool) => at_ s { Desc.split [.dstS 68] with priv := decide (i.toNat ≥ 0x80) } f
     let w := fun (s : State) (i : BitVec 8) (f : Cx → Bool) => at_ s { Desc.split [.srcS 68] with
       priv := decide (i.toNat ≥ 0x80), recomp := decide (i.toNat < 0x80) } f
     let root := fun (x : Stream) => { x with privileged := true }
     r wave 0x7F (fun _ => !sysReg 0x7F) && r (waveOf (attr 9) id) 0x0A (fun cx => cx.la.det && sysReg 0x0A && sysTimed 0x0A) &&
     r (waveOf id root) 0x80 (fun cx => sysReg 0x80 && !cx.la.det && good ((cx.sysRead 0x80).2.writeS 4 1) fun _ => true) &&
     w wave 0x7F (fun _ => true) && w wave 0x03 (fun _ => sysReg 0x03 && sysReadOnly 0x03) &&
     w (waveOf id (sregs [(4, 0xFFFFFFFC)])) 0x15 (fun cx => sysReg 0x15 && !sysReadOnly 0x15 && good (cx.readS 4) fun v =>
       sysTakes 0x15 v.1.toNat) &&
     w (waveOf id (sregs [(4, 0xFFFFFFFF)])) 0x02 (fun cx => sysReg 0x02 && !sysReadOnly 0x02 && good (cx.readS 4) fun v =>
       !sysTakes 0x02 v.1.toNat) &&
     cxOf wave (fun cx => !cx.illegal { Desc.split [.srcS 68] with priv := true, recomp := false } &&
       !cx.illegal { Desc.split [.dstS 68] with priv := true } && !cx.st.privileged && !cx.st.isMcc && !cx.st.isReplay) &&
     [0x00, 0x01, 0x02, 0x05, 0x06, 0x07, 0x15, 0x16].all (fun i => sysTakes i 0) &&
     [0x80, 0x81, 0x82, 0xD0, 0xD1, 0xD2].all (fun i => sysTakes i 0)) = true := by decide +kernel

/-! ## Witnesses: completions, the scheduler, the package -/

/-- The wave with operation 9 in flight, of this kind, on flag 0. -/
def flying (k : OpKind) (f : Op → Op) (s : State) : State :=
  match Cx.load s with
  | some cx => (s.onStream 2 fun st => { st with flags := [(0, 1)] }).putOp 9 (f { Op.blank cx k with flag := some 0 })
  | none => s
/-- A shape of two fp32 at an address. -/
def two (a : Addr) : Shape := { base := a, etype := 0, ndim := 1, layout := 0, dims := [2], strides := [0, 0, 0, 0] }
/-- A collective of this cluster. -/
def coll0 (chunks : Nat) (matched : Bool) : OpKind := .coll 0 8 0 0 (two 0x20000) (two 0x40000) 0 chunks matched (List.replicate 8 0)

/-- A fragment whose entry is in memory. -/
def spotted : Fragment :=
  { entry := { place := { space := .phys, key := 0x20000 }, addr := 0x20000, cached := false }, key := 5, obj := none }

theorem witness_matrix_chunks :
    (let one := valueOf .f32 0x3F800000
     let inf := fun b => Machine.Num.inf b
     let nan := valueOf .f32 0x7FC00000
     let zero := valueOf .f32 0
     one.isNan = false ∧ one.isInf = false ∧ (one.mul one).2 = false ∧ (zero.mul (inf false)).2 = true ∧
     ((inf false).mul one).1 = .inf false ∧ ((inf true).mul one).1 = .inf true ∧ nan.isNan = true ∧
     (valueOf .f32 0x7F800001).isSig = true ∧ (inf false).isNan = false ∧
     ((leased id).cluster 0).tile 3 = { tile8 with st := .ready, owner := some 1, etype := 2, rows := 8, cols := 8 } ∧
     (((leased id).cluster 0).tile 3).rows ≤ 64) := by decide +kernel

theorem witness_operations_complete :
    (let has := fun (s : State) (f : Op → Stream → Bool) => some_ (s.op? 9) fun o => some_ (s.stream? o.stream) fun st =>
       decide (st.life ≠ .ended) && f o st
     let x : Rmw := { place := { space := .phys, key := 0x20000 }, n := 4, sub := 0, etype := 13, opd := 1, new := 0, vdst := [], sdst := [], addr := 0x20000, cached := false }
     let plain := [OpKind.load, .atom [], .atom [x, x], .occq, .tex, .rtstep, .tpop, .texadj, .edgs, .splat true [], .splat false [],
       .raster 0 []]
     let cp := OpKind.copy 1 (two 0x20000) (two 0x40000) []
     plain.all (fun k => has (flying k id wave) fun o _ => !o.waiting && o.kind == k) &&
     has (flying (.atom [x]) id wave) (fun o _ => !o.waiting && some_ (((flying (.atom [x]) id wave).rmwStep 9).op? 9) fun _ => true) &&
     has (flying .load (fun o => { o with waiting := true }) wave) (fun o _ => o.waiting) &&
     has (flying .load (fun o => { o with vres := [(3 * 96 + 95, 7)], sres := [(59, 7)] }) wave) (fun o _ => o.flag == some 0) &&
     has { flying cp id wave with copyq := [.copy 9 0 1] } (fun o st => !o.waiting && mayComplete 9 st.coreNo 1 [] [.copy 9 0 1]) &&
     has { flying cp id wave with copyq := [.copy 8 0 1, .copy 9 0 1] } (fun _ st =>
       !mayComplete 9 st.coreNo 1 [] [.copy 8 0 1, .copy 9 0 1]) &&
     (let s := flying cp (fun o => { o with trans := [(0x20, 0x80), (0x40, 0x100)] }) wave
      has s fun o st =>
        let r := s.engineTouches 2 st false .row 4 o.trans (two 0x20000).elems
        let w := r.2.2.engineTouches 2 st true .row 4 o.trans (two 0x40000).elems
        r.1 == 2 && r.2.1 == none && w.1 == 2 && w.2.1 == none &&
        (elemPlaces st.cl 4 o.trans (two 0x40000).elems).all fun p => !(elemPlaces st.cl 4 o.trans (two 0x20000).elems).contains p) &&
     has (flying (.tileFill 3 [] 0) id wave) (fun o _ => o.fault == none && o.vres == []) &&
     has (flying (.tileFill 3 [] 0) (fun o => { o with fault := some (Exn.plain .eccUncorrectable) }) wave) (fun o _ => o.fault != none) &&
     has (flying (.tileDrain 3 []) id wave) (fun o _ => !o.waiting) &&
     has (flying (.mma 0 3 4 false 0 1 0 false) id (leased id)) (fun o st => decide (st.life = .resident) &&
       !(leased id).mmaBefore 9 o.stream 0 && (leased id).errors.isEmpty && some_ ((leased id).cluster st.cl).lease fun l => l.stream == o.stream) &&
     has (flying (.mma 0 3 4 false 1 1 0 true) id (leased id)) (fun o st => !o.waiting && st.life == .resident && st.savedLease.isNone) &&
     has (flying (.mma 0 3 4 false 1 1 0 true) id (leased fun st => { st with savedLease := some (3, 0x2003) })) (fun o st =>
       !o.waiting && st.savedLease.isSome) &&
     (let r : State := flying (.raster 0 [spotted]) id wave
      has r (fun o _ => !o.waiting && r.spotError spotted.entry == none)) &&
     (let late := fun (o : Op) => { o with vres := [(99 * 96 + 1, 7)], ckptNo := 0, fault := some (Exn.plain .eccUncorrectable) }
      has (flying .load late (wave.onStream 2 fun st => { st with ckpt := some st.snapshot, ckptNo := 1, exited := 2 })) fun o st =>
        decide (o.ckptNo < st.ckptNumber) && st.ckpt.isSome && inMask st.exited 1 && o.fault.isSome && !st.vis.splits.isEmpty)) = true := by
  decide +kernel

/-- A contribution of launch 1. -/
def gift : Held :=
  let c : Contrib :=
    { addr := 0x20000, place := { space := .phys, key := 0x20000 }, value := 0, epoch := 0, dii := 0, lane := 0, j := 0, loss := 0,
      cached := false }
  { launch := 1, wid := 0, c := c, slot := none }

/-- An item of one contribution. -/
def gifted : BufItem := { size := 8, item := .scat gift.c, recs := [], issue := 0, lane := 0, rel := none, cached := false, own := true }
/-- A wave whose adjoint is in flight, with the checkpoint that its commit makes where `next` says. -/
def adjoining (next : Bool) : State :=
  flying .texadj (fun o => { o with contribs := [gifted] })
    (wave.onStream 2 fun st => { st with nextCkpt := if next then some st.snapshot else none })

theorem witness_adjoints_end :
    (let has := fun (s : State) (f : Op → Stream → Bool) => some_ (s.op? 9) fun o => some_ (s.stream? o.stream) fun st =>
       st.pendKill == none && f o st
     has (adjoining false) (fun _ st => st.nextCkpt == none) &&
     has (adjoining true) (fun o st => st.nextCkpt != none && !(adjoining true).logFull { st with buffer := o.contribs } &&
       !st.isReplay && o.contribs.map (·.item) == [gift.c].map .scat)) = true ∧
    (let s := (adjoining true).onStream 2 fun st => split0 (fun p => { p with trap := some frame0 }) { st with pendKill := some .replay }
     some_ (s.op? 9) fun o => some_ (s.stream? o.stream) fun st => st.killWaits) = true := by decide +kernel

/-- A log that this commit would overrun. -/
theorem witness_full_log (s : State) (st : Stream) (h : st.isReplay = false) :
    ({ s with arcade := List.replicate arcadeSlots gift, slog := (0, 0) } : State).logFull { st with buffer := [gifted] } = true := by
  simp [State.logFull, gifted, Stream.isReplay] at h ⊢; exact h

theorem witness_collectives_go_on :
    (let has := fun (s : State) (f : Op → Stream → Bool) => some_ (s.op? 9) fun o => some_ (s.stream? o.stream) fun st => !o.waiting && f o st
     let bare : OpKind := .coll 0 8 0 0 (two 0x20000) (two 0x40000) 0 0 true []
     (let s := flying (coll0 1 false) id wave
      some_ (s.collOp 9) fun c => !c.op.waiting && !c.pod && (s.collGroup c).all (·.isSome) && c.op.kind == coll0 1 false) &&
     has { flying (coll0 1 true) id wave with collNow := some 9 } (fun _ _ => true) &&
     has (flying bare id wave) (fun o _ => o.kind == bare) &&
     (let s := flying (coll0 0 true) id wave
      has s fun o st => let r := s.engineTouches 2 st true (two 0x40000).orient 4 o.trans (two 0x40000).elems
        o.kind == coll0 0 true && r.1 == 2 && r.2.1 == none)) = true := by decide +kernel

theorem witness_engine_writes :
    backed (wave.canon 0x20000) = true ∧ ((wave.engineWrite 1 2 0 [({ space := .phys, key := 0x20000 }, 1)]).stream? 2).isSome = true := by
  decide +kernel

/-- The wave held. -/
def held (h : Hold) : State := waveOf id (split0 fun p => { p with hold := some h })
/-- The wave with its split ended and held for its own operations. -/
def exiting (late : List (Nat × Addr × Exn)) : State :=
  waveOf id (split0 fun p => { p with status := .ended, hold := some .own, late := late })

theorem witness_releases :
    (let at0 := fun (s : State) (h : Hold) (f : Stream → Split → Bool) => some_ (s.stream? 2) fun st => some_ (st.split? 0) fun p =>
       p.hold == some h && decide (st.life = .resident) && f st p
     let tile := fun (v : Tile) => tiled (held (.tile 3)) v
     at0 (held (.flags 0xFFF)) (.flags 0xFFF) (fun st p => st.flagsClear 0xFFF && p.status != .ended) &&
     at0 ((held (.flags 1)).onStream 2 fun st => { st with flags := [(0, 1)] }) (.flags 1) (fun st _ => !st.flagsClear 1) &&
     at0 (held .own) .own (fun _ _ => !(held .own).ownBusy 2 0) &&
     at0 (flying .load id (held .own)) .own (fun _ _ => (flying .load id (held .own)).ownBusy 2 0) &&
     at0 (exiting []) .own (fun _ p => p.status == .ended && p.late.isEmpty && !(exiting []).ownBusy 2 0) &&
     (let s := exiting [(0, 0x10000, Exn.plain .eccUncorrectable)]
      at0 s .own (fun _ p => p.status == .ended && !p.late.isEmpty && !s.ownBusy 2 0)) &&
     at0 (flying .load id (exiting [])) .own (fun _ p => p.status == .ended && (flying .load id (exiting [])).ownBusy 2 0) &&
     at0 (onBay (held (.queueEmpty 3)) fun c => { c with hwq := [(3, [1])] }) (.queueEmpty 3) (fun _ _ => true) &&
     at0 ((held (.queueEmpty 3)).onStream 2 fun st => { st with redeliver := [(3, 1)] }) (.queueEmpty 3) (fun st _ => st.redeliver.any fun e => e.1 == 3) &&
     at0 (held (.queueFull 3)) (.queueFull 3) (fun st _ => decide ((held (.queueFull 3)).heldPushes st.launch st.cl 3 < Config.queueEntries)) &&
     at0 (held (.grow 256)) (.grow 256) (fun st _ => decide ((held (.grow 256)).allotBeside 2 st.cl st.core st.part + 256 ≤ Config.allotUnits)) &&
     at0 (tile tile8) (.tile 3) (fun st _ => !(tile tile8).tileInUse st.cl 3 && ((tile tile8).cluster st.cl).tile 3 == tile8 && tile8.st == .empty) &&
     at0 (tile { tile8 with st := .filling, part := true }) (.tile 3) (fun st _ => !(tile { tile8 with st := .filling, part := true }).tileInUse st.cl 3) &&
     (let s := waveOf (routed 13) (split0 fun p => { p with hold := some (.partition 0 0) })
      at0 s (.partition 0 0) fun st _ => some_ (s.launchOf st).stages[0]? fun q =>
        decide (q.quota ≤ s.freeCards st.launch (s.launchOf st) 0 0 q))) = true := by decide +kernel

/-- A second wave of the launch, as stream 5, changed by `f`. -/
def beside (s : State) (f : Stream → Stream) : State := s.putStream 5 (f (Stream.launchWave 1 launch2 1 0 0 0))

theorem witness_slots :
    (let w := fun (s : State) (f : Stream → Bool) => some_ (s.stream? 2) fun st => decide (st.life = .resident) && !st.isMcc &&
       !st.isReplay && f st
     let two_ := fun (f : Stream → Stream) => beside (waveOf id fun st => split0 (fun p => { p with left := 0 }) (f st)) id
     let ready := fun (s : State) => s.streams.any fun e => e.2.inPartition 0 0 0 && !e.2.active && !e.2.stalled
     w (held .own) (fun st => st.active && st.stalled) && w wave (fun st => st.active && !st.stalled) &&
     w (wave.onStream 2 fun st => { st with active := false }) (fun st => !st.active) &&
     w (beside ((waveOf id id).onStream 2 fun st => split0 (fun p => { p with left := 0 }) { st with yielded := true }) id) (fun st =>
       st.active && st.yielded && st.atBoundary && ready (two_ id)) &&
     w ((two_ id).onStream 2 fun st => split0 (fun p => { p with left := 0 }) { st with turns := 4096 }) (fun st =>
       st.active && decide (4096 ≤ st.turns) && st.atBoundary) &&
     w (two_ fun st => { st with turns := 4095 }) (fun st => !st.yielded && !decide (4096 ≤ st.turns)) &&
     w wave (fun st => (wave.oldestReady st).isNone) &&
     w (two_ id) (fun st => some_ ((two_ id).oldestReady st) fun e => e.1 == 5) &&
     (let here := wave.streams.filter fun e => e.2.inPartition 0 0 0
      here.all (fun e => e.2.active || e.2.stalled) && decide ((here.filter fun e => e.2.active).length < Config.activeSlots)) &&
     ready (two_ id) && (two_ id).streams.all (fun e => e.1 == 2 || e.1 == 5) &&
     (let full : State := { wave with streams := (List.range 8).map fun i => (i, { Stream.launchWave 1 launch2 0 0 0 0 with active := true }) }
      decide (Config.activeSlots ≤ ((full.streams.filter fun e => e.2.inPartition 0 0 0).filter fun e => e.2.active).length))) = true := by
  decide +kernel

theorem witness_kills :
    (let w := fun (s : State) (f : Stream → Bool) => some_ (s.stream? 2) fun st => !st.isMcc && !st.isReplay && f st
     let kill := fun (k : Nat) => waveOf id fun st => split0 (fun p => { p with trap := some { frame0 with count := k } })
       { st with pendKill := some .replay }
     let undo := [(3, tile8)]
     let back := waveOf id fun st => { st with
       pendKill := some .replay, ckpt := some { st.snapshot with writes := [(96 * 96, 7)] }, tileUndo := undo, dirtyS := [(4, true)], dirtyV := [(96, true)],
       dirtyP := [(1, true)], refusals := [(0, 1)], newParts := [(0, 0)] }
     let fresh := waveOf id fun st => { st with pendKill := some .replay, ckpt := none }
     let final := waveOf id fun st => { st with pendKill := some .final }
     w final (fun st => final.killReady 2 st && !st.overran && st.pendKill == some .final && (final.launch? st.launch).isSome) &&
     w (kill 8192) (fun st => (kill 8192).killReady 2 st && st.overran) && w (kill 8191) (fun st => st.killWaits && !(kill 8191).killReady 2 st) &&
     w back (fun st => back.killReady 2 st && st.pendKill == some .replay && some_ st.ckpt (fun ck => ck.writes == [(96 * 96, 7)]) && (back.launch? st.launch).isSome) &&
     w fresh (fun st => fresh.killReady 2 st && st.ckpt.isNone)) = true := by decide +kernel

/-- A package with launch 1 and no stream. -/
def launched (g : Launch → Launch) : State := package.putLaunch 1 (g launch2)
/-- The launch with wave 0 still to come, and every MCC stream started. -/
def waiting (la : Launch) : Launch := { la with next := 0, mccStart := [0] }
/-- The same with a tape that no Plaza holds. -/
def unplaced (la : Launch) : Launch := { waiting la with record := { la.record with tape := 65535 } }
/-- A launch with one killed wave, stream 2, and one of the lowest priority, stream 5. -/
def displaced (g : Launch → Launch) : State :=
  beside ((launched g).putStream 2 { Stream.launchWave 1 (g launch2) 0 0 0 0 with life := .killed }) id

/-- Every partition of cluster 0 without allotment left. -/
def taken (s : State) : State := { s with streams := s.streams ++ (List.range 16).map fun i =>
  let st := Stream.launchWave 9 launch2 0 0 (i / 4) (i % 4)
  (100 + i, { st with vis := { st.vis with allot := Config.allotUnits } }) }
/-- Launch 4 of higher priority than launch 1, changed by `g`, beside it. -/
def urgent (g : Launch → Launch) (s : State) : State :=
  ({ s with launches := s.launches ++ [(4, g { launch2 with queue := 1 })] } : State).putQueue 0 { CmdQueue.initial with pri := 5 }

theorem witness_admission :
    (let p := Seat.ofNat 0
     let on := fun (s : State) (f : Launch → Bool) => some_ (s.launch? 1) fun la => s.admitting la && s.clusterTakes 1 0 && !s.outranked la 0 && f la
     let back := fun (s : State) (f : Launch → Nat × Stream → Bool) => on s fun la => some_ (s.returning 1 la p) (f la)
     let rival := fun (s : State) => { s with
       launches := (1, { waiting launch2 with queue := 1 }) :: (4, waiting launch2) :: s.launches.filter (fun e => e.1 != 1) }
     some_ ((launched id).launch? 1) (fun la => !(launched id).admitting la) &&
     on (launched waiting) (fun la => ((launched waiting).returning 1 la p).isNone && decide (la.next < la.total) && la.mayPlace p &&
       (launched waiting).placesAt 1 la p && !(launched waiting).notItsTurn 1 la) &&
     on (launched unplaced) (fun la => ((launched unplaced).returning 1 la p).isNone && decide (la.next < la.total) && la.mayPlace p &&
       !(launched unplaced).placesAt 1 la p && ((launched unplaced).seatsOf la).any ((launched unplaced).slotPlaces 1 la) &&
       !(launched unplaced).shareRoom la none 0 && (launched unplaced).slotRoom la.record.allot none 0 0 0) &&
     (let s := taken (launched waiting)
      on s fun la => (s.returning 1 la p).isNone && decide (la.next < la.total) && la.mayPlace p &&
        (p :: s.seatsOf la).all fun q => !s.slotPlaces 1 la q) &&
     (let s := urgent waiting (launched waiting)
      some_ (s.launch? 1) (fun la => s.admitting la && s.clusterTakes 1 0 && s.outranked la 0)) &&
     some_ ((launched waiting).launch? 1) (fun la => (launched waiting).admitting la && !(launched waiting).clusterTakes 1 48) &&
     on (rival package) (fun la => ((rival package).returning 1 la p).isNone && decide (la.next < la.total) && la.mayPlace p &&
       (rival package).placesAt 1 la p && (rival package).notItsTurn 1 la) &&
     back (displaced waiting) (fun la e => e.1 == 2 && (displaced waiting).returnsTo la e.2 p && !(displaced waiting).notItsTurn 1 la) &&
     back (rival (displaced waiting)) (fun la e => e.1 == 2 && (rival (displaced waiting)).returnsTo la e.2 p &&
       (rival (displaced waiting)).notItsTurn 1 la) &&
     back (displaced unplaced) (fun la e => e.1 == 2 && !(displaced unplaced).returnsTo la e.2 p &&
       ((displaced unplaced).seatsOf la).any ((displaced unplaced).slotReturns la e.2)) &&
     (let s := taken (displaced waiting)
      back s fun la e => e.1 == 2 && (p :: s.seatsOf la).all fun q => !s.slotReturns la e.2 q)) = true ∧
    (let here := fun (s : State) => s.streams.filter fun e => e.2.life == .resident && e.2.cl == 0 && !e.2.isMcc && !e.2.isReplay
     let doomed := wave.onStream 2 fun st => { st with pendKill := some .replay }
     (here wave).map (·.1) = [2] ∧ ((here wave).all fun e => e.2.pendKill.isNone) = true ∧ ((here doomed).any fun e => e.2.pendKill.isSome) = true ∧
     (Stream.launchWave 1 launch2 0 0 0 0).kind = .wave) ∧
    (let s := launched id
     some_ (s.launch? 1) (fun la => s.compute && la.started && la.hasMcc && decide (0 < la.ncl) && !la.mccStart.contains 0 &&
       decide (0 < s.presented) && s.serving (s.physOf 0) && s.mccRoom 0) = true) := by decide +kernel

theorem witness_stage_waves :
    (let card : Card := { stage := 0, cl := 0, prod := 0, seq := 0, rank := 0, words := [0xFFFF0000, 0xF, 0, 0, 0, 0, 0, 0] }
     let card2 := { card with words := [0, 0, 0, 0, 0, 0, 0, 0] }
     let s := fun (a : Word) (g : Launch → Launch) (c : Card) => launched fun la => { routed a (g la) with cards := [c] }
     let p := Seat.ofNat 0
     let ok := fun (s : State) (c : Card) (f : Launch → Bool) => some_ (s.launch? 1) fun la => la.headCard 0 0 == some c && s.compute &&
       s.clusterTakes 1 0 && !s.outranked la 0 && la.stages.length == 1 && s.wants 1 la 0 p c && f la
     let full := s 12 unplaced card
     ok (s 12 id card) card (fun la => !la.det && (s 12 id card).seats 1 la 0 p && !(s 12 id card).occluded la card) &&
     ok (s 12 id card2) card2 (fun la => (s 12 id card2).seats 1 la 0 p && (s 12 id card2).occluded la card2) &&
     ok (s 13 id card) card (fun la => la.det && (s 13 id card).seats 1 la 0 p) &&
     let slot := fun (s : State) (la : Launch) (i : Nat) => s.wants 1 la 0 (Seat.ofNat i) card && s.stageSlot la 0 (Seat.ofNat i)
     ok full card (fun la => !full.seats 1 la 0 p && (List.range 16).any (slot full la)) &&
     [12, 13].all (fun a => ok (taken (s a id card)) card fun la => !(taken (s a id card)).seats 1 la 0 p &&
       (List.range 16).all fun i => !slot (taken (s a id card)) la i) &&
     (let u : State := { urgent id (s 12 id card) with launches := (s 12 id card).launches ++ [(4, { waiting launch2 with queue := 2 })] }
      let u : State := (u.putQueue 2 { CmdQueue.initial with pri := 6 })
      some_ (u.launch? 1) (fun (la : Launch) => some_ (u.launch? 4) fun (lb : Launch) => decide (u.priOf la < u.priOf lb) && la.headCard 0 0 == some card &&
        u.wants 1 la 0 p card && u.outranked lb 0)) &&
     (let later := { card with prod := 5 }
      some_ ((launched fun la => { routed 13 la with cards := [later, card] }).launch? 1) fun la => la.det && la.headCard 0 0 == some card)) = true := by
  decide +kernel

theorem witness_launches :
    (let la := fun (s : State) (f : Launch → Bool) => some_ (s.launch? 1) f
     let gifts := { launched id with arcade := [gift] }
     let still := launched fun la => { la with mccStart := [0] }
     la gifts (fun l => !l.routed && gifts.epochOver 1 l l.closed && gifts.arcade.any fun h => h.launch == 1 && h.c.epoch == l.closed) &&
     la wave (fun l => l.started && !wave.quiet 1 l) && la still (fun l => still.quiet 1 l && l.stats == 0 && still.arcade.isEmpty)) = true ∧
    [gift].Perm ([gift].filter fun h => h.launch == 1 && h.c.epoch == 0) ∧ [gift].Pairwise (fun a b => a.before b = true) ∧
    package.errors = [] ∧ package.linkFault gift.c.place.key = false ∧
    ((List.range logBytes).all (fun i => backed (package.canon (0x100000 + i)) && !backed (package.canon (0x6000000000 + i))) &&
      !package.linkFault 0x100000 && !package.linkFault 0x6000000000 && decide (0 < logBytes)) = true := by
  refine ⟨by decide +kernel, .rfl, ?_, rfl, by decide +kernel, by decide +kernel⟩
  exact .cons (fun _ h => nomatch h) .nil

/-- A selected wave that has ended, of a sealed DET launch, with its replay and an arbiter. -/
def verifying (more : List (Nat × Stream)) : State :=
  let st : Stream := { Stream.launchWave 1 launch2 0 0 0 0 with life := .ended, selected := true, phys := 0 }
  { (waveOf (attr 9) id).putStream 2 st with
    launches := [(1, { attr 9 launch2 with record := { (attr 9 launch2).record with sealedAt := 0x80000 } })],
    streams := (2, st) :: more }
/-- An ended replay with a digest. -/
def replayed (role : Role) (phys : Nat) (d : BitVec 64) : Stream :=
  let w := Stream.launchWave 1 launch2 0 0 0 0
  { w with life := .ended, role := role, phys := phys, digest := (d, w.digest.2) }

theorem witness_verification :
    (let on := fun (s : State) (f : Launch → Stream → Bool) => some_ (s.launch? 1) fun la => some_ (s.toVerify 1 0 la) fun v => v.1 == 2 && f la v.2
     let base := (Stream.launchWave 1 launch2 0 0 0 0).digest.1
     let r := fun (d : BitVec 64) => replayed (.replay 2 12) 12 d
     let s1 := verifying [(3, r base)]
     let s2 := verifying [(3, r (base + 1))]
     let s3 := verifying [(3, r (base + 1)), (4, replayed (.arbiter 2 1) 1 base)]
     let s4 := verifying [(3, { r base with unverif := true })]
     on (verifying []) (fun _ st => (verifying []).replayOf 2 == none && (verifying []).compute && (verifying []).mayReplay 12 && decide (12 ≠ st.phys)) &&
     on s1 (fun _ st => some_ (s1.replayOf 2) fun q => decide (q.2.life = .ended) && !q.2.unverif && q.2.matches st.digest) &&
     on s2 (fun _ st => s2.arbiterOf 2 == none && s2.mayReplay 1 && some_ (s2.replayOf 2) fun q => !q.2.matches st.digest && q.2.phys == 12) &&
     on s3 (fun _ st => some_ (s3.replayOf 2) (fun q => !q.2.matches st.digest) && some_ (s3.arbiterOf 2) fun a =>
       decide (a.2.life = .ended) && !a.2.unverif) &&
     on s4 (fun _ _ => some_ (s4.replayOf 2) fun q => decide (q.2.life = .ended) && q.2.unverif)) = true := by decide +kernel

theorem witness_cordons :
    (let pending : List (Nat × Phys) := [(0, { Phys.initial 0 with st := .pending, clean := 2 ^ 20 })]
     let p : State := { package with phys := pending }
     let q : State := { wave with phys := pending }
     (p.physAt 0).st = .pending ∧ p.streams = [] ∧ 2 ^ 20 ≤ (p.physAt 0).clean ∧ (package.physAt 0).clean < 2 ^ 20 ∧
     (q.physAt 0).st = .pending ∧ q.logicalOf 0 = some 0 ∧ (q.streams.any fun e => e.2.cl == 0 && e.2.life == .resident && !e.2.isReplay) = true ∧
     (let gone : State := { package with phys := [(0, { Phys.initial 0 with st := .cordoned })] }
      (gone.physAt 0).st = .cordoned ∧ 0 % 13 ∈ gone.dieRow (0 / 13)) ∧
     (package.physAt 0).st = .inService ∧ (package.physAt 12).st = .spare ∧ 11 ∈ package.dieRow 0) ∧
    (let less : State := { package with phys := [(11, { Phys.initial 11 with st := .cordoned })] }
     let on := fun (f : Stream → Stream) => less.putStream 2 (f (Stream.launchWave 1 launch2 0 47 0 0))
     package.movedRanks = [] ∧ less.movedRanks ≠ [] ∧ less.streams = [] ∧ 47 ∈ less.movedRanks ∧
     (((on id).stream? 2).map fun st => (st.life == .resident, st.isReplay, st.isMcc, st.cl)) = some (true, false, false, 47) ∧
     (let mcc := less.putStream 2 (Stream.mccStream 1 launch2 47)
      mcc.renumberDue = true ∧ ((mcc.stream? 2).map fun st => (st.life == .resident, st.isReplay, st.cl)) = some (true, false, 47))) := by
  decide +kernel

theorem witness_leases :
    (let st := fun (s : State) (f : Stream → Bool) => some_ (s.stream? 2) f
     let asked := fun (h : Option Nat) (f : Stream → Stream) => onCluster (mccOf id f) fun c => { c with leaseReqs := [(2, 4096)], lastHolder := h }
     let free := fun (s : State) => (s.cluster 0).lease == none && s.nextLease (s.cluster 0) == some (2, 4096)
     let kept := fun (x : Stream) => { x with savedLease := some (3, 0x2003) }
     let due := fun (x : Stream) => { x with saveDue := true }
     let full := onCluster (mccOf id due) fun c => { c with lease := some { lease2 1 with taken := true } }
     let saved := fun (f : Stream → Stream) => mccOf id fun x => f { x with life := .saved }
     let far := saved fun x => { x with phys := 20 }
     let less := fun (k : Nat) (s : State) => { s with phys := [(k, { Phys.initial k with st := .cordoned })] }
     let back := fun (s : State) (x : Stream) => s.sameDie x && !(s.renumberDue && s.movedRanks.contains x.cl) && s.compute && decide (x.cl < s.presented) && s.serving (s.physOf x.cl) && s.mccRoom x.cl &&
       !(s.launchOf x).suspended && x.isMcc && x.life == .saved
     free (asked none id) && st (asked none id) (fun x => x.savedLease.isNone) && free (asked (some 2) id) && st (asked (some 2) id) (fun _ => true) &&
     free (asked none kept) && st (asked none kept) (fun x => x.savedLease == some (3, 0x2003)) &&
     st (mccOf id due) (fun x => x.isMcc && x.life == .resident && x.saveDue && (mccOf id due).ops.isEmpty &&
       (Tab.get? (mccOf id due).ctxAreas ((mccOf id due).physOf x.cl)).isNone) &&
     st full (fun x => x.saveDue && some_ (full.cluster x.cl).lease fun l => l.stream == 2 && l.taken) &&
     (let area := { mccOf id due with ctxAreas := [(0, 0x100000, 2 ^ 24)] }
      some_ (Tab.get? area.ctxAreas (area.physOf 0)) fun _ => true) &&
     st far (fun x => x.isMcc && x.life == .saved && !far.sameDie x) &&
     st (less 11 (saved fun x => { x with cl := 40 })) (fun x => x.life == .saved && (less 11 (saved id)).renumberDue &&
       (less 11 (saved id)).movedRanks.contains 40) &&
     st (saved id) (fun x => back (saved id) x && x.savedLease.isNone) && st (saved kept) (fun x => back (saved kept) x && x.savedLease.isSome)) = true := by
  decide +kernel

/-- Memory stands behind a context area there, and none behind one past the end of the memory. -/
theorem witness_context_areas (i : Nat) (h : i < 2 ^ 30) :
    backed (package.canon ((0x100000 : Addr).toNat + i)) = true ∧ package.linkFault ((0x100000 : Addr).toNat + i) = false ∧
    backed (package.canon ((0x6000000000 : Addr).toNat + i)) = false ∧ package.linkFault ((0x6000000000 : Addr).toNat + i) = false := by
  have e : (0x100000 : Addr).toNat = 0x100000 ∧ (0x6000000000 : Addr).toNat = 0x6000000000 := by decide
  rw [e.1, e.2]
  have a : (0x100000 + i) / 1125899906842624 = 0 := by omega
  have b : (0x6000000000 + i) / 1125899906842624 = 0 := by omega
  refine ⟨?_, ?_, ?_, ?_⟩
  · simp [State.canon, backed, a, Config.hbmBytes]; omega
  · simp [State.linkFault, State.linkCode, State.isRemote, State.canon, a]
  · simp [State.canon, backed, b, Config.hbmBytes]; omega
  · simp [State.linkFault, State.linkCode, State.isRemote, State.canon, b]

/-- Command queue 0 over a ring at 0x80000 with one record of these 8-byte words. -/
def ringed (ws : List (Nat × Nat)) : State :=
  let s := ws.foldl (fun s e => s.writePhysN (0x80000 + e.1) e.2 8) package
  s.putQueue 0 { CmdQueue.initial with cfg := true, base := 0x80000, tail := 1 }

theorem witness_queues :
    (let run := fun (s : State) (f : LaunchRec → Checked → Bool) => s.headReady 0 &&
       (let b := s.recByte (s.headSlot 0)
        let r := LaunchRec.parse (s.headSlot 0) b
        let t := s.note Who.host false (s.headSlot 0)
        recKind b != 1 && f r (t.checkRecord r b false))
     let begins := fun (s : State) (r : LaunchRec) => s.mayBegin 0 (r.attr.getLsbD 1)
     let barrier := fun (q : Nat) => ringed [(0, q), (8, 1 + 64 * 2 ^ 32), (0x10, 0)]
     let bar := fun (s : State) => let b := s.recByte (s.headSlot 0)
       s.headReady 0 && recKind b == 1 && s.mayBegin 0 false && b 0 / 64 == 0 && fieldAt b 1 7 == 0 && fieldAt b 0x0C 4 == 64 &&
       fieldAt b 0x10 112 == 0
     let good_ := ringed [(0, 0x10000), (8, 1), (0x10, 16 * 2 ^ 32 + 2 ^ 56), (0x38, 0x90000)]
     let after := (good_.putLaunch 1 launch2).setLast 0 (some 1)
     run (ringed [(0, 1)]) (fun r k => begins (ringed [(0, 1)]) r && k.reason != 0) &&
     run good_ (fun r k => begins good_ r && k.reason == 0 && r.nclus == 1 && decide (good_.plazaUsed 0 + r.plaza ≤ Config.plazaBytes)) &&
     (let s := (ringed [(0, 0x10000), (8, 1), (0x10, 16 * 2 ^ 32 + 2 ^ 56), (0x18, 1024), (0x38, 0x90000)]).putLaunch 1
        { launch2 with record := { launch2.record with plaza := Config.plazaBytes } }
      run s (fun r k => begins s r && k.reason == 0 && decide (r.nclus = 1) && decide (Config.plazaBytes < s.plazaUsed 0 + r.plaza))) &&
     run after (fun r _ => !begins after r) && bar (barrier 0) && bar (barrier 1) &&
     (let waits := fun (n : Word) => package.putQueue 0 { CmdQueue.initial with barrier := some (1, n, 0) }
      decide (((waits 0).queue 1).count - 0 ≥ 0) && decide (((waits 1).queue 1).count - 0 < 1))) = true := by decide +kernel

/-- A package in this state of its bring-up. -/
def stage (b : BringUp) : State := { State.reset with bring := b }
/-- A package with the mailbox's arguments set. -/
def mail (as : List Word) : State := { package with mbox := { package.mbox with args := as ++ List.replicate (14 - as.length) 0 } }

theorem witness_package :
    (let passed := (List.range 52).map fun p => (p, { Phys.initial p with test := some true })
     let parts := (List.range 16).map fun k => (k, true)
     let tested : State := { stage .selftest with phys := passed, testParts := parts }
     let failed : State := { stage .selftest with testParts := [(15, false)] }
     State.reset.bring = .reset ∧ ((stage .selftest).physAt 51).test = none ∧ ((stage .selftest).physAt 51).st ≠ .cordoned ∧
     Tab.get? (stage .selftest).testParts 15 = none ∧ failed.dieFailed 3 = true ∧
     (∀ d < 4, tested.dieFailed d = false ∧ tested.dieTested d = true) ∧
     (∀ d < 4, (stage .selftest).dieFailed d = false) ∧ (stage .selftest).dieTested 0 = false ∧
     package.streams = [] ∧ ({ package with phys := passed } : State).physAt 51 = { Phys.initial 51 with test := some true } ∧
     0 < package.dieMhz 3 ∧ ({ package with dieClock := [(3, 100)] } : State).dieMhz 3 ≠ Config.serviceMhz ∧ package.errors = [] ∧
     ((wave.stream? 2).map (·.life)) = some .resident) := by decide +kernel

theorem witness_doorbell :
    (let s := package.putQueue 0 { CmdQueue.initial with cfg := true, tail := 1 }
     let c := s.queue 0
     let z := 2 ^ c.log2
     s.bring ≠ .safe ∧ c.cfg = true ∧ (0 % z + z - c.tail) % z + (c.tail + z - c.head) % z > z - 1 ∧
     (15 % z + z - c.tail) % z + (c.tail + z - c.head) % z ≤ z - 1) := by decide +kernel

theorem witness_commands :
    (let ok := fun (s : State) (n : Nat) => s.mbox.status ≠ 1 ∧ s.mbox.rest n = true
     let q := mail [63, 0x80, 0, 16, 0x80000007, 0x1000000]
     let c := mail [0x30C, 0x1000, 0, 0x1000, 0]
     let f := mail [64, 0, 16]
     let r := { mail [9] with fq := { package.fq with parked := [(9, 2, 0)] } }
     ok q 6 ∧ q.compute = true ∧ q.mbox.arg 0 < 64 ∧ q.mbox.arg64 1 % 128 = 0 ∧ q.mbox.arg64 1 < 3 * 2 ^ 50 ∧ q.mbox.arg 3 = 16 ∧
     bits (q.mbox.arg 4) 30 3 = 0 ∧ q.mbox.arg 5 = 2 ^ (12 + 12) ∧ q.queueBusy 63 = false ∧
     ok c 5 ∧ c.mbox.arg 0 % 256 < 13 ∧ c.mbox.arg 0 < 1024 ∧ c.mbox.arg64 1 % 4096 = 0 ∧ c.mbox.arg64 1 < 3 * 2 ^ 50 ∧
     ok (mail [0x1000, 0, 0x1000, 0]) 4 ∧ (mail [0x1000, 0, 0x1000, 0]).mbox.arg64 2 % 4096 = 0 ∧
     ok f 3 ∧ f.mbox.arg64 0 % 64 = 0 ∧ f.mbox.arg 2 = 16 ∧
     ok r 1 ∧ (r.fq.parked.find? fun e => e.1 == r.mbox.arg 0) = some (9, 2, 0) ∧
     ok (mail [63]) 1 ∧ ok (mail [1023, 1024]) 2 ∧ (mail [1023, 1024]).mbox.arg 0 < 1024 ∧ ok (mail []) 0 ∧
     ok (mail [3, 0, 0]) 3 ∧ (Sp.get [] package.bbox 3).find? (fun r => decide (r.seq.toNat ≥ 0)) = none ∧
     some_ ((Sp.get [] (package.box 3 1 0 0 0 0).bbox 3).find? fun r => decide (r.seq.toNat ≥ 0)) (fun _ => true) = true ∧
     ok (mail [0x1000, 0, 4]) 3 ∧ ok (mail [0x1000, 0]) 2 ∧ ({ mail [] with bring := .safe } : State).compute = false ∧
     ((0x8000000000000 : Addr).toNat / 2 ^ 50 = 2)) := by decide +kernel

theorem witness_outside :
    (let a : OutsideAccess := { kind := .write, addr := 0xFFFFFFFF8, size := 8, data := 1, ty := 0, sub := 0, cmp := 0, window := false }
     a.size = 8 ∧ a.addr.toNat % a.size = 0 ∧ a.addr.toNat < 2 ^ 40 ∧ package.linkFault a.addr.toNat = false) ∧
    (let w : OutsideAccess := { kind := .read, addr := 0x2008, size := 4, data := 0, ty := 0, sub := 0, cmp := 0, window := true }
     w.size = 4 ∧ w.addr.toNat % w.size = 0 ∧ w.window = true) := by decide +kernel

/-! ## Decoding -/

/-- Words put together by hand from the fields that the class tables give each row. -/
theorem test_words_of_every_class :
    [decodeWord 0x00AFFFFF, decodeWord 0x00F80001, decodeWord 0x02217AC0, decodeWord 0xFE00760F, decodeWord 0x122A0200,
     decodeWord 0x2042860E, decodeWord 0x208286FF, decodeWord 0x219A860E, decodeWord 0x3302860E, decodeWord 0x400C0206,
     decodeWord 0x41234423, decodeWord 0x508286FD, decodeWord 0x50028634, decodeWord 0x5142860C, decodeWord 0x60234770] =
    [some (.brv 5 1 (-1)), some (.call 7 1), some (.mode 0x21 3 1 5 1 1 0), some (.clause 0x801 1 11 0 0 15),
     some (.slil 42 0x200), some (.vadd 5 6 7), some (.vaddi 5 6 0xFF), some (.vcmp 3 5 6 7), some (.vfma 5 6 7),
     some (.plog 1 8 2 3), some (.srget 70 68 2 3), some (.ld 5 6 (-1) 2 1), some (.atom 5 6 3 4), some (.scat 5 6 1 2),
     some (.cpy 70 71 3 1)] := by decide +kernel

theorem test_words_of_the_later_classes :
    [decodeWord 0x6100EC00, decodeWord 0x70BD7800, decodeWord 0x71407A00, decodeWord 0x80406A00, decodeWord 0x81EA5000,
     decodeWord 0x80E54C0A, decodeWord 0x9242C652, decodeWord 0x9042C610, decodeWord 0xA082C610, decodeWord 0xB1230081] =
    [some (.tld 1 108 0 0), some (.mlease 122 120), some (.mrel 122), some (.bars 106 0), some (.post 84 80 0),
     some (.coll 74 76 0 0 10), some (.tex 5 70 2 1 2), some (.prim 5 70 1), some (.tpop 5 70 1), some (.xrd 70 0x81)] := by
  decide +kernel

/-- Words with a fixed bit wrong, and OP values that no table gives. -/
theorem test_unassigned_words : [decodeWord 0x10000001, decodeWord 0x40400080, decodeWord 0x02400001, decodeWord 0x03800000,
    decodeWord 0xFBC00000] = List.replicate 5 none := by decide +kernel

/-! ## Ill-formed terms -/

theorem test_ill_formed :
    [Instr.mode 5 0 0 0 0 0 0, .mode 0 0 0 6 0 0 0, .mode 0 0 0 0 2 0 0, .mode 0 0 0 0 0 0 1, .clause 0 1 12 0 0 0, .clause 0 0 1 0 0 0,
     .clause 0 0 0 1 12 0, .clause 0 0 0 0 1 0, .vcmp 0 6 0 0, .vfcmp 0 8 0 0, .vcvt 0 0 5 0, .vlane 64 0 96, .srdrn 0 0 5 0,
     .srdrn 0 1 3 0, .srget 64 64 4 0, .vswz 0 0 0x80, .vswz 0 0 0x60, .vvote 64 3 0, .atom 0 0 10 0, .atom 0 0 0 12, .fence 3 0,
     .fence 0 12, .lda 0 0 0 0 0 12, .stl 0 0 0 12, .coll 64 64 5 0 8, .coll 64 64 0 0 12, .occq 64 64 0 12, .prim 0 64 3,
     .tex 0 64 6 0 0, .tex 0 64 0 0 3, .texadj 0 64 6 0 0, .texadj 0 64 0 0 3, .coldReset].all (fun i => !i.wellFormed) = true ∧
    [Instr.mode 0x3B 7 1 5 1 1 0, .clause 0xFFF 1 11 1 11 15, .vcmp 0 5 0 0, .vlane 64 0 95, .srdrn 0 1 4 0, .vswz 0 0 0x5F].all
      (·.wellFormed) = true := by decide

/-! ## Single steps -/

/-- A scalar of the stream after an instruction. -/
def scalarAfter (s : State) (i : Instr) (n : Nat) : Option Word :=
  match exec i s with
  | .next t => (t.stream? 2).map (·.sreg n)
  | _ => none
/-- A v register of lane 0 after an instruction. -/
def laneAfter (s : State) (i : Instr) (n : Nat) : Option Word :=
  match exec i s with
  | .next t => (t.stream? 2).map (·.vreg n 0)
  | _ => none
/-- FAULTCODE after an instruction: the fault's number in its low byte. -/
def faultAfter (s : State) (i : Instr) : Option Nat :=
  match exec i s with
  | .next t => (t.stream? 2).map (·.vis.fault.code.toNat % 256)
  | _ => none
/-- The PC of the issuing split after an instruction. -/
def pcAfter (s : State) (i : Instr) : Option Addr :=
  match exec i s with
  | .next t => (t.stream? 2).bind fun st => (st.split? 0).map (·.pc)
  | _ => none
/-- Two scalars. -/
def ab (x y : Word) : State := waveOf id (sregs [(4, x), (5, y)])
/-- Two registers of lane 0 under an ETYPE. -/
def uv (e : BitVec 6) (x y : Word) : State := waveOf id (typed e ∘ vregs [(1, 0, x), (2, 0, y)])

theorem test_scalar_results :
    scalarAfter (ab 0xFFFFFFFF 1) (.sadd 70 68 69) 6 = some 0 ∧ scalarAfter (ab 0 1) (.ssub 70 68 69) 6 = some 0xFFFFFFFF ∧
    scalarAfter (ab 0x80000000 2) (.smulh 70 68 69 0) 6 = some 0xFFFFFFFF ∧
    scalarAfter (ab 0x80000000 2) (.smulh 70 68 69 1) 6 = some 1 ∧ scalarAfter (ab 1 33) (.sshl 70 68 69) 6 = some 2 ∧
    scalarAfter (ab 0x80000000 31) (.ssra 70 68 69) 6 = some 0xFFFFFFFF ∧
    scalarAfter (ab 0x80000000 1) (.scmp 70 68 69 0) 6 = some 0xFFFFFFFF ∧
    scalarAfter (ab 0x80000000 1) (.scmp 70 68 69 1) 6 = some 1 ∧ scalarAfter (ab 0 0) (.sclz 70 68) 6 = some 32 ∧
    scalarAfter (ab 7 0) (.smov 127 68) 63 = some 0 := by decide +kernel

theorem test_branches :
    pcAfter wave (.bra (-1)) = some 0xFFFC ∧ pcAfter (ab 1 0) (.brs 4 2) = some 0x10008 ∧ pcAfter (ab 0 0) (.brs 4 2) = some 0x10004 ∧
    faultAfter (waveOf id handled) .ret = some 0x01 := by decide +kernel

theorem test_integer_lanes :
    laneAfter (uv 8 0x80FF7F01 0x80010101) (.vadd 3 1 2) 3 = some 0x00008002 ∧
    laneAfter (uv 12 0x80000000 0x80000000) (.vmulh 3 1 2) 3 = some 0x40000000 ∧
    laneAfter (uv 10 0x7FFF8000 0) (.vaddi 3 1 0xFF) 3 = some 0x7FFE7FFF ∧
    laneAfter (uv 8 0x00808080 0) (.vabs 3 1) 3 = some 0x00808080 ∧
    faultAfter ((uv 0 0 0).onStream 2 handled) (.vadd 3 1 2) = some 0x02 := by decide +kernel

theorem test_float_lanes :
    laneAfter (uv 0 0x3F800000 0x40000000) (.vfadd 3 1 2) 3 = some 0x40400000 ∧
    laneAfter (uv 0 0x7F800000 0xFF800000) (.vfadd 3 1 2) 3 = some 0x7FC00000 ∧
    laneAfter (uv 1 0x3C003C00 0x40003C00) (.vfmul 3 1 2) 3 = some 0x40003C00 ∧
    laneAfter (uv 0 0x80000000 0) (.vfabs 3 1) 3 = some 0 := by decide +kernel

/-- Step by step: the load's flag rises, the completion writes the register. -/
theorem test_load_and_completion :
    next (exec (.ld 2 4 0 2 0) (addressed.writePhysN 0x20000 0x11223344 4)) (fun t =>
      next (exec (.memoryLoadComplete 3) t) fun u =>
        (((t.stream? 2).map fun st => (st.flag 0, st.vreg 2 0)) == some (1, 0)) &&
          (((u.stream? 2).map fun st => (st.flag 0, st.vreg 2 0)) == some (0, 0x11223344))) = true := by decide +kernel

/-- A store reaches memory at the commit. -/
theorem test_store_and_commit :
    next (exec (.sst 68 68 0 2) (waveOf id (sregs [(4, 0x20000), (5, 0)]))) (fun t =>
      next (exec .region (t.onStream 2 (split0 fun p => { p with left := 1, hdr := { fa := none, fb := none } }))) fun u =>
        (t.readPhysN 0x20000 4 == 0) && (u.readPhysN 0x20000 4 == 0x20000)) = true := by decide +kernel

/-- The traps: TRAP 7 enters the handler with SOFTWARE in FAULTCODE, and TRET resumes after it. -/
theorem test_trap_and_return :
    faultAfter (waveOf id handled) (.trap 7) = some 0x18 ∧ pcAfter (waveOf id handled) (.trap 7) = some 0x20000 ∧
    pcAfter (waveOf id inHandler) (.tret 1) = some 0x10004 := by decide +kernel

/-- Rows of the table run as the first instruction after reset. -/
theorem test_first_instruction :
    [0x02400000, 0x10000000, 0x122A0200, 0x2042860E, 0x508286FD, 0x70000000, 0xFE00760F].all (fun w =>
      next (step (State.reset.withFetchWord 32 w)) fun _ => true) = true := by decide +kernel

/-- The digest of the three bytes "abc" (FIPS 180-4; log 65). -/
theorem test_sha256 : (sha256 [0x61, 0x62, 0x63]).take 8 = [0xBA, 0x78, 0x16, 0xBF, 0x8F, 0x01, 0xCF, 0xEA] := by decide +kernel

end Sys2Proof.Tests
end

section

/-! The mask registers s60-s62 (R23): what replacing one word of a mask does to each lane, and what a write of s60-s62 does
to the context. -/

namespace Sys2Proof.Proofs

open Sys2Proof.Machine

/-- The mask that `setMaskWord` keeps is the complement of the 32 lanes of the replaced word. -/
theorem keptLanes_eq_not_word {i : Nat} (hi : i < 3) :
    BitVec.ofNat 96 (2 ^ 96 - 1 - (2 ^ 32 - 1) * 2 ^ (32 * i)) =
      ~~~((BitVec.allOnes 32).setWidth 96 <<< (32 * i)) := by
  interval_cases i <;> decide

/-- A lane of a word moved to place `i` of a mask: lane `32 * i + k` holds bit `k`, and no lane of another word is set. -/
theorem inMask_setWidth_shiftLeft (w : Word) (i : Nat) {l : Nat} (hl : l < 96) :
    inMask (w.setWidth 96 <<< (32 * i)) l = if l / 32 = i then w.getLsbD (l % 32) else false := by
  simp only [inMask, BitVec.getLsbD_shiftLeft, BitVec.getLsbD_setWidth]
  split
  case isTrue h =>
    have hk : l - 32 * i = l % 32 := by omega
    have hge : ¬ l < 32 * i := by omega
    have hlt : l % 32 < 96 := by omega
    simp [hl, hk, hge, hlt]
  case isFalse h =>
    by_cases hlt : l < 32 * i
    · simp [hlt]
    · have hout : 32 ≤ l - 32 * i := by omega
      simp [BitVec.getLsbD_of_ge w _ hout]

/-- Replacing word `i` of a mask sets the lanes of that word and keeps every lane of the other two. -/
theorem inMask_setMaskWord (m : LaneMask) (w : Word) {i l : Nat} (hi : i < 3) (hl : l < 96) :
    inMask (setMaskWord m i w) l = if l / 32 = i then w.getLsbD (l % 32) else inMask m l := by
  have hnew := inMask_setWidth_shiftLeft w i hl
  have hword := inMask_setWidth_shiftLeft (BitVec.allOnes 32) i hl
  have hbit : (BitVec.allOnes 32).getLsbD (l % 32) = true := by
    rw [BitVec.getLsbD_allOnes, decide_eq_true (Nat.mod_lt l (by decide))]
  rw [hbit] at hword
  rw [setMaskWord, keptLanes_eq_not_word hi]
  simp only [inMask] at hnew hword ⊢
  simp only [BitVec.getLsbD_or, BitVec.getLsbD_and, BitVec.getLsbD_not, hnew, hword]
  split <;> simp [hl]

/-- A read of an unmapped s60-s62 returns the mask word of the issuing split and leaves the context (R23). -/
theorem readS_maskWord {cx : Cx} {i : Nat} (hi : i < 3) (hport : cx.st.port (60 + i) = none) :
    cx.readS (60 + i) = .ok (maskWord cx.sp.mask i, cx) := by
  have h63 : 60 + i ≠ 63 := by omega
  simp [Cx.readS, hport, Cx.scalar, h63]

/-- A write of an unmapped s60-s62 replaces one word of the issuing split's mask, within its membership (R23). -/
theorem writeS_maskWord {cx : Cx} {i : Nat} (v : Word) (hi : i < 3) (hport : cx.st.port (60 + i) = none) :
    cx.writeS (60 + i) v =
      .ok { cx with sp := { cx.sp with mask := setMaskWord cx.sp.mask i v &&& cx.sp.members } } := by
  have h63 : 60 + i ≠ 63 := by omega
  simp [Cx.writeS, hport, h63]

/-- Settles O11: the write is `writeS_maskWord`, and the lanes of the new mask are those of `inMask_setMaskWord`. -/
theorem maskRegisters : Obligations.MaskRegisters := by
  intro cx i v hi hport
  refine ⟨readS_maskWord hi hport, _, writeS_maskWord v hi hport, rfl, rfl, rfl, fun l hl => ?_⟩
  calc inMask (setMaskWord cx.sp.mask i v &&& cx.sp.members) l
      = (inMask (setMaskWord cx.sp.mask i v) l && inMask cx.sp.members l) := BitVec.getLsbD_and
    _ = (inMask cx.sp.members l && inMask (setMaskWord cx.sp.mask i v) l) := Bool.and_comm _ _
    _ = _ := by rw [inMask_setMaskWord _ _ hi hl]

end Sys2Proof.Proofs
end

section

/-! The words that stand for no instruction (R102, R116): which words no class of the opcode map decodes, and the fault that
an instruction word raises which fails the first check of R100. -/

namespace Sys2Proof.Proofs

open Sys2Proof.Machine Sys2Proof.Laws

/-! The OPs that a class table leaves out. -/

/-- Class 0x0 assigns OPs 0x000 to 0x00D. -/
theorem decode0_eq_none {n : Nat} (h : 14 ≤ n / 4194304 % 64) : decode0 n = none := by
  obtain ⟨k, hk⟩ := Nat.exists_eq_add_of_le' h
  rw [decode0, hk]; rfl

/-- Class 0x1 assigns OPs 0x040 to 0x055. -/
theorem decode1_eq_none {n : Nat} (h : 22 ≤ n / 4194304 % 64) : decode1 n = none := by
  obtain ⟨k, hk⟩ := Nat.exists_eq_add_of_le' h
  rw [decode1, hk]; rfl

/-- Class 0x2 assigns OPs 0x080 to 0x096. -/
theorem decode2_eq_none {n : Nat} (h : 23 ≤ n / 4194304 % 64) : decode2 n = none := by
  obtain ⟨k, hk⟩ := Nat.exists_eq_add_of_le' h
  rw [decode2, hk]; rfl

/-- Class 0x3 assigns OPs 0x0C0 to 0x0D3. -/
theorem decode3_eq_none {n : Nat} (h : 20 ≤ n / 4194304 % 64) : decode3 n = none := by
  obtain ⟨k, hk⟩ := Nat.exists_eq_add_of_le' h
  rw [decode3, hk]; rfl

/-- Class 0x4 assigns OPs 0x100 to 0x10B. -/
theorem decode4_eq_none {n : Nat} (h : 12 ≤ n / 4194304 % 64) : decode4 n = none := by
  obtain ⟨k, hk⟩ := Nat.exists_eq_add_of_le' h
  rw [decode4, hk]; rfl

/-- Class 0x5 assigns OPs 0x140 to 0x14A. -/
theorem decode5_eq_none {n : Nat} (h : 11 ≤ n / 4194304 % 64) : decode5 n = none := by
  obtain ⟨k, hk⟩ := Nat.exists_eq_add_of_le' h
  rw [decode5, hk]; rfl

/-- Class 0x6 assigns OPs 0x180 to 0x188. -/
theorem decode6_eq_none {n : Nat} (h : 9 ≤ n / 4194304 % 64) : decode6 n = none := by
  obtain ⟨k, hk⟩ := Nat.exists_eq_add_of_le' h
  rw [decode6, hk]; rfl

/-- Class 0x7 assigns OPs 0x1C0 to 0x1C5. -/
theorem decode7_eq_none {n : Nat} (h : 6 ≤ n / 4194304 % 64) : decode7 n = none := by
  obtain ⟨k, hk⟩ := Nat.exists_eq_add_of_le' h
  rw [decode7, hk]; rfl

/-- Class 0x8 assigns OPs 0x200 to 0x208. -/
theorem decode8_eq_none {n : Nat} (h : 9 ≤ n / 4194304 % 64) : decode8 n = none := by
  obtain ⟨k, hk⟩ := Nat.exists_eq_add_of_le' h
  rw [decode8, hk]; rfl

/-- Class 0x9 assigns OPs 0x240 to 0x24A. -/
theorem decode9_eq_none {n : Nat} (h : 11 ≤ n / 4194304 % 64) : decode9 n = none := by
  obtain ⟨k, hk⟩ := Nat.exists_eq_add_of_le' h
  rw [decode9, hk]; rfl

/-- Class 0xA assigns OPs 0x280 to 0x284. -/
theorem decodeA_eq_none {n : Nat} (h : 5 ≤ n / 4194304 % 64) : decodeA n = none := by
  obtain ⟨k, hk⟩ := Nat.exists_eq_add_of_le' h
  rw [decodeA, hk]; rfl

/-- Class 0xB assigns OPs 0x2C0 to 0x2C5. -/
theorem decodeB_eq_none {n : Nat} (h : 6 ≤ n / 4194304 % 64) : decodeB n = none := by
  obtain ⟨k, hk⟩ := Nat.exists_eq_add_of_le' h
  rw [decodeB, hk]; rfl

/-- Classes 0xC to 0xE have no table, and class 0xF holds the clause headers alone, whose bits 27:26 are ones (R102). -/
theorem decodeNat_eq_none_of_no_header {n : Nat} (hc : 12 ≤ n / 268435456 % 16)
    (hh : n / 268435456 % 16 = 15 → n / 67108864 % 4 ≠ 3) : decodeNat n = none := by
  unfold decodeNat
  split
  case h_13 hF => simpa [want, fixedAt] using hh hF
  case h_14 => rfl
  all_goals omega

/-! The fault. -/

/-- The first check of R100 precedes all others. -/
theorem check_of_illegal {cx : Cx} {d : Desc} (h : cx.illegal d = true) : cx.check d = stopAt .illegalInstruction := by
  unfold Cx.check
  rw [h]
  rfl

/-- A loaded context is of no per-lane form: `issue` takes that from the instruction. -/
theorem load_perLane {s : State} {cx : Cx} (h : Cx.load s = some cx) : cx.perLane = false := by
  unfold Cx.load at h
  split at h
  · cases h
  · split at h <;> cases h
    rfl

/-- A word of no per-lane form that fails the first check of R100 takes ILLEGAL_INSTRUCTION, whatever its effect is. -/
theorem issue_of_illegal {s : State} {cx : Cx} {d : Desc} (body : Cx → Except Stop Cx) (hl : Cx.load s = some cx)
    (hi : cx.illegal d = true) (hd : d.perLane = false) :
    issue s d body = .next (cx.takeFault (Exn.plain .illegalInstruction)) := by
  have hcx : { cx with perLane := d.perLane } = cx := by rw [hd, ← load_perLane hl]
  unfold issue
  rw [hl]
  simp only [check_of_illegal hi, hcx]
  rfl

/-- A word that matches no defined form is illegal. -/
theorem illegal_of_not_legal {cx : Cx} {d : Desc} (h : d.legal = false) : cx.illegal d = true := by
  simp [Cx.illegal, h]

/-- A header is illegal while words of the clause remain (R86, R100). -/
theorem illegal_of_header_in_clause {cx : Cx} {d : Desc} (hd : d.header = true) (hleft : cx.sp.left ≠ 0) :
    cx.illegal d = true := by
  simp [Cx.illegal, hd, hleft]

/-- R116: a word that decodes to nothing raises ILLEGAL_INSTRUCTION. -/
theorem exec_unassignedOp {s : State} {cx : Cx} (w : Word) (hl : Cx.load s = some cx) :
    exec (.unassignedOp w) s = .next (cx.takeFault (Exn.plain .illegalInstruction)) := by
  have he : exec (.unassignedOp w) s = execUnassignedOp w s := rfl
  rw [he, execUnassignedOp]
  exact issue_of_illegal _ hl (illegal_of_not_legal rfl) rfl

/-- R86: a header where the clause has words left raises ILLEGAL_INSTRUCTION, whatever its fields. -/
theorem exec_clause_in_clause {s : State} {cx : Cx} (v : BitVec 12) (a : BitVec 1) (f : BitVec 4) (b : BitVec 1)
    (g l : BitVec 4) (hl : Cx.load s = some cx) (hleft : cx.sp.left ≠ 0) :
    exec (.clause v a f b g l) s = .next (cx.takeFault (Exn.plain .illegalInstruction)) := by
  have he : exec (.clause v a f b g l) s = execClause v a f b g l s := rfl
  rw [he, execClause]
  exact issue_of_illegal _ hl (illegal_of_header_in_clause rfl hleft) rfl

/-- Settles O6: each range of OPs lies behind the last row of its class, and both faults are that of the first check. -/
theorem unassignedWordsAreIllegal : Obligations.UnassignedWordsAreIllegal := by
  refine ⟨?_, fun w s cx => exec_unassignedOp w, fun s cx v a f b g l => exec_clause_in_clause v a f b g l⟩
  intro w op hop
  rw [decodeWord]
  rcases hop with h | h | h | h | h | h | h | h | h | h | h | h | h
  · rw [decodeNat_0 (by omega), decode0_eq_none (by omega)]
  · rw [decodeNat_1 (by omega), decode1_eq_none (by omega)]
  · rw [decodeNat_2 (by omega), decode2_eq_none (by omega)]
  · rw [decodeNat_3 (by omega), decode3_eq_none (by omega)]
  · rw [decodeNat_4 (by omega), decode4_eq_none (by omega)]
  · rw [decodeNat_5 (by omega), decode5_eq_none (by omega)]
  · rw [decodeNat_6 (by omega), decode6_eq_none (by omega)]
  · rw [decodeNat_7 (by omega), decode7_eq_none (by omega)]
  · rw [decodeNat_8 (by omega), decode8_eq_none (by omega)]
  · rw [decodeNat_9 (by omega), decode9_eq_none (by omega)]
  · rw [decodeNat_A (by omega), decodeA_eq_none (by omega)]
  · rw [decodeNat_B (by omega), decodeB_eq_none (by omega)]
  · exact decodeNat_eq_none_of_no_header (by omega) (by omega)

end Sys2Proof.Proofs
end

section

/-! The end of a completed instruction (R28, R30, R36, R86) and NOP (R344): where a turn goes on, the split moves on within its
clause; where a turn ends, merges and barriers change the splits of streams, the bays of launches and the owners of operations,
and nothing else. -/

namespace Sys2Proof.Proofs

open Sys2Proof.Machine Sys2Proof.Laws Sys2Proof.Safety

/-! Reading the tables of streams and launches. -/

@[simp] theorem stream?_putStream_same (s : State) (id : Nat) (st : Stream) :
    (s.putStream id st).stream? id = some st := get_put_same ..

theorem stream?_putStream_ne (s : State) {id k : Nat} (st : Stream) (h : k ≠ id) :
    (s.putStream id st).stream? k = s.stream? k := get_put_ne _ _ h

@[simp] theorem launch?_putLaunch_same (s : State) (l : Nat) (la : Launch) :
    (s.putLaunch l la).launch? l = some la := get_put_same ..

theorem launch?_putLaunch_ne (s : State) {l k : Nat} (la : Launch) (h : k ≠ l) :
    (s.putLaunch l la).launch? k = s.launch? k := get_put_ne _ _ h

/-! What the end of a turn leaves. -/

/-- The stream with other splits and another current split. -/
def withSplits (st : Stream) (ps : List Split) (cur : Nat) : Stream :=
  { st with vis := { st.vis with splits := ps, cur := cur } }

/-- The frame of an end of turn with the issuing stream in it: of that stream too all but its splits stays. -/
def TurnLeaves (id : Nat) (s t : State) : Prop :=
  TurnFrame s t id ∧ ∀ st, s.stream? id = some st → ∃ ps cur, t.stream? id = some (withSplits st ps cur)

section

variable {id : Nat} {s t u : State}

theorem turnFrame_refl (s : State) (id : Nat) : TurnFrame s s id :=
  ⟨fun _ => rfl, rfl, rfl, rfl, rfl, fun _ la h => ⟨la.bays, h⟩, fun _ st _ h => ⟨st.vis.splits, h⟩⟩

theorem turnFrame_trans (h : TurnFrame s t id) (k : TurnFrame t u id) : TurnFrame s u id := by
  obtain ⟨hmem, hws, hcl, hq, harc, hla, hst⟩ := h
  obtain ⟨kmem, kws, kcl, kq, karc, kla, kst⟩ := k
  refine ⟨fun pa => (kmem pa).trans (hmem pa), kws.trans hws, kcl.trans hcl, kq.trans hq, karc.trans harc,
    fun l la h => ?_, fun j st hj h => ?_⟩
  · obtain ⟨_, h⟩ := hla l la h
    obtain ⟨bays, h⟩ := kla l _ h
    exact ⟨bays, h⟩
  · obtain ⟨_, h⟩ := hst j st hj h
    obtain ⟨ps, h⟩ := kst j _ hj h
    exact ⟨ps, h⟩

/-- A write of the issuing stream. -/
theorem turnFrame_putStream (s : State) (id : Nat) (st : Stream) : TurnFrame s (s.putStream id st) id :=
  ⟨fun _ => rfl, rfl, rfl, rfl, rfl, fun _ la h => ⟨la.bays, h⟩,
    fun _ st hk h => ⟨st.vis.splits, (stream?_putStream_ne _ _ hk).trans h⟩⟩

theorem TurnLeaves.refl (id : Nat) (s : State) : TurnLeaves id s s :=
  ⟨turnFrame_refl s id, fun st h => ⟨st.vis.splits, st.vis.cur, h⟩⟩

theorem TurnLeaves.trans (h : TurnLeaves id s t) (k : TurnLeaves id t u) : TurnLeaves id s u := by
  refine ⟨turnFrame_trans h.1 k.1, fun st hs => ?_⟩
  obtain ⟨_, _, ht⟩ := h.2 st hs
  obtain ⟨ps, cur, hu⟩ := k.2 _ ht
  exact ⟨ps, cur, hu⟩

theorem TurnLeaves.foldl {α : Type} {f : State → α → State} (h : ∀ s x, TurnLeaves id s (f s x)) (xs : List α)
    (s : State) : TurnLeaves id s (xs.foldl f s) := by
  induction xs generalizing s with
  | nil => exact TurnLeaves.refl id s
  | cons x xs ih => exact (h s x).trans (ih _)

/-! Each part of the end of a turn. -/

/-- The issuing stream passes to other splits (R28, R30). -/
theorem turnLeaves_putStream_self {st : Stream} (ps : List Split) (cur : Nat) (h : s.stream? id = some st) :
    TurnLeaves id s (s.putStream id (withSplits st ps cur)) := by
  refine ⟨turnFrame_putStream .., fun st' h' => ⟨ps, cur, ?_⟩⟩
  rw [h] at h'; cases h'
  exact stream?_putStream_same ..

/-- The issuing stream takes the splits and the current split that the end of a turn leaves it (R28, R30). -/
theorem turnLeaves_onStream_self (s : State) (id : Nat) (ps : List Split) (cur : Nat → Nat) :
    TurnLeaves id s (s.onStream id fun st => withSplits st ps (cur st.vis.cur)) := by
  unfold State.onStream
  split
  case h_1 st hst => exact turnLeaves_putStream_self ps (cur st.vis.cur) hst
  case h_2 => exact TurnLeaves.refl id s

/-- Operations change owner (R88). -/
theorem turnLeaves_moveOps (s : State) (id sid a b : Nat) : TurnLeaves id s (s.moveOps sid a b) := TurnLeaves.refl id s

/-- A bay is replaced (R36). -/
theorem turnLeaves_putBay (s : State) (id l c : Nat) (b : Bay) : TurnLeaves id s (s.putBay l c b) := by
  unfold State.putBay
  split
  case h_2 => exact TurnLeaves.refl id s
  case h_1 la hla =>
    refine ⟨⟨fun _ => rfl, rfl, rfl, rfl, rfl, fun l' la' h => ?_, fun _ st _ h => ⟨st.vis.splits, h⟩⟩,
      fun st h => ⟨st.vis.splits, st.vis.cur, h⟩⟩
    by_cases hl : l' = l
    · subst hl
      rw [hla] at h; cases h
      exact ⟨_, launch?_putLaunch_same ..⟩
    · exact ⟨la'.bays, (launch?_putLaunch_ne _ _ hl).trans h⟩

/-- The splits of a stream, the issuing one or another, go on after a barrier or an epoch (R35, R227). -/
theorem turnLeaves_settleStream (s : State) (id k : Nat) : TurnLeaves id s (s.settleStream k) := by
  unfold State.settleStream State.onStream
  split
  case h_2 => exact TurnLeaves.refl id s
  case h_1 st hst =>
    by_cases hk : k = id
    · subst hk
      exact turnLeaves_putStream_self _ st.vis.cur hst
    · refine ⟨⟨fun _ => rfl, rfl, rfl, rfl, rfl, fun _ la h => ⟨la.bays, h⟩, fun j stj _ h => ?_⟩,
        fun sti h => ⟨sti.vis.splits, sti.vis.cur, (stream?_putStream_ne _ _ (Ne.symm hk)).trans h⟩⟩
      by_cases hj : j = k
      · subst hj
        rw [hst] at h; cases h
        exact ⟨_, stream?_putStream_same ..⟩
      · exact ⟨stj.vis.splits, (stream?_putStream_ne _ _ hj).trans h⟩

/-- The barriers of the issuing stream's cluster after a merge (R36). -/
theorem turnLeaves_recheckBarriers (s : State) (id sid : Nat) : TurnLeaves id s (s.recheckBarriers sid) := by
  unfold State.recheckBarriers
  split
  · exact TurnLeaves.refl id s
  · split
    · exact TurnLeaves.refl id s
    · exact (turnLeaves_putBay ..).trans (TurnLeaves.foldl (turnLeaves_settleStream · id) _ _)

/-- The end of a turn (R28, R30, R36). -/
theorem turnLeaves_endTurn (s : State) (id : Nat) : TurnLeaves id s (s.endTurn id) := by
  unfold State.endTurn
  split
  · exact TurnLeaves.refl id s
  · have hpass (ps : List Split) (moves : List (Nat × Nat)) := (TurnLeaves.foldl
      (fun s (m : Nat × Nat) => turnLeaves_moveOps s id id m.1 m.2) moves s).trans
        (turnLeaves_onStream_self _ id ps (nextReady ps))
    dsimp only
    split
    · exact hpass _ _
    · exact (hpass _ _).trans (turnLeaves_recheckBarriers ..)

end

/-! The completion of an instruction. -/

/-- A split that completes an instruction (R29, R86, R164). -/
theorem advance_eq (p : Split) : p.advance = { p with
    pc := p.pc + 4, dii := p.dii + 1, left := p.left - 1, hold := none, retry := none, retryOp := none,
    trap := p.trap.map fun t => { t with count := t.count + 1 },
    kept := if p.inTrap then p.kept else none, serial := if p.inTrap then p.serial else none,
    recs := if p.inTrap then p.recs else [] } := by
  unfold Split.advance
  split <;> rfl

/-- The state once the split has moved on to the next word, before its turn may end. -/
def nextWord (cx : Cx) : State := cx.s.putStream cx.id (cx.st.putSplit cx.sp.advance)

/-- Nothing has asked for more than a plain completion: the split goes on at the next word, counts it, is kept, and takes
no checkpoint. -/
structure PlainCompletion (cx : Cx) : Prop where
  next : cx.next = cx.sp.pc + 4
  endTurn : cx.endTurn = false
  count : cx.count = true
  left : cx.left = none
  keep : cx.keep = true
  ckpt : cx.ckpt = false
  later : cx.later = false

/-- A plain completion: the split moves on, and the turn ends with the clause's last word. -/
theorem finish_of_plain {cx : Cx} (h : PlainCompletion cx) :
    cx.finish = if cx.sp.left - 1 = 0 then (nextWord cx).endTurn cx.id else nextWord cx := by
  obtain ⟨hnext, hend, hcount, hleft, hkeep, hckpt, hlater⟩ := h
  simp [Cx.finish, Cx.flush, nextWord, advance_eq, hnext, hend, hcount, hleft, hkeep, hckpt, hlater]

/-- Within the clause a plain completion moves the split on and nothing more. -/
theorem finish_within_clause {cx : Cx} (h : PlainCompletion cx) (hleft : 1 < cx.sp.left) : cx.finish = nextWord cx := by
  rw [finish_of_plain h, if_neg (by omega)]

/-- The next word changes the splits of the issuing stream alone. -/
theorem turnLeaves_nextWord {cx : Cx} (hst : cx.s.stream? cx.id = some cx.st) : TurnLeaves cx.id cx.s (nextWord cx) :=
  turnLeaves_putStream_self (putSplit cx.st.vis.splits cx.sp.advance) cx.st.vis.cur hst

/-- A plain completion changes no more than the end of a turn does, the clause's last word or not. -/
theorem turnLeaves_finish {cx : Cx} (h : PlainCompletion cx) (hst : cx.s.stream? cx.id = some cx.st) :
    TurnLeaves cx.id cx.s cx.finish := by
  rw [finish_of_plain h]
  split
  · exact (turnLeaves_nextWord hst).trans (turnLeaves_endTurn ..)
  · exact turnLeaves_nextWord hst

/-! NOP. -/

/-- The context of an issue asks for a plain completion. -/
theorem issues_plain {s : State} {d : Desc} {cx : Cx} (h : Issues s d cx) : PlainCompletion cx := by
  obtain ⟨c, hl, -, rfl, -⟩ := h
  unfold Cx.load at hl
  split at hl
  · cases hl
  · split at hl <;> cases hl
    exact ⟨rfl, rfl, rfl, rfl, rfl, rfl, rfl⟩

/-- The context of an issue is that of the issuing stream in the state. -/
theorem issues_stream {s : State} {d : Desc} {cx : Cx} (h : Issues s d cx) : s.stream? cx.id = some cx.st ∧ cx.s = s := by
  obtain ⟨c, hl, -, rfl, -⟩ := h
  obtain ⟨hst, hs⟩ := load_stream hl
  exact ⟨hst, hs⟩

/-- NOP completes and does nothing else (R344). -/
theorem exec_nop {s : State} {cx : Cx} (h : Issues s (Desc.split []) cx) : exec .nop s = .next cx.finish :=
  issue_done h rfl

/-- An instruction of both sides with no operand is legal wherever the clause has words left (R86, R100). -/
theorem clear_split_nil (cx : Cx) : Clear cx (Desc.split []) ↔ cx.sp.left ≠ 0 := by
  have hill : cx.illegal (Desc.split []) = (cx.sp.left == 0) := by simp [Cx.illegal, Desc.split, Desc.lane]
  rw [Clear, hill]
  simp [Desc.split, Desc.lane]

/-- Settles O30: the effect of NOP is nothing, so what it changes is what a plain completion changes, `finish_within_clause`
within the clause and `turnLeaves_finish` at its end. -/
theorem nopOnlyCounts : Obligations.NopOnlyCounts := by
  refine ⟨rfl, RoundTrip.nop rfl, fun s cx h => ⟨exec_nop h, fun hleft => ?_, fun t ht => ?_⟩, clear_split_nil⟩
  · rw [exec_nop h, finish_within_clause (issues_plain h) hleft, nextWord, advance_eq, (issues_stream h).2]
  · obtain ⟨hst, hs⟩ := issues_stream h
    have hleaves := turnLeaves_finish (issues_plain h) (hs ▸ hst)
    rw [exec_nop h] at ht
    cases ht
    rw [hs] at hleaves
    obtain ⟨ps, cur, hown⟩ := hleaves.2 _ hst
    exact ⟨hleaves.1, _, hown, rfl, rfl, rfl, rfl, rfl, rfl, rfl, rfl⟩

end Sys2Proof.Proofs
end
